-- ==== Sys2Proof/Word.lean ====
section
/-! DEFINITION. The machine words of the block: a byte of packet memory, flash or a buffer, a 16-bit USB register or
halfword, a 32-bit flash register or address (00_scope.md R7, row "widths"; R10). -/

namespace Sys2Proof

/-- One byte, the unit of PMA, FLASH, the RAM buffers and the wire (20_memory.md R70). -/
abbrev Byte := BitVec 8

/-- A 16-bit value: a USB core register, `page_index`, `page_offset`, lengths, a flash halfword. -/
abbrev Half := BitVec 16

/-- A 32-bit value: a flash controller register or a flash address. -/
abbrev Word := BitVec 32

/-- The eight bytes of one packet: a DATA8, a SETUP8, or a software receive buffer (30_encoding.md R100). -/
structure Packet8 where
  b0 : Byte
  b1 : Byte
  b2 : Byte
  b3 : Byte
  b4 : Byte
  b5 : Byte
  b6 : Byte
  b7 : Byte
deriving DecidableEq, Repr

/-- The packet of eight zero bytes. -/
def Packet8.zero : Packet8 := ⟨0, 0, 0, 0, 0, 0, 0, 0⟩

/-- The bytes in wire order, the first on the wire first (30_encoding.md R100). -/
def Packet8.toList (p : Packet8) : List Byte := [p.b0, p.b1, p.b2, p.b3, p.b4, p.b5, p.b6, p.b7]

end Sys2Proof
end

