-- ==== Sys2Proof/Config.lean ====
section
/-! DEFINITION. What an implementation fixes: the constants of 00_scope.md R7, the OPEN parameters of the same rule as
a record the state carries, and the free values: constants with no body that stand for bytes the spec leaves
unspecified (93_implementation_defined.md U1, U6). -/

namespace Sys2Proof.Config

/-- PAGE_SIZE, bytes of a flash page and of the Flash Page Buffer (00_scope.md R7). -/
def pageSize : Nat := 1024

/-- CMD_SIZE, bytes of a command frame (00_scope.md R7). -/
def cmdSize : Nat := 64

/-- MAX_PACKET, the packet size of both endpoints (00_scope.md R7). -/
def maxPacket : Nat := 8

/-- PMA_SIZE, bytes of packet memory (00_scope.md R7). -/
def pmaSize : Nat := 512

/-- Bytes of the whole buffer descriptor table: eight for each of the N_EP = 2 endpoints (10_state.md R31). -/
def bdtSize : Nat := 16

/-- SIG, the seven bytes of the literal signature (00_scope.md R7, D8). -/
def sig : List Byte := [0x42, 0x54, 0x4C, 0x44, 0x43, 0x4D, 0x44]

/-- OP_RESET_PAGES (00_scope.md R7). -/
def opResetPages : Byte := 0x00

/-- OP_REBOOT (00_scope.md R7). -/
def opReboot : Byte := 0x01

/-- OP_ACK (00_scope.md R7). -/
def opAck : Byte := 0x02

/-- ACK_FRAME = SIG ++ [OP_ACK], eight bytes (10_state.md R51, 30_encoding.md R104, conflict C2). -/
def ackFrame : List Byte := sig ++ [opAck]

/-- VID, the vendor ID in the descriptors (00_scope.md R2, R7). -/
def vid : Half := 0x1209

/-- PID, the product ID in the descriptors (00_scope.md R2, R7). -/
def pid : Half := 0xBEBA

/-- MAGIC, the sentinel of the Magic Word (00_scope.md R7). -/
def magic : Half := 0x424C

/-- SP_MASK of the stack-pointer validation (00_scope.md R7). -/
def spMask : Word := 0x2FFE0000

/-- KEY1 of the flash unlock sequence (10_state.md R42). -/
def key1 : Word := 0x45670123

/-- KEY2 of the flash unlock sequence (10_state.md R42). -/
def key2 : Word := 0xCDEF89AB

/-- What a byte of the flash array reads as when the memory lists nothing for it: the erased value FF.
DESIGN CHOICE (log 7), unsafe: the contents at the first power-on are a launch parameter (10_state.md R45). -/
def flashUnlisted : Byte := 0xFF

/-- FREE VALUE (log 9): the byte of `page_buf` at an offset nothing has written since the hardware reset numbered by
the first argument (10_state.md R37, U1: any value). -/
opaque pageBufUnwritten : Nat → Nat → Byte

/-- FREE VALUE (log 10): the byte a flash address holds after the hardware reset numbered by the first argument
interrupted the erase or the program operation that covered it (10_state.md R50, U6: any value). -/
opaque flashInterrupted : Nat → Nat → Byte

end Sys2Proof.Config

namespace Sys2Proof

/-- The OPEN parameters (00_scope.md R7, U16). They never change in a run; the state carries them so that a statement
over every state holds for every choice of them (log 11). USB_BASE and FLASH_REG_BASE are used for nothing but
naming (D12, D42). -/
structure Params where
  flashBase : Word
  firstPage : Half
  flashPages : Half
  sramBase : Word
  usbBase : Word
  flashRegBase : Word
  deviceDesc : List Byte
  configDesc : List Byte
  reportDesc : List Byte
  stringDescs : List (List Byte)
deriving DecidableEq, Repr

/-- The spec's default values of the OPEN parameters (00_scope.md R7, 44_usb_control_requests.md R249). -/
def Params.default : Params where
  flashBase := 0x08000000
  firstPage := 2
  flashPages := 64
  sramBase := 0x20000000
  usbBase := 0x40005C00
  flashRegBase := 0x40022000
  deviceDesc := [0x12, 0x01, 0x10, 0x01, 0x00, 0x00, 0x00, 0x08, 0x09, 0x12, 0xBA, 0xBE, 0x00, 0x03, 0x01, 0x02,
    0x00, 0x01]
  configDesc := [0x09, 0x02, 0x22, 0x00, 0x01, 0x01, 0x00, 0xC0, 0x32] ++
    [0x09, 0x04, 0x00, 0x00, 0x01, 0x03, 0x00, 0x00, 0x00] ++
    [0x09, 0x21, 0x10, 0x01, 0x00, 0x01, 0x22, 0x22, 0x00] ++
    [0x07, 0x05, 0x81, 0x03, 0x08, 0x00, 0x05]
  reportDesc := [0x06, 0x00, 0xFF, 0x09, 0x01, 0xA1, 0x01] ++
    [0x09, 0x02, 0x15, 0x00, 0x26, 0xFF, 0x00, 0x75, 0x08, 0x95, 0x08, 0x81, 0x02] ++
    [0x09, 0x03, 0x15, 0x00, 0x26, 0xFF, 0x00, 0x75, 0x08, 0x95, 0x40, 0x91, 0x02, 0xC0]
  stringDescs := [[0x04, 0x03, 0x09, 0x04],
    [0x0C, 0x03, 0x48, 0x00, 0x49, 0x00, 0x44, 0x00, 0x42, 0x00, 0x4C, 0x00],
    [0x0A, 0x03, 0x42, 0x00, 0x4F, 0x00, 0x4F, 0x00, 0x54, 0x00]]

/-- The constraints on the flash parameters (00_scope.md R7, 20_memory.md R71): FLASH_BASE is a multiple of PAGE_SIZE,
FIRST_PAGE < FLASH_PAGES, and the array ends at or below 2^32. -/
abbrev Params.flashOk (p : Params) : Prop :=
  p.flashBase.toNat % Config.pageSize = 0 ∧ p.firstPage.toNat < p.flashPages.toNat ∧
    p.flashBase.toNat + p.flashPages.toNat * Config.pageSize ≤ 2 ^ 32

/-- The descriptors a configuration descriptor strings together, each as long as its first byte says (the places of
44_usb_control_requests.md R249, log 34). The first argument bounds their number. -/
def splitDescriptors : Nat → List Byte → List (List Byte)
  | 0, _ => []
  | _ + 1, [] => []
  | n + 1, b :: bs =>
    if b.toNat = 0 then [] else (b :: bs).take b.toNat :: splitDescriptors n ((b :: bs).drop b.toNat)

/-- An interface of the HID class: descriptor type 04, class 03 (44_usb_control_requests.md R249, log 34). -/
def isHidInterface (d : List Byte) : Bool := d[1]? == some 0x04 && d[5]? == some 0x03

/-- An endpoint: descriptor type 05 (44_usb_control_requests.md R249, log 34). -/
def isEndpoint (d : List Byte) : Bool := d[1]? == some 0x05

/-- The interrupt IN endpoint of address 1 with packets of MAX_PACKET bytes (00_scope.md R2, R7; log 34). -/
def isInterruptIn (d : List Byte) : Bool :=
  (d.drop 2).take 4 == [0x81, 0x03, BitVec.ofNat 8 Config.maxPacket, 0x00]

/-- Bytes 7 to 11 of the device descriptor: the packet size of endpoint 0, VID and PID, the low byte first
(00_scope.md R2, R7, 44_usb_control_requests.md R249; log 34). -/
def deviceIdentity : List Byte :=
  [BitVec.ofNat 8 Config.maxPacket, Config.vid.extractLsb' 0 8, Config.vid.extractLsb' 8 8,
    Config.pid.extractLsb' 0 8, Config.pid.extractLsb' 8 8]

/-- The descriptors carry VID, PID, the HID class, the one interrupt IN endpoint of address 1 and packets of 8 bytes
(00_scope.md R2, R7; log 34). -/
def Params.carriesIdentity (p : Params) : Bool :=
  (p.deviceDesc.drop 7).take 5 == deviceIdentity &&
    (splitDescriptors p.configDesc.length p.configDesc).any isHidInterface &&
    match (splitDescriptors p.configDesc.length p.configDesc).filter isEndpoint with
    | [d] => isInterruptIn d
    | _ => false

/-- All the constraints the source puts on the parameters (00_scope.md R7, last lines). No rule of the block depends on the
contents of the descriptors (44_usb_control_requests.md R249), so the invariant asks for `flashOk` alone. -/
abbrev Params.ok (p : Params) : Prop := p.flashOk ∧ p.carriesIdentity = true

end Sys2Proof
end

