-- ==== Sys2Proof/Syntax.lean ====
section
/-! DEFINITION. The operations of the block, one constructor per row of opcode_table.json (00_scope.md R8,
30_encoding.md R118), with every field an encoding admits as an operand. Constructors and parameters are checked in
WellFormed.lean. -/

namespace Sys2Proof

/-- How the bits of an operation reach the block: the formats of 30_encoding.md R100 that have rows in the table. -/
inductive Format where
  | cmd64 | ack8 | data8 | setup8 | evt | reg16 | reg32 | bdt | fop | op
deriving DecidableEq, Repr

/-- The logical endpoints, N_EP = 2 (00_scope.md R7, D2). -/
inductive Ep where
  | ep0 | ep1
deriving DecidableEq, Repr

/-- The two register windows (30_encoding.md R110). -/
inductive Window where
  | usbReg | flashReg
deriving DecidableEq, Repr

/-- The width of a register access or of a write to the flash array (20_memory.md R75, R77). -/
inductive Width where
  | w8 | w16 | w32
deriving DecidableEq, Repr

/-- An access to a register or table word of `n` bits: a read, or a write of a value (30_encoding.md R110). -/
inductive Access (n : Nat) where
  | read
  | write (v : BitVec n)
deriving DecidableEq, Repr

/-- Where `writePage` takes its data from: the caller's `page_buf`, read during the sequence, or a literal byte
sequence handed over by a direct call (46_flash_page_programmer.md R291 (c); log 27). -/
inductive PageSource where
  | pageBuf
  | literal (data : List Byte)
deriving DecidableEq, Repr

/-- One operation. -/
inductive Instr where
  -- CMD64, ACK8, DATA8
  | cmdResetPages
  | cmdReboot
  | cmdIgnored (opcode : Byte)
  | ackPage
  | dataAppend (d : Packet8)
  -- SETUP8: `rt` is bmRequestType, `ix` the low byte of wValue
  | setupGetDescriptorDevice (rt ix : Byte) (wIndex wLength : Half)
  | setupGetDescriptorConfiguration (rt ix : Byte) (wIndex wLength : Half)
  | setupGetDescriptorReport (rt ix : Byte) (wIndex wLength : Half)
  | setupGetDescriptorString (rt ix : Byte) (wIndex wLength : Half)
  | setupSetAddress (rt : Byte) (wValue wIndex wLength : Half)
  | setupSetConfiguration (rt : Byte) (wValue wIndex wLength : Half)
  | setupOther (p : Packet8)
  -- EVT: the status word
  | evtCtr (w : Half)
  | evtReset (w : Half)
  | evtSusp (w : Half)
  | evtWkup (w : Half)
  | evtNone (w : Half)
  -- REG16, REG32
  | regEp0r (acc : Access 16)
  | regEp1r (acc : Access 16)
  | regCntr (acc : Access 16)
  | regIstr (acc : Access 16)
  | regDaddr (acc : Access 16)
  | regBtable (acc : Access 16)
  | regFlashKeyr (acc : Access 32)
  | regFlashSr (acc : Access 32)
  | regFlashCr (acc : Access 32)
  | regFlashAr (acc : Access 32)
  -- BDT: word of the descriptor table entry of endpoint register `n`
  | bdtAddrTx (n : Ep) (acc : Access 16)
  | bdtCountTx (n : Ep) (acc : Access 16)
  | bdtAddrRx (n : Ep) (acc : Access 16)
  | bdtCountRx (n : Ep) (acc : Access 16)
  -- FOP
  | fopUnlock
  | fopErasePage (a : Word)
  | fopProgHalfword (width : Width) (a : Word) (h : Half)
  | fopLock
  -- OP: the USB host on the bus; `a` device address, `e` endpoint number, `d` packet bytes
  | hostReset
  | hostSuspend
  | hostWakeup
  | hostSetup (a e : Byte) (d : List Byte)
  | hostOut (a e : Byte) (d : List Byte)
  | hostIn (a e : Byte)
  -- OP: hardware resets
  | hwReset
  | hwPowerloss
  -- OP: the USB driver and the flash unit
  | drvInitialize
  | drvShutdown
  | drvSenddata (e : Byte) (data : List Byte) (length : Half)
  | flashWritepage (a : Word) (data : PageSource) (size : Half)
  | flashcComplete
  | regRead (win : Window) (width : Width) (offset : Half)
  | regWrite (win : Window) (width : Width) (offset : Half) (value : Word)
  -- OP: the packet dispatcher
  | dispEnter
  | dispRead
  | dispCtr
  | dispReset
  | dispSusp
  | dispWkup
  -- OP: the endpoint buffer manager and unit H
  | epService (e : BitVec 4)
  | epTxchunk (e : Ep)
  | epConfigure
  | hidAppend (rx : Packet8)
  | hidBusreset
  -- OP: the boot controller
  | bootEvaluate
  | bootUpdatemode
  | bootLaunch
  | bootSysreset
deriving DecidableEq, Repr

end Sys2Proof
end

