-- ==== Sys2Proof/Machine/Bits.lean ====
section
/-! DEFINITION. Bit fields and byte order, shared by the decoder and the machine: everything is little-endian and
unsigned (00_scope.md R10, 20_memory.md R74). -/

namespace Sys2Proof.Machine

/-- `le16(b0, b1) = b0 + 256*b1` (00_scope.md R10). -/
def le16 (b0 b1 : Byte) : Half := b1 ++ b0

/-- `le32(b0, b1, b2, b3)` (00_scope.md R10). -/
def le32 (b0 b1 b2 b3 : Byte) : Word := (b3 ++ b2) ++ (b1 ++ b0)

/-- Byte `v[7:0]` of a halfword: the one at the lower address (20_memory.md R74). -/
def loByte (v : Half) : Byte := v.extractLsb' 0 8

/-- Byte `v[15:8]` of a halfword: the one at the higher address (20_memory.md R74). -/
def hiByte (v : Half) : Byte := v.extractLsb' 8 8

/-- The two bytes of a halfword in address order. -/
def halfBytes (v : Half) : List Byte := [loByte v, hiByte v]

/-- The four bytes of a word in address order. -/
def wordBytes (v : Word) : List Byte :=
  [v.extractLsb' 0 8, v.extractLsb' 8 8, v.extractLsb' 16 8, v.extractLsb' 24 8]

/-- `zext_32` of a halfword (00_scope.md R10). -/
def zext32 (v : Half) : Word := v.zeroExtend 32

/-- Bit `i` of a value as a Bool (00_scope.md R10). -/
def bit {n : Nat} (v : BitVec n) (i : Nat) : Bool := v.getLsbD i

/-- A field of `k` bits from bit `lo` up (00_scope.md R10, `v[hi:lo]`). -/
def field {n : Nat} (v : BitVec n) (lo k : Nat) : BitVec k := v.extractLsb' lo k

end Sys2Proof.Machine
end

