-- ==== Sys2Proof/WellFormed.lean ====
section
/-! DEFINITION. Which terms of Syntax.lean are operations an encoding can say: the row-selection conditions of
30_encoding.md R102, R106 and R118, and the lengths that fit their fields. What a rule REFUSES on its operands (a
SETUP that is not 8 bytes, a page that is not 1024 bytes, a wrong register width) is well-formed here and is refused by
the operation's meaning, under the rule's own name. -/

namespace Sys2Proof

open Sys2Proof.Machine

/-- Bits of a register access of a width (20_memory.md R75). -/
def Width.bits : Width → Nat
  | .w8 => 8
  | .w16 => 16
  | .w32 => 32

/-- `T = bmRequestType & 0x60` is standard (30_encoding.md R106). -/
def isStandard (rt : Byte) : Bool := rt &&& 0x60 == 0

/-- The descriptor types of rows 1 to 4 of 30_encoding.md R106. -/
def isDescriptorType (ty : Byte) : Bool := ty == 0x01 || ty == 0x02 || ty == 0x22 || ty == 0x03

/-- The packet matches one of rows 1 to 6 of 30_encoding.md R106. -/
def isKnownRequest (p : Packet8) : Bool :=
  isStandard p.b0 && ((p.b1 == 0x06 && isDescriptorType p.b3) || p.b1 == 0x05 || p.b1 == 0x09)

/-- The operation is one that an encoding of its row can say. -/
def Instr.wellFormed : Instr → Bool
  | .cmdResetPages => true
  | .cmdReboot => true
  | .cmdIgnored opcode => opcode != 0x00 && opcode != 0x01
  | .ackPage => true
  | .dataAppend _ => true
  | .setupGetDescriptorDevice rt _ _ _ => isStandard rt
  | .setupGetDescriptorConfiguration rt _ _ _ => isStandard rt
  | .setupGetDescriptorReport rt _ _ _ => isStandard rt
  | .setupGetDescriptorString rt _ _ _ => isStandard rt
  | .setupSetAddress rt _ _ _ => isStandard rt
  | .setupSetConfiguration rt _ _ _ => isStandard rt
  | .setupOther p => !isKnownRequest p
  | .evtCtr w => bit w 15
  | .evtReset w => !bit w 15 && bit w 10
  | .evtSusp w => !bit w 15 && !bit w 10 && bit w 11
  | .evtWkup w => !bit w 15 && !bit w 10 && !bit w 11 && bit w 12
  | .evtNone w => !bit w 15 && !bit w 10 && !bit w 11 && !bit w 12
  | .regEp0r _ => true
  | .regEp1r _ => true
  | .regCntr _ => true
  | .regIstr _ => true
  | .regDaddr _ => true
  | .regBtable _ => true
  | .regFlashKeyr _ => true
  | .regFlashSr _ => true
  | .regFlashCr _ => true
  | .regFlashAr _ => true
  | .bdtAddrTx _ _ => true
  | .bdtCountTx _ _ => true
  | .bdtAddrRx _ _ => true
  | .bdtCountRx _ _ => true
  | .fopUnlock => true
  | .fopErasePage _ => true
  | .fopProgHalfword _ _ _ => true
  | .fopLock => true
  | .hostReset => true
  | .hostSuspend => true
  | .hostWakeup => true
  | .hostSetup _ _ d => decide (d.length < 65536)
  | .hostOut _ _ d => decide (d.length < 65536)
  | .hostIn _ _ => true
  | .hwReset => true
  | .hwPowerloss => true
  | .drvInitialize => true
  | .drvShutdown => true
  | .drvSenddata _ data length => decide (data.length < 65536) && decide (length.toNat ≤ data.length)
  | .flashWritepage _ .pageBuf _ => true
  | .flashWritepage _ (.literal data) _ => decide (data.length < 65536)
  | .flashcComplete => true
  | .regRead _ _ _ => true
  | .regWrite _ width _ value => decide (value.toNat < 2 ^ width.bits)
  | .dispEnter => true
  | .dispRead => true
  | .dispCtr => true
  | .dispReset => true
  | .dispSusp => true
  | .dispWkup => true
  | .epService _ => true
  | .epTxchunk _ => true
  | .epConfigure => true
  | .hidAppend _ => true
  | .hidBusreset => true
  | .bootEvaluate => true
  | .bootUpdatemode => true
  | .bootLaunch => true
  | .bootSysreset => true

end Sys2Proof
end

