-- ==== Sys2Proof/Decode.lean ====
section
/-! DEFINITION. The decoder of the table's formats, total on any bytes and rejecting by name (30_encoding.md R100 to
R118), and after it the encoder. Rows of a format are tried in the table's order and the first that matches wins
(R118). The operand bytes that follow a selector, a register offset or a FLASH_CR pattern are given no layout by the
spec (D53): the model's layout is DESIGN CHOICE (log 2). -/

namespace Sys2Proof

open Sys2Proof.Machine

/-- Why bytes encode no operation of a format. Raised by `decode` only; a rejection is safe: nothing is executed. -/
inductive DecodeError where
  /-- Fewer bytes than the row's operands take. -/
  | tooShort
  /-- Bytes other than zero follow the operation. -/
  | trailingBytes
  /-- No row of the format matches (30_encoding.md R118). -/
  | noRow
  /-- The bytes are not the frame's fixed bytes (30_encoding.md R102, R104). -/
  | badFrame
  /-- An operand code (window, width, endpoint, access kind, data source) that names nothing. -/
  | badOperand
  /-- A register value wider than the access (20_memory.md R75). -/
  | valueTooWide
  /-- A `sendData` length beyond its data (42_usb_endpoint_buffer_manager.md R184). -/
  | lengthBeyondData
deriving DecidableEq, Repr

/-- Ends an operation: what follows it must be zeros (operand words of zeros). -/
def finishDecode (i : Instr) (rest : List Byte) : Except DecodeError Instr :=
  if rest.all (· == 0) then .ok i else .error .trailingBytes

/-- The first `n` bytes and the rest. -/
def takeBytes (n : Nat) (bs : List Byte) : Except DecodeError (List Byte × List Byte) :=
  if bs.length < n then .error .tooShort else .ok (bs.take n, bs.drop n)

/-- CMD64: signature, opcode, 56 zeros (30_encoding.md R102). -/
def decodeCmd64 (bs : List Byte) : Except DecodeError Instr :=
  if bs.length < Config.cmdSize then .error .tooShort
  else if bs.take 7 != Config.sig || !((bs.take Config.cmdSize).drop 8).all (· == 0) then .error .badFrame
  else
    let opcode := bs.getD 7 0
    finishDecode
      (if opcode == Config.opResetPages then .cmdResetPages
        else if opcode == Config.opReboot then .cmdReboot
        else .cmdIgnored opcode)
      (bs.drop Config.cmdSize)

/-- ACK8: signature and opcode 02 (30_encoding.md R104). -/
def decodeAck8 (bs : List Byte) : Except DecodeError Instr :=
  if bs.length < 8 then .error .tooShort
  else if bs.take 8 != Config.ackFrame then .error .badFrame
  else finishDecode .ackPage (bs.drop 8)

/-- DATA8: eight payload bytes, nothing fixed (30_encoding.md R101). -/
def decodeData8 : List Byte → Except DecodeError Instr
  | b0 :: b1 :: b2 :: b3 :: b4 :: b5 :: b6 :: b7 :: rest => finishDecode (.dataAppend ⟨b0, b1, b2, b3, b4, b5, b6, b7⟩) rest
  | _ => .error .tooShort

/-- The selection table of 30_encoding.md R106, on the eight bytes of a SETUP packet. -/
def selectSetup (p : Packet8) : Instr :=
  if isStandard p.b0 then
    if p.b1 == 0x06 then
      if p.b3 == 0x01 then .setupGetDescriptorDevice p.b0 p.b2 (le16 p.b4 p.b5) (le16 p.b6 p.b7)
      else if p.b3 == 0x02 then .setupGetDescriptorConfiguration p.b0 p.b2 (le16 p.b4 p.b5) (le16 p.b6 p.b7)
      else if p.b3 == 0x22 then .setupGetDescriptorReport p.b0 p.b2 (le16 p.b4 p.b5) (le16 p.b6 p.b7)
      else if p.b3 == 0x03 then .setupGetDescriptorString p.b0 p.b2 (le16 p.b4 p.b5) (le16 p.b6 p.b7)
      else .setupOther p
    else if p.b1 == 0x05 then .setupSetAddress p.b0 (le16 p.b2 p.b3) (le16 p.b4 p.b5) (le16 p.b6 p.b7)
    else if p.b1 == 0x09 then .setupSetConfiguration p.b0 (le16 p.b2 p.b3) (le16 p.b4 p.b5) (le16 p.b6 p.b7)
    else .setupOther p
  else .setupOther p

/-- SETUP8 (30_encoding.md R105, R106). -/
def decodeSetup8 : List Byte → Except DecodeError Instr
  | b0 :: b1 :: b2 :: b3 :: b4 :: b5 :: b6 :: b7 :: rest => finishDecode (selectSetup ⟨b0, b1, b2, b3, b4, b5, b6, b7⟩) rest
  | _ => .error .tooShort

/-- The EVT row a status word selects first: CTR, RESET, SUSP, WKUP, else NONE (30_encoding.md R109, R118). -/
def selectEvt (w : Half) : Instr :=
  if bit w 15 then .evtCtr w
  else if bit w 10 then .evtReset w
  else if bit w 11 then .evtSusp w
  else if bit w 12 then .evtWkup w
  else .evtNone w

/-- EVT: the 16-bit status word (30_encoding.md R109). -/
def decodeEvt : List Byte → Except DecodeError Instr
  | b0 :: b1 :: rest => finishDecode (selectEvt (le16 b0 b1)) rest
  | _ => .error .tooShort

/-- The access that follows a 16-bit register offset: 00 a read, 01 a write and its value (log 2). -/
def decodeAccess16 (mk : Access 16 → Instr) : List Byte → Except DecodeError Instr
  | 0 :: rest => finishDecode (mk .read) rest
  | 1 :: b0 :: b1 :: rest => finishDecode (mk (.write (le16 b0 b1))) rest
  | [] => .error .tooShort
  | [_] => .error .tooShort
  | _ => .error .badOperand

/-- The access that follows a 32-bit register offset: 00 a read, 01 a write and its value (log 2). -/
def decodeAccess32 (mk : Access 32 → Instr) : List Byte → Except DecodeError Instr
  | 0 :: rest => finishDecode (mk .read) rest
  | 1 :: b0 :: b1 :: b2 :: b3 :: rest => finishDecode (mk (.write (le32 b0 b1 b2 b3))) rest
  | [] => .error .tooShort
  | [_] => .error .tooShort
  | _ => .error .badOperand

/-- REG16: the byte offset of a USB core register (10_state.md R21, 30_encoding.md R118). -/
def decodeReg16 : List Byte → Except DecodeError Instr
  | [] => .error .tooShort
  | off :: rest =>
    match off.toNat with
    | 0x00 => decodeAccess16 .regEp0r rest
    | 0x04 => decodeAccess16 .regEp1r rest
    | 0x40 => decodeAccess16 .regCntr rest
    | 0x44 => decodeAccess16 .regIstr rest
    | 0x4C => decodeAccess16 .regDaddr rest
    | 0x50 => decodeAccess16 .regBtable rest
    | _ => .error .noRow

/-- REG32: the byte offset of a flash controller register (10_state.md R39, 30_encoding.md R118). -/
def decodeReg32 : List Byte → Except DecodeError Instr
  | [] => .error .tooShort
  | off :: rest =>
    match off.toNat with
    | 0x04 => decodeAccess32 .regFlashKeyr rest
    | 0x0C => decodeAccess32 .regFlashSr rest
    | 0x10 => decodeAccess32 .regFlashCr rest
    | 0x14 => decodeAccess32 .regFlashAr rest
    | _ => .error .noRow

/-- BDT: the byte offset of the word within the descriptor table; its low three bits are the row's offset within the
entry (mask 07, 30_encoding.md R118), the rest is the endpoint register's number (10_state.md R31). -/
def decodeBdt : List Byte → Except DecodeError Instr
  | [] => .error .tooShort
  | off :: rest =>
    match off.toNat with
    | 0x00 => decodeAccess16 (.bdtAddrTx .ep0) rest
    | 0x02 => decodeAccess16 (.bdtCountTx .ep0) rest
    | 0x04 => decodeAccess16 (.bdtAddrRx .ep0) rest
    | 0x06 => decodeAccess16 (.bdtCountRx .ep0) rest
    | 0x08 => decodeAccess16 (.bdtAddrTx .ep1) rest
    | 0x0A => decodeAccess16 (.bdtCountTx .ep1) rest
    | 0x0C => decodeAccess16 (.bdtAddrRx .ep1) rest
    | 0x0E => decodeAccess16 (.bdtCountRx .ep1) rest
    | _ => .error .noRow

/-- Code of an access width in an operand byte (log 2). -/
def Width.code : Width → Byte
  | .w16 => 0
  | .w32 => 1
  | .w8 => 2

/-- The access width an operand byte names. -/
def widthOf (b : Byte) : Option Width :=
  if b == 0 then some .w16 else if b == 1 then some .w32 else if b == 2 then some .w8 else none

/-- FOP: the FLASH_CR value at the moment the micro-operation takes effect, with mask C3 (30_encoding.md R111, R118),
then its operands. -/
def decodeFop : List Byte → Except DecodeError Instr
  | c :: _ :: _ :: _ :: rest =>
    match (c &&& 0xC3).toNat with
    | 0x00 => finishDecode .fopUnlock rest
    | 0x42 =>
      match rest with
      | a0 :: a1 :: a2 :: a3 :: rest => finishDecode (.fopErasePage (le32 a0 a1 a2 a3)) rest
      | _ => .error .tooShort
    | 0x01 =>
      match rest with
      | wc :: a0 :: a1 :: a2 :: a3 :: h0 :: h1 :: rest =>
        match widthOf wc with
        | some width => finishDecode (.fopProgHalfword width (le32 a0 a1 a2 a3) (le16 h0 h1)) rest
        | none => .error .badOperand
      | _ => .error .tooShort
    | 0x80 => finishDecode .fopLock rest
    | _ => .error .noRow
  | _ => .error .tooShort

/-- The window an operand byte names. -/
def windowOf (b : Byte) : Option Window :=
  if b == 0 then some .usbReg else if b == 1 then some .flashReg else none

/-- A length field that counts from `base`: the field holds `length - base` modulo 2^16, so a field of zero is the
one length the rule takes (8 bytes of a SETUP, 1024 of a page; log 2). -/
def biasedLength (base : Nat) (f : Half) : Nat := (f.toNat + base) % 65536

/-- The operands of HOST.SETUP: address, endpoint, length counted from 8, bytes. -/
def decodeHostSetup : List Byte → Except DecodeError Instr
  | a :: e :: l0 :: l1 :: rest => do
    let (d, rest) ← takeBytes (biasedLength 8 (le16 l0 l1)) rest
    finishDecode (.hostSetup a e d) rest
  | _ => .error .tooShort

/-- The operands of HOST.OUT: address, endpoint, length, bytes. -/
def decodeHostOut : List Byte → Except DecodeError Instr
  | a :: e :: l0 :: l1 :: rest => do
    let (d, rest) ← takeBytes (le16 l0 l1).toNat rest
    finishDecode (.hostOut a e d) rest
  | _ => .error .tooShort

/-- The operands of HOST.IN: address, endpoint. -/
def decodeHostIn : List Byte → Except DecodeError Instr
  | a :: e :: rest => finishDecode (.hostIn a e) rest
  | _ => .error .tooShort

/-- The operands of DRV.SENDDATA: endpoint, length to send, bytes of data, data. -/
def decodeSenddata : List Byte → Except DecodeError Instr
  | e :: l0 :: l1 :: n0 :: n1 :: rest => do
    let (d, rest) ← takeBytes (le16 n0 n1).toNat rest
    if (le16 l0 l1).toNat ≤ d.length then finishDecode (.drvSenddata e d (le16 l0 l1)) rest
    else .error .lengthBeyondData
  | _ => .error .tooShort

/-- The operands of FLASH.WRITEPAGE: data source (00 the page buffer, 01 literal), address, size counted from 1024,
and for literal data its length and bytes. -/
def decodeWritepage : List Byte → Except DecodeError Instr
  | 0 :: a0 :: a1 :: a2 :: a3 :: s0 :: s1 :: rest =>
    finishDecode (.flashWritepage (le32 a0 a1 a2 a3) .pageBuf (le16 s0 s1 + 1024)) rest
  | 1 :: a0 :: a1 :: a2 :: a3 :: s0 :: s1 :: n0 :: n1 :: rest => do
    let (d, rest) ← takeBytes (le16 n0 n1).toNat rest
    finishDecode (.flashWritepage (le32 a0 a1 a2 a3) (.literal d) (le16 s0 s1 + 1024)) rest
  | b :: _ => if b == 0 || b == 1 then .error .tooShort else .error .badOperand
  | [] => .error .tooShort

/-- The operands of REG.READ: window, width, offset. -/
def decodeRegRead : List Byte → Except DecodeError Instr
  | wi :: wc :: o0 :: o1 :: rest =>
    match windowOf wi, widthOf wc with
    | some win, some width => finishDecode (.regRead win width (le16 o0 o1)) rest
    | _, _ => .error .badOperand
  | _ => .error .tooShort

/-- The operands of REG.WRITE: window, width, offset, value. -/
def decodeRegWrite : List Byte → Except DecodeError Instr
  | wi :: wc :: o0 :: o1 :: v0 :: v1 :: v2 :: v3 :: rest =>
    match windowOf wi, widthOf wc with
    | some win, some width =>
      if (le32 v0 v1 v2 v3).toNat < 2 ^ width.bits then
        finishDecode (.regWrite win width (le16 o0 o1) (le32 v0 v1 v2 v3)) rest
      else .error .valueTooWide
    | _, _ => .error .badOperand
  | _ => .error .tooShort

/-- The operand of EP.SERVICE: an endpoint number of four bits (43_usb_packet_dispatcher.md R222, `snap[3:0]`). -/
def decodeService : List Byte → Except DecodeError Instr
  | e :: rest => if e.toNat < 16 then finishDecode (.epService (e.extractLsb' 0 4)) rest else .error .badOperand
  | [] => .error .tooShort

/-- The operand of EP.TXCHUNK: one of the two endpoints. -/
def decodeTxchunk : List Byte → Except DecodeError Instr
  | 0 :: rest => finishDecode (.epTxchunk .ep0) rest
  | 1 :: rest => finishDecode (.epTxchunk .ep1) rest
  | [] => .error .tooShort
  | _ => .error .badOperand

/-- The operand of HID.APPEND: the eight bytes of `rx` (45_hid_reassembly_commands.md R262). -/
def decodeAppend : List Byte → Except DecodeError Instr
  | b0 :: b1 :: b2 :: b3 :: b4 :: b5 :: b6 :: b7 :: rest => finishDecode (.hidAppend ⟨b0, b1, b2, b3, b4, b5, b6, b7⟩) rest
  | _ => .error .tooShort

/-- OP: the selector of 30_encoding.md R112, then the operands. -/
def decodeOp : List Byte → Except DecodeError Instr
  | [] => .error .tooShort
  | sel :: rest =>
    match sel.toNat with
    | 0x01 => finishDecode .hostReset rest
    | 0x02 => finishDecode .hostSuspend rest
    | 0x03 => finishDecode .hostWakeup rest
    | 0x04 => decodeHostSetup rest
    | 0x05 => decodeHostOut rest
    | 0x06 => decodeHostIn rest
    | 0x07 => finishDecode .hwReset rest
    | 0x08 => finishDecode .hwPowerloss rest
    | 0x10 => finishDecode .drvInitialize rest
    | 0x11 => finishDecode .drvShutdown rest
    | 0x12 => decodeSenddata rest
    | 0x13 => decodeWritepage rest
    | 0x14 => finishDecode .flashcComplete rest
    | 0x15 => decodeRegRead rest
    | 0x16 => decodeRegWrite rest
    | 0x20 => finishDecode .dispEnter rest
    | 0x21 => finishDecode .dispRead rest
    | 0x22 => finishDecode .dispCtr rest
    | 0x23 => finishDecode .dispReset rest
    | 0x24 => finishDecode .dispSusp rest
    | 0x25 => finishDecode .dispWkup rest
    | 0x30 => decodeService rest
    | 0x31 => decodeTxchunk rest
    | 0x32 => finishDecode .epConfigure rest
    | 0x40 => decodeAppend rest
    | 0x41 => finishDecode .hidBusreset rest
    | 0x50 => finishDecode .bootEvaluate rest
    | 0x51 => finishDecode .bootUpdatemode rest
    | 0x52 => finishDecode .bootLaunch rest
    | 0x53 => finishDecode .bootSysreset rest
    | _ => .error .noRow

/-- The operation the bytes encode in a format, or the reason they encode none. -/
def decode : Format → List Byte → Except DecodeError Instr
  | .cmd64, bs => decodeCmd64 bs
  | .ack8, bs => decodeAck8 bs
  | .data8, bs => decodeData8 bs
  | .setup8, bs => decodeSetup8 bs
  | .evt, bs => decodeEvt bs
  | .reg16, bs => decodeReg16 bs
  | .reg32, bs => decodeReg32 bs
  | .bdt, bs => decodeBdt bs
  | .fop, bs => decodeFop bs
  | .op, bs => decodeOp bs

/-! ### The encoder -/

/-- A command frame with an opcode (30_encoding.md R102). -/
def commandFrame (opcode : Byte) : List Byte := Config.sig ++ [opcode] ++ List.replicate 56 0

/-- A GET_DESCRIPTOR packet with a descriptor type (30_encoding.md R105, R106). -/
def encodeGetDescriptor (ty rt ix : Byte) (wIndex wLength : Half) : List Byte :=
  [rt, 0x06, ix, ty] ++ halfBytes wIndex ++ halfBytes wLength

/-- Any other standard request (30_encoding.md R105). -/
def encodeRequest (rq rt : Byte) (wValue wIndex wLength : Half) : List Byte :=
  [rt, rq] ++ halfBytes wValue ++ halfBytes wIndex ++ halfBytes wLength

/-- An access of 16 bits after its offset (log 2). -/
def encodeAccess16 : Access 16 → List Byte
  | .read => [0]
  | .write v => 1 :: halfBytes v

/-- An access of 32 bits after its offset (log 2). -/
def encodeAccess32 : Access 32 → List Byte
  | .read => [0]
  | .write v => 1 :: wordBytes v

/-- Offset of a descriptor-table word within the table (10_state.md R31). -/
def bdtOffset (n : Ep) (within : Byte) : Byte :=
  match n with
  | .ep0 => within
  | .ep1 => 8 + within

/-- Code of a register window in an operand byte (log 2). -/
def Window.code : Window → Byte
  | .usbReg => 0
  | .flashReg => 1

/-- Code of an endpoint in an operand byte (log 2). -/
def Ep.code : Ep → Byte
  | .ep0 => 0
  | .ep1 => 1

/-- The field of a length that counts from `base` (log 2). -/
def biasedField (base : Nat) (n : Nat) : Half := BitVec.ofNat 16 (n + (65536 - base))

/-- The format and the bytes of an operation. -/
def encode : Instr → Format × List Byte
  | .cmdResetPages => (.cmd64, commandFrame Config.opResetPages)
  | .cmdReboot => (.cmd64, commandFrame Config.opReboot)
  | .cmdIgnored opcode => (.cmd64, commandFrame opcode)
  | .ackPage => (.ack8, Config.ackFrame)
  | .dataAppend d => (.data8, d.toList)
  | .setupGetDescriptorDevice rt ix wi wl => (.setup8, encodeGetDescriptor 0x01 rt ix wi wl)
  | .setupGetDescriptorConfiguration rt ix wi wl => (.setup8, encodeGetDescriptor 0x02 rt ix wi wl)
  | .setupGetDescriptorReport rt ix wi wl => (.setup8, encodeGetDescriptor 0x22 rt ix wi wl)
  | .setupGetDescriptorString rt ix wi wl => (.setup8, encodeGetDescriptor 0x03 rt ix wi wl)
  | .setupSetAddress rt wv wi wl => (.setup8, encodeRequest 0x05 rt wv wi wl)
  | .setupSetConfiguration rt wv wi wl => (.setup8, encodeRequest 0x09 rt wv wi wl)
  | .setupOther p => (.setup8, p.toList)
  | .evtCtr w => (.evt, halfBytes w)
  | .evtReset w => (.evt, halfBytes w)
  | .evtSusp w => (.evt, halfBytes w)
  | .evtWkup w => (.evt, halfBytes w)
  | .evtNone w => (.evt, halfBytes w)
  | .regEp0r acc => (.reg16, 0x00 :: encodeAccess16 acc)
  | .regEp1r acc => (.reg16, 0x04 :: encodeAccess16 acc)
  | .regCntr acc => (.reg16, 0x40 :: encodeAccess16 acc)
  | .regIstr acc => (.reg16, 0x44 :: encodeAccess16 acc)
  | .regDaddr acc => (.reg16, 0x4C :: encodeAccess16 acc)
  | .regBtable acc => (.reg16, 0x50 :: encodeAccess16 acc)
  | .regFlashKeyr acc => (.reg32, 0x04 :: encodeAccess32 acc)
  | .regFlashSr acc => (.reg32, 0x0C :: encodeAccess32 acc)
  | .regFlashCr acc => (.reg32, 0x10 :: encodeAccess32 acc)
  | .regFlashAr acc => (.reg32, 0x14 :: encodeAccess32 acc)
  | .bdtAddrTx n acc => (.bdt, bdtOffset n 0x00 :: encodeAccess16 acc)
  | .bdtCountTx n acc => (.bdt, bdtOffset n 0x02 :: encodeAccess16 acc)
  | .bdtAddrRx n acc => (.bdt, bdtOffset n 0x04 :: encodeAccess16 acc)
  | .bdtCountRx n acc => (.bdt, bdtOffset n 0x06 :: encodeAccess16 acc)
  | .fopUnlock => (.fop, [0x00, 0, 0, 0])
  | .fopErasePage a => (.fop, [0x42, 0, 0, 0] ++ wordBytes a)
  | .fopProgHalfword width a h => (.fop, [0x01, 0, 0, 0, width.code] ++ wordBytes a ++ halfBytes h)
  | .fopLock => (.fop, [0x80, 0, 0, 0])
  | .hostReset => (.op, [0x01])
  | .hostSuspend => (.op, [0x02])
  | .hostWakeup => (.op, [0x03])
  | .hostSetup a e d => (.op, [0x04, a, e] ++ halfBytes (biasedField 8 d.length) ++ d)
  | .hostOut a e d => (.op, [0x05, a, e] ++ halfBytes (BitVec.ofNat 16 d.length) ++ d)
  | .hostIn a e => (.op, [0x06, a, e])
  | .hwReset => (.op, [0x07])
  | .hwPowerloss => (.op, [0x08])
  | .drvInitialize => (.op, [0x10])
  | .drvShutdown => (.op, [0x11])
  | .drvSenddata e data length =>
    (.op, [0x12, e] ++ halfBytes length ++ halfBytes (BitVec.ofNat 16 data.length) ++ data)
  | .flashWritepage a .pageBuf size => (.op, [0x13, 0] ++ wordBytes a ++ halfBytes (size - 1024))
  | .flashWritepage a (.literal data) size =>
    (.op, [0x13, 1] ++ wordBytes a ++ halfBytes (size - 1024) ++ halfBytes (BitVec.ofNat 16 data.length) ++ data)
  | .flashcComplete => (.op, [0x14])
  | .regRead win width offset => (.op, [0x15, win.code, width.code] ++ halfBytes offset)
  | .regWrite win width offset value => (.op, [0x16, win.code, width.code] ++ halfBytes offset ++ wordBytes value)
  | .dispEnter => (.op, [0x20])
  | .dispRead => (.op, [0x21])
  | .dispCtr => (.op, [0x22])
  | .dispReset => (.op, [0x23])
  | .dispSusp => (.op, [0x24])
  | .dispWkup => (.op, [0x25])
  | .epService e => (.op, [0x30, e.zeroExtend 8])
  | .epTxchunk e => (.op, [0x31, e.code])
  | .epConfigure => (.op, [0x32])
  | .hidAppend rx => (.op, 0x40 :: rx.toList)
  | .hidBusreset => (.op, [0x41])
  | .bootEvaluate => (.op, [0x50])
  | .bootUpdatemode => (.op, [0x51])
  | .bootLaunch => (.op, [0x52])
  | .bootSysreset => (.op, [0x53])

/-! ### Words of the opcode table -/

/-- The first `n` bytes of a table word, the least significant first. -/
def tableBytes : Nat → Nat → List Byte
  | 0, _ => []
  | n + 1, w => BitVec.ofNat 8 w :: tableBytes n (w / 256)

/-- The table word's bytes followed by zeros, up to the longest operation that a zero operand can make. -/
def tableWordBytes (nbits w : Nat) : List Byte := tableBytes ((nbits + 7) / 8) w ++ List.replicate 64 0

/-- The formats a table word of this length can belong to. A table word carries no format, so where several fit the
rows with more fixed bits are tried first (DESIGN CHOICE, log 3). -/
def tableFormats (nbits : Nat) : List Format :=
  if nbits ≤ 8 then [.op, .reg16, .reg32, .bdt]
  else if nbits ≤ 16 then [.evt]
  else if nbits ≤ 24 then [.reg16]
  else if nbits ≤ 32 then [.fop]
  else if nbits ≤ 40 then [.reg32]
  else if nbits ≤ 64 then [.ack8, .setup8, .data8]
  else [.cmd64]

/-- Whether a decoded operation may stand for a table word: the SETUP8 row that fixes no bit gives way to DATA8. -/
def standsForTableWord : Instr → Bool
  | .setupOther _ => false
  | _ => true

/-- The first format of a list in which the bytes decode. -/
def firstFormat (bs : List Byte) : List Format → Option (Format × Instr)
  | [] => none
  | f :: fs =>
    match decode f bs with
    | .ok i => if standsForTableWord i then some (f, i) else firstFormat bs fs
    | .error _ => firstFormat bs fs

/-- The format and the operation of a table word. -/
def decodeTableFormat (nbits w : Nat) : Option (Format × Instr) := firstFormat (tableWordBytes nbits w) (tableFormats nbits)

/-- The operation the decoder reads from a table word (the host's interface). -/
def decodeTableWord (nbits w : Nat) : Option Instr := (decodeTableFormat nbits w).map (·.2)

end Sys2Proof
end

