-- ==== Sys2Proof/Machine/State.lean ====
section
/-! DEFINITION. The state of the block (10_state.md R20 to R50), in the groups of R20, the reasons a step can stop, and
the state right after a hardware reset. Registers are held as their fields, as the opening of 10_state.md allows; the word
layout is a layer over them (Machine/Flags.lean). -/

namespace Sys2Proof.Machine

/-- Sparse bytes by address, in one canonical form (`Memory.wf`). -/
abbrev Memory := List Host.Cell

/-- The canonical form: addresses strictly rising, no entry equal to what an unlisted address reads as
(`unlisted = none`: an unlisted address has no value). -/
def Memory.wf (unlisted : Option Byte) : Memory → Bool
  | [] => true
  | c :: m => m.all (fun x => decide (c.1 < x.1)) && decide (unlisted ≠ some c.2) && Memory.wf unlisted m

/-- The space or buffer a fault names (20_memory.md R70). -/
inductive Space where
  | pma | rxBuf | pageBuf
deriving DecidableEq, Repr

/-- The model-level faults (60_exceptions.md R322). A meaning RECORDS a fault in `State.faults`; a step from a state
with a recorded fault stops with it (log 6). All are safe: the model claims nothing after them. -/
inductive Fault where
  /-- A PMA byte nothing has written was read (42_usb_endpoint_buffer_manager.md R180). -/
  | unwrittenRead (space : Space) (offset : Nat)
  /-- A packet memory access outside offsets 0 to 511 (42_usb_endpoint_buffer_manager.md R180 with D18 and U7; log 38).
  Raised by `pmaRead`, `pmaWriteBytes` and `bdtAddr`. -/
  | pmaRange
  /-- A commit, erase, program or read beyond the flash array; `x` is the page index of a commit, else the address
  (45_hid_reassembly_commands.md R266, 46_flash_page_programmer.md R294, R296). -/
  | flashRange (x : Nat)
  /-- A halfword that is not FF FF was programmed (46_flash_page_programmer.md R296, R297). -/
  | programNotErased (a : Nat)
  /-- An index outside `rx_buf` or `page_buf`, which the block's own rules never reach (the model's own, log 20). -/
  | bufferRange (space : Space) (index : Nat)
deriving DecidableEq, Repr

/-- Operations the spec gives no meaning (60_exceptions.md R322). All are safe: nothing is executed. -/
inductive Refusal where
  /-- Raised by an arm of `exec` whose operation has no meaning yet. -/
  | notModelled (mnemonic : String)
  /-- Raised by `step`: the stimulus encodes no operation. -/
  | undecodable (e : DecodeError)
  /-- A register access of wrong width or offset (41_usb_register_interface.md R151, R152). -/
  | regAccessShape
  /-- A descriptor word inside packet memory of a table that extends beyond it (41_usb_register_interface.md R156; log 23,
  log 38). -/
  | pmaRange
  /-- A HOST move that is not a USB packet (43_usb_packet_dispatcher.md R210, R214). -/
  | badHostMove
  /-- `writePage` of other than 1024 bytes (46_flash_page_programmer.md R291). -/
  | flashSize
  /-- A halfword program at an odd address (46_flash_page_programmer.md R296). -/
  | flashOddAddress
  /-- A flash controller write while BSY = 1 (46_flash_page_programmer.md R294 to R296). -/
  | flashBusyWrite
  /-- PG and PER together (46_flash_page_programmer.md R294). -/
  | flashModeConflict
  /-- A write to the flash array that is not 16 bits wide (46_flash_page_programmer.md R296). -/
  | flashWriteWidth
  /-- `sendData` with a length beyond its data (42_usb_endpoint_buffer_manager.md R184's precondition; log 30). -/
  | sendDataLength
deriving DecidableEq, Repr

/-- Status codes of an endpoint direction (10_state.md R26). -/
inductive EpStat where
  | disabled | stall | nak | valid
deriving DecidableEq, Repr

/-- Endpoint types (10_state.md R26). -/
inductive EpType where
  | bulk | control | isochronous | interrupt
deriving DecidableEq, Repr

/-- EPnR (10_state.md R26); its reserved bits read 0 and are not held. -/
structure EpReg where
  ea : BitVec 4
  statTx : EpStat
  ctrTx : Bool
  epType : EpType
  setup : Bool
  statRx : EpStat
  ctrRx : Bool
deriving DecidableEq, Repr

/-- EPnR = 0x0000: both directions DISABLED, flags clear, EA 0, type BULK (10_state.md R26). -/
def EpReg.zero : EpReg := ⟨0, .disabled, false, .bulk, false, .disabled, false⟩

/-- CNTR (10_state.md R22). -/
structure Cntr where
  fres : Bool
  pdwn : Bool
  resetm : Bool
  suspm : Bool
  wkupm : Bool
  ctrm : Bool
deriving DecidableEq, Repr

/-- The latched flags of ISTR; CTR, DIR and EP_ID are derived (10_state.md R23). -/
structure Istr where
  reset : Bool
  susp : Bool
  wkup : Bool
deriving DecidableEq, Repr

/-- DADDR (10_state.md R24). -/
structure Daddr where
  add : BitVec 7
  ef : Bool
deriving DecidableEq, Repr

/-- USB core registers and the two control bits outside the window (10_state.md R21 to R28). -/
structure Usb where
  ep0 : EpReg
  ep1 : EpReg
  cntr : Cntr
  istr : Istr
  daddr : Daddr
  btable : Half
  irqEn : Bool
  dpForceLow : Bool
deriving DecidableEq, Repr

/-- One instance of the Endpoint Transfer State (10_state.md R33). -/
structure EpXfer where
  rxBuf : Packet8
  rxLen : Half
  txQueue : List Byte
  txRemaining : Half
  maxPacket : Half
deriving DecidableEq, Repr

/-- Working registers of the driver: callbacks (true: registered), Endpoint Transfer State, Device Session State
(10_state.md R32 to R34). -/
structure Driver where
  cbEp : Bool
  cbReset : Bool
  ets0 : EpXfer
  ets1 : EpXfer
  pendingAddr : BitVec 7
  configured : Bool
  devStatus : Half
deriving DecidableEq, Repr

/-- Dispatcher states (10_state.md R35). -/
inductive DispState where
  | idle | read | doCtr | doReset | doSusp | doWkup
deriving DecidableEq, Repr

/-- Dispatcher state and snapshot (10_state.md R35). -/
structure Dispatcher where
  state : DispState
  snap : Half
deriving DecidableEq, Repr

/-- State of unit H: upload cursor, Flash Page Buffer, Upload Progress Flags (10_state.md R36 to R38). -/
structure Hid where
  pageIndex : Half
  pageOffset : Half
  pageBuf : Memory
  uploadStarted : Bool
  uploadFinished : Bool
deriving DecidableEq, Repr

/-- States of the unlock sequence (10_state.md R42). -/
inductive KeyState where
  | k0 | k1 | blocked
deriving DecidableEq, Repr

/-- The flash operation in progress (10_state.md R43). -/
inductive PendingOp where
  | none
  | erase (a : Word)
  | prog (a : Word) (h : Half)
deriving DecidableEq, Repr

/-- Flash controller registers and hidden state (10_state.md R40 to R43): FLASH_SR.BSY, the four fields of FLASH_CR,
FLASH_AR. -/
structure FlashCtl where
  bsy : Bool
  pg : Bool
  per : Bool
  strt : Bool
  lock : Bool
  ar : Word
  keyState : KeyState
  pendingOp : PendingOp
deriving DecidableEq, Repr

/-- Flash sequencer states (10_state.md R44). -/
inductive FseqState where
  | idle | unlock | waitIdle | erase | waitErase | prog | waitProg | lock
deriving DecidableEq, Repr

/-- Who called `writePage`, which the F_LOCK step continues with (46_flash_page_programmer.md R292; log 27): nobody (a
direct call, empty continuation), the endpoint service, the endpoint service of an EVT.CTR operation with its status word,
or the endpoint service inside the dispatcher. -/
inductive Caller where
  | alone
  | service
  | event (w : Half)
  | dispatcher
deriving DecidableEq, Repr

/-- Flash sequencer (10_state.md R44), with the data operand and the caller of the running `writePage` (log 27). -/
structure FlashSeq where
  state : FseqState
  addr : Word
  i : Half
  source : PageSource
  caller : Caller
deriving DecidableEq, Repr

/-- States of the boot controller (10_state.md R47). -/
inductive BootState where
  | evaluate | updateMode | launch
deriving DecidableEq, Repr

/-- The MAIN steps of UpdateMode, in their order (40_boot_controller_interface.md R135; log 14). -/
inductive UmStep where
  | shutdownFirst | bringUp | poll | blink | shutdownLast | reset
deriving DecidableEq, Repr

/-- State of the environment that the contract names (10_state.md R46, R47). -/
structure Boot where
  magic : Half
  state : BootState
  bootPin : Bool
  indicator : Bool
  vtor : Word
  msp : Word
  pcApp : Word
  um : UmStep
  launched : Bool
deriving DecidableEq, Repr

/-- The labels a refused HOST packet may be given (43_usb_packet_dispatcher.md R217). -/
inductive Label where
  | nak | stall | noresp
deriving DecidableEq, Repr

/-- What the last operation answered (the model's own field): a register or table value (41 R151, 42 R180), a packet
handed to the host or its refusal (43 R214 to R217), a poll (40 R135). -/
inductive Result where
  | none
  | half (v : Half)
  | word (v : Word)
  | accepted
  | notAccepted (l : Label)
  | packet (d : List Byte)
  | polled (finished : Bool)
deriving DecidableEq, Repr

/-- One thing the outside does between two atomic steps (log 1, log 33): it picks the next operation, moves the
boot-select pin, or triggers the out-of-band reset of the running application (40_boot_controller_interface.md R133). -/
inductive Stimulus where
  | op (format : Format) (bytes : List Byte)
  | bootPin (b : Bool)
  | outOfBand
deriving DecidableEq, Repr

/-- The state of the block and its environment. -/
structure State where
  par : Params
  usb : Usb
  pma : Memory
  drv : Driver
  disp : Dispatcher
  hid : Hid
  fctl : FlashCtl
  fseq : FlashSeq
  flash : Memory
  boot : Boot
  faults : List Fault
  input : List Stimulus
  result : Result
  draw : Nat
deriving DecidableEq, Repr

/-- Column HW of the reset table for the USB core (10_state.md R50). -/
def Usb.reset : Usb where
  ep0 := EpReg.zero
  ep1 := EpReg.zero
  cntr := ⟨true, true, false, false, false, false⟩
  istr := ⟨false, false, false⟩
  daddr := ⟨0, false⟩
  btable := 0
  irqEn := false
  dpForceLow := false

/-- Column HW for one Endpoint Transfer State (10_state.md R33, R50). -/
def EpXfer.reset : EpXfer where
  rxBuf := Packet8.zero
  rxLen := 0
  txQueue := []
  txRemaining := 0
  maxPacket := 8

/-- Column HW for the driver (10_state.md R50). -/
def Driver.reset : Driver where
  cbEp := false
  cbReset := false
  ets0 := EpXfer.reset
  ets1 := EpXfer.reset
  pendingAddr := 0
  configured := false
  devStatus := 0

/-- Column HW for the dispatcher (10_state.md R50). -/
def Dispatcher.reset : Dispatcher where
  state := .idle
  snap := 0

/-- Column HW for unit H; `page_buf` is unspecified: nothing is listed (10_state.md R37, R50). -/
def Hid.reset (par : Params) : Hid where
  pageIndex := par.firstPage
  pageOffset := 0
  pageBuf := []
  uploadStarted := false
  uploadFinished := false

/-- Column HW for the flash controller: FLASH_CR = 0x80, K0 (10_state.md R50). -/
def FlashCtl.reset : FlashCtl where
  bsy := false
  pg := false
  per := false
  strt := false
  lock := true
  ar := 0
  keyState := .k0
  pendingOp := .none

/-- Column HW for the flash sequencer (10_state.md R50); source and caller are the model's (log 12). -/
def FlashSeq.reset : FlashSeq where
  state := .idle
  addr := 0
  i := 0
  source := .pageBuf
  caller := .alone

/-- Column HW for the boot controller with a Magic Word and a pin; the spec states no value for the outputs: zero,
DESIGN CHOICE (log 12). -/
def Boot.reset (magic : Half) (pin : Bool) : Boot where
  magic := magic
  state := .evaluate
  bootPin := pin
  indicator := false
  vtor := 0
  msp := 0
  pcApp := 0
  um := .shutdownFirst
  launched := false

/-- The machine after the first power-on with the spec's default parameters: column HW of 10_state.md R50, Magic Word
0x0000 (R46), flash listing nothing (log 7), no stimulus pending (log 1). -/
def State.reset : State where
  par := Params.default
  usb := Usb.reset
  pma := []
  drv := Driver.reset
  disp := Dispatcher.reset
  hid := Hid.reset Params.default
  fctl := FlashCtl.reset
  fseq := FlashSeq.reset
  flash := []
  boot := Boot.reset 0 false
  faults := []
  input := []
  result := .none
  draw := 0

end Sys2Proof.Machine
end

