-- ==== Sys2Proof/Machine/Flags.lean ====
section
/-! DEFINITION. The word layout of the registers and every flag the block derives: the register words as an access sees
them (10_state.md R22 to R26, R40, R41), what a write of each does to its fields (41_usb_register_interface.md R153 to
R157), and the derived status bits and signals (10_state.md R23, R29). -/

namespace Sys2Proof.Machine

/-- Code of an endpoint status (10_state.md R26). -/
def EpStat.code : EpStat → BitVec 2
  | .disabled => 0
  | .stall => 1
  | .nak => 2
  | .valid => 3

/-- The endpoint status a code names (10_state.md R26). -/
def statOfCode (c : BitVec 2) : EpStat :=
  if c = 0 then .disabled else if c = 1 then .stall else if c = 2 then .nak else .valid

/-- Code of an endpoint type (10_state.md R26). -/
def EpType.code : EpType → BitVec 2
  | .bulk => 0
  | .control => 1
  | .isochronous => 2
  | .interrupt => 3

/-- The endpoint type a code names (10_state.md R26). -/
def typeOfCode (c : BitVec 2) : EpType :=
  if c = 0 then .bulk else if c = 1 then .control else if c = 2 then .isochronous else .interrupt

/-- EPnR as read: CTR_RX, 0, STAT_RX, SETUP, EP_TYPE, 0, CTR_TX, 0, STAT_TX, EA from bit 15 down (10_state.md R26). -/
def EpReg.toHalf (r : EpReg) : Half :=
  BitVec.ofBool r.ctrRx ++ 0#1 ++ r.statRx.code ++ BitVec.ofBool r.setup ++ r.epType.code ++ 0#1 ++
    BitVec.ofBool r.ctrTx ++ 0#1 ++ r.statTx.code ++ r.ea

/-- A write of EPnR: the read-write fields are stored, a flag written with 0 is cleared, SETUP and the reserved bits are
not written (41_usb_register_interface.md R157). -/
def EpReg.write (r : EpReg) (v : Half) : EpReg where
  ea := field v 0 4
  statTx := statOfCode (field v 4 2)
  ctrTx := r.ctrTx && bit v 7
  epType := typeOfCode (field v 9 2)
  setup := r.setup
  statRx := statOfCode (field v 12 2)
  ctrRx := r.ctrRx && bit v 15

/-- CNTR as read: CTRM, 00, WKUPM, SUSPM, RESETM, 8 zeros, PDWN, FRES (10_state.md R22). -/
def Cntr.toHalf (c : Cntr) : Half :=
  BitVec.ofBool c.ctrm ++ 0#2 ++ BitVec.ofBool c.wkupm ++ BitVec.ofBool c.suspm ++ BitVec.ofBool c.resetm ++ 0#8 ++
    BitVec.ofBool c.pdwn ++ BitVec.ofBool c.fres

/-- CNTR <- value & 0x9C03 (41_usb_register_interface.md R153). -/
def cntrOf (v : Half) : Cntr := ⟨bit v 0, bit v 1, bit v 10, bit v 11, bit v 12, bit v 15⟩

/-- DADDR as read (10_state.md R24). -/
def Daddr.toHalf (d : Daddr) : Half := 0#8 ++ BitVec.ofBool d.ef ++ d.add

/-- DADDR <- value & 0x00FF (41_usb_register_interface.md R155). -/
def daddrOf (v : Half) : Daddr := ⟨field v 0 7, bit v 7⟩

/-- BTABLE <- value & 0xFFF8 (41_usb_register_interface.md R156). -/
def btableOf (v : Half) : Half := v &&& 0xFFF8

/-- A write of ISTR clears each latched flag written with 0 (41_usb_register_interface.md R154). -/
def Istr.write (i : Istr) (v : Half) : Istr := ⟨i.reset && bit v 10, i.susp && bit v 11, i.wkup && bit v 12⟩

/-- The endpoint register has a completion pending (10_state.md R23). -/
def EpReg.completed (r : EpReg) : Bool := r.ctrRx || r.ctrTx

/-- ISTR.CTR (10_state.md R23). -/
def Usb.ctr (u : Usb) : Bool := u.ep0.completed || u.ep1.completed

/-- ISTR.EP_ID: the lowest endpoint register with a completion, 0 when there is none (10_state.md R23). -/
def Usb.epId (u : Usb) : BitVec 4 := if !u.ep0.completed && u.ep1.completed then 1 else 0

/-- ISTR.DIR: CTR_RX of that endpoint register, 0 when there is none (10_state.md R23). -/
def Usb.dir (u : Usb) : Bool := if u.ep0.completed then u.ep0.ctrRx else u.ep1.ctrRx

/-- ISTR as read: CTR, 00, WKUP, SUSP, RESET, 5 zeros, DIR, EP_ID (10_state.md R23). -/
def Usb.istrHalf (u : Usb) : Half :=
  BitVec.ofBool u.ctr ++ 0#2 ++ BitVec.ofBool u.istr.wkup ++ BitVec.ofBool u.istr.susp ++ BitVec.ofBool u.istr.reset ++
    0#5 ++ BitVec.ofBool u.dir ++ u.epId

/-- The masked interrupt-status register `ISTR & CNTR & 0x9C00` (10_state.md R23). -/
def Usb.maskedStatus (u : Usb) : Half := u.istrHalf &&& u.cntr.toHalf &&& 0x9C00

/-- The word a status read takes: the masked status with ISTR[4:0] beside it (30_encoding.md R109,
43_usb_packet_dispatcher.md R221). -/
def Usb.snapshot (u : Usb) : Half := u.maskedStatus ||| (u.istrHalf &&& 0x001F)

/-- `irq_line = irq_en and (ISTR & CNTR & 0x9C00) != 0` (10_state.md R29, 60_exceptions.md R324). -/
def Usb.irqLine (u : Usb) : Bool := u.irqEn && u.maskedStatus != 0

/-- `attached`: the SIE reacts to the bus at all (10_state.md R29). -/
def Usb.attached (u : Usb) : Bool := !u.dpForceLow && !u.cntr.pdwn && !u.cntr.fres

/-- `enabled(a)`: the SIE considers a packet sent to device address `a` (10_state.md R29). -/
def Usb.enabledAt (u : Usb) (a : Byte) : Bool := u.attached && u.daddr.ef && a.toNat == u.daddr.add.toNat

/-- FLASH_SR as read (10_state.md R40). -/
def FlashCtl.srWord (f : FlashCtl) : Word := 0#31 ++ BitVec.ofBool f.bsy

/-- FLASH_CR as read: LOCK bit 7, STRT bit 6, PER bit 1, PG bit 0 (10_state.md R41). -/
def FlashCtl.crWord (f : FlashCtl) : Word :=
  0#24 ++ BitVec.ofBool f.lock ++ BitVec.ofBool f.strt ++ 0#4 ++ BitVec.ofBool f.per ++ BitVec.ofBool f.pg

end Sys2Proof.Machine
end

