-- ==== Sys2Proof/Machine/Operands.lean ====
section
/-! DEFINITION. Operand forms: the endpoint files and their updates, the endpoint a bus number or a snapshot names, the
register windows and access shapes, and the flash addresses the source computes (20_memory.md R71, R75, 30_encoding.md
R107). -/

namespace Sys2Proof.Machine

/-! ### One update per part of the state -/

/-- Replaces the USB core registers. -/
def State.withUsb (s : State) (u : Usb) : State := { s with usb := u }

/-- Replaces packet memory. -/
def State.withPma (s : State) (m : Memory) : State := { s with pma := m }

/-- Replaces the driver's working registers. -/
def State.withDrv (s : State) (d : Driver) : State := { s with drv := d }

/-- Replaces the dispatcher's registers. -/
def State.withDisp (s : State) (d : Dispatcher) : State := { s with disp := d }

/-- Replaces unit H's state. -/
def State.withHid (s : State) (h : Hid) : State := { s with hid := h }

/-- Replaces the flash controller's registers. -/
def State.withFctl (s : State) (f : FlashCtl) : State := { s with fctl := f }

/-- Replaces the flash sequencer's registers. -/
def State.withFseq (s : State) (f : FlashSeq) : State := { s with fseq := f }

/-- Replaces the flash array. -/
def State.withFlash (s : State) (m : Memory) : State := { s with flash := m }

/-- Replaces the boot controller's state. -/
def State.withBoot (s : State) (b : Boot) : State := { s with boot := b }

/-- Leaves an answer for the outside. -/
def State.withResult (s : State) (r : Result) : State := { s with result := r }

/-! ### Endpoints -/

/-- Endpoint register EPnR. -/
def Usb.ep (u : Usb) : Ep → EpReg
  | .ep0 => u.ep0
  | .ep1 => u.ep1

/-- Replaces EPnR. -/
def Usb.setEp (u : Usb) (n : Ep) (r : EpReg) : Usb :=
  match n with
  | .ep0 => { u with ep0 := r }
  | .ep1 => { u with ep1 := r }

/-- Replaces EPnR in the state. -/
def State.setEp (s : State) (n : Ep) (r : EpReg) : State := s.withUsb (s.usb.setEp n r)

/-- Endpoint Transfer State `ETS[e]`. -/
def Driver.ets (d : Driver) : Ep → EpXfer
  | .ep0 => d.ets0
  | .ep1 => d.ets1

/-- Replaces `ETS[e]`. -/
def Driver.setEts (d : Driver) (e : Ep) (x : EpXfer) : Driver :=
  match e with
  | .ep0 => { d with ets0 := x }
  | .ep1 => { d with ets1 := x }

/-- Replaces `ETS[e]` in the state. -/
def State.setEts (s : State) (e : Ep) (x : EpXfer) : State := s.withDrv (s.drv.setEts e x)

/-- The endpoint a number names; none for `e >= N_EP` (00_scope.md R7, D2). -/
def epOfNat : Nat → Option Ep
  | 0 => some .ep0
  | 1 => some .ep1
  | _ => none

/-- Number of an endpoint. -/
def epNumber : Ep → Nat
  | .ep0 => 0
  | .ep1 => 1

/-- `Lookup(e)`: the lowest endpoint register that answers to endpoint number `e` (43_usb_packet_dispatcher.md R210). -/
def Usb.lookup (u : Usb) (e : Byte) : Option Ep :=
  if u.ep0.ea.toNat = e.toNat then some .ep0
  else if u.ep1.ea.toNat = e.toNat then some .ep1
  else none

/-- Capacity of a receive buffer from its COUNT_RX word (10_state.md R31, 42_usb_endpoint_buffer_manager.md R180). -/
def rxCapacity (count : Half) : Nat :=
  if bit count 15 then 32 * ((field count 10 5).toNat + 1) else 2 * (field count 10 5).toNat

/-- The byte count in bits 9:0 of COUNT_RX or COUNT_TX (30_encoding.md R107 (g)). -/
def byteCount (count : Half) : Nat := (field count 0 10).toNat

/-- COUNT_RX after the SIE received `n` bytes: capacity bits kept (43_usb_packet_dispatcher.md R214, R215). -/
def countReceived (count : Half) (n : Nat) : Half := (count &&& 0xFC00) ||| BitVec.ofNat 16 n

/-- `rx_buf[0 .. n-1] <- bytes`: bytes beyond those received keep their old values
(42_usb_endpoint_buffer_manager.md R190). -/
def overlay (p : Packet8) (bytes : List Byte) : Packet8 where
  b0 := bytes.getD 0 p.b0
  b1 := bytes.getD 1 p.b1
  b2 := bytes.getD 2 p.b2
  b3 := bytes.getD 3 p.b3
  b4 := bytes.getD 4 p.b4
  b5 := bytes.getD 5 p.b5
  b6 := bytes.getD 6 p.b6
  b7 := bytes.getD 7 p.b7

/-! ### Register accesses -/

/-- The access has a shape the window takes: 16 bits below 0x60 in USBREG, 32 bits below 0x24 in FLASHREG, at a multiple
of 4 (20_memory.md R75, 41_usb_register_interface.md R151, R152). -/
def accessShape (win : Window) (width : Width) (offset : Half) : Bool :=
  match win with
  | .usbReg => width == .w16 && offset.toNat % 4 == 0 && decide (offset.toNat < 0x60)
  | .flashReg => width == .w32 && offset.toNat % 4 == 0 && decide (offset.toNat < 0x24)

/-! ### Flash addresses -/

/-- The address is inside `[FLASH_BASE, FLASH_BASE + FLASH_PAGES*1024)` (46_flash_page_programmer.md R297). -/
def inFlash (p : Params) (a : Nat) : Bool :=
  decide (p.flashBase.toNat ≤ a) && decide (a < p.flashBase.toNat + p.flashPages.toNat * Config.pageSize)

/-- `FLASH_BASE + zext_32(page_index) * 1024`, 32 bits unsigned (30_encoding.md R107 (e), 20_memory.md R71). -/
def pageAddress (p : Params) (index : Half) : Word := p.flashBase + zext32 index * 1024

/-- `APP_BASE = FLASH_BASE + FIRST_PAGE * PAGE_SIZE` (20_memory.md R71). -/
def appBase (p : Params) : Word := pageAddress p p.firstPage

/-- First address of the page that contains `a`: `FLASH_BASE + 1024 * ((a - FLASH_BASE) div 1024)`
(46_flash_page_programmer.md R295, R298). -/
def pageStart (p : Params) (a : Word) : Nat :=
  p.flashBase.toNat + Config.pageSize * ((a.toNat - p.flashBase.toNat) / Config.pageSize)

/-- `check_user_code(V)` (40_boot_controller_interface.md R134). -/
def checkUserCode (p : Params) (v : Word) : Bool := v &&& Config.spMask == p.sramBase

end Sys2Proof.Machine
end

