-- ==== Sys2Proof/Machine/Ops.lean ====
section
/-! DEFINITION. The operations every meaning is written over: sparse memory, the ways a rule stops, packet memory and the
descriptor table, register reads and writes, the core-reset effect, the flash controller's writes, the USB interrupt's
entry and return, and the holds that say when an agent may step. -/

namespace Sys2Proof.Machine

open Host (Outcome)

/-! ### Sparse memory -/

/-- The byte listed at an address. -/
def Memory.read? : Memory → Nat → Option Byte
  | [], _ => none
  | c :: m, a => if c.1 = a then some c.2 else Memory.read? m a

/-- Stores one byte and keeps the canonical form: the value an unlisted address reads as is not listed. -/
def Memory.write (unlisted : Option Byte) : Memory → Nat → Byte → Memory
  | [], a, v => if unlisted = some v then [] else [(a, v)]
  | c :: m, a, v =>
    if a < c.1 then (if unlisted = some v then c :: m else (a, v) :: c :: m)
    else if a = c.1 then (if unlisted = some v then m else (a, v) :: m)
    else c :: Memory.write unlisted m a v

/-- Stores bytes at ascending addresses. -/
def Memory.writeBytes (unlisted : Option Byte) (m : Memory) (a : Nat) : List Byte → Memory
  | [] => m
  | v :: vs => Memory.writeBytes unlisted (Memory.write unlisted m a v) (a + 1) vs

/-- Makes the `n` addresses from `a` unlisted. -/
def Memory.unlist (m : Memory) (a n : Nat) : Memory := m.filter (fun c => decide (c.1 < a) || decide (a + n ≤ c.1))

/-! ### How a rule ends -/

/-- The two ways a rule stops short of its end (00_scope.md R11): `raise Fault`, with the state it is raised in, and
`refuse(reason)`. -/
inductive Stop where
  | raised (f : Fault) (s : State)
  | refused (r : Refusal)

/-- The result of a part of a rule. -/
abbrev Res := Except Stop

/-- `raise Fault(f)` in a state (00_scope.md R11). -/
def raise {α : Type} (s : State) (f : Fault) : Res α := .error (.raised f s)

/-- `refuse(r)` (00_scope.md R11). -/
def refuse {α : Type} (r : Refusal) : Res α := .error (.refused r)

/-- Appends to the fault record (10_state.md R48, 60_exceptions.md R322). -/
def recordFault (s : State) (f : Fault) : State := { s with faults := s.faults ++ [f] }

/-- The outcome of a whole rule: a raised fault is recorded in the state it was raised in, and the step after it stops
(log 6). -/
def finish : Res State → Outcome State Fault Refusal
  | .ok s => .next s
  | .error (.raised f s) => .next (recordFault s f)
  | .error (.refused r) => .refused r

/-! ### Holds: when an agent may step (00_scope.md R9; log 4) -/

/-- MAIN steps only while the dispatcher is idle (00_scope.md R9, 60_exceptions.md R333); held, nothing changes. Idle is
`disp_state = IDLE`, as D11 names it: while a `writePage` or a commit that a direct call began runs with the dispatcher idle,
MAIN is not held (DESIGN CHOICE, log 13). -/
def mainStep (s : State) (r : Res State) : Outcome State Fault Refusal :=
  if s.disp.state = .idle then finish r else .next s

/-- A routine of the interrupt context other than the flash sequencer runs only while the sequencer is idle
(46_flash_page_programmer.md R292); held, nothing changes. -/
def unitStep (s : State) (r : Res State) : Outcome State Fault Refusal :=
  if s.fseq.state = .idle then finish r else .next s

/-! ### Packet memory (42_usb_endpoint_buffer_manager.md R180)

An access outside offsets 0 to 511 is Fault(PmaRange), as D18, which R180 applies, and U7 have it (log 38). -/

/-- One byte of PMA. -/
def pmaRead (s : State) (o : Nat) : Res Byte :=
  if o < Config.pmaSize then
    match s.pma.read? o with
    | some v => .ok v
    | none => raise s (.unwrittenRead .pma o)
  else raise s .pmaRange

/-- `n` bytes of PMA from an offset upward, none of it touched when `n = 0`. -/
def pmaReadBytes (s : State) (o : Nat) : Nat → Res (List Byte)
  | 0 => .ok []
  | n + 1 => do
    let v ← pmaRead s o
    let vs ← pmaReadBytes s (o + 1) n
    .ok (v :: vs)

/-- Stores bytes in PMA from an offset upward; none of it may lie at 512 or beyond. -/
def pmaWriteBytes (s : State) (o : Nat) (bytes : List Byte) : Res State :=
  if bytes = [] then .ok s
  else if o + bytes.length ≤ Config.pmaSize then .ok (s.withPma (Memory.writeBytes none s.pma o bytes))
  else raise s .pmaRange

/-- `PmaRead16(o)`. -/
def pmaRead16 (s : State) (o : Nat) : Res Half := do
  let b0 ← pmaRead s o
  let b1 ← pmaRead s (o + 1)
  .ok (le16 b0 b1)

/-- `PmaWrite16(o, v)`. -/
def pmaWrite16 (s : State) (o : Nat) (v : Half) : Res State := pmaWriteBytes s o (halfBytes v)

/-- Offset of a word of the descriptor table: `BTABLE + 8*n + within`. With a table that would extend beyond PMA no descriptor
word is accessed: one that lies outside PMA is the fault of any such access, one that lies inside is refused
(41_usb_register_interface.md R156; log 23, log 38). -/
def bdtAddr (s : State) (n : Ep) (within : Nat) : Res Nat :=
  let o := s.usb.btable.toNat + 8 * epNumber n + within
  if s.usb.btable.toNat + Config.bdtSize ≤ Config.pmaSize then .ok o
  else if o + 2 ≤ Config.pmaSize then refuse .pmaRange
  else raise s .pmaRange

/-- Reads a word of the descriptor table. -/
def bdtRead (s : State) (n : Ep) (within : Nat) : Res Half := do
  let o ← bdtAddr s n within
  pmaRead16 s o

/-- Writes a word of the descriptor table. -/
def bdtWrite (s : State) (n : Ep) (within : Nat) (v : Half) : Res State := do
  let o ← bdtAddr s n within
  pmaWrite16 s o v

/-- Byte offset of ADDR_TX in a table entry (10_state.md R31). -/
def offAddrTx : Nat := 0
/-- Byte offset of COUNT_TX in a table entry (10_state.md R31). -/
def offCountTx : Nat := 2
/-- Byte offset of ADDR_RX in a table entry (10_state.md R31). -/
def offAddrRx : Nat := 4
/-- Byte offset of COUNT_RX in a table entry (10_state.md R31). -/
def offCountRx : Nat := 6

/-- `MemRead(PMA, <table word>, n)`: a transfer of no bytes reads neither the buffer nor its address (log 22). -/
def bufferRead (s : State) (n : Ep) (within count : Nat) : Res (List Byte) :=
  if count = 0 then .ok []
  else do
    let a ← bdtRead s n within
    pmaReadBytes s a.toNat count

/-- `MemWrite(PMA, <table word>, n, bytes)`, with the same reading of `n = 0` (log 22). -/
def bufferWrite (s : State) (n : Ep) (within : Nat) (bytes : List Byte) : Res State :=
  if bytes = [] then .ok s
  else do
    let a ← bdtRead s n within
    pmaWriteBytes s a.toNat bytes

/-! ### USB core registers -/

/-- The core-reset effect (43_usb_packet_dispatcher.md R213). -/
def coreReset (u : Usb) : Usb :=
  { u with ep0 := EpReg.zero, ep1 := EpReg.zero, daddr := ⟨0, false⟩, istr := { u.istr with reset := true } }

/-- Write to CNTR: every write with FRES = 1 applies the core-reset effect (41_usb_register_interface.md R153). -/
def writeCntr (u : Usb) (v : Half) : Usb :=
  let u := { u with cntr := cntrOf v }
  if u.cntr.fres then coreReset u else u

/-- Write to ISTR (41_usb_register_interface.md R154). -/
def writeIstr (u : Usb) (v : Half) : Usb := { u with istr := u.istr.write v }

/-- Write to DADDR (41_usb_register_interface.md R155). -/
def writeDaddr (u : Usb) (v : Half) : Usb := { u with daddr := daddrOf v }

/-- Write to BTABLE (41_usb_register_interface.md R156). -/
def writeBtable (u : Usb) (v : Half) : Usb := { u with btable := btableOf v }

/-- Write to EPnR (41_usb_register_interface.md R157). -/
def writeEp (u : Usb) (n : Ep) (v : Half) : Usb := u.setEp n ((u.ep n).write v)

/-- EPnR.STAT_RX <- x, a field write (41_usb_register_interface.md R150). -/
def setStatRx (s : State) (n : Ep) (x : EpStat) : State := s.setEp n { s.usb.ep n with statRx := x }

/-- EPnR.STAT_TX <- x, a field write. -/
def setStatTx (s : State) (n : Ep) (x : EpStat) : State := s.setEp n { s.usb.ep n with statTx := x }

/-- EPnR.CTR_RX <- 0, a field write. -/
def clearCtrRx (s : State) (n : Ep) : State := s.setEp n { s.usb.ep n with ctrRx := false }

/-- EPnR.CTR_TX <- 0, a field write. -/
def clearCtrTx (s : State) (n : Ep) : State := s.setEp n { s.usb.ep n with ctrTx := false }

/-- The value of a USB core register by offset; an unlisted offset reads 0 (41_usb_register_interface.md R151). -/
def usbRead (u : Usb) (offset : Nat) : Half :=
  match offset with
  | 0x00 => u.ep0.toHalf
  | 0x04 => u.ep1.toHalf
  | 0x40 => u.cntr.toHalf
  | 0x44 => u.istrHalf
  | 0x4C => u.daddr.toHalf
  | 0x50 => u.btable
  | _ => 0

/-- A write of a USB core register by offset; an unlisted offset ignores it (41_usb_register_interface.md R152). -/
def usbWrite (u : Usb) (offset : Nat) (v : Half) : Usb :=
  match offset with
  | 0x00 => writeEp u .ep0 v
  | 0x04 => writeEp u .ep1 v
  | 0x40 => writeCntr u v
  | 0x44 => writeIstr u v
  | 0x4C => writeDaddr u v
  | 0x50 => writeBtable u v
  | _ => u

/-! ### Flash controller -/

/-- Write to FLASH_KEYR (46_flash_page_programmer.md R293). -/
def writeKeyr (f : FlashCtl) (v : Word) : FlashCtl :=
  match f.keyState with
  | .k0 => { f with keyState := if v = Config.key1 then .k1 else .blocked }
  | .k1 => if v = Config.key2 then { f with lock := false, keyState := .k0 } else { f with keyState := .blocked }
  | .blocked => f

/-- LOCK written with 1: the controller is locked and the key sequence starts over, unless it is blocked
(10_state.md R42, 46_flash_page_programmer.md R294). -/
def lockFlash (f : FlashCtl) : FlashCtl :=
  { f with lock := true, keyState := if f.keyState = .blocked then .blocked else .k0 }

/-- Write to FLASH_CR (46_flash_page_programmer.md R294). While LOCK = 1 no bit of FLASH_CR changes, and LOCK = 1 written
again still returns the key sequence to K0, as 10_state.md R41 and R42 say (R294's "nothing" read as said of the register,
DESIGN CHOICE, log 21). -/
def writeCr (s : State) (v : Word) : Res State :=
  if s.fctl.bsy then refuse .flashBusyWrite
  else if s.fctl.lock then .ok (if bit v 7 then s.withFctl (lockFlash s.fctl) else s)
  else if bit v 0 && bit v 1 then refuse .flashModeConflict
  else
    let f := { s.fctl with pg := bit v 0, per := bit v 1 }
    if bit v 7 then .ok (s.withFctl (lockFlash f))
    else if bit v 6 && bit v 1 then
      if inFlash s.par f.ar.toNat then .ok (s.withFctl { f with strt := true, bsy := true, pendingOp := .erase f.ar })
      else raise (s.withFctl f) (.flashRange f.ar.toNat)
    else .ok (s.withFctl f)

/-- Write to FLASH_AR (46_flash_page_programmer.md R295). -/
def writeAr (s : State) (v : Word) : Res State :=
  if s.fctl.bsy then refuse .flashBusyWrite
  else if s.fctl.lock then .ok s
  else .ok (s.withFctl { s.fctl with ar := v })

/-- The byte of the flash array at an address (46_flash_page_programmer.md R299); what an unlisted address reads as is
`Config.flashUnlisted` (log 7). -/
def flashByte (s : State) (a : Nat) : Byte := (s.flash.read? a).getD Config.flashUnlisted

/-- A write of a width to the flash array at an address (46_flash_page_programmer.md R296). -/
def writeFlash (s : State) (width : Width) (a : Word) (h : Half) : Res State :=
  if width ≠ .w16 then refuse .flashWriteWidth
  else if bit a 0 then refuse .flashOddAddress
  else if s.fctl.bsy then refuse .flashBusyWrite
  else if s.fctl.lock || !s.fctl.pg then .ok s
  else if !inFlash s.par a.toNat then raise s (.flashRange a.toNat)
  else if flashByte s a.toNat ≠ 0xFF ∨ flashByte s (a.toNat + 1) ≠ 0xFF then raise s (.programNotErased a.toNat)
  else .ok (s.withFctl { s.fctl with bsy := true, pendingOp := .prog a h })

/-- The four bytes of a flash word; reading beyond the array is a fault (log 31). -/
def flashRead32 (s : State) (a : Word) : Res Word :=
  if inFlash s.par a.toNat && inFlash s.par (a.toNat + 3) then
    .ok (le32 (flashByte s a.toNat) (flashByte s (a.toNat + 1)) (flashByte s (a.toNat + 2)) (flashByte s (a.toNat + 3)))
  else raise s (.flashRange a.toNat)

/-- The value of a flash controller register by offset; FLASH_KEYR and an unlisted offset read 0
(41_usb_register_interface.md R151). -/
def flashRegRead (f : FlashCtl) (offset : Nat) : Word :=
  match offset with
  | 0x0C => f.srWord
  | 0x10 => f.crWord
  | 0x14 => f.ar
  | _ => 0

/-- A write of a flash controller register by offset; FLASH_SR and an unlisted offset ignore it
(41_usb_register_interface.md R152, 10_state.md R40). -/
def flashRegWrite (s : State) (offset : Nat) (v : Word) : Res State :=
  match offset with
  | 0x04 => .ok (s.withFctl (writeKeyr s.fctl v))
  | 0x10 => writeCr s v
  | 0x14 => writeAr s v
  | _ => .ok s

/-- REG.READ (41_usb_register_interface.md R151): the value is left as the answer, nothing else changes. -/
def regRead (s : State) (win : Window) (width : Width) (offset : Half) : Res State :=
  if accessShape win width offset then
    match win with
    | .usbReg => .ok (s.withResult (.half (usbRead s.usb offset.toNat)))
    | .flashReg => .ok (s.withResult (.word (flashRegRead s.fctl offset.toNat)))
  else refuse .regAccessShape

/-- REG.WRITE (41_usb_register_interface.md R152). -/
def regWrite (s : State) (win : Window) (width : Width) (offset : Half) (v : Word) : Res State :=
  if accessShape win width offset then
    match win with
    | .usbReg => .ok (s.withUsb (usbWrite s.usb offset.toNat (v.setWidth 16)))
    | .flashReg => flashRegWrite s offset.toNat v
  else refuse .regAccessShape

/-- An access of one USB core register: a read leaves its value, a write stores (30_encoding.md R110). -/
def accessUsb (s : State) (offset : Half) : Access 16 → Res State
  | .read => regRead s .usbReg .w16 offset
  | .write v => regWrite s .usbReg .w16 offset (zext32 v)

/-- An access of one flash controller register (30_encoding.md R110). -/
def accessFlashReg (s : State) (offset : Half) : Access 32 → Res State
  | .read => regRead s .flashReg .w32 offset
  | .write v => regWrite s .flashReg .w32 offset v

/-- An access of one word of the descriptor table (42_usb_endpoint_buffer_manager.md R180). -/
def accessBdt (s : State) (n : Ep) (within : Nat) : Access 16 → Res State
  | .read => do
    let v ← bdtRead s n within
    .ok (s.withResult (.half v))
  | .write v => bdtWrite s n within v

/-! ### The USB interrupt: the block's one exception (60_exceptions.md R320 to R331) -/

/-- The interrupt may be taken: the dispatcher is idle, the line is up, and no routine of the interrupt context is under
way (43_usb_packet_dispatcher.md R220, 60_exceptions.md R331, 46_flash_page_programmer.md R292). -/
def interruptTaken (s : State) : Bool := decide (s.disp.state = .idle) && decide (s.fseq.state = .idle) && s.usb.irqLine

/-- Entry: nothing is saved and no mask changes; the dispatcher leaves IDLE for its status read
(43_usb_packet_dispatcher.md R220, 60_exceptions.md R326). -/
def enterInterrupt (s : State) : State := s.withDisp { s.disp with state := .read }

/-- Return: every latched flag is cleared and the dispatcher is idle again; nothing is restored
(43_usb_packet_dispatcher.md R221, R223, 60_exceptions.md R327). -/
def returnInterrupt (s : State) : State :=
  (s.withUsb (writeIstr s.usb 0x0000)).withDisp { s.disp with state := .idle }

/-! ### The hardware reset (40_boot_controller_interface.md R139) -/

/-- Bytes drawn for the addresses from `a` upward that a reset left unspecified (U6; log 10). -/
def interruptedBytes (draw a : Nat) : Nat → List Byte
  | 0 => []
  | n + 1 => Config.flashInterrupted draw a :: interruptedBytes draw (a + 1) n

/-- What a hardware reset leaves of the flash array: kept, but for a page under erase or a halfword under program
(10_state.md R50, U6; log 10). -/
def flashAfterReset (s : State) : Memory :=
  match s.fctl.pendingOp with
  | .none => s.flash
  | .erase a =>
    Memory.writeBytes (some Config.flashUnlisted) s.flash (pageStart s.par a)
      (interruptedBytes s.draw (pageStart s.par a) Config.pageSize)
  | .prog a _ =>
    Memory.writeBytes (some Config.flashUnlisted) s.flash a.toNat (interruptedBytes s.draw a.toNat 2)

/-- A hardware reset with the Magic Word it leaves: column HW of 10_state.md R50. Parameters, the boot-select pin, the
stimuli, the answer and the fault record are not the microcontroller's and stay (log 32). -/
def hardwareReset (s : State) (magic : Half) : State :=
  { s with
    usb := Usb.reset
    pma := []
    drv := Driver.reset
    disp := Dispatcher.reset
    hid := Hid.reset s.par
    fctl := FlashCtl.reset
    fseq := FlashSeq.reset
    flash := flashAfterReset s
    boot := Boot.reset magic s.boot.bootPin
    draw := s.draw + 1 }

end Sys2Proof.Machine
end

