-- ==== Sys2Proof/Machine/Bus.lean ====
section
/-! DEFINITION. The USB host's moves and the SIE's reaction to each, one atomic step
(43_usb_packet_dispatcher.md R210 to R217). -/

namespace Sys2Proof.Machine

open Host (Outcome)

/-- A device address or an endpoint number no USB packet carries (43 R210). -/
def badAddressing (a e : Byte) : Bool := decide (127 < a.toNat) || decide (15 < e.toNat)

/-- The move was not accepted: no state of the block changes, the host learns a label (43 R210, R217; log 26). -/
def notAccepted (s : State) (l : Label) : Res State := .ok (s.withResult (.notAccepted l))

/-- An accepted packet goes into the receive buffer of endpoint register `n` (43 R214, R215). -/
def receivePacket (s : State) (n : Ep) (d : List Byte) (setup : Bool) : Res State := do
  let s ← bufferWrite s n offAddrRx d
  let count ← bdtRead s n offCountRx
  let s ← bdtWrite s n offCountRx (countReceived count d.length)
  let s := s.setEp n { s.usb.ep n with setup := setup, statRx := .nak, ctrRx := true }
  .ok (s.withResult .accepted)

/-- The SIE is offered a SETUP or an OUT packet: the acceptance conditions in the order the rules list them
(43 R214, R215, R217; log 25). -/
def offerPacket (s : State) (a e : Byte) (d : List Byte) (setup : Bool) : Res State :=
  if s.usb.enabledAt a then
    match s.usb.lookup e with
    | none => notAccepted s .noresp
    | some n =>
      if setup = true ∧ (s.usb.ep n).epType ≠ .control then notAccepted s .noresp
      else
        match (s.usb.ep n).statRx with
        | .disabled => notAccepted s .noresp
        | .stall => notAccepted s .stall
        | .nak => notAccepted s .nak
        | .valid =>
          if (s.usb.ep n).ctrRx then notAccepted s .nak
          else do
            let count ← bdtRead s n offCountRx
            if d.length ≤ rxCapacity count then receivePacket s n d setup else notAccepted s .noresp
  else notAccepted s .noresp

/-- The SIE hands the packet in the transmit buffer of endpoint register `n` to the host (43 R216). -/
def transmitPacket (s : State) (n : Ep) : Res State := do
  let count ← bdtRead s n offCountTx
  let d ← bufferRead s n offAddrTx (byteCount count)
  let s := s.setEp n { s.usb.ep n with statTx := .nak, ctrTx := true }
  .ok (s.withResult (.packet d))

/-- The SIE is asked for a packet (43 R216, R217; log 26). -/
def requestPacket (s : State) (a e : Byte) : Res State :=
  if s.usb.enabledAt a then
    match s.usb.lookup e with
    | none => notAccepted s .noresp
    | some n =>
      match (s.usb.ep n).statTx with
      | .disabled => notAccepted s .noresp
      | .stall => notAccepted s .stall
      | .nak => notAccepted s .nak
      | .valid => if (s.usb.ep n).ctrTx then notAccepted s .nak else transmitPacket s n
  else notAccepted s .noresp

/-- HOST.RESET: the core-reset effect while attached (43 R213). -/
def execHostReset (s : State) : Outcome State Fault Refusal :=
  .next (if s.usb.attached then s.withUsb (coreReset s.usb) else s)

/-- HOST.SUSPEND (43 R211). -/
def execHostSuspend (s : State) : Outcome State Fault Refusal :=
  .next (if s.usb.attached then s.withUsb { s.usb with istr := { s.usb.istr with susp := true } } else s)

/-- HOST.WAKEUP (43 R212). -/
def execHostWakeup (s : State) : Outcome State Fault Refusal :=
  .next (if s.usb.attached then s.withUsb { s.usb with istr := { s.usb.istr with wkup := true } } else s)

/-- HOST.SETUP(a, e, d) (43 R210, R214). -/
def execHostSetup (a e : Byte) (d : List Byte) (s : State) : Outcome State Fault Refusal :=
  finish (if badAddressing a e = true ∨ d.length ≠ 8 then refuse .badHostMove else offerPacket s a e d true)

/-- HOST.OUT(a, e, d) (43 R210, R215). -/
def execHostOut (a e : Byte) (d : List Byte) (s : State) : Outcome State Fault Refusal :=
  finish (if badAddressing a e = true ∨ 1023 < d.length then refuse .badHostMove else offerPacket s a e d false)

/-- HOST.IN(a, e) (43 R210, R216). -/
def execHostIn (a e : Byte) (s : State) : Outcome State Fault Refusal :=
  finish (if badAddressing a e then refuse .badHostMove else requestPacket s a e)

end Sys2Proof.Machine
end

