-- ==== Sys2Proof/Machine/Transfer.lean ====
section
/-! DEFINITION. The transmit side of the endpoint buffer manager and the endpoint configuration
(42_usb_endpoint_buffer_manager.md R181, R184, R186), with the meanings of DRV.SENDDATA, EP.TXCHUNK and
EP.CONFIGURE. -/

namespace Sys2Proof.Machine

open Host (Outcome)

/-- `TxChunk(e)`: the copy of the next packet into packet memory (42 R186). -/
def txChunk (s : State) (e : Ep) : Res State := do
  let x := s.drv.ets e
  let n := min x.txRemaining.toNat x.maxPacket.toNat
  let s ← bufferWrite s e offAddrTx (x.txQueue.take n)
  let s ← bdtWrite s e offCountTx (BitVec.ofNat 16 n)
  let s := s.setEts e { x with txQueue := x.txQueue.drop n, txRemaining := x.txRemaining - BitVec.ofNat 16 n }
  .ok (setStatTx s e .valid)

/-- `tx_queue <- data[0 .. length-1] ; tx_remaining <- length` (42 R184). -/
def queueData (s : State) (e : Ep) (data : List Byte) (length : Half) : State :=
  s.setEts e { s.drv.ets e with txQueue := data.take length.toNat, txRemaining := length }

/-- `sendData(e, data, length)` (42 R184). -/
def sendData (s : State) (e : Nat) (data : List Byte) (length : Half) : Res State :=
  match epOfNat e with
  | none => .ok s
  | some ep =>
    if ep ≠ .ep0 ∧ s.drv.configured = false then .ok s
    else txChunk (queueData s ep data length) ep

/-- The descriptor table as EP.CONFIGURE writes it: entries 0 and 1 (42 R181, 20_memory.md R72). -/
def configuredTable : List Byte :=
  [0x48, 0x00, 0x00, 0x00, 0x40, 0x00, 0x00, 0x10, 0x50, 0x00, 0x00, 0x00, 0x58, 0x00, 0x00, 0x00]

/-- What EP.CONFIGURE leaves of an Endpoint Transfer State: `rx_buf` keeps its bytes (42 R181). -/
def configuredEts (x : EpXfer) : EpXfer := { x with rxLen := 0, txQueue := [], txRemaining := 0, maxPacket := 8 }

/-- `EpConfigure()` (42 R181). The two endpoint registers are written as registers, so the read-only SETUP bit stays
(41_usb_register_interface.md R150, R157; log 39). -/
def epConfigure (s : State) : State :=
  let u := { s.usb with btable := 0x0000 }
  let s := (s.withUsb (writeEp (writeEp u .ep0 0x3220) .ep1 0x0621)).withPma (Memory.writeBytes none s.pma 0 configuredTable)
  s.withDrv { s.drv with ets0 := configuredEts s.drv.ets0, ets1 := configuredEts s.drv.ets1 }

/-- DRV.SENDDATA (42 R184). A length beyond the data has no meaning (log 30). -/
def execDrvSenddata (e : Byte) (data : List Byte) (length : Half) (s : State) : Outcome State Fault Refusal :=
  unitStep s (if length.toNat ≤ data.length then sendData s e.toNat data length else refuse .sendDataLength)

/-- EP.TXCHUNK (42 R186). -/
def execEpTxchunk (e : Ep) (s : State) : Outcome State Fault Refusal := unitStep s (txChunk s e)

/-- EP.CONFIGURE (42 R181). -/
def execEpConfigure (s : State) : Outcome State Fault Refusal := unitStep s (.ok (epConfigure s))

end Sys2Proof.Machine
end

