-- ==== Sys2Proof/Machine/Control.lean ====
section
/-! DEFINITION. The control requests of endpoint 0 (44_usb_control_requests.md R240 to R250): `HandleSetup`, the second half
of SET_ADDRESS, and the meanings of the SETUP8 rows. -/

namespace Sys2Proof.Machine

open Host (Outcome)

/-- Answers with descriptor bytes cut to the host's requested length (44 R241, 30_encoding.md R107 (d)). -/
def answerDescriptor (s : State) (d : List Byte) (wLength : Half) : Res State :=
  sendData s 0 d (BitVec.ofNat 16 (min d.length wLength.toNat))

/-- Answers with a zero-length packet (44 R240). -/
def answerEmpty (s : State) : Res State := sendData s 0 [] 0

/-- `STRING_DESC[i]` for `i < N_STRINGS`, else no bytes (44 R245). -/
def stringDescriptor (p : Params) (i : Byte) : List Byte := p.stringDescs.getD i.toNat []

/-- SET_ADDRESS at the SETUP: the address is only recorded (44 R246). -/
def requestAddress (s : State) (wValue : Half) : Res State :=
  answerEmpty (s.withDrv { s.drv with pendingAddr := field wValue 0 7 })

/-- SET_CONFIGURATION (44 R247). -/
def requestConfiguration (s : State) : Res State := answerEmpty (s.withDrv { s.drv with configured := true })

/-- `HandleSetup(p)` (44 R241). -/
def handleSetup (s : State) (p : Packet8) : Res State :=
  let t := p.b0 &&& 0x60
  let wLength := le16 p.b6 p.b7
  if t = 0x00 ∧ p.b1 = 0x06 then
    if p.b3 = 0x01 then answerDescriptor s s.par.deviceDesc wLength
    else if p.b3 = 0x02 then answerDescriptor s s.par.configDesc wLength
    else if p.b3 = 0x22 then answerDescriptor s s.par.reportDesc wLength
    else if p.b3 = 0x03 then answerDescriptor s (stringDescriptor s.par p.b2) wLength
    else answerDescriptor s [] wLength
  else if t = 0x00 ∧ p.b1 = 0x05 then requestAddress s (le16 p.b2 p.b3)
  else if t = 0x00 ∧ p.b1 = 0x09 then requestConfiguration s
  else answerEmpty s

/-- `ApplyPendingAddress()` (44 R250). -/
def applyPendingAddress (s : State) : State :=
  if s.drv.pendingAddr = 0 then s
  else
    (s.withUsb { s.usb with daddr := ⟨s.drv.pendingAddr, true⟩ }).withDrv { s.drv with pendingAddr := 0 }

/-- GET_DESCRIPTOR, device (44 R242). -/
def execSetupGetDescriptorDevice (_rt _ix : Byte) (_wIndex wLength : Half) (s : State) : Outcome State Fault Refusal :=
  unitStep s (answerDescriptor s s.par.deviceDesc wLength)

/-- GET_DESCRIPTOR, configuration; the descriptor index is not examined (44 R243). -/
def execSetupGetDescriptorConfiguration (_rt _ix : Byte) (_wIndex wLength : Half) (s : State) :
    Outcome State Fault Refusal :=
  unitStep s (answerDescriptor s s.par.configDesc wLength)

/-- GET_DESCRIPTOR, HID report (44 R244). -/
def execSetupGetDescriptorReport (_rt _ix : Byte) (_wIndex wLength : Half) (s : State) : Outcome State Fault Refusal :=
  unitStep s (answerDescriptor s s.par.reportDesc wLength)

/-- GET_DESCRIPTOR, string number `ix`; the language is not examined (44 R245). -/
def execSetupGetDescriptorString (_rt ix : Byte) (_wIndex wLength : Half) (s : State) : Outcome State Fault Refusal :=
  unitStep s (answerDescriptor s (stringDescriptor s.par ix) wLength)

/-- SET_ADDRESS (44 R246). -/
def execSetupSetAddress (_rt : Byte) (wValue _wIndex _wLength : Half) (s : State) : Outcome State Fault Refusal :=
  unitStep s (requestAddress s wValue)

/-- SET_CONFIGURATION; the value is not examined (44 R247). -/
def execSetupSetConfiguration (_rt : Byte) (_wValue _wIndex _wLength : Half) (s : State) : Outcome State Fault Refusal :=
  unitStep s (requestConfiguration s)

/-- Every other request is answered with a zero-length packet (44 R248). -/
def execSetupOther (_p : Packet8) (s : State) : Outcome State Fault Refusal := unitStep s (answerEmpty s)

end Sys2Proof.Machine
end

