-- ==== Sys2Proof/Machine/FlashUnit.lean ====
section
/-! DEFINITION. Unit F's entry and data operand, the flash micro-operations, and the flash controller as an agent
(46_flash_page_programmer.md R291, R293 to R298). The sequencer's steps are in Machine/Service.lean, where the caller it
continues with is. -/

namespace Sys2Proof.Machine

open Host (Outcome)

/-- A byte of `page_buf`; one that nothing has written since the hardware reset is a free value (10_state.md R37, U1;
log 9). -/
def pageByte (s : State) (k : Nat) : Byte := (s.hid.pageBuf.read? k).getD (Config.pageBufUnwritten s.draw k)

/-- Bytes the data operand holds (46 R291). -/
def sourceLength : PageSource → Nat
  | .pageBuf => Config.pageSize
  | .literal d => d.length

/-- `data[k]` of the running `writePage`, read during the sequence (46 R291 (c)). -/
def sourceByte (s : State) (k : Nat) : Res Byte :=
  match s.fseq.source with
  | .pageBuf => if k < Config.pageSize then .ok (pageByte s k) else raise s (.bufferRange .pageBuf k)
  | .literal d =>
    match d[k]? with
    | some v => .ok v
    | none => raise s (.bufferRange .pageBuf k)

/-- Entry of `writePage(A, data, size)`, part of the calling step (46 R291). -/
def startWritePage (s : State) (a : Word) (data : PageSource) (size : Half) (caller : Caller) : Res State :=
  if size ≠ 1024 ∨ sourceLength data < Config.pageSize then refuse .flashSize
  else .ok (s.withFseq ⟨.unlock, a, 0, data, caller⟩)

/-- The unlock sequence: both keys (46 R293, 30_encoding.md R111). -/
def unlockFlash (s : State) : State := s.withFctl (writeKeyr (writeKeyr s.fctl Config.key1) Config.key2)

/-- The erase start: PER, address, PER with STRT (30_encoding.md R111, 46 R294, R295). -/
def startErase (s : State) (a : Word) : Res State := do
  let s ← writeCr s 0x00000002
  let s ← writeAr s a
  writeCr s 0x00000042

/-- FLASHC's completion of the operation in progress (46 R298). -/
def completeFlash (s : State) : State :=
  match s.fctl.pendingOp with
  | .none => s
  | .erase a =>
    (s.withFlash (s.flash.unlist (pageStart s.par a) Config.pageSize)).withFctl
      { s.fctl with strt := false, pendingOp := .none, bsy := false }
  | .prog a h =>
    (s.withFlash (Memory.writeBytes (some Config.flashUnlisted) s.flash a.toNat (halfBytes h))).withFctl
      { s.fctl with pendingOp := .none, bsy := false }

/-- FLASH.WRITEPAGE: a direct call, whose continuation is empty (46 R291, R292; log 27). While the sequencer runs it is
held (log 28). -/
def execFlashWritepage (a : Word) (data : PageSource) (size : Half) (s : State) : Outcome State Fault Refusal :=
  unitStep s (startWritePage s a data size .alone)

/-- FLASHC.COMPLETE; not enabled while nothing is in progress (46 R298). -/
def execFlashcComplete (s : State) : Outcome State Fault Refusal := .next (completeFlash s)

/-- FOP.UNLOCK (46 R293). -/
def execFopUnlock (s : State) : Outcome State Fault Refusal := unitStep s (.ok (unlockFlash s))

/-- FOP.ERASE_PAGE(A) (46 R294). -/
def execFopErasePage (a : Word) (s : State) : Outcome State Fault Refusal := unitStep s (startErase s a)

/-- FOP.PROG_HALFWORD(a, h), and the same write at another width (46 R296). -/
def execFopProgHalfword (width : Width) (a : Word) (h : Half) (s : State) : Outcome State Fault Refusal :=
  unitStep s (writeFlash s width a h)

/-- FOP.LOCK (46 R294). -/
def execFopLock (s : State) : Outcome State Fault Refusal := unitStep s (writeCr s 0x00000080)

end Sys2Proof.Machine
end

