-- ==== Sys2Proof/Machine/HidUnit.lean ====
section
/-! DEFINITION. Unit H (45_hid_reassembly_commands.md): the append, the command check, the two commands, the start of a
page commit, the bus-reset handler, and the meanings of the CMD64, ACK8, DATA8 and HID rows. -/

namespace Sys2Proof.Machine

open Host (Outcome)

/-- HID.APPEND (45 R262). A write beyond `page_buf[1023]`, which the invariant of R262 excludes, is a fault (log 20). -/
def appendPacket (s : State) (rx : Packet8) : Res State :=
  if s.hid.pageOffset.toNat + Config.maxPacket ≤ Config.pageSize then
    .ok (s.withHid { s.hid with
      pageBuf := Memory.writeBytes none s.hid.pageBuf s.hid.pageOffset.toNat rx.toList
      pageOffset := s.hid.pageOffset + 8 })
  else raise s (.bufferRange .pageBuf s.hid.pageOffset.toNat)

/-- `IsCommand(page_buf)`: the signature in bytes 0 to 6 and zeros in bytes 8 to 63 (45 R263). -/
def isCommand (s : State) : Bool :=
  (List.range 7).map (pageByte s) == Config.sig && (List.range 56).all (fun k => pageByte s (8 + k) == 0)

/-- Command reset-pages (45 R264). -/
def resetPages (s : State) : State :=
  s.withHid { s.hid with pageIndex := s.par.firstPage, pageOffset := 0, uploadStarted := true }

/-- Command reboot (45 R265). -/
def requestReboot (s : State) : State := s.withHid { s.hid with uploadFinished := true }

/-- Dispatch on the opcode byte of a recognised frame (45 R261, R264, R265). -/
def runCommand (s : State) (opcode : Byte) : State :=
  if opcode = Config.opResetPages then resetPages s
  else if opcode = Config.opReboot then requestReboot s
  else s

/-- The start of a page commit (45 R261, R266): the index is checked before the flash controller is touched. -/
def commitPage (s : State) (caller : Caller) : Res State :=
  if s.par.flashPages.toNat ≤ s.hid.pageIndex.toNat then raise s (.flashRange s.hid.pageIndex.toNat)
  else startWritePage s (pageAddress s.par s.hid.pageIndex) .pageBuf 1024 caller

/-- `HidData(rx)` (45 R261), up to the point where a commit waits for the flash sequencer. -/
def hidData (s : State) (rx : Packet8) (caller : Caller) : Res State := do
  let s ← appendPacket s rx
  if s.hid.pageOffset = 64 ∧ isCommand s = true then .ok (runCommand s (pageByte s 7))
  else if s.hid.pageOffset = 1024 then commitPage s caller
  else .ok s

/-- The acknowledgment frame is queued on endpoint 1 (45 R266, 30_encoding.md R104). -/
def acknowledge (s : State) : Res State := sendData s 1 Config.ackFrame 8

/-- `HidBusReset()`, the reset handler (45 R270). -/
def hidBusReset (s : State) : State :=
  let s := epConfigure s
  let s := s.withDrv { s.drv with pendingAddr := 0, configured := false, devStatus := 0 }
  let s := s.withHid { s.hid with pageIndex := s.par.firstPage, pageOffset := 0 }
  s.withUsb (writeDaddr s.usb 0x0080)

/-- CMD.RESET_PAGES (45 R264); recognition is `hidData`'s (log 16). -/
def execCmdResetPages (s : State) : Outcome State Fault Refusal := unitStep s (.ok (resetPages s))

/-- CMD.REBOOT (45 R265; log 16). -/
def execCmdReboot (s : State) : Outcome State Fault Refusal := unitStep s (.ok (requestReboot s))

/-- CMD.IGNORED: any other opcode does nothing (45 R265). -/
def execCmdIgnored (_opcode : Byte) (s : State) : Outcome State Fault Refusal := unitStep s (.ok s)

/-- ACK.PAGE: the frame is queued on endpoint 1 (45 R266; log 17). -/
def execAckPage (s : State) : Outcome State Fault Refusal := unitStep s (acknowledge s)

/-- DATA.APPEND: the packet is appended at `page_offset` (45 R262; log 18). -/
def execDataAppend (d : Packet8) (s : State) : Outcome State Fault Refusal := unitStep s (appendPacket s d)

/-- HID.APPEND (45 R262; log 18). -/
def execHidAppend (rx : Packet8) (s : State) : Outcome State Fault Refusal := unitStep s (appendPacket s rx)

/-- HID.BUSRESET (45 R270). -/
def execHidBusreset (s : State) : Outcome State Fault Refusal := unitStep s (.ok (hidBusReset s))

end Sys2Proof.Machine
end

