-- ==== Sys2Proof/Machine/Service.lean ====
section
/-! DEFINITION. The endpoint service (42_usb_endpoint_buffer_manager.md R190) and the flash sequencer's steps
(46_flash_page_programmer.md R291), which meet where a page commit ends: the step that re-locks the controller goes on
with the rest of its caller (46 R292). Between them, what is done for the sources bus reset, suspend and wakeup. -/

namespace Sys2Proof.Machine

open Host (Outcome)

/-- The transmit half of `EpService(e)` (42 R190). -/
def transmitHalf (s : State) (e : Ep) : Res State :=
  if (s.usb.ep e).ctrTx then
    let s := clearCtrTx s e
    let s := if e = .ep0 then applyPendingAddress s else s
    if 0 < (s.drv.ets e).txRemaining.toNat then txChunk s e else .ok s
  else .ok s

/-- The end of the receive half, the re-arm, and the transmit half (42 R190). -/
def afterReceive (s : State) (e : Ep) : Res State := transmitHalf (setStatRx s e .valid) e

/-- The receive half of `EpService(e)` up to the acknowledgment of the completion: the packet is in `rx_buf`. A count
beyond the 8 bytes of `rx_buf`, which the SIE's rule excludes, is a fault (42 R190; log 20). -/
def takePacket (s : State) (e : Ep) : Res State := do
  let count ← bdtRead s e offCountRx
  let bytes ← bufferRead s e offAddrRx (byteCount count)
  if Config.maxPacket < byteCount count then raise s (.bufferRange .rxBuf Config.maxPacket)
  else
    let x := s.drv.ets e
    let s := s.setEts e { x with rxBuf := overlay x.rxBuf bytes, rxLen := BitVec.ofNat 16 (byteCount count) }
    .ok (clearCtrRx s e)

/-- `EpService(e)` (42 R190). When its hook starts a page commit it stops there: the sequencer's last step goes on with
`afterReceive` (46 R292). -/
def epService (s : State) (e : Ep) (caller : Caller) : Res State :=
  if (s.usb.ep e).ctrRx then do
    let s ← takePacket s e
    let x := s.drv.ets e
    if e = .ep0 ∧ (s.usb.ep e).setup = true then do
      let s ← handleSetup s x.rxBuf
      afterReceive s e
    else if e = .ep0 ∧ x.rxLen ≠ 0 then do
      let s ← hidData s x.rxBuf caller
      if s.fseq.state = .idle then afterReceive s e else .ok s
    else afterReceive s e
  else transmitHalf s e

/-- `EpService` on a four-bit endpoint number: a number that names no endpoint register finds no flag, because unlisted
registers read 0 (10_state.md R21; log 29). -/
def serveEndpoint (s : State) (e : BitVec 4) (caller : Caller) : Res State :=
  match epOfNat e.toNat with
  | some ep => epService s ep caller
  | none => .ok s

/-! ### The sources after transfer-complete, in the order of 43_usb_packet_dispatcher.md R222 -/

/-- Bus reset: ISTR <- 0xFBFF, then the registered handler (43_usb_packet_dispatcher.md R222 (b)). -/
def serveReset (s : State) : State :=
  let s := s.withUsb (writeIstr s.usb 0xFBFF)
  if s.drv.cbReset then hidBusReset s else s

/-- Suspend: ISTR <- 0xF7FF, then an assigned address is revoked, EF kept (43 R222 (c), D29). -/
def serveSusp (s : State) : State :=
  let u := writeIstr s.usb 0xF7FF
  s.withUsb { u with daddr := { u.daddr with add := 0 } }

/-- Wakeup: ISTR <- 0xEFFF, acknowledge only (43 R222 (d)). -/
def serveWkup (s : State) : State := s.withUsb (writeIstr s.usb 0xEFFF)

/-- What a status word asks for after suspend: wakeup (43 R222, 30_encoding.md R118). -/
def laterThanSusp (w : Half) (s : State) : State := if bit w 12 then serveWkup s else s

/-- What a status word asks for after bus reset: suspend and wakeup (43 R222, 30_encoding.md R118). -/
def laterThanReset (w : Half) (s : State) : State := laterThanSusp w (if bit w 11 then serveSusp s else s)

/-- What a status word asks for after transfer-complete: bus reset, suspend and wakeup (43 R222, 30_encoding.md R118). -/
def laterThanCtr (w : Half) (s : State) : State := laterThanReset w (if bit w 10 then serveReset s else s)

/-! ### The end of a commit and the sequencer -/

/-- The rest of `HidData` after its commit, and of the endpoint service that called it (46 R292). -/
def finishCommit (s : State) : Res State := do
  let s := s.withHid { s.hid with pageIndex := s.hid.pageIndex + 1, pageOffset := 0 }
  let s ← acknowledge s
  afterReceive s .ep0

/-- What the F_LOCK step goes on with (46 R292; log 27). -/
def continueCaller (s : State) : Res State :=
  match s.fseq.caller with
  | .alone => .ok s
  | .service => finishCommit s
  | .event w => do
    let s ← finishCommit s
    .ok (laterThanCtr w s)
  | .dispatcher => do
    let s ← finishCommit s
    .ok (s.withDisp { s.disp with state := .doReset })

/-- Moves the sequencer. -/
def setFseqState (s : State) (x : FseqState) : State := s.withFseq { s.fseq with state := x }

/-- One step of the flash sequencer (46 R291); a `wait until` that does not hold changes nothing. -/
def fseqStep (s : State) : Res State :=
  match s.fseq.state with
  | .idle => .ok s
  | .unlock => .ok (setFseqState (unlockFlash s) .waitIdle)
  | .waitIdle => if s.fctl.bsy then .ok s else .ok (setFseqState s .erase)
  | .erase => do
    let s ← startErase s s.fseq.addr
    .ok (setFseqState s .waitErase)
  | .waitErase =>
    if s.fctl.bsy then .ok s
    else do
      let s ← writeCr s 0x00000000
      .ok (setFseqState s .prog)
  | .prog => do
    let s ← writeCr s 0x00000001
    let b0 ← sourceByte s (2 * s.fseq.i.toNat)
    let b1 ← sourceByte s (2 * s.fseq.i.toNat + 1)
    let s ← writeFlash s .w16 (s.fseq.addr + 2 * zext32 s.fseq.i) (le16 b0 b1)
    .ok (setFseqState s .waitProg)
  | .waitProg =>
    if s.fctl.bsy then .ok s
    else
      let s := s.withFseq { s.fseq with i := s.fseq.i + 1 }
      if s.fseq.i.toNat < 512 then .ok (setFseqState s .prog)
      else do
        let s ← writeCr s 0x00000000
        .ok (setFseqState s .lock)
  | .lock => do
    let s ← writeCr s 0x00000080
    continueCaller (setFseqState s .idle)

/-- EP.SERVICE: a direct call of the endpoint service (42 R190). -/
def execEpService (e : BitVec 4) (s : State) : Outcome State Fault Refusal := unitStep s (serveEndpoint s e .service)

end Sys2Proof.Machine
end

