-- ==== Sys2Proof/Machine/Dispatcher.lean ====
section
/-! DEFINITION. The packet dispatcher (43_usb_packet_dispatcher.md R220 to R223): transfer-complete, the meanings of the EVT
rows (the flagged sources of a given status word), and the dispatcher's steps, the meanings of the DISP rows. -/

namespace Sys2Proof.Machine

open Host (Outcome)

/-- Transfer-complete: the registered callback, else the endpoint's flags are cleared (43 R222 (a), D26). -/
def serveCtr (s : State) (n : BitVec 4) (caller : Caller) : Res State :=
  if s.drv.cbEp then serveEndpoint s n caller
  else
    match epOfNat n.toNat with
    | some e => .ok (clearCtrTx (clearCtrRx s e) e)
    | none => .ok s

/-- Moves the dispatcher. -/
def setDispState (s : State) (x : DispState) : State := s.withDisp { s.disp with state := x }

/-- A dispatcher step is enabled in its own state only, and not while the flash sequencer runs (43 R220 to R222,
46_flash_page_programmer.md R292; log 4). -/
def dispStep (s : State) (x : DispState) (r : Res State) : Outcome State Fault Refusal :=
  if s.disp.state = x ∧ s.fseq.state = .idle then finish r else .next s

/-- Transfer-complete and every later row that the word matches (30_encoding.md R118). A page commit that the service starts
goes on with the later rows at its end (46_flash_page_programmer.md R292; log 27). -/
def serveEvent (s : State) (w : Half) : Res State := do
  let s ← serveCtr s (field w 0 4) (.event w)
  if s.fseq.state = .idle then .ok (laterThanCtr w s) else .ok s

/-- EVT.CTR: transfer-complete, then the other flagged sources of the status word (43 R222, 30_encoding.md R118; log 19). -/
def execEvtCtr (w : Half) (s : State) : Outcome State Fault Refusal := unitStep s (serveEvent s w)

/-- EVT.RESET: bus reset, then the later flagged sources of the status word (43 R222, 30_encoding.md R118; log 19). -/
def execEvtReset (w : Half) (s : State) : Outcome State Fault Refusal :=
  unitStep s (.ok (laterThanReset w (serveReset s)))

/-- EVT.SUSP: suspend, then wakeup where the status word has it (43 R222, 30_encoding.md R118; log 19). -/
def execEvtSusp (w : Half) (s : State) : Outcome State Fault Refusal :=
  unitStep s (.ok (laterThanSusp w (serveSusp s)))

/-- EVT.WKUP: wakeup, the last source (43 R222; log 19). -/
def execEvtWkup (_w : Half) (s : State) : Outcome State Fault Refusal := unitStep s (.ok (serveWkup s))

/-- DISP.ENTER (43 R220). -/
def execDispEnter (s : State) : Outcome State Fault Refusal :=
  if interruptTaken s then .next (enterInterrupt s) else .next s

/-- The status read and the exit, one step (43 R221). -/
def readStatus (s : State) : State :=
  let w := s.usb.snapshot
  let s := s.withDisp { s.disp with snap := w }
  if w &&& 0x9C00 ≠ 0 then setDispState s .doCtr else returnInterrupt s

/-- EVT.NONE: the status read that finds no flagged source, which is the dispatcher's only return. It is enabled where that
read is, in READ, and when the live status has none; otherwise it is held (43 R221, R223, 60_exceptions.md R327; log 4,
log 19). -/
def execEvtNone (_w : Half) (s : State) : Outcome State Fault Refusal :=
  dispStep s .read (.ok (if s.usb.snapshot &&& 0x9C00 = 0 then readStatus s else s))

/-- DISP.READ (43 R221). -/
def execDispRead (s : State) : Outcome State Fault Refusal := dispStep s .read (.ok (readStatus s))

/-- DO_CTR of one pass, up to a page commit (43 R222). -/
def handleCtr (s : State) : Res State := do
  let s ← (if bit s.disp.snap 15 then serveCtr s (field s.disp.snap 0 4) .dispatcher else .ok s : Res State)
  if s.fseq.state = .idle then .ok (setDispState s .doReset) else .ok s

/-- DISP.CTR: the handler in DO_CTR; while the flash sequencer runs it is the sequencer's step, the only DISP step then
enabled (43 R222, 46_flash_page_programmer.md R291, R292). -/
def execDispCtr (s : State) : Outcome State Fault Refusal :=
  if s.fseq.state = .idle then dispStep s .doCtr (handleCtr s) else finish (fseqStep s)

/-- DISP.RESET (43 R222). -/
def execDispReset (s : State) : Outcome State Fault Refusal :=
  dispStep s .doReset (.ok (setDispState (if bit s.disp.snap 10 then serveReset s else s) .doSusp))

/-- DISP.SUSP (43 R222). -/
def execDispSusp (s : State) : Outcome State Fault Refusal :=
  dispStep s .doSusp (.ok (setDispState (if bit s.disp.snap 11 then serveSusp s else s) .doWkup))

/-- DISP.WKUP (43 R222). -/
def execDispWkup (s : State) : Outcome State Fault Refusal :=
  dispStep s .doWkup (.ok (setDispState (if bit s.disp.snap 12 then serveWkup s else s) .read))

end Sys2Proof.Machine
end

