-- ==== Sys2Proof/Machine/Main.lean ====
section
/-! DEFINITION. The main line: `initialize` and `shutdown` (41_usb_register_interface.md R160, R161), the boot controller
(40_boot_controller_interface.md R131 to R136), the hardware resets (40 R139), and the two things the outside does to the
environment that are no operation of the table (10_state.md R47, 40 R133). -/

namespace Sys2Proof.Machine

open Host (Outcome)

/-- `initialize` clears an Endpoint Transfer State; `max_packet` is kept (41 R160, 10_state.md R50). -/
def clearedEts (x : EpXfer) : EpXfer := { x with rxBuf := Packet8.zero, rxLen := 0, txQueue := [], txRemaining := 0 }

/-- The driver after `initialize` (41 R160). -/
def bringUpDriver (d : Driver) : Driver :=
  { d with cbEp := true, cbReset := true, ets0 := clearedEts d.ets0, ets1 := clearedEts d.ets1 }

/-- The register writes of `initialize`, in order. The wait for ISTR.RESET is satisfied at once, because the write of
FRES = 1 latched it (41 R160). -/
def bringUpUsb (u : Usb) : Usb :=
  let u := { u with dpForceLow := false }
  let u := writeCntr u 0x0001
  let u := writeCntr u 0x0000
  let u := writeIstr u 0x0000
  let u := writeCntr u 0x9C00
  { u with irqEn := true }

/-- `initialize(EpService, HidBusReset)` (41 R160). -/
def bringUp (s : State) : State :=
  let s := s.withDrv (bringUpDriver s.drv)
  let s := s.withHid { s.hid with uploadStarted := false, uploadFinished := false }
  s.withUsb (bringUpUsb s.usb)

/-- The register writes of `shutdown`, in order (41 R161). -/
def shutDownUsb (u : Usb) : Usb :=
  let u := { u with irqEn := false }
  let u := writeCntr u 0x0003
  let u := writeIstr u 0x0000
  { u with dpForceLow := true }

/-- `shutdown()` (41 R161). -/
def shutDown (s : State) : State :=
  let s := s.withUsb (shutDownUsb s.usb)
  s.withDrv { s.drv with pendingAddr := 0, configured := false, devStatus := 0, cbEp := false, cbReset := false }

/-- DRV.INITIALIZE (41 R160). -/
def execDrvInitialize (s : State) : Outcome State Fault Refusal := mainStep s (.ok (bringUp s))

/-- DRV.SHUTDOWN (41 R161). -/
def execDrvShutdown (s : State) : Outcome State Fault Refusal := mainStep s (.ok (shutDown s))

/-- BOOT.EVALUATE: read and clear the Magic Word, then decide (40 R131). -/
def evaluate (s : State) : Res State := do
  let m := s.boot.magic
  let s := s.withBoot { s.boot with magic := 0 }
  let v ← flashRead32 s (appBase s.par)
  let update := m = Config.magic ∨ s.boot.bootPin = true ∨ checkUserCode s.par v = false
  .ok (s.withBoot { s.boot with state := if update then .updateMode else .launch })

/-- Moves MAIN within UpdateMode (40 R135; log 14). -/
def setUm (s : State) (x : UmStep) : State := s.withBoot { s.boot with um := x }

/-- One poll of the flag (40 R135). -/
def pollFinished (s : State) : State :=
  setUm (s.withResult (.polled s.hid.uploadFinished)) (if s.hid.uploadFinished then .shutdownLast else .blink)

/-- The idle blink (40 R135). -/
def blinkIdle (s : State) : State :=
  let s := if s.hid.uploadStarted then s else s.withBoot { s.boot with indicator := !s.boot.indicator }
  setUm s .poll

/-- One MAIN step of UpdateMode (40 R135). -/
def updateModeStep (s : State) : State :=
  match s.boot.um with
  | .shutdownFirst => setUm (shutDown s) .bringUp
  | .bringUp => setUm (bringUp s) .poll
  | .poll => pollFinished s
  | .blink => blinkIdle s
  | .shutdownLast => setUm (shutDown s) .reset
  | .reset => hardwareReset s s.boot.magic

/-- BOOT.LAUNCH: the handoff (40 R136). -/
def launch (s : State) : Res State := do
  let m ← flashRead32 s (appBase s.par)
  let p ← flashRead32 s (appBase s.par + 4)
  .ok (s.withBoot { s.boot with vtor := appBase s.par, msp := m, pcApp := p, launched := true })

/-- BOOT.EVALUATE, enabled in EVALUATE (40 R131). -/
def execBootEvaluate (s : State) : Outcome State Fault Refusal :=
  mainStep s (if s.boot.state = .evaluate then evaluate s else .ok s)

/-- BOOT.UPDATEMODE, enabled in UPDATE_MODE: the next MAIN step of its sequence (40 R135; log 14). -/
def execBootUpdatemode (s : State) : Outcome State Fault Refusal :=
  mainStep s (.ok (if s.boot.state = .updateMode then updateModeStep s else s))

/-- BOOT.LAUNCH, enabled in LAUNCH (40 R136). -/
def execBootLaunch (s : State) : Outcome State Fault Refusal :=
  mainStep s (if s.boot.state = .launch then launch s else .ok s)

/-- BOOT.SYSRESET: HW.RESET issued by MAIN (40 R139). -/
def execBootSysreset (s : State) : Outcome State Fault Refusal := mainStep s (.ok (hardwareReset s s.boot.magic))

/-- HW.RESET, at any time (40 R139). -/
def execHwReset (s : State) : Outcome State Fault Refusal := .next (hardwareReset s s.boot.magic)

/-- HW.POWERLOSS, at any time: the Magic Word is lost too (40 R139, 10_state.md R46). -/
def execHwPowerloss (s : State) : Outcome State Fault Refusal := .next (hardwareReset s 0x0000)

/-- The outside moves the boot-select pin (10_state.md R47; log 33). -/
def setBootPin (s : State) (b : Bool) : State := s.withBoot { s.boot with bootPin := b }

/-- The out-of-band trigger: while `boot_state = LAUNCH` the running application writes the Magic Word and resets itself
(40 R133; log 33). -/
def outOfBandTrigger (s : State) : State := if s.boot.state = .launch then hardwareReset s Config.magic else s

end Sys2Proof.Machine
end

