-- ==== Sys2Proof/Machine/Registers.lean ====
section
/-! DEFINITION. The meanings of the register and descriptor-table accesses (41_usb_register_interface.md R150 to R157,
46_flash_page_programmer.md R293 to R295, 42_usb_endpoint_buffer_manager.md R180). No agent's hold applies: nothing
stops a context from touching a register (60_exceptions.md R333). -/

namespace Sys2Proof.Machine

open Host (Outcome)

/-- REG.READ (41 R151). -/
def execRegRead (win : Window) (width : Width) (offset : Half) (s : State) : Outcome State Fault Refusal :=
  finish (regRead s win width offset)

/-- REG.WRITE (41 R152). -/
def execRegWrite (win : Window) (width : Width) (offset : Half) (value : Word) (s : State) :
    Outcome State Fault Refusal :=
  finish (regWrite s win width offset value)

/-- EP0R (41 R157). -/
def execRegEp0r (acc : Access 16) (s : State) : Outcome State Fault Refusal := finish (accessUsb s 0x00 acc)

/-- EP1R (41 R157). -/
def execRegEp1r (acc : Access 16) (s : State) : Outcome State Fault Refusal := finish (accessUsb s 0x04 acc)

/-- CNTR (41 R153). -/
def execRegCntr (acc : Access 16) (s : State) : Outcome State Fault Refusal := finish (accessUsb s 0x40 acc)

/-- ISTR (41 R154). -/
def execRegIstr (acc : Access 16) (s : State) : Outcome State Fault Refusal := finish (accessUsb s 0x44 acc)

/-- DADDR (41 R155). -/
def execRegDaddr (acc : Access 16) (s : State) : Outcome State Fault Refusal := finish (accessUsb s 0x4C acc)

/-- BTABLE (41 R156). -/
def execRegBtable (acc : Access 16) (s : State) : Outcome State Fault Refusal := finish (accessUsb s 0x50 acc)

/-- FLASH_KEYR (46 R293). -/
def execRegFlashKeyr (acc : Access 32) (s : State) : Outcome State Fault Refusal := finish (accessFlashReg s 0x04 acc)

/-- FLASH_SR, read-only (41 R151, 10_state.md R40). -/
def execRegFlashSr (acc : Access 32) (s : State) : Outcome State Fault Refusal := finish (accessFlashReg s 0x0C acc)

/-- FLASH_CR (46 R294). -/
def execRegFlashCr (acc : Access 32) (s : State) : Outcome State Fault Refusal := finish (accessFlashReg s 0x10 acc)

/-- FLASH_AR (46 R295). -/
def execRegFlashAr (acc : Access 32) (s : State) : Outcome State Fault Refusal := finish (accessFlashReg s 0x14 acc)

/-- ADDR_TX (42 R180). -/
def execBdtAddrTx (n : Ep) (acc : Access 16) (s : State) : Outcome State Fault Refusal :=
  unitStep s (accessBdt s n offAddrTx acc)

/-- COUNT_TX (42 R180). -/
def execBdtCountTx (n : Ep) (acc : Access 16) (s : State) : Outcome State Fault Refusal :=
  unitStep s (accessBdt s n offCountTx acc)

/-- ADDR_RX (42 R180). -/
def execBdtAddrRx (n : Ep) (acc : Access 16) (s : State) : Outcome State Fault Refusal :=
  unitStep s (accessBdt s n offAddrRx acc)

/-- COUNT_RX (42 R180). -/
def execBdtCountRx (n : Ep) (acc : Access 16) (s : State) : Outcome State Fault Refusal :=
  unitStep s (accessBdt s n offCountRx acc)

end Sys2Proof.Machine
end

