-- ==== Sys2Proof/Machine/Dispatch.lean ====
section
/-! DEFINITION. The meaning of every operation, one arm per row of opcode_table.json. -/

namespace Sys2Proof.Machine

def exec (i : Instr) (s : State) : Host.Outcome State Fault Refusal :=
  match i with
  | .cmdResetPages => Sys2Proof.Machine.execCmdResetPages s
  | .cmdReboot => Sys2Proof.Machine.execCmdReboot s
  | .cmdIgnored opcode => Sys2Proof.Machine.execCmdIgnored opcode s
  | .ackPage => Sys2Proof.Machine.execAckPage s
  | .dataAppend d => Sys2Proof.Machine.execDataAppend d s
  | .setupGetDescriptorDevice rt ix wIndex wLength => Sys2Proof.Machine.execSetupGetDescriptorDevice rt ix wIndex wLength s
  | .setupGetDescriptorConfiguration rt ix wIndex wLength => Sys2Proof.Machine.execSetupGetDescriptorConfiguration rt ix wIndex wLength s
  | .setupGetDescriptorReport rt ix wIndex wLength => Sys2Proof.Machine.execSetupGetDescriptorReport rt ix wIndex wLength s
  | .setupGetDescriptorString rt ix wIndex wLength => Sys2Proof.Machine.execSetupGetDescriptorString rt ix wIndex wLength s
  | .setupSetAddress rt wValue wIndex wLength => Sys2Proof.Machine.execSetupSetAddress rt wValue wIndex wLength s
  | .setupSetConfiguration rt wValue wIndex wLength => Sys2Proof.Machine.execSetupSetConfiguration rt wValue wIndex wLength s
  | .setupOther p => Sys2Proof.Machine.execSetupOther p s
  | .evtCtr w => Sys2Proof.Machine.execEvtCtr w s
  | .evtReset w => Sys2Proof.Machine.execEvtReset w s
  | .evtSusp w => Sys2Proof.Machine.execEvtSusp w s
  | .evtWkup w => Sys2Proof.Machine.execEvtWkup w s
  | .evtNone w => Sys2Proof.Machine.execEvtNone w s
  | .regEp0r acc => Sys2Proof.Machine.execRegEp0r acc s
  | .regEp1r acc => Sys2Proof.Machine.execRegEp1r acc s
  | .regCntr acc => Sys2Proof.Machine.execRegCntr acc s
  | .regIstr acc => Sys2Proof.Machine.execRegIstr acc s
  | .regDaddr acc => Sys2Proof.Machine.execRegDaddr acc s
  | .regBtable acc => Sys2Proof.Machine.execRegBtable acc s
  | .regFlashKeyr acc => Sys2Proof.Machine.execRegFlashKeyr acc s
  | .regFlashSr acc => Sys2Proof.Machine.execRegFlashSr acc s
  | .regFlashCr acc => Sys2Proof.Machine.execRegFlashCr acc s
  | .regFlashAr acc => Sys2Proof.Machine.execRegFlashAr acc s
  | .bdtAddrTx n acc => Sys2Proof.Machine.execBdtAddrTx n acc s
  | .bdtCountTx n acc => Sys2Proof.Machine.execBdtCountTx n acc s
  | .bdtAddrRx n acc => Sys2Proof.Machine.execBdtAddrRx n acc s
  | .bdtCountRx n acc => Sys2Proof.Machine.execBdtCountRx n acc s
  | .fopUnlock => Sys2Proof.Machine.execFopUnlock s
  | .fopErasePage a => Sys2Proof.Machine.execFopErasePage a s
  | .fopProgHalfword width a h => Sys2Proof.Machine.execFopProgHalfword width a h s
  | .fopLock => Sys2Proof.Machine.execFopLock s
  | .hostReset => Sys2Proof.Machine.execHostReset s
  | .hostSuspend => Sys2Proof.Machine.execHostSuspend s
  | .hostWakeup => Sys2Proof.Machine.execHostWakeup s
  | .hostSetup a e d => Sys2Proof.Machine.execHostSetup a e d s
  | .hostOut a e d => Sys2Proof.Machine.execHostOut a e d s
  | .hostIn a e => Sys2Proof.Machine.execHostIn a e s
  | .hwReset => Sys2Proof.Machine.execHwReset s
  | .hwPowerloss => Sys2Proof.Machine.execHwPowerloss s
  | .drvInitialize => Sys2Proof.Machine.execDrvInitialize s
  | .drvShutdown => Sys2Proof.Machine.execDrvShutdown s
  | .drvSenddata e data length => Sys2Proof.Machine.execDrvSenddata e data length s
  | .flashWritepage a data size => Sys2Proof.Machine.execFlashWritepage a data size s
  | .flashcComplete => Sys2Proof.Machine.execFlashcComplete s
  | .regRead win width offset => Sys2Proof.Machine.execRegRead win width offset s
  | .regWrite win width offset value => Sys2Proof.Machine.execRegWrite win width offset value s
  | .dispEnter => Sys2Proof.Machine.execDispEnter s
  | .dispRead => Sys2Proof.Machine.execDispRead s
  | .dispCtr => Sys2Proof.Machine.execDispCtr s
  | .dispReset => Sys2Proof.Machine.execDispReset s
  | .dispSusp => Sys2Proof.Machine.execDispSusp s
  | .dispWkup => Sys2Proof.Machine.execDispWkup s
  | .epService e => Sys2Proof.Machine.execEpService e s
  | .epTxchunk e => Sys2Proof.Machine.execEpTxchunk e s
  | .epConfigure => Sys2Proof.Machine.execEpConfigure s
  | .hidAppend rx => Sys2Proof.Machine.execHidAppend rx s
  | .hidBusreset => Sys2Proof.Machine.execHidBusreset s
  | .bootEvaluate => Sys2Proof.Machine.execBootEvaluate s
  | .bootUpdatemode => Sys2Proof.Machine.execBootUpdatemode s
  | .bootLaunch => Sys2Proof.Machine.execBootLaunch s
  | .bootSysreset => Sys2Proof.Machine.execBootSysreset s

end Sys2Proof.Machine
end

