-- ==== Sys2Proof/Machine/Step.lean ====
section
/-! DEFINITION. One step of the machine. The block fetches no program (00_scope.md R8): a step takes the next stimulus, which
says what happens between two atomic steps of the agents (log 1). -/

namespace Sys2Proof.Machine

open Host (Outcome)

/-- The operation is a hardware reset, the only thing the block does after BOOT.LAUNCH
(40_boot_controller_interface.md R136, R141). -/
def isHardwareReset : Instr → Bool
  | .hwReset => true
  | .hwPowerloss => true
  | _ => false

/-- An operation reached as the next stimulus: held for ever after BOOT.LAUNCH unless it is a hardware reset
(40 R136; log 15). -/
def stepOp (i : Instr) (s : State) : Outcome State Fault Refusal :=
  if s.boot.launched = true ∧ isHardwareReset i = false then .next s else exec i s

/-- What one stimulus does; bytes that encode no operation are refused by name. -/
def stepStimulus (x : Stimulus) (s : State) : Outcome State Fault Refusal :=
  match x with
  | .op format bytes =>
    match decode format bytes with
    | .ok i => stepOp i s
    | .error e => .refused (.undecodable e)
  | .bootPin b => .next (setBootPin s b)
  | .outOfBand => .next (outOfBandTrigger s)

/-- One step: a recorded fault stops the run (log 6); with no stimulus no agent steps (log 1); else the next stimulus is
taken off, the answer of the operation before is dropped, and the stimulus acts. -/
def step (s : State) : Outcome State Fault Refusal :=
  match s.faults with
  | f :: _ => .fault f
  | [] =>
    match s.input with
    | [] => .next s
    | x :: rest => stepStimulus x { s with input := rest, result := .none }

/-- The table word's operation as the very next stimulus (the host's interface; log 1, log 3). A word that no format
decodes is offered as an OP, which the step then refuses by name. -/
def State.withFetchWord (s : State) (nbits w : Nat) : State :=
  let format :=
    match decodeTableFormat nbits w with
    | some (f, _) => f
    | none => .op
  { s with input := .op format (tableWordBytes nbits w) :: s.input }

end Sys2Proof.Machine
end

