-- ==== Sys2Proof/Safety.lean ====
section
/-! DEFINITION. What counts as a safe run, in the terms the statements use: the invariant the spec's rules keep, the
stronger one that the block's own agents keep, the conditions under which an operation has its own effect, and the
shapes of the effects several operations share. -/

namespace Sys2Proof.Machine

open Host (Outcome)

/-! ### The invariant every step keeps -/

/-- Packet memory is canonical and lies in its 512 bytes (10_state.md R30, 20_memory.md R70). -/
def PmaOk (m : Memory) : Prop := Memory.wf none m = true ∧ ∀ c ∈ m, c.1 < Config.pmaSize

/-- The page buffer is canonical and lies in its 1024 bytes (10_state.md R37). -/
def PageBufOk (m : Memory) : Prop := Memory.wf none m = true ∧ ∀ c ∈ m, c.1 < Config.pageSize

/-- The flash array is canonical and lies in its address range (10_state.md R45, 20_memory.md R71). -/
def FlashOk (p : Params) (m : Memory) : Prop :=
  Memory.wf (some Config.flashUnlisted) m = true ∧ ∀ c ∈ m, inFlash p c.1 = true

/-- An Endpoint Transfer State: `tx_remaining` is the length of `tx_queue`, `max_packet` is 8, `rx_len` at most 8
(10_state.md R33). -/
def XferOk (x : EpXfer) : Prop :=
  x.txQueue.length = x.txRemaining.toNat ∧ x.maxPacket = 8 ∧ x.rxLen.toNat ≤ 8

/-- Whenever the interrupt line is enabled both callbacks are registered (41_usb_register_interface.md R162). -/
def CallbacksOk (s : State) : Prop := s.usb.irqEn = true → s.drv.cbEp = true ∧ s.drv.cbReset = true

/-- The address of the operation in progress lies in the array, a halfword's at an even address
(46_flash_page_programmer.md R294, R296). -/
def PendingOk (p : Params) : PendingOp → Prop
  | .none => True
  | .erase a => inFlash p a.toNat = true
  | .prog a _ => inFlash p a.toNat = true ∧ bit a 0 = false

/-- BSY exactly while an operation is in progress, STRT exactly while it is an erase, never PG with PER
(10_state.md R41, R43, 46_flash_page_programmer.md R294). -/
def FlashCtlOk (p : Params) (f : FlashCtl) : Prop :=
  (f.bsy = true ↔ f.pendingOp ≠ .none) ∧ (f.strt = true ↔ ∃ a, f.pendingOp = .erase a) ∧
    ¬(f.pg = true ∧ f.per = true) ∧ PendingOk p f.pendingOp

/-- The upload cursor: the offset is a multiple of 8 and at most 1024, the page index never falls below FIRST_PAGE
(10_state.md R36, R45, 45_hid_reassembly_commands.md R262). -/
def CursorOk (p : Params) (h : Hid) : Prop :=
  h.pageOffset.toNat % 8 = 0 ∧ h.pageOffset.toNat ≤ Config.pageSize ∧
    p.firstPage.toNat ≤ h.pageIndex.toNat ∧ h.pageIndex.toNat ≤ p.flashPages.toNat

/-- The halfword index of a running `writePage`: 0 until the erase is done, below 512 while it programs
(46_flash_page_programmer.md R291). -/
def SequencerIndexOk (f : FlashSeq) : Prop :=
  match f.state with
  | .idle | .lock => True
  | .unlock | .waitIdle | .erase | .waitErase => f.i = 0
  | .prog | .waitProg => f.i.toNat < 512

/-- A running `writePage` has 1024 bytes of data, a commit's page lies in the array, and a commit of the dispatcher runs
in DO_CTR (46_flash_page_programmer.md R291, R292, 45_hid_reassembly_commands.md R266). -/
def SequencerOk (s : State) : Prop :=
  SequencerIndexOk s.fseq ∧
    (s.fseq.state ≠ .idle →
      Config.pageSize ≤ sourceLength s.fseq.source ∧
      (s.fseq.caller ≠ .alone → s.hid.pageIndex.toNat < s.par.flashPages.toNat) ∧
      (s.fseq.caller = .dispatcher → s.disp.state = .doCtr))

/-- The invariant of the block: what the spec's rules keep in every step of every agent. -/
structure Inv (s : State) : Prop where
  params : s.par.flashOk
  pma : PmaOk s.pma
  pageBuf : PageBufOk s.hid.pageBuf
  flash : FlashOk s.par s.flash
  ets0 : XferOk s.drv.ets0
  ets1 : XferOk s.drv.ets1
  callbacks : CallbacksOk s
  table : s.usb.btable &&& 7 = 0
  control : FlashCtlOk s.par s.fctl
  cursor : CursorOk s.par s.hid
  snap : s.disp.snap.toNat % 16 < 2
  sequencer : SequencerOk s

/-! ### What the block's own agents keep -/

/-- The operations that are moves of the block's agents, of the host and of the environment, as 00_scope.md R9 lists
them: no test's direct access of a register, of the descriptor table or of a unit's routine. -/
def isAgentMove : Instr → Bool
  | .hostReset => true
  | .hostSuspend => true
  | .hostWakeup => true
  | .hostSetup _ _ _ => true
  | .hostOut _ _ _ => true
  | .hostIn _ _ => true
  | .hwReset => true
  | .hwPowerloss => true
  | .drvInitialize => true
  | .drvShutdown => true
  | .flashcComplete => true
  | .dispEnter => true
  | .dispRead => true
  | .dispCtr => true
  | .dispReset => true
  | .dispSusp => true
  | .dispWkup => true
  | .bootEvaluate => true
  | .bootUpdatemode => true
  | .bootLaunch => true
  | .bootSysreset => true
  | _ => false

/-- The address the flash controller is working on is at or above APP_BASE. -/
def PendingAbove (p : Params) : PendingOp → Prop
  | .none => True
  | .erase a => (appBase p).toNat ≤ a.toNat
  | .prog a _ => (appBase p).toNat ≤ a.toNat

/-- The flash unit works for a page commit only: a running `writePage` is the one at the cursor's page, and the operation
in progress lies at or above APP_BASE (45_hid_reassembly_commands.md R266, 10_state.md R45). -/
structure CommitsOnly (s : State) : Prop where
  inv : Inv s
  commit : s.fseq.state ≠ .idle → s.fseq.caller ≠ .alone ∧ s.fseq.addr = pageAddress s.par s.hid.pageIndex
  pending : PendingAbove s.par s.fctl.pendingOp

/-! ### When an operation has its own effect -/

/-- No `writePage` runs: the routines of the interrupt context are not held (46_flash_page_programmer.md R292). -/
abbrev SequencerIdle (s : State) : Prop := s.fseq.state = .idle

/-- The dispatcher is idle: MAIN is not held (00_scope.md R9). -/
abbrev DispatcherIdle (s : State) : Prop := s.disp.state = .idle

/-- The descriptor table lies in packet memory (41_usb_register_interface.md R156). -/
abbrev TableInPma (s : State) : Prop := s.usb.btable.toNat + Config.bdtSize ≤ Config.pmaSize

/-- The transmit buffer of an endpoint takes `n` bytes: the table lies in packet memory and, when there are bytes to copy,
ADDR_TX is readable and the buffer lies in packet memory (42_usb_endpoint_buffer_manager.md R180, R186). -/
def TxReady (s : State) (e : Ep) (n : Nat) : Prop :=
  TableInPma s ∧ (n ≠ 0 → ∃ a : Half, bdtRead s e offAddrTx = .ok a ∧ a.toNat + n ≤ Config.pmaSize)

/-- The routines of the interrupt context that a test may call by themselves; held while `writePage` runs
(46_flash_page_programmer.md R292, R374). -/
def isUnitRoutine : Instr → Bool
  | .cmdResetPages => true
  | .cmdReboot => true
  | .cmdIgnored _ => true
  | .ackPage => true
  | .dataAppend _ => true
  | .setupGetDescriptorDevice _ _ _ _ => true
  | .setupGetDescriptorConfiguration _ _ _ _ => true
  | .setupGetDescriptorReport _ _ _ _ => true
  | .setupGetDescriptorString _ _ _ _ => true
  | .setupSetAddress _ _ _ _ => true
  | .setupSetConfiguration _ _ _ _ => true
  | .setupOther _ => true
  | .evtCtr _ => true
  | .evtReset _ => true
  | .evtSusp _ => true
  | .evtWkup _ => true
  | .evtNone _ => true
  | .bdtAddrTx _ _ => true
  | .bdtCountTx _ _ => true
  | .bdtAddrRx _ _ => true
  | .bdtCountRx _ _ => true
  | .fopUnlock => true
  | .fopErasePage _ => true
  | .fopProgHalfword _ _ _ => true
  | .fopLock => true
  | .drvSenddata _ _ _ => true
  | .flashWritepage _ _ _ => true
  | .epService _ => true
  | .epTxchunk _ => true
  | .epConfigure => true
  | .hidAppend _ => true
  | .hidBusreset => true
  | _ => false

/-! ### Effects that several operations share -/

/-- Reading one byte of a memory after bytes have been stored from an address up. -/
def readOver (read : Nat → Option Byte) (a : Nat) (bytes : List Byte) (o : Nat) : Option Byte :=
  if a ≤ o ∧ o < a + bytes.length then bytes[o - a]? else read o

/-- Where the word of a descriptor-table entry lies (42_usb_endpoint_buffer_manager.md R180). -/
def tableWordAt (s : State) (n : Ep) (within : Nat) : Nat := s.usb.btable.toNat + 8 * epNumber n + within

/-- What TxChunk leaves when the Endpoint Transfer State it works on is `x`
(42_usb_endpoint_buffer_manager.md R186): the first `n` bytes of the queue in the transmit buffer, COUNT_TX, the shortened
queue and STAT_TX; nothing else changed. -/
def ChunkArmed (s t : State) (e : Ep) (x : EpXfer) : Prop :=
  let n := min x.txRemaining.toNat x.maxPacket.toNat
  let bytes := x.txQueue.take n
  t = { s with pma := t.pma, drv := t.drv, usb := t.usb } ∧
  t.drv = s.drv.setEts e { x with txQueue := x.txQueue.drop n, txRemaining := x.txRemaining - BitVec.ofNat 16 n } ∧
  t.usb = s.usb.setEp e { s.usb.ep e with statTx := .valid } ∧
  ∃ buffer : Nat → Option Byte,
    (bytes = [] → buffer = s.pma.read?) ∧
    (bytes ≠ [] → ∀ a : Half, bdtRead s e offAddrTx = .ok a → buffer = readOver s.pma.read? a.toNat bytes) ∧
    ∀ o, t.pma.read? o = readOver buffer (tableWordAt s e offCountTx) (halfBytes (BitVec.ofNat 16 n)) o

/-- A request on endpoint 0 answered with the first `len` bytes of `d`, in the state `s'` that the request has left the session
in (44_usb_control_requests.md R240, R241). -/
def Answered (s' t : State) (d : List Byte) (len : Nat) : Prop :=
  ChunkArmed s' t .ep0 { s'.drv.ets0 with txQueue := d.take len, txRemaining := BitVec.ofNat 16 len }

/-- A packet of `bytes`, at most 8 of them, waits on endpoint `e` to be served: received and readable
(42_usb_endpoint_buffer_manager.md R190). -/
structure PacketWaiting (s : State) (e : Ep) (bytes : List Byte) : Prop where
  idle : SequencerIdle s
  received : (s.usb.ep e).ctrRx = true
  table : TableInPma s
  count : ∃ c : Half, bdtRead s e offCountRx = .ok c ∧ (field c 0 10).toNat = bytes.length
  short : bytes.length ≤ 8
  buffer : bytes ≠ [] → ∃ a : Half, bdtRead s e offAddrRx = .ok a ∧ a.toNat + bytes.length ≤ Config.pmaSize ∧
    ∀ k, k < bytes.length → s.pma.read? (a.toNat + k) = bytes[k]?

/-- A data packet waits on endpoint 0: not a SETUP and not empty (42_usb_endpoint_buffer_manager.md R190). -/
structure DataPacketWaiting (s : State) (bytes : List Byte) : Prop extends PacketWaiting s .ep0 bytes where
  plain : s.usb.ep0.setup = false
  nonempty : bytes ≠ []

/-- What the endpoint service leaves of a received packet outside its hook: the bytes in `rx_buf`, the completion
acknowledged, and, when `rearmed`, the receive direction VALID again (42_usb_endpoint_buffer_manager.md R190). -/
def PacketTaken (s t : State) (e : Ep) (bytes : List Byte) (rearmed : Bool) : Prop :=
  t = { s with usb := t.usb, drv := t.drv, hid := t.hid, fseq := t.fseq, faults := t.faults } ∧
  t.usb = s.usb.setEp e
    { s.usb.ep e with ctrRx := false, statRx := if rearmed then .valid else (s.usb.ep e).statRx } ∧
  t.drv = s.drv.setEts e
    { s.drv.ets e with rxBuf := (t.drv.ets e).rxBuf, rxLen := BitVec.ofNat 16 bytes.length } ∧
  (t.drv.ets e).rxBuf.toList = bytes ++ (s.drv.ets e).rxBuf.toList.drop bytes.length

/-- The page buffer after the append of the eight bytes of `rx` (45_hid_reassembly_commands.md R262). -/
def Appended (s t : State) (rx : Packet8) : Prop :=
  ∀ k, t.hid.pageBuf.read? k = readOver s.hid.pageBuf.read? s.hid.pageOffset.toNat rx.toList k

/-- A page buffer that begins with a command frame of the given opcode (45_hid_reassembly_commands.md R263). -/
def HoldsFrame (m : Memory) (opcode : Byte) : Prop :=
  (∀ k, k < 7 → m.read? k = Config.sig[k]?) ∧ m.read? 7 = some opcode ∧ ∀ k, 8 ≤ k → k < 64 → m.read? k = some 0

/-- A page buffer whose first 64 bytes, all written, are no command frame (45_hid_reassembly_commands.md R263, R268). -/
def HoldsData (m : Memory) : Prop :=
  ∃ k v, k < 64 ∧ k ≠ 7 ∧ m.read? k = some v ∧ (k < 7 → Config.sig[k]? ≠ some v) ∧ (8 ≤ k → v ≠ 0)

/-- The 32-bit word of the flash array at an address (20_memory.md R74). -/
def flashWordAt (s : State) (a : Nat) : Word :=
  le32 (flashByte s a) (flashByte s (a + 1)) (flashByte s (a + 2)) (flashByte s (a + 3))

/-- The flash address is under the erase or the program operation in progress (46_flash_page_programmer.md R298, U6). -/
def UnderOperation (s : State) (a : Nat) : Prop :=
  match s.fctl.pendingOp with
  | .none => False
  | .erase x => pageStart s.par x ≤ a ∧ a < pageStart s.par x + Config.pageSize
  | .prog x _ => a = x.toNat ∨ a = x.toNat + 1

/-- Column HW of the reset table (10_state.md R50), with the Magic Word the reset leaves; the flash array is kept, but for
what was under an operation (40_boot_controller_interface.md R139). -/
def HardwareResetDone (s t : State) (magic : Half) : Prop :=
  t.usb.ep0.toHalf = 0 ∧ t.usb.ep1.toHalf = 0 ∧ t.usb.cntr.toHalf = 0x0003 ∧ t.usb.istrHalf = 0 ∧
  t.usb.daddr.toHalf = 0 ∧ t.usb.btable = 0 ∧ t.usb.irqEn = false ∧ t.usb.dpForceLow = false ∧
  (∀ o, t.pma.read? o = none) ∧ t.drv = Driver.reset ∧ t.disp = Dispatcher.reset ∧
  t.hid.pageIndex = s.par.firstPage ∧ t.hid.pageOffset = 0 ∧ (∀ k, t.hid.pageBuf.read? k = none) ∧
  t.hid.uploadStarted = false ∧ t.hid.uploadFinished = false ∧
  t.fctl.srWord = 0 ∧ t.fctl.crWord = 0x80 ∧ t.fctl.ar = 0 ∧ t.fctl.keyState = .k0 ∧ t.fctl.pendingOp = .none ∧
  t.fseq.state = .idle ∧ t.fseq.addr = 0 ∧ t.fseq.i = 0 ∧
  (∀ a, ¬UnderOperation s a → flashByte t a = flashByte s a) ∧
  t.boot.magic = magic ∧ t.boot.state = .evaluate ∧ t.boot.um = .shutdownFirst ∧ t.boot.launched = false ∧
  t.boot.bootPin = s.boot.bootPin ∧ t.par = s.par ∧ t.faults = s.faults ∧ t.input = s.input ∧ t.result = s.result

/-- The state after `HidBusReset` (45_hid_reassembly_commands.md R270, 42_usb_endpoint_buffer_manager.md R181): column BUS
of the reset table; SETUP, a read-only bit, is kept (log 39). -/
def BusResetHandled (s t : State) : Prop :=
  t = { s with usb := t.usb, pma := t.pma, drv := t.drv, hid := t.hid } ∧
  t.usb = { s.usb with ep0 := t.usb.ep0, ep1 := t.usb.ep1, daddr := t.usb.daddr, btable := 0 } ∧
  t.usb.ep0.toHalf = 0x3220 ||| (s.usb.ep0.toHalf &&& 0x0800) ∧
  t.usb.ep1.toHalf = 0x0621 ||| (s.usb.ep1.toHalf &&& 0x0800) ∧
  t.usb.daddr.toHalf = 0x0080 ∧
  (∀ o, t.pma.read? o = readOver s.pma.read? 0 configuredTable o) ∧
  t.drv = { s.drv with
    ets0 := { s.drv.ets0 with rxLen := 0, txQueue := [], txRemaining := 0, maxPacket := 8 }
    ets1 := { s.drv.ets1 with rxLen := 0, txQueue := [], txRemaining := 0, maxPacket := 8 }
    pendingAddr := 0
    configured := false
    devStatus := 0 } ∧
  t.hid = { s.hid with pageIndex := s.par.firstPage, pageOffset := 0 }

/-- The state after the completion of endpoint `e`'s transmission has been handed back, before a next packet: CTR_TX cleared,
an assigned address applied on endpoint 0 (42_usb_endpoint_buffer_manager.md R190, 44_usb_control_requests.md R250). -/
def TransmissionDone (s t : State) (e : Ep) : Prop :=
  t = { s with usb := t.usb, drv := t.drv } ∧
  t.usb = { s.usb.setEp e { s.usb.ep e with ctrTx := false } with daddr := t.usb.daddr } ∧
  t.drv = { s.drv with pendingAddr := t.drv.pendingAddr } ∧
  (if e = .ep0 ∧ s.drv.pendingAddr ≠ 0 then
    t.usb.daddr.toHalf = 0x0080 ||| (s.drv.pendingAddr.setWidth 16) ∧ t.drv.pendingAddr = 0
  else t.usb.daddr = s.usb.daddr ∧ t.drv.pendingAddr = s.drv.pendingAddr)

/-- The transmit buffer takes the endpoint's next packet, when a completed transmission leaves one to send. -/
def NextChunkReady (s : State) (e : Ep) : Prop :=
  (s.usb.ep e).ctrTx = true → (s.drv.ets e).txRemaining ≠ 0 →
    Memory.wf none s.pma = true ∧
      TxReady s e ((s.drv.ets e).txQueue.take (min (s.drv.ets e).txRemaining.toNat (s.drv.ets e).maxPacket.toNat)).length

/-- The transmit half of the endpoint service (42_usb_endpoint_buffer_manager.md R190): nothing without CTR_TX; with it the
completion handed back and, when bytes are left, the next packet of the queue armed. -/
def TransmitHalfDone (s t : State) (e : Ep) : Prop :=
  ((s.usb.ep e).ctrTx = false → t = s) ∧
  ((s.usb.ep e).ctrTx = true → ∃ u, TransmissionDone s u e ∧
    ((s.drv.ets e).txRemaining = 0 → t = u) ∧
    ((s.drv.ets e).txRemaining ≠ 0 → ChunkArmed u t e (s.drv.ets e)))

/-! ### The flagged sources of a status word -/

/-- The suspend source served: its flag cleared, an assigned address revoked, EF kept (43_usb_packet_dispatcher.md R222 (c)). -/
def suspServed (s : State) : State :=
  s.withUsb { s.usb with istr := { s.usb.istr with susp := false }, daddr := { s.usb.daddr with add := 0 } }

/-- The wakeup source served: its flag cleared (43_usb_packet_dispatcher.md R222 (d)). -/
def wkupServed (s : State) : State := s.withUsb { s.usb with istr := { s.usb.istr with wkup := false } }

/-- Suspend and wakeup served where the word has them, in the order of 43_usb_packet_dispatcher.md R222. -/
def lastServed (w : Half) (s : State) : State :=
  let u := if bit w 11 then suspServed s else s
  if bit w 12 then wkupServed u else u

/-- The operation, run in `s`, leads where the later sources of the word lead from `t`: bus reset, suspend and wakeup
(30_encoding.md R118, 43_usb_packet_dispatcher.md R222). -/
def LaterSourcesServed (i : Instr) (w : Half) (s t : State) : Prop :=
  (bit w 10 = false → exec i s = .next (lastServed w t)) ∧ (bit w 10 = true → exec i s = exec (.evtReset w) t)

/-- What the endpoint service did in `t` is what transfer-complete does for endpoint `k`: EVT.CTR then serves the later sources of
its word and DISP.CTR moves on to DO_RESET (43_usb_packet_dispatcher.md R222, 30_encoding.md R118). -/
def TransferCompleteServed (s t : State) (k : BitVec 4) : Prop :=
  (∀ w, field w 0 4 = k → LaterSourcesServed (.evtCtr w) w s t) ∧
  (s.disp.state = .doCtr → bit s.disp.snap 15 = true → field s.disp.snap 0 4 = k →
    exec .dispCtr s = .next (t.withDisp { s.disp with state := .doReset }))

/-- The endpoint service has begun a page commit in `t`: transfer-complete begins the same one, to go on at its end with the later
sources of the word or with the pass, and DISP.CTR stays in DO_CTR (43_usb_packet_dispatcher.md R222,
46_flash_page_programmer.md R291, R292). -/
def TransferCompleteWaits (s t : State) (k : BitVec 4) : Prop :=
  (∀ w, field w 0 4 = k → exec (.evtCtr w) s = .next (t.withFseq { t.fseq with caller := .event w })) ∧
  (s.disp.state = .doCtr → bit s.disp.snap 15 = true → field s.disp.snap 0 4 = k →
    exec .dispCtr s = .next (t.withFseq { t.fseq with caller := .dispatcher }))

/-- The endpoint service has recorded a fault in `t`: transfer-complete does too, and the pass stops there. -/
def TransferCompleteStops (s t : State) (k : BitVec 4) : Prop :=
  (∀ w, field w 0 4 = k → exec (.evtCtr w) s = .next t) ∧
  (s.disp.state = .doCtr → bit s.disp.snap 15 = true → field s.disp.snap 0 4 = k → exec .dispCtr s = .next t)

/-! ### A whole `writePage` -/

/-- The outcome's next state. -/
def nextState? : Outcome State Fault Refusal → Option State
  | .next s => some s
  | .fault _ => none
  | .refused _ => none

/-- One step of the sequencer and then, at once, the flash controller's completion of whatever it started. -/
def sequencerRound (s : State) : Option State := (nextState? (exec .dispCtr s)).bind fun u => nextState? (exec .flashcComplete u)

/-- `n` such rounds. -/
def sequencerRounds : Nat → State → Option State
  | 0, s => some s
  | n + 1, s => (sequencerRound s).bind (sequencerRounds n)

end Sys2Proof.Machine
end

