-- ==== Sys2Proof/Certificates/Slice0/Obligations.lean ====
section
/-! DEFINITION. The statements about the block, from the numbered rules of the spec. A docstring names the rules and, where a
clause rests on the model's own choice, the log entry. -/

open Sys2Proof Sys2Proof.Machine

/-! ### Encoding -/

/-- Every operation is read back from its encoding (30_encoding.md R100 to R112; the operand bytes are log 2's). -/
def Obligations.DecodeOfEncodeIsIdentity : Prop :=
  ∀ i : Instr, i.wellFormed = true → decode (encode i).1 (encode i).2 = .ok i

/-- What the decoder accepts is well-formed (30_encoding.md R106, R118; log 2). -/
def Obligations.DecodedOperationsAreWellFormed : Prop :=
  ∀ (f : Format) (bytes : List Byte) (i : Instr), decode f bytes = .ok i → i.wellFormed = true

/-- No bit is dropped: the bytes a decoded operation came from are its encoding and zeros after it; in FOP, where 30_encoding.md
R118 masks the FLASH_CR value, the masked byte is (log 2). -/
def Obligations.EncodeOfDecodeIsIdentity : Prop :=
  ∀ (f : Format) (bytes : List Byte) (i : Instr), decode f bytes = .ok i →
    (encode i).1 = f ∧
    (f ≠ .fop → ∃ n, bytes = (encode i).2 ++ List.replicate n 0) ∧
    (f = .fop → ∃ (n : Nat) (c x y z : Byte), bytes = c :: x :: y :: z :: ((encode i).2.drop 4 ++ List.replicate n 0) ∧
      (encode i).2.head? = some (c &&& 0xC3))

/-- Words written out from the spec's encodings (30_encoding.md R102, R104, R105, R109, R112, R118). -/
def Obligations.WordsOfTheTablesDecode : Prop :=
  decode .cmd64 ([0x42, 0x54, 0x4C, 0x44, 0x43, 0x4D, 0x44, 0x00] ++ List.replicate 56 0) = .ok .cmdResetPages ∧
  decode .ack8 [0x42, 0x54, 0x4C, 0x44, 0x43, 0x4D, 0x44, 0x02] = .ok .ackPage ∧
  decode .setup8 [0x80, 0x06, 0x00, 0x01, 0x00, 0x00, 0x40, 0x00] = .ok (.setupGetDescriptorDevice 0x80 0x00 0 0x40) ∧
  decode .setup8 [0x21, 0x09, 0x00, 0x02, 0x00, 0x00, 0x40, 0x00] =
    .ok (.setupOther ⟨0x21, 0x09, 0x00, 0x02, 0x00, 0x00, 0x40, 0x00⟩) ∧
  decode .evt [0x00, 0x04] = .ok (.evtReset 0x0400) ∧
  decode .reg16 [0x40, 0x01, 0x00, 0x9C] = .ok (.regCntr (.write 0x9C00)) ∧
  decode .fop [0x42, 0, 0, 0, 0x00, 0x08, 0x00, 0x08] = .ok (.fopErasePage 0x08000800) ∧
  decode .op [0x14] = .ok .flashcComplete

/-! ### The step -/

/-- A step runs the decoded operation; after BOOT.LAUNCH everything but a hardware reset is held
(00_scope.md R9, 40_boot_controller_interface.md R136, R141; log 1, log 15). -/
def Obligations.StepRunsDecodedOperation : Prop :=
  ∀ (s : State) (f : Format) (bytes : List Byte) (rest : List Stimulus) (i : Instr),
    s.faults = [] → s.input = .op f bytes :: rest → decode f bytes = .ok i → i.wellFormed = true →
    step s =
      if s.boot.launched = true ∧ i ≠ .hwReset ∧ i ≠ .hwPowerloss then .next { s with input := rest, result := .none }
      else exec i { s with input := rest, result := .none }

/-- A recorded fault stops the run, an empty input leaves the state, undecodable bytes are refused by name, and the two
outside events that are no operation do what they do: the pin is set, and the out-of-band trigger is in LAUNCH a hardware reset
(column HW) that leaves the Magic Word set (60_exceptions.md R322, 10_state.md R47, R50, 40_boot_controller_interface.md R133,
R139; log 1, log 6, log 33; what the reset keeps beside it is log 32's, the flash halfword under an operation log 10's). -/
def Obligations.StepWithoutOperation : Prop :=
  ∀ s : State,
    (∀ f fs, s.faults = f :: fs → step s = .fault f) ∧
    (s.faults = [] →
      (s.input = [] → step s = .next s) ∧
      ∀ rest,
        (∀ f bytes e, s.input = .op f bytes :: rest → decode f bytes = .error e → step s = .refused (.undecodable e)) ∧
        (∀ b, s.input = .bootPin b :: rest →
          step s = .next { s with input := rest, result := .none, boot := { s.boot with bootPin := b } }) ∧
        (s.input = .outOfBand :: rest → s.boot.state ≠ .launch →
          step s = .next { s with input := rest, result := .none }) ∧
        (s.input = .outOfBand :: rest → s.boot.state = .launch → FlashOk s.par s.flash →
          ∃ t, step s = .next t ∧ HardwareResetDone { s with input := rest, result := .none } t 0x424C))

/-! ### Invariants and rules of the whole machine -/

/-- The reset state meets the invariant, and the stronger one of the block's own agents; its parameters meet every constraint of
00_scope.md R7 (10_state.md R50; the parameters are log 11's, the flash contents log 7's, where the descriptors carry the
device's identity log 34's). -/
def Obligations.ResetMeetsTheInvariants : Prop := Inv State.reset ∧ CommitsOnly State.reset ∧ State.reset.par.ok

/-- Every step keeps the invariant (10_state.md R30, R33, R36, R43, R45, 41_usb_register_interface.md R156, R162,
46_flash_page_programmer.md R294). -/
def Obligations.StepKeepsInv : Prop := ∀ s t : State, Inv s → step s = .next t → Inv t

/-- The bootloader's own pages are never written: while only the block's agents, the host and the environment move, no
byte below APP_BASE ever changes (10_state.md R45), hardware resets in the middle of an operation included. -/
def Obligations.BootloaderPagesSurvive : Prop :=
  ∀ (s t : State) (x : Stimulus) (rest : List Stimulus), CommitsOnly s → s.input = x :: rest →
    (∀ f bytes i, x = .op f bytes → decode f bytes = .ok i → isAgentMove i = true) → step s = .next t →
    CommitsOnly t ∧ ∀ a, a < (appBase s.par).toNat → flashByte t a = flashByte s a

/-- A whole `writePage`, with the flash controller completing each operation at once, stores its data in its page and nothing
elsewhere, and leaves the controller locked and idle, after 1029 sequencer steps; on a controller blocked by a wrong key the
same steps run and change nothing (46_flash_page_programmer.md R291, R297 (d), R300). -/
def Obligations.WritePageStoresThePage : Prop :=
  ∀ (s : State) (p : Nat) (d : List Byte), Inv s → SequencerIdle s → s.fctl.bsy = false →
    p < s.par.flashPages.toNat → Config.pageSize ≤ d.length →
    ∃ u, exec (.flashWritepage (BitVec.ofNat 32 (s.par.flashBase.toNat + 1024 * p)) (.literal d) 1024) s = .next u ∧
    (s.fctl.keyState = .k0 → ∃ t, sequencerRounds 1029 u = some t ∧
      t = { s with flash := t.flash, fctl := t.fctl, fseq := t.fseq } ∧
      (∀ k, k < 1024 → some (flashByte t (s.par.flashBase.toNat + 1024 * p + k)) = d[k]?) ∧
      (∀ a, a < s.par.flashBase.toNat + 1024 * p ∨ s.par.flashBase.toNat + 1024 * p + 1024 ≤ a →
        flashByte t a = flashByte s a) ∧
      t.fseq.state = .idle ∧ t.fctl.crWord = 0x80 ∧ t.fctl.srWord = 0 ∧ t.fctl.pendingOp = .none) ∧
    (s.fctl.keyState = .blocked → s.fctl.lock = true → ∃ t, sequencerRounds 1029 u = some t ∧
      t = { s with fseq := t.fseq } ∧ t.fseq.state = .idle)

/-- The flash array changes only when an operation completes, or when a reset interrupts one
(46_flash_page_programmer.md R296, R298, R299, 10_state.md R45). -/
def Obligations.FlashChangesOnlyAtCompletion : Prop :=
  ∀ (i : Instr) (s t : State), exec i s = .next t →
    t.flash = s.flash ∨ i = .flashcComplete ∨
    (s.fctl.pendingOp ≠ .none ∧ (i = .hwReset ∨ i = .hwPowerloss ∨ i = .bootSysreset ∨ i = .bootUpdatemode))

/-- The Magic Word changes only to zero, and only when Evaluate reads it or power is lost
(10_state.md R46, 40_boot_controller_interface.md R132). -/
def Obligations.MagicWordIsOnlyCleared : Prop :=
  ∀ (i : Instr) (s t : State), exec i s = .next t →
    t.boot.magic = s.boot.magic ∨ (t.boot.magic = 0 ∧ (i = .bootEvaluate ∨ i = .hwPowerloss))

/-- The parameters never change, at most one fault is recorded in a step and none is ever cleared, and the stimuli are the
step's own (10_state.md R48, R51; log 11, log 32). -/
def Obligations.ParametersAndFaultRecordPersist : Prop :=
  ∀ (i : Instr) (s t : State), exec i s = .next t →
    t.par = s.par ∧ t.input = s.input ∧ (t.faults = s.faults ∨ ∃ f, t.faults = s.faults ++ [f])

/-- The dispatcher leaves idle by interrupt entry alone, and returns only by a status read in READ that finds no flagged source
(EVT.NONE is that read's exit as a row, log 19) or by a hardware reset (60_exceptions.md R326, R327, R331,
43_usb_packet_dispatcher.md R223). -/
def Obligations.DispatcherEntryAndReturn : Prop :=
  ∀ (i : Instr) (s t : State), Inv s → exec i s = .next t →
    (s.disp.state = .idle → t.disp.state ≠ .idle → i = .dispEnter ∧ s.usb.irqLine = true ∧ t.disp.state = .read) ∧
    (s.disp.state ≠ .idle → t.disp.state = .idle →
      ((i = .dispRead ∨ ∃ w, i = .evtNone w) ∧ s.disp.state = .read ∧
        s.usb.istrHalf &&& s.usb.cntr.toHalf &&& 0x9C00 = 0) ∨
      i = .hwReset ∨ i = .hwPowerloss)

/-- The device becomes configured only by a SET_CONFIGURATION request: given directly, or as the SETUP packet waiting on
endpoint 0 that the endpoint service takes into `rx_buf` and serves, a standard request 09 by row 6 of 30_encoding.md R106
(44_usb_control_requests.md R247, R251). -/
def Obligations.ConfiguredOnlyByRequest : Prop :=
  ∀ (i : Instr) (s t : State), exec i s = .next t → s.drv.configured = false → t.drv.configured = true →
    (∃ rt wv wi wl, i = .setupSetConfiguration rt wv wi wl) ∨
    ((i = .epService 0 ∨ i = .dispCtr ∨ ∃ w, i = .evtCtr w) ∧ s.usb.ep0.ctrRx = true ∧ s.usb.ep0.setup = true ∧
      t.drv.ets0.rxBuf.b0 &&& 0x60 = 0x00 ∧ t.drv.ets0.rxBuf.b1 = 0x09)

/-- Who waits for whom: MAIN for the interrupt context, every routine of the interrupt context for a running `writePage`, and a
dispatcher step for its turn (00_scope.md R9, 43_usb_packet_dispatcher.md R220 to R222, 46_flash_page_programmer.md R292,
60_exceptions.md R326, R333). That a held operation leaves the state unchanged is log 4's, log 28's. These holds are the model's:
that direct calls of the routines wait for a running sequencer (log 5), that BDT and FOP rows do (log 36), and that DISP.ENTER
does while a directly called `writePage` runs with disp_state = IDLE, where R220 alone would enable it and the model follows
R292, by which only the sequencer's step is then enabled (log 36). -/
def Obligations.HeldOperations : Prop :=
  (∀ s : State, s.disp.state ≠ .idle →
    exec .drvInitialize s = .next s ∧ exec .drvShutdown s = .next s ∧ exec .bootEvaluate s = .next s ∧
    exec .bootUpdatemode s = .next s ∧ exec .bootLaunch s = .next s ∧ exec .bootSysreset s = .next s) ∧
  (∀ (i : Instr) (s : State), s.fseq.state ≠ .idle →
    (isUnitRoutine i = true ∨ i = .dispEnter ∨ i = .dispRead ∨ i = .dispReset ∨ i = .dispSusp ∨ i = .dispWkup) →
    exec i s = .next s) ∧
  (∀ s : State, SequencerIdle s →
    (s.disp.state ≠ .read → exec .dispRead s = .next s) ∧
    (s.disp.state ≠ .doCtr → exec .dispCtr s = .next s) ∧
    (s.disp.state ≠ .doReset → exec .dispReset s = .next s) ∧
    (s.disp.state ≠ .doSusp → exec .dispSusp s = .next s) ∧
    (s.disp.state ≠ .doWkup → exec .dispWkup s = .next s))

/-! ### Registers -/

/-- The fields of EPnR at their bits and codes, the reserved bits zero; the derived bits of ISTR and the derived signals
(10_state.md R23, R26, R29, 43_usb_packet_dispatcher.md R210). -/
def Obligations.WordLayoutAndDerivedStatus : Prop :=
  (∀ r : EpReg,
    field r.toHalf 0 4 = r.ea ∧ bit r.toHalf 7 = r.ctrTx ∧ bit r.toHalf 11 = r.setup ∧ bit r.toHalf 15 = r.ctrRx ∧
    (field r.toHalf 4 2).toNat =
      (match r.statTx with | .disabled => 0 | .stall => 1 | .nak => 2 | .valid => 3) ∧
    (field r.toHalf 9 2).toNat =
      (match r.epType with | .bulk => 0 | .control => 1 | .isochronous => 2 | .interrupt => 3) ∧
    (field r.toHalf 12 2).toNat =
      (match r.statRx with | .disabled => 0 | .stall => 1 | .nak => 2 | .valid => 3) ∧
    r.toHalf &&& 0x4140 = 0) ∧
  ∀ u : Usb,
    (bit u.istrHalf 15 = true ↔
      u.ep0.ctrRx = true ∨ u.ep0.ctrTx = true ∨ u.ep1.ctrRx = true ∨ u.ep1.ctrTx = true) ∧
    (field u.istrHalf 0 4 = if u.ep0.ctrRx = false ∧ u.ep0.ctrTx = false ∧ (u.ep1.ctrRx = true ∨ u.ep1.ctrTx = true)
      then 1 else 0) ∧
    (bit u.istrHalf 4 =
      if u.ep0.ctrRx = true ∨ u.ep0.ctrTx = true then u.ep0.ctrRx else u.ep1.ctrRx) ∧
    (u.irqLine = true ↔ u.irqEn = true ∧
      ((bit u.istrHalf 15 = true ∧ u.cntr.ctrm = true) ∨ (u.istr.reset = true ∧ u.cntr.resetm = true) ∨
        (u.istr.susp = true ∧ u.cntr.suspm = true) ∨ (u.istr.wkup = true ∧ u.cntr.wkupm = true))) ∧
    (u.attached = true ↔ u.dpForceLow = false ∧ u.cntr.pdwn = false ∧ u.cntr.fres = false) ∧
    (∀ e : Byte, (u.lookup e = some .ep0 ↔ u.ep0.ea.toNat = e.toNat) ∧
      (u.lookup e = some .ep1 ↔ u.ep0.ea.toNat ≠ e.toNat ∧ u.ep1.ea.toNat = e.toNat))

/-- A write of EPnR: the read-write fields stored, a completion flag cleared where written with 0, SETUP and the reserved bits
not written, the other registers unchanged (41_usb_register_interface.md R157). -/
def Obligations.EndpointRegisterWrite : Prop :=
  ∀ (s : State) (v : Half),
    (∃ r, exec (.regEp0r (.write v)) s = .next (s.withUsb { s.usb with ep0 := r }) ∧
      r.toHalf = (v &&& 0x363F) ||| (s.usb.ep0.toHalf &&& 0x0800) ||| (s.usb.ep0.toHalf &&& v &&& 0x8080)) ∧
    (∃ r, exec (.regEp1r (.write v)) s = .next (s.withUsb { s.usb with ep1 := r }) ∧
      r.toHalf = (v &&& 0x363F) ||| (s.usb.ep1.toHalf &&& 0x0800) ||| (s.usb.ep1.toHalf &&& v &&& 0x8080))

/-- A write of CNTR: the defined bits stored; with FRES written 1 the core-reset effect, whatever FRES was before
(41_usb_register_interface.md R153, 43_usb_packet_dispatcher.md R213). -/
def Obligations.ControlRegisterWrite : Prop :=
  ∀ (s : State) (v : Half), ∃ u, exec (.regCntr (.write v)) s = .next (s.withUsb u) ∧
    u.cntr.toHalf = v &&& 0x9C03 ∧
    (bit v 0 = true →
      u = { s.usb with ep0 := u.ep0, ep1 := u.ep1, daddr := u.daddr, cntr := u.cntr, istr := { s.usb.istr with reset := true } } ∧
      u.ep0.toHalf = 0 ∧ u.ep1.toHalf = 0 ∧ u.daddr.toHalf = 0) ∧
    (bit v 0 = false → u = { s.usb with cntr := u.cntr })

/-- A write of ISTR clears the latched flags written with 0 and nothing else
(41_usb_register_interface.md R154). -/
def Obligations.InterruptStatusWrite : Prop :=
  ∀ (s : State) (v : Half), ∃ i, exec (.regIstr (.write v)) s = .next (s.withUsb { s.usb with istr := i }) ∧
    ({ s.usb with istr := i } : Usb).istrHalf = s.usb.istrHalf &&& (v ||| 0xE3FF)

/-- A write of DADDR stores its low byte; from then on the device answers at ADD if EF = 1 and not at all if EF = 0
(41_usb_register_interface.md R155). -/
def Obligations.AddressRegisterWrite : Prop :=
  ∀ (s : State) (v : Half), ∃ d, exec (.regDaddr (.write v)) s = .next (s.withUsb { s.usb with daddr := d }) ∧
    d.toHalf = v &&& 0x00FF ∧
    ∀ a : Byte, ({ s.usb with daddr := d } : Usb).enabledAt a = true ↔
      s.usb.attached = true ∧ bit v 7 = true ∧ a.toNat = (v &&& 0x007F).toNat

/-- A write of BTABLE stores all but its low three bits; with a table that would extend beyond packet memory every access of
a descriptor word stops: a word outside offsets 0 to 511 is recorded as PmaRange, a word inside is refused
(41_usb_register_interface.md R156, 42_usb_endpoint_buffer_manager.md R180 with D18; that the whole table counts is log 23's,
which of the two stops it is log 38's, the record log 6's). -/
def Obligations.TableRegisterWrite : Prop :=
  ∀ (s : State) (v : Half),
    exec (.regBtable (.write v)) s = .next (s.withUsb { s.usb with btable := v &&& 0xFFF8 }) ∧
    (SequencerIdle s → Config.pmaSize < s.usb.btable.toNat + 16 →
      ∀ (n : Ep) (op : Ep → Access 16 → Instr) (off : Nat) (acc : Access 16),
        (op = .bdtAddrTx ∧ off = 0 ∨ op = .bdtCountTx ∧ off = 2 ∨ op = .bdtAddrRx ∧ off = 4 ∨ op = .bdtCountRx ∧ off = 6) →
        (Config.pmaSize < tableWordAt s n off + 2 → exec (op n acc) s = .next (recordFault s .pmaRange)) ∧
        (tableWordAt s n off + 2 ≤ Config.pmaSize → exec (op n acc) s = .refused .pmaRange))

/-- A read gives the register's word and changes nothing but the answer: the ten register operations, and REG.READ by offset,
which reads 0 at any other multiple of 4 in the windows and refuses any other shape
(41_usb_register_interface.md R151, 10_state.md R27, R40, 20_memory.md R77). -/
def Obligations.RegisterReads : Prop :=
  (∀ s : State,
    exec (.regEp0r .read) s = .next (s.withResult (.half s.usb.ep0.toHalf)) ∧
    exec (.regEp1r .read) s = .next (s.withResult (.half s.usb.ep1.toHalf)) ∧
    exec (.regCntr .read) s = .next (s.withResult (.half s.usb.cntr.toHalf)) ∧
    exec (.regIstr .read) s = .next (s.withResult (.half s.usb.istrHalf)) ∧
    exec (.regDaddr .read) s = .next (s.withResult (.half s.usb.daddr.toHalf)) ∧
    exec (.regBtable .read) s = .next (s.withResult (.half s.usb.btable)) ∧
    exec (.regFlashKeyr .read) s = .next (s.withResult (.word 0)) ∧
    exec (.regFlashSr .read) s = .next (s.withResult (.word (if s.fctl.bsy then 1 else 0))) ∧
    exec (.regFlashCr .read) s = .next (s.withResult (.word s.fctl.crWord)) ∧
    exec (.regFlashAr .read) s = .next (s.withResult (.word s.fctl.ar))) ∧
  ∀ (s : State) (win : Window) (width : Width) (off : Half),
    (win = .usbReg → width = .w16 → off.toNat % 4 = 0 → off.toNat < 0x60 →
      exec (.regRead win width off) s = .next (s.withResult (.half
        (if off = 0x00 then s.usb.ep0.toHalf else if off = 0x04 then s.usb.ep1.toHalf
          else if off = 0x40 then s.usb.cntr.toHalf else if off = 0x44 then s.usb.istrHalf
          else if off = 0x4C then s.usb.daddr.toHalf else if off = 0x50 then s.usb.btable else 0)))) ∧
    (win = .flashReg → width = .w32 → off.toNat % 4 = 0 → off.toNat < 0x24 →
      exec (.regRead win width off) s = .next (s.withResult (.word
        (if off = 0x0C then s.fctl.srWord else if off = 0x10 then s.fctl.crWord
          else if off = 0x14 then s.fctl.ar else 0)))) ∧
    (¬(win = .usbReg ∧ width = .w16 ∧ off.toNat % 4 = 0 ∧ off.toNat < 0x60) →
      ¬(win = .flashReg ∧ width = .w32 ∧ off.toNat % 4 = 0 ∧ off.toNat < 0x24) →
      exec (.regRead win width off) s = .refused .regAccessShape)

/-- REG.WRITE by offset: what the write of the named register does, nothing at any other multiple of 4 in the window, any
other shape refused (41_usb_register_interface.md R152, 10_state.md R21, R40). -/
def Obligations.WriteByOffset : Prop :=
  ∀ (s : State) (v : Half) (w : Word),
    (∃ t, exec (.regWrite .usbReg .w16 0x00 (zext32 v)) s = .next t ∧ exec (.regEp0r (.write v)) s = .next t) ∧
    (∃ t, exec (.regWrite .usbReg .w16 0x04 (zext32 v)) s = .next t ∧ exec (.regEp1r (.write v)) s = .next t) ∧
    (∃ t, exec (.regWrite .usbReg .w16 0x40 (zext32 v)) s = .next t ∧ exec (.regCntr (.write v)) s = .next t) ∧
    (∃ t, exec (.regWrite .usbReg .w16 0x44 (zext32 v)) s = .next t ∧ exec (.regIstr (.write v)) s = .next t) ∧
    (∃ t, exec (.regWrite .usbReg .w16 0x4C (zext32 v)) s = .next t ∧ exec (.regDaddr (.write v)) s = .next t) ∧
    (∃ t, exec (.regWrite .usbReg .w16 0x50 (zext32 v)) s = .next t ∧ exec (.regBtable (.write v)) s = .next t) ∧
    (∃ t, exec (.regWrite .flashReg .w32 0x04 w) s = .next t ∧ exec (.regFlashKeyr (.write w)) s = .next t) ∧
    exec (.regWrite .flashReg .w32 0x10 w) s = exec (.regFlashCr (.write w)) s ∧
    exec (.regWrite .flashReg .w32 0x14 w) s = exec (.regFlashAr (.write w)) s ∧
    ∀ (win : Window) (width : Width) (off : Half),
      (win = .usbReg → width = .w16 → off.toNat % 4 = 0 → off.toNat < 0x60 →
        off.toNat ∉ [0x00, 0x04, 0x40, 0x44, 0x4C, 0x50] → exec (.regWrite win width off w) s = .next s) ∧
      (win = .flashReg → width = .w32 → off.toNat % 4 = 0 → off.toNat < 0x24 →
        off.toNat ∉ [0x04, 0x10, 0x14] → exec (.regWrite win width off w) s = .next s) ∧
      (¬(win = .usbReg ∧ width = .w16 ∧ off.toNat % 4 = 0 ∧ off.toNat < 0x60) →
        ¬(win = .flashReg ∧ width = .w32 ∧ off.toNat % 4 = 0 ∧ off.toNat < 0x24) →
        exec (.regWrite win width off w) s = .refused .regAccessShape)

/-! ### The descriptor table -/

/-- Reading and writing the four words of a descriptor-table entry: little-endian at its offset, every other byte of packet
memory unchanged; a byte nothing has written is recorded as UnwrittenRead (42_usb_endpoint_buffer_manager.md R180,
10_state.md R30, R31; log 6). -/
def Obligations.TableWordAccess : Prop :=
  ∀ (s : State) (n : Ep) (op : Ep → Access 16 → Instr) (off : Nat),
    (op = .bdtAddrTx ∧ off = 0 ∨ op = .bdtCountTx ∧ off = 2 ∨ op = .bdtAddrRx ∧ off = 4 ∨ op = .bdtCountRx ∧ off = 6) →
    SequencerIdle s → TableInPma s → Memory.wf none s.pma = true →
    (∀ b0 b1, s.pma.read? (tableWordAt s n off) = some b0 → s.pma.read? (tableWordAt s n off + 1) = some b1 →
      exec (op n .read) s = .next (s.withResult (.half (le16 b0 b1)))) ∧
    (s.pma.read? (tableWordAt s n off) = none →
      exec (op n .read) s = .next (recordFault s (.unwrittenRead .pma (tableWordAt s n off)))) ∧
    (∀ v, ∃ m, exec (op n (.write v)) s = .next (s.withPma m) ∧
      ∀ o, m.read? o = readOver s.pma.read? (tableWordAt s n off) (halfBytes v) o)

/-! ### The flash controller -/

/-- A write of FLASH_KEYR (46_flash_page_programmer.md R293, 10_state.md R42). -/
def Obligations.KeyRegisterWrite : Prop :=
  ∀ (s : State) (v : Word), ∃ f, exec (.regFlashKeyr (.write v)) s = .next (s.withFctl f) ∧
    f = { s.fctl with lock := f.lock, keyState := f.keyState } ∧
    (s.fctl.keyState = .k0 → f.lock = s.fctl.lock ∧ f.keyState = if v = 0x45670123 then .k1 else .blocked) ∧
    (s.fctl.keyState = .k1 → v = 0xCDEF89AB → f.lock = false ∧ f.keyState = .k0) ∧
    (s.fctl.keyState = .k1 → v ≠ 0xCDEF89AB → f.lock = s.fctl.lock ∧ f.keyState = .blocked) ∧
    (s.fctl.keyState = .blocked → f = s.fctl)

/-- A write of FLASH_CR, by the word it reads as afterwards: refused while busy; while locked nothing but the key sequence, which
LOCK written 1 returns to K0 (log 21); PG with PER refused; LOCK locks and resets the key sequence unless it is blocked; STRT
with PER starts the erase at FLASH_AR, or records FlashRange outside the array (46_flash_page_programmer.md R294,
10_state.md R41, R42; log 6). -/
def Obligations.FlashControlWrite : Prop :=
  ∀ (s : State) (v : Word), FlashCtlOk s.par s.fctl →
    (s.fctl.bsy = true → exec (.regFlashCr (.write v)) s = .refused .flashBusyWrite) ∧
    (s.fctl.bsy = false → s.fctl.lock = true →
      exec (.regFlashCr (.write v)) s =
        .next (if bit v 7 = true ∧ s.fctl.keyState ≠ .blocked then s.withFctl { s.fctl with keyState := .k0 } else s)) ∧
    (s.fctl.bsy = false → s.fctl.lock = false → bit v 0 = true → bit v 1 = true →
      exec (.regFlashCr (.write v)) s = .refused .flashModeConflict) ∧
    (s.fctl.bsy = false → s.fctl.lock = false → ¬(bit v 0 = true ∧ bit v 1 = true) →
      (bit v 7 = false → bit v 6 = true → bit v 1 = true → inFlash s.par s.fctl.ar.toNat = false →
        ∃ f, exec (.regFlashCr (.write v)) s = .next (recordFault (s.withFctl f) (.flashRange s.fctl.ar.toNat)) ∧
          f = { s.fctl with pg := bit v 0, per := bit v 1 }) ∧
      (bit v 7 = true ∨ bit v 6 = false ∨ bit v 1 = false ∨ inFlash s.par s.fctl.ar.toNat = true →
        ∃ f, exec (.regFlashCr (.write v)) s = .next (s.withFctl f) ∧ f.ar = s.fctl.ar ∧
          f.crWord =
            (if bit v 7 = true then v &&& 0x83 else if bit v 6 = true ∧ bit v 1 = true then v &&& 0x43 else v &&& 0x03) ∧
          f.srWord = (if bit v 7 = false ∧ bit v 6 = true ∧ bit v 1 = true then 1 else 0) ∧
          f.pendingOp = (if bit v 7 = false ∧ bit v 6 = true ∧ bit v 1 = true then .erase s.fctl.ar else .none) ∧
          f.keyState = (if bit v 7 = true ∧ s.fctl.keyState ≠ .blocked then .k0 else s.fctl.keyState)))

/-- A write of FLASH_AR: refused while busy, ignored while locked, else stored; a write of FLASH_SR is ignored
(46_flash_page_programmer.md R295, 10_state.md R40). -/
def Obligations.FlashAddressWrite : Prop :=
  ∀ (s : State) (v : Word),
    (s.fctl.bsy = true → exec (.regFlashAr (.write v)) s = .refused .flashBusyWrite) ∧
    (s.fctl.bsy = false → s.fctl.lock = true → exec (.regFlashAr (.write v)) s = .next s) ∧
    (s.fctl.bsy = false → s.fctl.lock = false →
      exec (.regFlashAr (.write v)) s = .next (s.withFctl { s.fctl with ar := v })) ∧
    exec (.regFlashSr (.write v)) s = .next s

/-- FOP.UNLOCK from K0 unlocks, from K1 it blocks, from a blocked key it changes nothing; FOP.LOCK is refused while busy and else
leaves the controller locked and the key sequence at K0 unless it is blocked, a locked one included
(46_flash_page_programmer.md R293, R294, 10_state.md R42, 30_encoding.md R111; the locked one is log 21's). -/
def Obligations.UnlockAndLock : Prop :=
  ∀ (s : State) (key : KeyState), SequencerIdle s → key = (if s.fctl.keyState = .blocked then .blocked else .k0) →
    (s.fctl.keyState = .k0 → exec .fopUnlock s = .next (s.withFctl { s.fctl with lock := false })) ∧
    (s.fctl.keyState = .k1 → exec .fopUnlock s = .next (s.withFctl { s.fctl with keyState := .blocked })) ∧
    (s.fctl.keyState = .blocked → exec .fopUnlock s = .next s) ∧
    (s.fctl.bsy = true → exec .fopLock s = .refused .flashBusyWrite) ∧
    (s.fctl.bsy = false → s.fctl.lock = false →
      exec .fopLock s = .next (s.withFctl { s.fctl with pg := false, per := false, lock := true, keyState := key })) ∧
    (s.fctl.bsy = false → s.fctl.lock = true → exec .fopLock s = .next (s.withFctl { s.fctl with keyState := key }))

/-- The two flash operations start on an idle unlocked controller: the erase of the page of an address in the array, the
program of an erased halfword at an even address in programming mode; the array itself is unchanged. An erase is refused while
busy, ignored while locked and recorded as FlashRange outside the array. A halfword write that does not start is refused at an odd address, at another width and while busy, ignored while locked or out of programming mode, and
recorded as FlashRange outside the array and as ProgramNotErased over anything but FF FF
(46_flash_page_programmer.md R294 to R297, 30_encoding.md R111; log 6). -/
def Obligations.FlashOperationsStart : Prop :=
  (∀ (s : State) (a : Word) (h : Half), SequencerIdle s → s.fctl.bsy = false → s.fctl.lock = false →
    inFlash s.par a.toNat = true →
    (exec (.fopErasePage a) s = .next (s.withFctl
      { s.fctl with pg := false, per := true, ar := a, strt := true, bsy := true, pendingOp := .erase a })) ∧
    (s.fctl.pg = true → a.toNat % 2 = 0 → flashByte s a.toNat = 0xFF → flashByte s (a.toNat + 1) = 0xFF →
      exec (.fopProgHalfword .w16 a h) s = .next (s.withFctl { s.fctl with bsy := true, pendingOp := .prog a h }))) ∧
  (∀ (s : State) (a : Word) (h : Half), SequencerIdle s →
    (s.fctl.bsy = true → exec (.fopErasePage a) s = .refused .flashBusyWrite) ∧
    (s.fctl.bsy = false → s.fctl.lock = true → exec (.fopErasePage a) s = .next s) ∧
    (s.fctl.bsy = false → s.fctl.lock = false → inFlash s.par a.toNat = false →
      exec (.fopErasePage a) s = .next (recordFault (s.withFctl { s.fctl with pg := false, per := true, ar := a })
        (.flashRange a.toNat))) ∧
    (∀ width, width ≠ .w16 → exec (.fopProgHalfword width a h) s = .refused .flashWriteWidth) ∧
    (a.toNat % 2 = 1 → exec (.fopProgHalfword .w16 a h) s = .refused .flashOddAddress) ∧
    (a.toNat % 2 = 0 → s.fctl.bsy = true → exec (.fopProgHalfword .w16 a h) s = .refused .flashBusyWrite) ∧
    (a.toNat % 2 = 0 → s.fctl.bsy = false →
      (s.fctl.lock = true ∨ s.fctl.pg = false → exec (.fopProgHalfword .w16 a h) s = .next s) ∧
      (s.fctl.lock = false → s.fctl.pg = true →
        (inFlash s.par a.toNat = false →
          exec (.fopProgHalfword .w16 a h) s = .next (recordFault s (.flashRange a.toNat))) ∧
        (inFlash s.par a.toNat = true → flashByte s a.toNat ≠ 0xFF ∨ flashByte s (a.toNat + 1) ≠ 0xFF →
          exec (.fopProgHalfword .w16 a h) s = .next (recordFault s (.programNotErased a.toNat))))))

/-- FLASHC.COMPLETE: an erase leaves its page FF and every other byte, a program leaves its halfword, low byte first, and
every other byte; nothing in progress, nothing happens (46_flash_page_programmer.md R298, R295, 20_memory.md R74). -/
def Obligations.FlashOperationCompletes : Prop :=
  ∀ s : State, FlashOk s.par s.flash →
    (s.fctl.pendingOp = .none → exec .flashcComplete s = .next s) ∧
    (∀ a, s.fctl.pendingOp = .erase a → ∃ t, exec .flashcComplete s = .next t ∧
      t = { s with flash := t.flash, fctl := { s.fctl with strt := false, pendingOp := .none, bsy := false } } ∧
      ∀ x, s.par.flashBase.toNat ≤ a.toNat → flashByte t x =
        if s.par.flashBase.toNat + 1024 * ((a.toNat - s.par.flashBase.toNat) / 1024) ≤ x ∧
          x < s.par.flashBase.toNat + 1024 * ((a.toNat - s.par.flashBase.toNat) / 1024) + 1024
        then 0xFF else flashByte s x) ∧
    (∀ a h, s.fctl.pendingOp = .prog a h → ∃ t, exec .flashcComplete s = .next t ∧
      t = { s with flash := t.flash, fctl := { s.fctl with pendingOp := .none, bsy := false } } ∧
      ∀ x, flashByte t x =
        if x = a.toNat then loByte h else if x = a.toNat + 1 then hiByte h else flashByte s x)

/-- `writePage` begins: the sequencer holds the address and stands at F_UNLOCK, nothing else has changed; a size other than
1024 or fewer data bytes is refused (46_flash_page_programmer.md R291). -/
def Obligations.WritePageBegins : Prop :=
  ∀ (s : State) (a : Word) (data : PageSource) (size : Half), SequencerIdle s →
    (size = 1024 → (∀ d, data = .literal d → 1024 ≤ d.length) →
      exec (.flashWritepage a data size) s =
        .next (s.withFseq { state := .unlock, addr := a, i := 0, source := data, caller := .alone })) ∧
    ((size ≠ 1024 ∨ ∃ d, data = .literal d ∧ d.length < 1024) →
      exec (.flashWritepage a data size) s = .refused .flashSize)

/-- The sequencer's steps, one DISP step for each line of the table; a wait that does not hold changes nothing; while the
controller is locked, as it stays after a wrong key, every step runs and only the sequencer moves
(46_flash_page_programmer.md R291, R293, R297 (d); the key sequence after the last step of a locked one is log 21's). -/
def Obligations.SequencerStepsInOrder : Prop :=
  ∀ (s : State) (key : KeyState), key = (if s.fctl.keyState = .blocked then .blocked else .k0) →
    (s.fseq.state = .unlock → s.fctl.keyState = .k0 →
      exec .dispCtr s = .next ((s.withFctl { s.fctl with lock := false }).withFseq { s.fseq with state := .waitIdle })) ∧
    (s.fseq.state = .unlock → s.fctl.keyState = .k1 →
      exec .dispCtr s =
        .next ((s.withFctl { s.fctl with keyState := .blocked }).withFseq { s.fseq with state := .waitIdle })) ∧
    (s.fseq.state = .unlock → s.fctl.keyState = .blocked →
      exec .dispCtr s = .next (s.withFseq { s.fseq with state := .waitIdle })) ∧
    (s.fseq.state = .waitIdle ∨ s.fseq.state = .waitErase ∨ s.fseq.state = .waitProg → s.fctl.bsy = true →
      exec .dispCtr s = .next s) ∧
    (s.fctl.bsy = false →
      (s.fseq.state = .waitIdle → exec .dispCtr s = .next (s.withFseq { s.fseq with state := .erase })) ∧
      (s.fseq.state = .waitProg → s.fseq.i.toNat < 511 →
        exec .dispCtr s = .next (s.withFseq { s.fseq with i := s.fseq.i + 1, state := .prog }))) ∧
    (s.fctl.bsy = false → s.fctl.lock = false →
      (s.fseq.state = .erase → inFlash s.par s.fseq.addr.toNat = true →
        exec .dispCtr s = .next ((s.withFctl { s.fctl with
          pg := false, per := true, ar := s.fseq.addr, strt := true, bsy := true, pendingOp := .erase s.fseq.addr }).withFseq
          { s.fseq with state := .waitErase })) ∧
      (s.fseq.state = .waitErase →
        exec .dispCtr s = .next ((s.withFctl { s.fctl with pg := false, per := false }).withFseq
          { s.fseq with state := .prog })) ∧
      (s.fseq.state = .waitProg → s.fseq.i.toNat = 511 →
        exec .dispCtr s = .next ((s.withFctl { s.fctl with pg := false, per := false }).withFseq
          { s.fseq with i := 512, state := .lock })) ∧
      (s.fseq.state = .lock → s.fseq.caller = .alone →
        exec .dispCtr s = .next ((s.withFctl { s.fctl with pg := false, per := false, lock := true, keyState := key }).withFseq
          { s.fseq with state := .idle }))) ∧
    (s.fctl.bsy = false → s.fctl.lock = true →
      (s.fseq.state = .erase → exec .dispCtr s = .next (s.withFseq { s.fseq with state := .waitErase })) ∧
      (s.fseq.state = .waitErase → exec .dispCtr s = .next (s.withFseq { s.fseq with state := .prog })) ∧
      (s.fseq.state = .waitProg → s.fseq.i.toNat = 511 →
        exec .dispCtr s = .next (s.withFseq { s.fseq with i := 512, state := .lock })) ∧
      (s.fseq.state = .lock → s.fseq.caller = .alone →
        exec .dispCtr s =
          .next ((s.withFctl { s.fctl with keyState := key }).withFseq { s.fseq with state := .idle })))

/-- The programming step: halfword `i` of the data, low byte first, to the address and twice `i`, from the page buffer or from
literal data; on a locked controller only the sequencer moves. The index is below 512, which the invariant of every step says of
a programming sequencer (46_flash_page_programmer.md R291, R296, R297 (d), 20_memory.md R74). -/
def Obligations.SequencerProgramsHalfword : Prop :=
  ∀ (s : State) (b0 b1 : Byte) (a : Word), SequencerIndexOk s.fseq → s.fseq.state = .prog → s.fctl.bsy = false →
    a = s.fseq.addr + 2 * zext32 s.fseq.i → a.toNat % 2 = 0 →
    ((s.fseq.source = .pageBuf ∧ s.hid.pageBuf.read? (2 * s.fseq.i.toNat) = some b0 ∧
        s.hid.pageBuf.read? (2 * s.fseq.i.toNat + 1) = some b1) ∨
      ∃ d, s.fseq.source = .literal d ∧ d[2 * s.fseq.i.toNat]? = some b0 ∧ d[2 * s.fseq.i.toNat + 1]? = some b1) →
    (s.fctl.lock = false → inFlash s.par a.toNat = true → flashByte s a.toNat = 0xFF → flashByte s (a.toNat + 1) = 0xFF →
      exec .dispCtr s = .next ((s.withFctl { s.fctl with
        pg := true, per := false, bsy := true, pendingOp := .prog a (le16 b0 b1) }).withFseq
        { s.fseq with state := .waitProg })) ∧
    (s.fctl.lock = true → exec .dispCtr s = .next (s.withFseq { s.fseq with state := .waitProg }))

/-- The end of a page commit: the controller locked, a blocked one left as it is, the cursor at the next page, the acknowledgment
queued when the device is configured and dropped when it is not, endpoint 0 re-armed and its transmit half done on the live
CTR_TX; then the caller goes on: the pass at DO_RESET, EVT.CTR with the later sources of its word, EP.SERVICE with nothing
(46_flash_page_programmer.md R292, R297 (d), 45_hid_reassembly_commands.md R266; the callers other than the pass are log 27's,
the locked controller's key sequence log 21's). -/
def Obligations.CommitEnds : Prop :=
  ∀ (s : State) (key : KeyState) (f : FlashCtl), s.fseq.state = .lock → s.fseq.caller ≠ .alone → s.fctl.bsy = false →
    key = (if s.fctl.keyState = .blocked then .blocked else .k0) →
    f = (if s.fctl.lock = true then { s.fctl with keyState := key }
      else { s.fctl with pg := false, per := false, lock := true, keyState := key }) →
    Memory.wf none s.pma = true → (s.drv.configured = true → TxReady s .ep1 (min 8 s.drv.ets1.maxPacket.toNat)) →
    ∃ a b c : State,
      a = ((s.withFctl f).withFseq { s.fseq with state := .idle }).withHid
        { s.hid with pageIndex := s.hid.pageIndex + 1, pageOffset := 0 } ∧
      (s.drv.configured = false → b = a) ∧
      (s.drv.configured = true → ChunkArmed a b .ep1
        { s.drv.ets1 with txQueue := [0x42, 0x54, 0x4C, 0x44, 0x43, 0x4D, 0x44, 0x02], txRemaining := 8 }) ∧
      c = b.withUsb { b.usb with ep0 := { b.usb.ep0 with statRx := .valid } } ∧
      (NextChunkReady c .ep0 → ∃ d, TransmitHalfDone c d .ep0 ∧
        (s.fseq.caller = .service → exec .dispCtr s = .next d) ∧
        (∀ w, s.fseq.caller = .event w → LaterSourcesServed .dispCtr w s d) ∧
        (s.fseq.caller = .dispatcher → exec .dispCtr s = .next (d.withDisp { s.disp with state := .doReset })))

/-! ### The bus side -/

/-- A bus reset clears both endpoint registers and DADDR and latches RESET while attached, and does nothing while not; after
it the device answers at no address; a write of CNTR with FRES has the same effect
(43_usb_packet_dispatcher.md R213). -/
def Obligations.BusResetLatches : Prop :=
  ∀ s : State,
    (s.usb.attached = false → exec .hostReset s = .next s) ∧
    (s.usb.attached = true → ∃ u, exec .hostReset s = .next (s.withUsb u) ∧
      u = { s.usb with ep0 := u.ep0, ep1 := u.ep1, daddr := u.daddr, istr := { s.usb.istr with reset := true } } ∧
      u.ep0.toHalf = 0 ∧ u.ep1.toHalf = 0 ∧ u.daddr.toHalf = 0 ∧ (∀ a, u.enabledAt a = false) ∧
      bit u.istrHalf 15 = false ∧
      ∀ v, bit v 0 = true → exec (.regCntr (.write v)) s = .next (s.withUsb { u with cntr := cntrOf v }))

/-- A suspend latches SUSP while attached, and through it the interrupt line when the source and the line are enabled; a wakeup
latches WKUP while attached; nothing else changes, and nothing at all while not attached
(43_usb_packet_dispatcher.md R211, R212). -/
def Obligations.SuspendAndWakeupLatch : Prop :=
  ∀ s : State,
    (s.usb.attached = false → exec .hostSuspend s = .next s ∧ exec .hostWakeup s = .next s) ∧
    (s.usb.attached = true →
      exec .hostSuspend s = .next (s.withUsb { s.usb with istr := { s.usb.istr with susp := true } }) ∧
      exec .hostWakeup s = .next (s.withUsb { s.usb with istr := { s.usb.istr with wkup := true } }) ∧
      (s.usb.cntr.suspm = true → s.usb.irqEn = true →
        ({ s.usb with istr := { s.usb.istr with susp := true } } : Usb).irqLine = true))

/-- An accepted SETUP or OUT packet: its bytes in the receive buffer, its length in COUNT_RX with the capacity kept, the
endpoint NAK with CTR_RX and SETUP set accordingly; every other byte and register unchanged. A receive buffer that reaches
beyond offset 511 is recorded as PmaRange and nothing else changes (43_usb_packet_dispatcher.md R214, R215,
42_usb_endpoint_buffer_manager.md R180 with D18; that it is a fault is log 38's, the record log 6's). -/
def Obligations.OfferedPacketIsReceived : Prop :=
  ∀ (s : State) (i : Instr) (setup : Bool) (a e : Byte) (d : List Byte) (n : Ep) (count : Half),
    (i = .hostSetup a e d ∧ setup = true ∧ d.length = 8 ∨ i = .hostOut a e d ∧ setup = false ∧ d.length ≤ 1023) →
    a.toNat ≤ 127 → e.toNat ≤ 15 → s.usb.enabledAt a = true → s.usb.lookup e = some n →
    (setup = true → (s.usb.ep n).epType = .control) → (s.usb.ep n).statRx = .valid → (s.usb.ep n).ctrRx = false →
    TableInPma s → Memory.wf none s.pma = true → bdtRead s n offCountRx = .ok count →
    d.length ≤ (if bit count 15 = true then 32 * ((field count 10 5).toNat + 1) else 2 * (field count 10 5).toNat) →
    ((d ≠ [] → ∃ b : Half, bdtRead s n offAddrRx = .ok b ∧ b.toNat + d.length ≤ Config.pmaSize) →
      ∃ (t : State) (buffer : Nat → Option Byte) (c0 c1 : Byte), exec i s = .next t ∧
        t = { s with usb := t.usb, pma := t.pma, result := .accepted } ∧
        t.usb = s.usb.setEp n { s.usb.ep n with setup := setup, statRx := .nak, ctrRx := true } ∧
        (d = [] → buffer = s.pma.read?) ∧
        (d ≠ [] → ∀ b : Half, bdtRead s n offAddrRx = .ok b → buffer = readOver s.pma.read? b.toNat d) ∧
        buffer (tableWordAt s n offCountRx) = some c0 ∧ buffer (tableWordAt s n offCountRx + 1) = some c1 ∧
        ∀ o, t.pma.read? o = readOver buffer (tableWordAt s n offCountRx)
          (halfBytes ((le16 c0 c1 &&& 0xFC00) ||| BitVec.ofNat 16 d.length)) o) ∧
    (∀ b : Half, d ≠ [] → bdtRead s n offAddrRx = .ok b → Config.pmaSize < b.toNat + d.length →
      exec i s = .next (recordFault s .pmaRange))

/-- A SETUP or OUT packet that the acceptance conditions exclude leaves the block as it was, and the host learns a label; a move
that is not a USB packet is refused (43_usb_packet_dispatcher.md R210, R214, R215, R217; which label is log 26's). -/
def Obligations.OfferedPacketIsNotAccepted : Prop :=
  (∀ (s : State) (i : Instr) (setup : Bool) (a e : Byte) (d : List Byte),
    (i = .hostSetup a e d ∧ setup = true ∧ d.length = 8 ∨ i = .hostOut a e d ∧ setup = false ∧ d.length ≤ 1023) →
    a.toNat ≤ 127 → e.toNat ≤ 15 →
    ¬(s.usb.enabledAt a = true ∧ ∃ n, s.usb.lookup e = some n ∧ (setup = true → (s.usb.ep n).epType = .control) ∧
      (s.usb.ep n).statRx = .valid ∧ (s.usb.ep n).ctrRx = false ∧
      ∀ count : Half, bdtRead s n offCountRx = .ok count →
        d.length ≤ (if bit count 15 = true then 32 * ((field count 10 5).toNat + 1) else 2 * (field count 10 5).toNat)) →
    ∃ l, exec i s = .next (s.withResult (.notAccepted l))) ∧
  ∀ (s : State) (a e : Byte) (d : List Byte),
    (127 < a.toNat ∨ 15 < e.toNat ∨ d.length ≠ 8 → exec (.hostSetup a e d) s = .refused .badHostMove) ∧
    (127 < a.toNat ∨ 15 < e.toNat ∨ 1023 < d.length → exec (.hostOut a e d) s = .refused .badHostMove) ∧
    (127 < a.toNat ∨ 15 < e.toNat → exec (.hostIn a e) s = .refused .badHostMove)

/-- An accepted IN request hands over the bytes COUNT_TX counts and leaves the endpoint NAK with CTR_TX set; one that is not
accepted leaves the block as it was. A transmit buffer that lies beyond offset 511 is recorded as PmaRange and nothing else
changes (43_usb_packet_dispatcher.md R216, R217, 42_usb_endpoint_buffer_manager.md R180 with D18; which label is log 26's, that
it is a fault log 38's, the record log 6's). -/
def Obligations.RequestedPacket : Prop :=
  ∀ (s : State) (a e : Byte), a.toNat ≤ 127 → e.toNat ≤ 15 →
    (∀ (n : Ep) (count : Half), s.usb.enabledAt a = true → s.usb.lookup e = some n →
      (s.usb.ep n).statTx = .valid → (s.usb.ep n).ctrTx = false → bdtRead s n offCountTx = .ok count →
      (∀ d : List Byte, d.length = (field count 0 10).toNat →
        (d ≠ [] → ∃ b : Half, bdtRead s n offAddrTx = .ok b ∧ b.toNat + d.length ≤ Config.pmaSize ∧
          ∀ k, k < d.length → s.pma.read? (b.toNat + k) = d[k]?) →
        exec (.hostIn a e) s =
          .next ((s.setEp n { s.usb.ep n with statTx := .nak, ctrTx := true }).withResult (.packet d))) ∧
      (∀ b : Half, (field count 0 10).toNat ≠ 0 → bdtRead s n offAddrTx = .ok b → Config.pmaSize ≤ b.toNat →
        exec (.hostIn a e) s = .next (recordFault s .pmaRange))) ∧
    (¬(s.usb.enabledAt a = true ∧ ∃ n, s.usb.lookup e = some n ∧ (s.usb.ep n).statTx = .valid ∧
      (s.usb.ep n).ctrTx = false) → ∃ l, exec (.hostIn a e) s = .next (s.withResult (.notAccepted l)))

/-! ### The interrupt -/

/-- Interrupt entry: with the dispatcher idle and the line up the dispatcher goes to its status read and nothing is saved or
masked; MAIN is then held; with the line down or the dispatcher running nothing happens
(43_usb_packet_dispatcher.md R220, 60_exceptions.md R326, R331). -/
def Obligations.InterruptEntry : Prop :=
  ∀ s : State, SequencerIdle s →
    (s.disp.state = .idle → s.usb.irqLine = true →
      exec .dispEnter s = .next (s.withDisp { s.disp with state := .read }) ∧
      ∀ i, i = .drvInitialize ∨ i = .drvShutdown ∨ i = .bootEvaluate ∨ i = .bootUpdatemode ∨ i = .bootLaunch ∨
          i = .bootSysreset →
        exec i (s.withDisp { s.disp with state := .read }) = .next (s.withDisp { s.disp with state := .read })) ∧
    (s.disp.state ≠ .idle ∨ s.usb.irqLine = false → exec .dispEnter s = .next s)

/-- The status read: the masked status with EP_ID and DIR beside it is the snapshot; with a flagged source the pass begins,
without one every latched flag is cleared and the dispatcher is idle again. EVT.NONE is that exit as a row: held out of READ and
while a source is flagged (43_usb_packet_dispatcher.md R221, R223, 30_encoding.md R109, 60_exceptions.md R327; EVT.NONE is
log 19's, held log 4's). -/
def Obligations.StatusRead : Prop :=
  ∀ (s : State) (v : Half), SequencerIdle s →
    (s.disp.state = .read → ∀ w,
      w = (s.usb.istrHalf &&& s.usb.cntr.toHalf &&& 0x9C00) ||| (s.usb.istrHalf &&& 0x001F) →
      (w &&& 0x9C00 ≠ 0 →
        exec .dispRead s = .next (s.withDisp { state := .doCtr, snap := w }) ∧ exec (.evtNone v) s = .next s) ∧
      (w &&& 0x9C00 = 0 → ∃ t, exec .dispRead s = .next t ∧ exec (.evtNone v) s = .next t ∧
        t = (s.withUsb { s.usb with istr := { reset := false, susp := false, wkup := false } }).withDisp
          { state := .idle, snap := w })) ∧
    (s.disp.state ≠ .read → exec (.evtNone v) s = .next s)

/-- The suspend and the wakeup handlers, as events and in their pass: suspend clears its flag and revokes an assigned address,
wakeup clears its flag; the event row serves the later flagged source of its word too, a pass without the flag only moves on
(43_usb_packet_dispatcher.md R222, 30_encoding.md R118; EVT rows called by themselves are log 19's reading). -/
def Obligations.SuspendAndWakeupServed : Prop :=
  ∀ (s : State) (w : Half) (us uw : State), SequencerIdle s →
    us = s.withUsb { s.usb with istr := { s.usb.istr with susp := false }, daddr := { s.usb.daddr with add := 0 } } →
    uw = s.withUsb { s.usb with istr := { s.usb.istr with wkup := false } } →
    (bit w 12 = false → exec (.evtSusp w) s = .next us) ∧
    (bit w 12 = true → exec (.evtSusp w) s = .next (wkupServed us)) ∧
    exec (.evtWkup w) s = .next uw ∧
    (s.disp.state = .doSusp → exec .dispSusp s = .next ((if bit s.disp.snap 11 then us else s).withDisp
      { s.disp with state := .doWkup })) ∧
    (s.disp.state = .doWkup → exec .dispWkup s = .next ((if bit s.disp.snap 12 then uw else s).withDisp
      { s.disp with state := .read }))

/-- The bus-reset handler, called by itself, by its event and by its pass of the dispatcher: the configuration, the session, the
cursor and DADDR of column BUS; the event serves the later sources of its word after it; a pass without the flag, or without a
registered handler, does no more than its own part (45_hid_reassembly_commands.md R270, 42_usb_endpoint_buffer_manager.md R181,
43_usb_packet_dispatcher.md R222, 30_encoding.md R118, 10_state.md R50; SETUP kept is log 39's, EVT.RESET by itself log
19's). -/
def Obligations.BusResetServed : Prop :=
  ∀ (s c d : State) (w : Half), SequencerIdle s → Memory.wf none s.pma = true →
    c = s.withUsb { s.usb with istr := { s.usb.istr with reset := false } } →
    d = c.withDisp { s.disp with state := .doSusp } →
    (∃ t, exec .hidBusreset s = .next t ∧ BusResetHandled s t) ∧
    (s.drv.cbReset = true → ∃ t, BusResetHandled c t ∧ exec (.evtReset w) s = .next (lastServed w t)) ∧
    (s.drv.cbReset = false → exec (.evtReset w) s = .next (lastServed w c)) ∧
    (s.disp.state = .doReset → bit s.disp.snap 10 = true → s.drv.cbReset = true →
      ∃ t, exec .dispReset s = .next t ∧ BusResetHandled d t) ∧
    (s.disp.state = .doReset → bit s.disp.snap 10 = true → s.drv.cbReset = false → exec .dispReset s = .next d) ∧
    (s.disp.state = .doReset → bit s.disp.snap 10 = false →
      exec .dispReset s = .next (s.withDisp { s.disp with state := .doSusp }))

/-- A completed transmission served: CTR_TX cleared, on endpoint 0 a pending address applied, and the next packet armed when bytes
are left; nothing without the flag; with a reception beside it the reception is served first. EVT.CTR and DISP.CTR do the same
and go on, also without a callback, where the flags are cleared (42_usb_endpoint_buffer_manager.md R190,
43_usb_packet_dispatcher.md R222, 44_usb_control_requests.md R250, 30_encoding.md R118; EVT.CTR by itself is log 19's). -/
def Obligations.TransmissionServed : Prop :=
  ∀ (s : State) (e : Ep) (k : BitVec 4), SequencerIdle s → k.toNat = epNumber e →
    ((s.usb.ep e).ctrRx = false → NextChunkReady s e →
      ∃ t, TransmitHalfDone s t e ∧ exec (.epService k) s = .next t ∧
        (s.drv.cbEp = true → TransferCompleteServed s t k)) ∧
    (∀ r t : State, (s.usb.ep e).ctrRx = true → (s.usb.ep e).ctrTx = true →
      exec (.epService k) (s.setEp e { s.usb.ep e with ctrTx := false }) = .next r → r.faults = s.faults → SequencerIdle r →
      exec (.epService k) (r.setEp e { r.usb.ep e with ctrTx := true }) = .next t → t.faults = s.faults →
      exec (.epService k) s = .next t ∧ (s.drv.cbEp = true → TransferCompleteServed s t k)) ∧
    (s.drv.cbEp = false → TransferCompleteServed s (s.setEp e { s.usb.ep e with ctrRx := false, ctrTx := false }) k) ∧
    (s.disp.state = .doCtr → bit s.disp.snap 15 = false →
      exec .dispCtr s = .next (s.withDisp { s.disp with state := .doReset }))

/-! ### Control requests and transmission -/

/-- EP.TXCHUNK arms the next packet of the queue; `sendData` replaces the queue and arms its first packet, on endpoint 0 always
and on endpoint 1 when configured, and otherwise does nothing; the acknowledgment frame is one such call on endpoint 1
(42_usb_endpoint_buffer_manager.md R184, R186, 45_hid_reassembly_commands.md R266; ACK.PAGE as that call is log 17's). -/
def Obligations.QueuedDataIsArmed : Prop :=
  ∀ s : State, SequencerIdle s → Memory.wf none s.pma = true →
    (∀ e : Ep,
      TxReady s e ((s.drv.ets e).txQueue.take (min (s.drv.ets e).txRemaining.toNat (s.drv.ets e).maxPacket.toNat)).length →
      ∃ t, exec (.epTxchunk e) s = .next t ∧ ChunkArmed s t e (s.drv.ets e)) ∧
    (∀ (e : Ep) (k : Byte) (data : List Byte) (length : Half), k.toNat = epNumber e → length.toNat ≤ data.length →
      (e = .ep0 ∨ s.drv.configured = true) → TxReady s e (min length.toNat (s.drv.ets e).maxPacket.toNat) →
      ∃ t, exec (.drvSenddata k data length) s = .next t ∧
        ChunkArmed s t e { s.drv.ets e with txQueue := data.take length.toNat, txRemaining := length }) ∧
    (∀ (k : Byte) (data : List Byte) (length : Half), length.toNat ≤ data.length →
      (2 ≤ k.toNat ∨ k.toNat = 1 ∧ s.drv.configured = false) → exec (.drvSenddata k data length) s = .next s) ∧
    (s.drv.configured = true → TxReady s .ep1 (min 8 s.drv.ets1.maxPacket.toNat) →
      ∃ t, exec .ackPage s = .next t ∧ ChunkArmed s t .ep1
        { s.drv.ets1 with txQueue := [0x42, 0x54, 0x4C, 0x44, 0x43, 0x4D, 0x44, 0x02], txRemaining := 8 }) ∧
    (s.drv.configured = false → exec .ackPage s = .next s)

/-- Each control request is answered on endpoint 0: a descriptor cut to the requested length, or a zero-length packet;
SET_ADDRESS records the address, SET_CONFIGURATION sets the flag, no other state changes
(44_usb_control_requests.md R241 to R248). -/
def Obligations.RequestsAreAnswered : Prop :=
  ∀ (s : State) (rt ix : Byte) (wValue wIndex wLength : Half) (p : Packet8) (i : Instr) (u : State) (d : List Byte)
    (len : Nat),
    SequencerIdle s → Memory.wf none s.pma = true →
    (i = .setupGetDescriptorDevice rt ix wIndex wLength ∧ u = s ∧ d = s.par.deviceDesc ∧ len = min d.length wLength.toNat ∨
      i = .setupGetDescriptorConfiguration rt ix wIndex wLength ∧ u = s ∧ d = s.par.configDesc ∧
        len = min d.length wLength.toNat ∨
      i = .setupGetDescriptorReport rt ix wIndex wLength ∧ u = s ∧ d = s.par.reportDesc ∧ len = min d.length wLength.toNat ∨
      i = .setupGetDescriptorString rt ix wIndex wLength ∧ u = s ∧ some d = s.par.stringDescs[ix.toNat]? ∧
        len = min d.length wLength.toNat ∨
      i = .setupGetDescriptorString rt ix wIndex wLength ∧ u = s ∧ s.par.stringDescs.length ≤ ix.toNat ∧ d = [] ∧ len = 0 ∨
      i = .setupSetAddress rt wValue wIndex wLength ∧ u = s.withDrv { s.drv with pendingAddr := wValue.setWidth 7 } ∧
        d = [] ∧ len = 0 ∨
      i = .setupSetConfiguration rt wValue wIndex wLength ∧ u = s.withDrv { s.drv with configured := true } ∧ d = [] ∧
        len = 0 ∨
      i = .setupOther p ∧ u = s ∧ d = [] ∧ len = 0) →
    TxReady s .ep0 (min len s.drv.ets0.maxPacket.toNat) →
    ∃ t, exec i s = .next t ∧ Answered u t d len

/-- The routine that serves a SETUP packet (44_usb_control_requests.md R241) does what the row that 30_encoding.md R106
selects for it does; the endpoint service takes the packet into `rx_buf`, acknowledges it, does what its row does and re-arms
endpoint 0 (42_usb_endpoint_buffer_manager.md R190). -/
def Obligations.SelectedRowIsTheRequest : Prop :=
  (∀ (s : State) (p : Packet8), SequencerIdle s → exec (selectSetup p) s = finish (handleSetup s p)) ∧
  ∀ (s : State) (bytes : List Byte), PacketWaiting s .ep0 bytes → s.usb.ep0.setup = true → s.usb.ep0.ctrTx = false →
    ∃ u, PacketTaken s u .ep0 bytes false ∧ u.hid = s.hid ∧ u.fseq = s.fseq ∧ u.faults = s.faults ∧
      (∀ r, exec (selectSetup u.drv.ets0.rxBuf) u = .refused r → exec (.epService 0) s = .refused r) ∧
      ∀ v, exec (selectSetup u.drv.ets0.rxBuf) u = .next v → v.faults = s.faults →
        ∃ t, exec (.epService 0) s = .next t ∧ t = v.withUsb { v.usb with ep0 := { v.usb.ep0 with statRx := .valid } } ∧
          (s.drv.cbEp = true → TransferCompleteServed s t 0)

/-- EP.CONFIGURE: BTABLE, the sixteen bytes of the table, the two endpoint registers and the Endpoint Transfer States; every
other byte and register unchanged (42_usb_endpoint_buffer_manager.md R181, 20_memory.md R72; SETUP kept is log 39's). -/
def Obligations.EndpointsConfigured : Prop :=
  ∀ s : State, SequencerIdle s → Memory.wf none s.pma = true →
    ∃ t, exec .epConfigure s = .next t ∧
      t = { s with usb := t.usb, pma := t.pma, drv := t.drv } ∧
      t.usb = { s.usb with ep0 := t.usb.ep0, ep1 := t.usb.ep1, btable := 0 } ∧
      t.usb.ep0.toHalf = 0x3220 ||| (s.usb.ep0.toHalf &&& 0x0800) ∧
      t.usb.ep1.toHalf = 0x0621 ||| (s.usb.ep1.toHalf &&& 0x0800) ∧
      (∀ o, t.pma.read? o = readOver s.pma.read? 0
        [0x48, 0x00, 0x00, 0x00, 0x40, 0x00, 0x00, 0x10, 0x50, 0x00, 0x00, 0x00, 0x58, 0x00, 0x00, 0x00] o) ∧
      t.drv = { s.drv with
        ets0 := { s.drv.ets0 with rxLen := 0, txQueue := [], txRemaining := 0, maxPacket := 8 }
        ets1 := { s.drv.ets1 with rxLen := 0, txQueue := [], txRemaining := 0, maxPacket := 8 } }

/-! ### Unit H -/

/-- The three commands (45_hid_reassembly_commands.md R264, R265; the rows as the effect alone are log 16's). -/
def Obligations.CommandsTakeEffect : Prop :=
  ∀ (s : State) (opcode : Byte), SequencerIdle s →
    exec .cmdResetPages s =
      .next (s.withHid { s.hid with pageIndex := s.par.firstPage, pageOffset := 0, uploadStarted := true }) ∧
    exec .cmdReboot s = .next (s.withHid { s.hid with uploadFinished := true }) ∧
    exec (.cmdIgnored opcode) s = .next s

/-- The append: eight bytes at `page_offset`, which advances by 8; every other byte of the page buffer and all other state
unchanged (45_hid_reassembly_commands.md R262; the two rows as the append alone are log 18's). -/
def Obligations.PacketIsAppended : Prop :=
  ∀ (s : State) (rx : Packet8), SequencerIdle s → PageBufOk s.hid.pageBuf → s.hid.pageOffset.toNat + 8 ≤ 1024 →
    ∃ t, exec (.hidAppend rx) s = .next t ∧ exec (.dataAppend rx) s = .next t ∧
      t = s.withHid { s.hid with pageBuf := t.hid.pageBuf, pageOffset := s.hid.pageOffset + 8 } ∧ Appended s t rx

/-- A data packet that fills neither a command frame nor the page: taken, appended, endpoint 0 re-armed, nothing more. A packet
without a hook (an empty one on endpoint 0, any on endpoint 1): taken and the endpoint re-armed. EVT.CTR and DISP.CTR do the same
and go on (42_usb_endpoint_buffer_manager.md R190, 45_hid_reassembly_commands.md R261, R262, 43_usb_packet_dispatcher.md R222;
EVT.CTR by itself is log 19's). -/
def Obligations.DataPacketServed : Prop :=
  (∀ (s : State) (bytes : List Byte), DataPacketWaiting s bytes → s.usb.ep0.ctrTx = false → PageBufOk s.hid.pageBuf →
    s.hid.pageOffset.toNat + 8 < 1024 → s.hid.pageOffset.toNat ≠ 56 →
    ∃ t, exec (.epService 0) s = .next t ∧ (s.drv.cbEp = true → TransferCompleteServed s t 0) ∧
      PacketTaken s t .ep0 bytes true ∧ t.fseq = s.fseq ∧ t.faults = s.faults ∧ Appended s t t.drv.ets0.rxBuf ∧
      t.hid = { s.hid with pageBuf := t.hid.pageBuf, pageOffset := s.hid.pageOffset + 8 }) ∧
  ∀ (s : State) (e : Ep) (k : BitVec 4) (bytes : List Byte), PacketWaiting s e bytes → k.toNat = epNumber e →
    (s.usb.ep e).ctrTx = false → (e = .ep0 ∧ bytes = [] ∧ s.usb.ep0.setup = false ∨ e = .ep1) →
    ∃ t, exec (.epService k) s = .next t ∧ (s.drv.cbEp = true → TransferCompleteServed s t k) ∧
      PacketTaken s t e bytes true ∧ t.hid = s.hid ∧ t.fseq = s.fseq ∧ t.faults = s.faults

/-- The packet that completes the first 64 bytes: a command frame takes effect by its opcode, anything else is data. EVT.CTR and
DISP.CTR do the same and go on (45_hid_reassembly_commands.md R261, R263, R264, R265, R268, 43_usb_packet_dispatcher.md R222;
EVT.CTR by itself is log 19's). -/
def Obligations.CommandFrameRecognised : Prop :=
  ∀ (s : State) (bytes : List Byte), DataPacketWaiting s bytes → s.usb.ep0.ctrTx = false → PageBufOk s.hid.pageBuf →
    s.hid.pageOffset.toNat = 56 →
    ∃ t, exec (.epService 0) s = .next t ∧ (s.drv.cbEp = true → TransferCompleteServed s t 0) ∧
      PacketTaken s t .ep0 bytes true ∧ t.fseq = s.fseq ∧ t.faults = s.faults ∧ Appended s t t.drv.ets0.rxBuf ∧
      (HoldsFrame t.hid.pageBuf 0x00 →
        t.hid = { s.hid with
          pageBuf := t.hid.pageBuf, pageIndex := s.par.firstPage, pageOffset := 0, uploadStarted := true }) ∧
      (HoldsFrame t.hid.pageBuf 0x01 →
        t.hid = { s.hid with pageBuf := t.hid.pageBuf, pageOffset := 64, uploadFinished := true }) ∧
      (∀ opcode, opcode ≠ 0x00 → opcode ≠ 0x01 → HoldsFrame t.hid.pageBuf opcode →
        t.hid = { s.hid with pageBuf := t.hid.pageBuf, pageOffset := 64 }) ∧
      (HoldsData t.hid.pageBuf → t.hid = { s.hid with pageBuf := t.hid.pageBuf, pageOffset := 64 })

/-- The packet that completes the page starts the commit at the cursor's page, with endpoint 0 not re-armed and a completed
transmission left for the end; a commit begun by DISP.CTR is the pass's, which stays in DO_CTR. With the index at or beyond
FLASH_PAGES it records FlashRange before the flash controller is touched (45_hid_reassembly_commands.md R261, R266,
46_flash_page_programmer.md R291, R292, 43_usb_packet_dispatcher.md R222; log 6; EVT.CTR by itself is log 19's, log 27's). -/
def Obligations.FullPageIsCommitted : Prop :=
  ∀ (s : State) (bytes : List Byte), DataPacketWaiting s bytes → PageBufOk s.hid.pageBuf →
    s.hid.pageOffset.toNat = 1016 →
    ∃ t, exec (.epService 0) s = .next t ∧ PacketTaken s t .ep0 bytes false ∧ Appended s t t.drv.ets0.rxBuf ∧
      t.hid = { s.hid with pageBuf := t.hid.pageBuf, pageOffset := 1024 } ∧
      (s.hid.pageIndex.toNat < s.par.flashPages.toNat → t.faults = s.faults ∧
        t.fseq = FlashSeq.mk .unlock (s.par.flashBase + 1024 * zext32 s.hid.pageIndex) 0 .pageBuf .service ∧
        (s.drv.cbEp = true → TransferCompleteWaits s t 0)) ∧
      (s.par.flashPages.toNat ≤ s.hid.pageIndex.toNat →
        t.faults = s.faults ++ [.flashRange s.hid.pageIndex.toNat] ∧ t.fseq = s.fseq ∧
        (s.drv.cbEp = true → TransferCompleteStops s t 0))

/-! ### The main line -/

/-- `initialize`: column INIT of the reset table; calling it twice is calling it once
(41_usb_register_interface.md R160, 10_state.md R50). -/
def Obligations.InitializeBringsUp : Prop :=
  ∀ s : State, DispatcherIdle s → ∃ t, exec .drvInitialize s = .next t ∧ exec .drvInitialize t = .next t ∧
    t = { s with usb := t.usb, drv := t.drv, hid := { s.hid with uploadStarted := false, uploadFinished := false } } ∧
    t.usb.ep0.toHalf = 0 ∧ t.usb.ep1.toHalf = 0 ∧ t.usb.cntr.toHalf = 0x9C00 ∧ t.usb.istrHalf = 0 ∧
    t.usb.daddr.toHalf = 0 ∧ t.usb.btable = s.usb.btable ∧ t.usb.irqEn = true ∧ t.usb.dpForceLow = false ∧
    t.usb.attached = true ∧
    t.drv = { s.drv with
      cbEp := true, cbReset := true
      ets0 := { rxBuf := Packet8.zero, rxLen := 0, txQueue := [], txRemaining := 0, maxPacket := s.drv.ets0.maxPacket }
      ets1 := { rxBuf := Packet8.zero, rxLen := 0, txQueue := [], txRemaining := 0, maxPacket := s.drv.ets1.maxPacket } }

/-- `shutdown`: column SHUT of the reset table; from the hardware-reset state only `dp_force_low` changes
(41_usb_register_interface.md R161, 10_state.md R50). -/
def Obligations.ShutdownBringsDown : Prop :=
  (∀ s : State, DispatcherIdle s → ∃ t, exec .drvShutdown s = .next t ∧
    t = { s with usb := t.usb, drv := t.drv } ∧
    t.usb.ep0.toHalf = 0 ∧ t.usb.ep1.toHalf = 0 ∧ t.usb.cntr.toHalf = 0x0003 ∧ t.usb.istrHalf = 0 ∧
    t.usb.daddr.toHalf = 0 ∧ t.usb.btable = s.usb.btable ∧ t.usb.irqEn = false ∧ t.usb.dpForceLow = true ∧
    t.usb.attached = false ∧
    t.drv = { s.drv with pendingAddr := 0, configured := false, devStatus := 0, cbEp := false, cbReset := false }) ∧
  exec .drvShutdown State.reset = .next (State.reset.withUsb { State.reset.usb with dpForceLow := true })

/-- The three hardware resets: column HW of the reset table, the Magic Word kept but for a power loss, the block ready to
evaluate and to act again (40_boot_controller_interface.md R136, R139, 10_state.md R46, R50; log 10, log 14, log 15,
log 32). -/
def Obligations.HardwareResets : Prop :=
  ∀ s : State, FlashOk s.par s.flash →
    (∃ t, exec .hwReset s = .next t ∧ HardwareResetDone s t s.boot.magic ∧
      (DispatcherIdle s → exec .bootSysreset s = .next t)) ∧
    (∃ t, exec .hwPowerloss s = .next t ∧ HardwareResetDone s t 0x0000)

/-- BOOT.EVALUATE: the Magic Word is cleared and any one of the three conditions leads to UpdateMode; BOOT.LAUNCH: the three
outputs of the handoff and nothing else of the block; out of their states they are not enabled
(40_boot_controller_interface.md R131, R134, R136; log 4, log 15). -/
def Obligations.EvaluateAndLaunch : Prop :=
  ∀ s : State, DispatcherIdle s → s.par.flashOk →
    (s.boot.state = .evaluate →
      exec .bootEvaluate s = .next (s.withBoot { s.boot with
        magic := 0
        state := if s.boot.magic = 0x424C ∨ s.boot.bootPin = true ∨
          flashWordAt s (appBase s.par).toNat &&& 0x2FFE0000 ≠ s.par.sramBase then .updateMode else .launch })) ∧
    (s.boot.state = .launch →
      exec .bootLaunch s = .next (s.withBoot { s.boot with
        vtor := appBase s.par
        msp := flashWordAt s (appBase s.par).toNat
        pcApp := flashWordAt s ((appBase s.par).toNat + 4)
        launched := true })) ∧
    (s.boot.state ≠ .evaluate → exec .bootEvaluate s = .next s) ∧
    (s.boot.state ≠ .launch → exec .bootLaunch s = .next s)

/-- The stack-pointer test is the mask and the comparison; with SRAM_BASE at 0x20000000 it accepts exactly the words whose bit 29
is 1 and whose bits 27 to 17 are 0, and so not an erased word (40_boot_controller_interface.md R134). -/
def Obligations.StackPointerTest : Prop :=
  ∀ (p : Params) (v : Word),
    (checkUserCode p v = true ↔ v &&& 0x2FFE0000 = p.sramBase) ∧
    (p.sramBase = 0x20000000 →
      (checkUserCode p v = true ↔ bit v 29 = true ∧ ∀ k, 17 ≤ k → k ≤ 27 → bit v k = false) ∧
      checkUserCode p 0xFFFFFFFF = false)

/-- UpdateMode, one MAIN step at a time: `shutdown`, `initialize`, the poll, the idle blink, and after a finished upload
`shutdown` and the hardware reset; out of UpdateMode nothing (40_boot_controller_interface.md R135, R139; the poll and the blink
as two steps are log 14's, nothing out of its state log 4's, what the reset keeps log 32's, the flash under an operation log
10's). -/
def Obligations.UpdateModeSequence : Prop :=
  ∀ s : State, DispatcherIdle s →
    (s.boot.state ≠ .updateMode → exec .bootUpdatemode s = .next s) ∧
    (s.boot.state = .updateMode →
      (s.boot.um = .shutdownFirst → ∃ t, exec .drvShutdown s = .next t ∧
        exec .bootUpdatemode s = .next (t.withBoot { s.boot with um := .bringUp })) ∧
      (s.boot.um = .bringUp → ∃ t, exec .drvInitialize s = .next t ∧
        exec .bootUpdatemode s = .next (t.withBoot { s.boot with um := .poll })) ∧
      (s.boot.um = .poll →
        exec .bootUpdatemode s = .next ((s.withResult (.polled s.hid.uploadFinished)).withBoot
          { s.boot with um := if s.hid.uploadFinished = true then .shutdownLast else .blink })) ∧
      (s.boot.um = .blink →
        exec .bootUpdatemode s = .next (s.withBoot { s.boot with
          um := .poll
          indicator := if s.hid.uploadStarted = true then s.boot.indicator else !s.boot.indicator })) ∧
      (s.boot.um = .shutdownLast → ∃ t, exec .drvShutdown s = .next t ∧
        exec .bootUpdatemode s = .next (t.withBoot { s.boot with um := .reset })) ∧
      (s.boot.um = .reset → FlashOk s.par s.flash →
        ∃ t, exec .bootUpdatemode s = .next t ∧ HardwareResetDone s t s.boot.magic))
end

