-- ==== Sys2Proof/Laws/Bits.lean ====
section
/-! SUPPORT. Byte order both ways, and the lengths an encoding carries: what a proof about decoding goes through. -/

namespace Sys2Proof

open Sys2Proof.Machine

/-- A halfword is the little-endian value of its bytes (20_memory.md R74). -/
@[simp] theorem le16_halfBytes (v : Half) : le16 (loByte v) (hiByte v) = v := by
  apply BitVec.eq_of_getLsbD_eq
  intro i hi
  simp only [le16, loByte, hiByte, BitVec.getLsbD_append, BitVec.getLsbD_extractLsb']
  interval_cases i <;> simp

/-- The low byte of a little-endian value. -/
@[simp] theorem loByte_le16 (b0 b1 : Byte) : loByte (le16 b0 b1) = b0 := by
  apply BitVec.eq_of_getLsbD_eq
  intro i hi
  simp only [loByte, le16, BitVec.getLsbD_extractLsb', BitVec.getLsbD_append]
  simp [hi]

/-- The high byte of a little-endian value. -/
@[simp] theorem hiByte_le16 (b0 b1 : Byte) : hiByte (le16 b0 b1) = b1 := by
  apply BitVec.eq_of_getLsbD_eq
  intro i hi
  simp only [hiByte, le16, BitVec.getLsbD_extractLsb', BitVec.getLsbD_append]
  simp [hi]

/-- A word is the little-endian value of its bytes (20_memory.md R74). -/
@[simp] theorem le32_wordBytes (v : Word) :
    le32 (v.extractLsb' 0 8) (v.extractLsb' 8 8) (v.extractLsb' 16 8) (v.extractLsb' 24 8) = v := by
  apply BitVec.eq_of_getLsbD_eq
  intro i hi
  simp only [le32, BitVec.getLsbD_append, BitVec.getLsbD_extractLsb']
  interval_cases i <;> simp

/-- The bytes of a little-endian value of four bytes. -/
@[simp] theorem wordBytes_le32 (b0 b1 b2 b3 : Byte) : wordBytes (le32 b0 b1 b2 b3) = [b0, b1, b2, b3] := by
  have h : ∀ (lo : Nat) (b : Byte), (∀ i, i < 8 → (le32 b0 b1 b2 b3).getLsbD (lo + i) = b.getLsbD i) →
      (le32 b0 b1 b2 b3).extractLsb' lo 8 = b := by
    intro lo b k
    apply BitVec.eq_of_getLsbD_eq
    intro i hi
    rw [BitVec.getLsbD_extractLsb', k i hi]
    simp [hi]
  rw [wordBytes, h 0 b0, h 8 b1, h 16 b2, h 24 b3]
  all_goals
    intro i hi
    simp only [le32, BitVec.getLsbD_append]
    interval_cases i <;> simp

/-- All of the bytes left are taken. -/
@[simp] theorem takeBytes_length (d : List Byte) : takeBytes d.length d = .ok (d, []) := by simp [takeBytes]

/-- A length field counted from 8 gives the length back (log 2). -/
theorem biasedLength_biasedField {d : List Byte} (h : d.length < 65536) :
    biasedLength 8 (biasedField 8 d.length) = d.length := by
  rw [biasedLength, biasedField, BitVec.toNat_ofNat]
  omega

end Sys2Proof
end

