-- ==== Sys2Proof/Laws/Flags.lean ====
section
/-! SUPPORT. The register words bit by bit: one lemma per word, so that no proof unfolds a layout. -/

namespace Sys2Proof.Machine

@[simp] theorem statOfCode_code (c : BitVec 2) : (statOfCode c).code = c := by revert c; decide
@[simp] theorem code_statOfCode (x : EpStat) : statOfCode x.code = x := by cases x <;> decide
@[simp] theorem typeOfCode_code (c : BitVec 2) : (typeOfCode c).code = c := by revert c; decide
@[simp] theorem code_typeOfCode (x : EpType) : typeOfCode x.code = x := by cases x <;> decide

/-- Bit `i` of EPnR (10_state.md R26). -/
theorem EpReg.getLsbD_toHalf (r : EpReg) (i : Nat) : r.toHalf.getLsbD i =
    if i < 4 then r.ea.getLsbD i else if i < 6 then r.statTx.code.getLsbD (i - 4) else if i = 7 then r.ctrTx
    else if i = 9 ∨ i = 10 then r.epType.code.getLsbD (i - 9) else if i = 11 then r.setup
    else if i = 12 ∨ i = 13 then r.statRx.code.getLsbD (i - 12) else if i = 15 then r.ctrRx else false := by
  by_cases hi : i < 16
  · rw [EpReg.toHalf]
    simp only [BitVec.getLsbD_append]
    interval_cases i <;> simp
  · rw [BitVec.getLsbD_of_ge _ _ (by omega)]
    split_ifs <;> first | omega | rfl

/-- Bit `i` of CNTR (10_state.md R22). -/
theorem Cntr.getLsbD_toHalf (c : Cntr) (i : Nat) : c.toHalf.getLsbD i =
    if i = 0 then c.fres else if i = 1 then c.pdwn else if i = 10 then c.resetm else if i = 11 then c.suspm
    else if i = 12 then c.wkupm else if i = 15 then c.ctrm else false := by
  by_cases hi : i < 16
  · rw [Cntr.toHalf]
    simp only [BitVec.getLsbD_append]
    interval_cases i <;> simp
  · rw [BitVec.getLsbD_of_ge _ _ (by omega)]
    split_ifs <;> first | omega | rfl

/-- Bit `i` of ISTR (10_state.md R23). -/
theorem Usb.getLsbD_istrHalf (u : Usb) (i : Nat) : u.istrHalf.getLsbD i =
    if i < 4 then u.epId.getLsbD i else if i = 4 then u.dir else if i = 10 then u.istr.reset
    else if i = 11 then u.istr.susp else if i = 12 then u.istr.wkup else if i = 15 then u.ctr else false := by
  by_cases hi : i < 16
  · rw [Usb.istrHalf]
    simp only [BitVec.getLsbD_append]
    interval_cases i <;> simp
  · rw [BitVec.getLsbD_of_ge _ _ (by omega)]
    split_ifs <;> first | omega | rfl

/-- Bit `i` of DADDR (10_state.md R24). -/
theorem Daddr.getLsbD_toHalf (d : Daddr) (i : Nat) : d.toHalf.getLsbD i =
    if i < 7 then d.add.getLsbD i else if i = 7 then d.ef else false := by
  by_cases hi : i < 16
  · rw [Daddr.toHalf]
    simp only [BitVec.getLsbD_append]
    interval_cases i <;> simp
  · rw [BitVec.getLsbD_of_ge _ _ (by omega)]
    split_ifs <;> first | omega | rfl

/-- Bit `i` of FLASH_CR (10_state.md R41). -/
theorem FlashCtl.getLsbD_crWord (f : FlashCtl) (i : Nat) : f.crWord.getLsbD i =
    if i = 0 then f.pg else if i = 1 then f.per else if i = 6 then f.strt else if i = 7 then f.lock else false := by
  by_cases hi : i < 32
  · rw [FlashCtl.crWord]
    simp only [BitVec.getLsbD_append]
    interval_cases i <;> simp
  · rw [BitVec.getLsbD_of_ge _ _ (by omega)]
    split_ifs <;> first | omega | rfl

end Sys2Proof.Machine
end

