-- ==== Sys2Proof/Laws/Memory.lean ====
section
/-! SUPPORT. The laws of sparse memory: every operation keeps the canonical form, says what it lists, and says what every
address reads afterwards. -/

namespace Sys2Proof.Machine

variable {u : Option Byte}

/-- The canonical form, one entry at a time. -/
theorem Memory.wf_cons (c : Host.Cell) (m : Memory) :
    Memory.wf u (c :: m) = true ↔ (∀ x ∈ m, c.1 < x.1) ∧ u ≠ some c.2 ∧ Memory.wf u m = true := by
  simp [Memory.wf, List.all_eq_true, and_assoc]

/-- An address below every listed one is not listed. -/
theorem Memory.read?_below {m : Memory} {a : Nat} (h : ∀ x ∈ m, a < x.1) : m.read? a = none := by
  induction m with
  | nil => rfl
  | cons c m ih =>
    have hc := h c (by simp)
    rw [Memory.read?, if_neg (by omega)]
    exact ih fun x hx => h x (by simp [hx])

/-- What a read finds is listed. -/
theorem Memory.mem_of_read? {m : Memory} {a : Nat} {v : Byte} (h : m.read? a = some v) : (a, v) ∈ m := by
  induction m with
  | nil => cases h
  | cons c m ih =>
    rw [Memory.read?] at h
    split at h
    · next e => cases h; subst e; simp
    · simp [ih h]

/-- In a canonical memory no listed byte is the value an unlisted address reads as. -/
theorem Memory.read?_ne_unlisted {m : Memory} {a : Nat} {v : Byte} (hm : Memory.wf u m = true) (h : m.read? a = some v) :
    u ≠ some v := by
  induction m with
  | nil => cases h
  | cons c m ih =>
    rw [Memory.wf_cons] at hm
    rw [Memory.read?] at h
    split at h
    · cases h; exact hm.2.1
    · exact ih hm.2.2 h

/-- A write lists nothing but what was listed and the new byte. -/
theorem Memory.mem_write {m : Memory} {a : Nat} {v : Byte} {x : Host.Cell} (h : x ∈ Memory.write u m a v) :
    x ∈ m ∨ x = (a, v) := by
  induction m with
  | nil => rw [Memory.write] at h; split at h <;> simp_all
  | cons c m ih =>
    rw [Memory.write] at h
    split_ifs at h <;> simp only [List.mem_cons] at h ⊢ <;> tauto

/-- A write keeps the canonical form. -/
theorem Memory.wf_write {m : Memory} (hm : Memory.wf u m = true) (a : Nat) (v : Byte) :
    Memory.wf u (Memory.write u m a v) = true := by
  induction m with
  | nil => rw [Memory.write]; split <;> simp_all [Memory.wf]
  | cons c m ih =>
    have h := (Memory.wf_cons c m).1 hm
    rw [Memory.write]
    split_ifs with h1 h2 h3 h4
    · exact hm
    · refine (Memory.wf_cons _ _).2 ⟨?_, h2, hm⟩
      intro x hx
      rcases List.mem_cons.1 hx with rfl | hx
      · exact h1
      · exact h1.trans (h.1 x hx)
    · exact h.2.2
    · exact (Memory.wf_cons _ _).2 ⟨fun x hx => by have := h.1 x hx; simp only; omega, h4, h.2.2⟩
    · refine (Memory.wf_cons _ _).2 ⟨?_, h.2.1, ih h.2.2⟩
      intro x hx
      rcases Memory.mem_write hx with hx | rfl
      · exact h.1 x hx
      · simp only; omega

/-- Read after write: the new byte at the address, unlisted when it is the unlisted value; every other address as before. -/
theorem Memory.read?_write {m : Memory} (hm : Memory.wf u m = true) (a : Nat) (v : Byte) (b : Nat) :
    (Memory.write u m a v).read? b = if b = a then (if u = some v then none else some v) else m.read? b := by
  induction m with
  | nil =>
    rw [Memory.write]
    by_cases hv : u = some v
    · simp [hv, Memory.read?]
    · simp only [hv, if_false, Memory.read?, eq_comm (a := a)]
  | cons c m ih =>
    have h := (Memory.wf_cons c m).1 hm
    rw [Memory.write]
    by_cases hab : b = a
    · subst hab
      rw [if_pos rfl]
      split_ifs with h1 h2 h3 h4
      · exact Memory.read?_below fun x hx => by
          rcases List.mem_cons.1 hx with rfl | hx
          · exact h1
          · exact h1.trans (h.1 x hx)
      · simp [Memory.read?]
      · exact Memory.read?_below fun x hx => by have := h.1 x hx; omega
      · simp [Memory.read?]
      · next h5 => rw [Memory.read?, if_neg (fun e => h3 e.symm), ih h.2.2, if_pos rfl, if_pos h5]
      · next h5 => rw [Memory.read?, if_neg (fun e => h3 e.symm), ih h.2.2, if_pos rfl, if_neg h5]
    · rw [if_neg hab]
      split_ifs with h1 h2 h3 h4
      · rfl
      · rw [Memory.read?, if_neg (fun e => hab e.symm)]
      · rw [Memory.read?, if_neg (by omega)]
      · simp only [Memory.read?]; rw [if_neg (fun e => hab e.symm), if_neg (by omega)]
      · rw [Memory.read?, Memory.read?, ih h.2.2, if_neg hab]

/-- Storing bytes keeps the canonical form. -/
theorem Memory.wf_writeBytes {m : Memory} (hm : Memory.wf u m = true) (a : Nat) (bytes : List Byte) :
    Memory.wf u (Memory.writeBytes u m a bytes) = true := by
  induction bytes generalizing m a with
  | nil => exact hm
  | cons v vs ih => exact ih (Memory.wf_write hm a v) (a + 1)

/-- Storing bytes lists nothing but what was listed and addresses of the bytes stored. -/
theorem Memory.mem_writeBytes {m : Memory} {a : Nat} {bytes : List Byte} {x : Host.Cell}
    (h : x ∈ Memory.writeBytes u m a bytes) : x ∈ m ∨ (a ≤ x.1 ∧ x.1 < a + bytes.length) := by
  induction bytes generalizing m a with
  | nil => exact .inl h
  | cons v vs ih =>
    rcases ih h with h | h
    · rcases Memory.mem_write h with h | rfl
      · exact .inl h
      · exact .inr (by simp)
    · exact .inr (by simp only [List.length_cons]; omega)

/-- Reading after bytes were stored where an unlisted address has no value: the stored bytes, every other address as
before. -/
theorem Memory.read?_writeBytes {m : Memory} (hm : Memory.wf none m = true) (a : Nat) (bytes : List Byte) (b : Nat) :
    (Memory.writeBytes none m a bytes).read? b =
      if a ≤ b ∧ b < a + bytes.length then bytes[b - a]? else m.read? b := by
  induction bytes generalizing m a with
  | nil => rw [Memory.writeBytes, if_neg (by simp)]
  | cons v vs ih =>
    rw [Memory.writeBytes, ih (Memory.wf_write hm a v), Memory.read?_write hm]
    by_cases hb : b = a
    · subst hb; simp
    · by_cases hc : a + 1 ≤ b ∧ b < a + 1 + vs.length
      · rw [if_pos hc, if_pos (by simp only [List.length_cons]; omega)]
        obtain ⟨k, rfl⟩ : ∃ k, b = a + 1 + k := ⟨b - (a + 1), by omega⟩
        simp [show a + 1 + k - a = k + 1 by omega]
      · rw [if_neg hc, if_neg hb, if_neg (by simp only [List.length_cons]; omega)]

/-- Reading after bytes were stored where an unlisted address reads as a value. -/
theorem Memory.getD_writeBytes {x : Byte} {m : Memory} (hm : Memory.wf (some x) m = true) (a : Nat) (bytes : List Byte)
    (b : Nat) :
    ((Memory.writeBytes (some x) m a bytes).read? b).getD x =
      if a ≤ b ∧ b < a + bytes.length then bytes.getD (b - a) x else (m.read? b).getD x := by
  induction bytes generalizing m a with
  | nil => rw [Memory.writeBytes, if_neg (by simp)]
  | cons v vs ih =>
    rw [Memory.writeBytes, ih (Memory.wf_write hm a v), Memory.read?_write hm]
    by_cases hb : b = a
    · subst hb
      have hv : ((if some x = some v then none else some v : Option Byte)).getD x = v := by
        split_ifs with e
        · cases e; rfl
        · rfl
      rw [if_neg (by omega), if_pos rfl, hv]
      simp
    · by_cases hc : a + 1 ≤ b ∧ b < a + 1 + vs.length
      · rw [if_pos hc, if_pos (by simp only [List.length_cons]; omega)]
        obtain ⟨k, rfl⟩ : ∃ k, b = a + 1 + k := ⟨b - (a + 1), by omega⟩
        simp [show a + 1 + k - a = k + 1 by omega]
      · rw [if_neg hc, if_neg hb, if_neg (by simp only [List.length_cons]; omega)]

/-- Unlisting keeps the canonical form. -/
theorem Memory.wf_unlist {m : Memory} (hm : Memory.wf u m = true) (a n : Nat) : Memory.wf u (m.unlist a n) = true := by
  induction m with
  | nil => rfl
  | cons c m ih =>
    have h := (Memory.wf_cons c m).1 hm
    rw [Memory.unlist, List.filter_cons]
    split
    · exact (Memory.wf_cons _ _).2 ⟨fun x hx => h.1 x (List.mem_filter.1 hx).1, h.2.1, ih h.2.2⟩
    · exact ih h.2.2

/-- Unlisting lists nothing new. -/
theorem Memory.mem_unlist {m : Memory} {a n : Nat} {x : Host.Cell} (h : x ∈ m.unlist a n) : x ∈ m :=
  (List.mem_filter.1 h).1

/-- Reading after unlisting. -/
theorem Memory.read?_unlist (m : Memory) (a n b : Nat) :
    (m.unlist a n).read? b = if a ≤ b ∧ b < a + n then none else m.read? b := by
  induction m with
  | nil => simp [Memory.unlist, Memory.read?]
  | cons c m ih =>
    rw [Memory.unlist] at ih
    rw [Memory.unlist, List.filter_cons]
    by_cases hc : c.1 < a ∨ a + n ≤ c.1
    · rw [if_pos (by simpa using hc), Memory.read?, ih, Memory.read?]
      split_ifs <;> first | rfl | omega
    · rw [if_neg (by simpa using hc), ih, Memory.read?]
      split_ifs <;> first | rfl | omega

end Sys2Proof.Machine
end

