-- ==== Sys2Proof/Laws/State.lean ====
section
/-! SUPPORT. One lemma per field per update of the state, so that no proof unfolds a record update. -/

namespace Sys2Proof.Machine

variable (s : State)

/-! `withUsb` -/

@[simp] theorem State.withUsb_par (x : Usb) : (s.withUsb x).par = s.par := rfl
@[simp] theorem State.withUsb_usb (x : Usb) : (s.withUsb x).usb = x := rfl
@[simp] theorem State.withUsb_pma (x : Usb) : (s.withUsb x).pma = s.pma := rfl
@[simp] theorem State.withUsb_drv (x : Usb) : (s.withUsb x).drv = s.drv := rfl
@[simp] theorem State.withUsb_disp (x : Usb) : (s.withUsb x).disp = s.disp := rfl
@[simp] theorem State.withUsb_hid (x : Usb) : (s.withUsb x).hid = s.hid := rfl
@[simp] theorem State.withUsb_fctl (x : Usb) : (s.withUsb x).fctl = s.fctl := rfl
@[simp] theorem State.withUsb_fseq (x : Usb) : (s.withUsb x).fseq = s.fseq := rfl
@[simp] theorem State.withUsb_flash (x : Usb) : (s.withUsb x).flash = s.flash := rfl
@[simp] theorem State.withUsb_boot (x : Usb) : (s.withUsb x).boot = s.boot := rfl
@[simp] theorem State.withUsb_faults (x : Usb) : (s.withUsb x).faults = s.faults := rfl
@[simp] theorem State.withUsb_input (x : Usb) : (s.withUsb x).input = s.input := rfl
@[simp] theorem State.withUsb_result (x : Usb) : (s.withUsb x).result = s.result := rfl
@[simp] theorem State.withUsb_draw (x : Usb) : (s.withUsb x).draw = s.draw := rfl
@[simp] theorem State.withUsb_self : s.withUsb s.usb = s := rfl
@[simp] theorem State.withUsb_withUsb (x y : Usb) : (s.withUsb x).withUsb y = s.withUsb y := rfl

/-! `withPma` -/

@[simp] theorem State.withPma_par (x : Memory) : (s.withPma x).par = s.par := rfl
@[simp] theorem State.withPma_usb (x : Memory) : (s.withPma x).usb = s.usb := rfl
@[simp] theorem State.withPma_pma (x : Memory) : (s.withPma x).pma = x := rfl
@[simp] theorem State.withPma_drv (x : Memory) : (s.withPma x).drv = s.drv := rfl
@[simp] theorem State.withPma_disp (x : Memory) : (s.withPma x).disp = s.disp := rfl
@[simp] theorem State.withPma_hid (x : Memory) : (s.withPma x).hid = s.hid := rfl
@[simp] theorem State.withPma_fctl (x : Memory) : (s.withPma x).fctl = s.fctl := rfl
@[simp] theorem State.withPma_fseq (x : Memory) : (s.withPma x).fseq = s.fseq := rfl
@[simp] theorem State.withPma_flash (x : Memory) : (s.withPma x).flash = s.flash := rfl
@[simp] theorem State.withPma_boot (x : Memory) : (s.withPma x).boot = s.boot := rfl
@[simp] theorem State.withPma_faults (x : Memory) : (s.withPma x).faults = s.faults := rfl
@[simp] theorem State.withPma_input (x : Memory) : (s.withPma x).input = s.input := rfl
@[simp] theorem State.withPma_result (x : Memory) : (s.withPma x).result = s.result := rfl
@[simp] theorem State.withPma_draw (x : Memory) : (s.withPma x).draw = s.draw := rfl
@[simp] theorem State.withPma_self : s.withPma s.pma = s := rfl
@[simp] theorem State.withPma_withPma (x y : Memory) : (s.withPma x).withPma y = s.withPma y := rfl

/-! `withDrv` -/

@[simp] theorem State.withDrv_par (x : Driver) : (s.withDrv x).par = s.par := rfl
@[simp] theorem State.withDrv_usb (x : Driver) : (s.withDrv x).usb = s.usb := rfl
@[simp] theorem State.withDrv_pma (x : Driver) : (s.withDrv x).pma = s.pma := rfl
@[simp] theorem State.withDrv_drv (x : Driver) : (s.withDrv x).drv = x := rfl
@[simp] theorem State.withDrv_disp (x : Driver) : (s.withDrv x).disp = s.disp := rfl
@[simp] theorem State.withDrv_hid (x : Driver) : (s.withDrv x).hid = s.hid := rfl
@[simp] theorem State.withDrv_fctl (x : Driver) : (s.withDrv x).fctl = s.fctl := rfl
@[simp] theorem State.withDrv_fseq (x : Driver) : (s.withDrv x).fseq = s.fseq := rfl
@[simp] theorem State.withDrv_flash (x : Driver) : (s.withDrv x).flash = s.flash := rfl
@[simp] theorem State.withDrv_boot (x : Driver) : (s.withDrv x).boot = s.boot := rfl
@[simp] theorem State.withDrv_faults (x : Driver) : (s.withDrv x).faults = s.faults := rfl
@[simp] theorem State.withDrv_input (x : Driver) : (s.withDrv x).input = s.input := rfl
@[simp] theorem State.withDrv_result (x : Driver) : (s.withDrv x).result = s.result := rfl
@[simp] theorem State.withDrv_draw (x : Driver) : (s.withDrv x).draw = s.draw := rfl
@[simp] theorem State.withDrv_self : s.withDrv s.drv = s := rfl
@[simp] theorem State.withDrv_withDrv (x y : Driver) : (s.withDrv x).withDrv y = s.withDrv y := rfl

/-! `withDisp` -/

@[simp] theorem State.withDisp_par (x : Dispatcher) : (s.withDisp x).par = s.par := rfl
@[simp] theorem State.withDisp_usb (x : Dispatcher) : (s.withDisp x).usb = s.usb := rfl
@[simp] theorem State.withDisp_pma (x : Dispatcher) : (s.withDisp x).pma = s.pma := rfl
@[simp] theorem State.withDisp_drv (x : Dispatcher) : (s.withDisp x).drv = s.drv := rfl
@[simp] theorem State.withDisp_disp (x : Dispatcher) : (s.withDisp x).disp = x := rfl
@[simp] theorem State.withDisp_hid (x : Dispatcher) : (s.withDisp x).hid = s.hid := rfl
@[simp] theorem State.withDisp_fctl (x : Dispatcher) : (s.withDisp x).fctl = s.fctl := rfl
@[simp] theorem State.withDisp_fseq (x : Dispatcher) : (s.withDisp x).fseq = s.fseq := rfl
@[simp] theorem State.withDisp_flash (x : Dispatcher) : (s.withDisp x).flash = s.flash := rfl
@[simp] theorem State.withDisp_boot (x : Dispatcher) : (s.withDisp x).boot = s.boot := rfl
@[simp] theorem State.withDisp_faults (x : Dispatcher) : (s.withDisp x).faults = s.faults := rfl
@[simp] theorem State.withDisp_input (x : Dispatcher) : (s.withDisp x).input = s.input := rfl
@[simp] theorem State.withDisp_result (x : Dispatcher) : (s.withDisp x).result = s.result := rfl
@[simp] theorem State.withDisp_draw (x : Dispatcher) : (s.withDisp x).draw = s.draw := rfl
@[simp] theorem State.withDisp_self : s.withDisp s.disp = s := rfl
@[simp] theorem State.withDisp_withDisp (x y : Dispatcher) : (s.withDisp x).withDisp y = s.withDisp y := rfl

/-! `withHid` -/

@[simp] theorem State.withHid_par (x : Hid) : (s.withHid x).par = s.par := rfl
@[simp] theorem State.withHid_usb (x : Hid) : (s.withHid x).usb = s.usb := rfl
@[simp] theorem State.withHid_pma (x : Hid) : (s.withHid x).pma = s.pma := rfl
@[simp] theorem State.withHid_drv (x : Hid) : (s.withHid x).drv = s.drv := rfl
@[simp] theorem State.withHid_disp (x : Hid) : (s.withHid x).disp = s.disp := rfl
@[simp] theorem State.withHid_hid (x : Hid) : (s.withHid x).hid = x := rfl
@[simp] theorem State.withHid_fctl (x : Hid) : (s.withHid x).fctl = s.fctl := rfl
@[simp] theorem State.withHid_fseq (x : Hid) : (s.withHid x).fseq = s.fseq := rfl
@[simp] theorem State.withHid_flash (x : Hid) : (s.withHid x).flash = s.flash := rfl
@[simp] theorem State.withHid_boot (x : Hid) : (s.withHid x).boot = s.boot := rfl
@[simp] theorem State.withHid_faults (x : Hid) : (s.withHid x).faults = s.faults := rfl
@[simp] theorem State.withHid_input (x : Hid) : (s.withHid x).input = s.input := rfl
@[simp] theorem State.withHid_result (x : Hid) : (s.withHid x).result = s.result := rfl
@[simp] theorem State.withHid_draw (x : Hid) : (s.withHid x).draw = s.draw := rfl
@[simp] theorem State.withHid_self : s.withHid s.hid = s := rfl
@[simp] theorem State.withHid_withHid (x y : Hid) : (s.withHid x).withHid y = s.withHid y := rfl

/-! `withFctl` -/

@[simp] theorem State.withFctl_par (x : FlashCtl) : (s.withFctl x).par = s.par := rfl
@[simp] theorem State.withFctl_usb (x : FlashCtl) : (s.withFctl x).usb = s.usb := rfl
@[simp] theorem State.withFctl_pma (x : FlashCtl) : (s.withFctl x).pma = s.pma := rfl
@[simp] theorem State.withFctl_drv (x : FlashCtl) : (s.withFctl x).drv = s.drv := rfl
@[simp] theorem State.withFctl_disp (x : FlashCtl) : (s.withFctl x).disp = s.disp := rfl
@[simp] theorem State.withFctl_hid (x : FlashCtl) : (s.withFctl x).hid = s.hid := rfl
@[simp] theorem State.withFctl_fctl (x : FlashCtl) : (s.withFctl x).fctl = x := rfl
@[simp] theorem State.withFctl_fseq (x : FlashCtl) : (s.withFctl x).fseq = s.fseq := rfl
@[simp] theorem State.withFctl_flash (x : FlashCtl) : (s.withFctl x).flash = s.flash := rfl
@[simp] theorem State.withFctl_boot (x : FlashCtl) : (s.withFctl x).boot = s.boot := rfl
@[simp] theorem State.withFctl_faults (x : FlashCtl) : (s.withFctl x).faults = s.faults := rfl
@[simp] theorem State.withFctl_input (x : FlashCtl) : (s.withFctl x).input = s.input := rfl
@[simp] theorem State.withFctl_result (x : FlashCtl) : (s.withFctl x).result = s.result := rfl
@[simp] theorem State.withFctl_draw (x : FlashCtl) : (s.withFctl x).draw = s.draw := rfl
@[simp] theorem State.withFctl_self : s.withFctl s.fctl = s := rfl
@[simp] theorem State.withFctl_withFctl (x y : FlashCtl) : (s.withFctl x).withFctl y = s.withFctl y := rfl

/-! `withFseq` -/

@[simp] theorem State.withFseq_par (x : FlashSeq) : (s.withFseq x).par = s.par := rfl
@[simp] theorem State.withFseq_usb (x : FlashSeq) : (s.withFseq x).usb = s.usb := rfl
@[simp] theorem State.withFseq_pma (x : FlashSeq) : (s.withFseq x).pma = s.pma := rfl
@[simp] theorem State.withFseq_drv (x : FlashSeq) : (s.withFseq x).drv = s.drv := rfl
@[simp] theorem State.withFseq_disp (x : FlashSeq) : (s.withFseq x).disp = s.disp := rfl
@[simp] theorem State.withFseq_hid (x : FlashSeq) : (s.withFseq x).hid = s.hid := rfl
@[simp] theorem State.withFseq_fctl (x : FlashSeq) : (s.withFseq x).fctl = s.fctl := rfl
@[simp] theorem State.withFseq_fseq (x : FlashSeq) : (s.withFseq x).fseq = x := rfl
@[simp] theorem State.withFseq_flash (x : FlashSeq) : (s.withFseq x).flash = s.flash := rfl
@[simp] theorem State.withFseq_boot (x : FlashSeq) : (s.withFseq x).boot = s.boot := rfl
@[simp] theorem State.withFseq_faults (x : FlashSeq) : (s.withFseq x).faults = s.faults := rfl
@[simp] theorem State.withFseq_input (x : FlashSeq) : (s.withFseq x).input = s.input := rfl
@[simp] theorem State.withFseq_result (x : FlashSeq) : (s.withFseq x).result = s.result := rfl
@[simp] theorem State.withFseq_draw (x : FlashSeq) : (s.withFseq x).draw = s.draw := rfl
@[simp] theorem State.withFseq_self : s.withFseq s.fseq = s := rfl
@[simp] theorem State.withFseq_withFseq (x y : FlashSeq) : (s.withFseq x).withFseq y = s.withFseq y := rfl

/-! `withFlash` -/

@[simp] theorem State.withFlash_par (x : Memory) : (s.withFlash x).par = s.par := rfl
@[simp] theorem State.withFlash_usb (x : Memory) : (s.withFlash x).usb = s.usb := rfl
@[simp] theorem State.withFlash_pma (x : Memory) : (s.withFlash x).pma = s.pma := rfl
@[simp] theorem State.withFlash_drv (x : Memory) : (s.withFlash x).drv = s.drv := rfl
@[simp] theorem State.withFlash_disp (x : Memory) : (s.withFlash x).disp = s.disp := rfl
@[simp] theorem State.withFlash_hid (x : Memory) : (s.withFlash x).hid = s.hid := rfl
@[simp] theorem State.withFlash_fctl (x : Memory) : (s.withFlash x).fctl = s.fctl := rfl
@[simp] theorem State.withFlash_fseq (x : Memory) : (s.withFlash x).fseq = s.fseq := rfl
@[simp] theorem State.withFlash_flash (x : Memory) : (s.withFlash x).flash = x := rfl
@[simp] theorem State.withFlash_boot (x : Memory) : (s.withFlash x).boot = s.boot := rfl
@[simp] theorem State.withFlash_faults (x : Memory) : (s.withFlash x).faults = s.faults := rfl
@[simp] theorem State.withFlash_input (x : Memory) : (s.withFlash x).input = s.input := rfl
@[simp] theorem State.withFlash_result (x : Memory) : (s.withFlash x).result = s.result := rfl
@[simp] theorem State.withFlash_draw (x : Memory) : (s.withFlash x).draw = s.draw := rfl
@[simp] theorem State.withFlash_self : s.withFlash s.flash = s := rfl
@[simp] theorem State.withFlash_withFlash (x y : Memory) : (s.withFlash x).withFlash y = s.withFlash y := rfl

/-! `withBoot` -/

@[simp] theorem State.withBoot_par (x : Boot) : (s.withBoot x).par = s.par := rfl
@[simp] theorem State.withBoot_usb (x : Boot) : (s.withBoot x).usb = s.usb := rfl
@[simp] theorem State.withBoot_pma (x : Boot) : (s.withBoot x).pma = s.pma := rfl
@[simp] theorem State.withBoot_drv (x : Boot) : (s.withBoot x).drv = s.drv := rfl
@[simp] theorem State.withBoot_disp (x : Boot) : (s.withBoot x).disp = s.disp := rfl
@[simp] theorem State.withBoot_hid (x : Boot) : (s.withBoot x).hid = s.hid := rfl
@[simp] theorem State.withBoot_fctl (x : Boot) : (s.withBoot x).fctl = s.fctl := rfl
@[simp] theorem State.withBoot_fseq (x : Boot) : (s.withBoot x).fseq = s.fseq := rfl
@[simp] theorem State.withBoot_flash (x : Boot) : (s.withBoot x).flash = s.flash := rfl
@[simp] theorem State.withBoot_boot (x : Boot) : (s.withBoot x).boot = x := rfl
@[simp] theorem State.withBoot_faults (x : Boot) : (s.withBoot x).faults = s.faults := rfl
@[simp] theorem State.withBoot_input (x : Boot) : (s.withBoot x).input = s.input := rfl
@[simp] theorem State.withBoot_result (x : Boot) : (s.withBoot x).result = s.result := rfl
@[simp] theorem State.withBoot_draw (x : Boot) : (s.withBoot x).draw = s.draw := rfl
@[simp] theorem State.withBoot_self : s.withBoot s.boot = s := rfl
@[simp] theorem State.withBoot_withBoot (x y : Boot) : (s.withBoot x).withBoot y = s.withBoot y := rfl

/-! `withResult` -/

@[simp] theorem State.withResult_par (x : Result) : (s.withResult x).par = s.par := rfl
@[simp] theorem State.withResult_usb (x : Result) : (s.withResult x).usb = s.usb := rfl
@[simp] theorem State.withResult_pma (x : Result) : (s.withResult x).pma = s.pma := rfl
@[simp] theorem State.withResult_drv (x : Result) : (s.withResult x).drv = s.drv := rfl
@[simp] theorem State.withResult_disp (x : Result) : (s.withResult x).disp = s.disp := rfl
@[simp] theorem State.withResult_hid (x : Result) : (s.withResult x).hid = s.hid := rfl
@[simp] theorem State.withResult_fctl (x : Result) : (s.withResult x).fctl = s.fctl := rfl
@[simp] theorem State.withResult_fseq (x : Result) : (s.withResult x).fseq = s.fseq := rfl
@[simp] theorem State.withResult_flash (x : Result) : (s.withResult x).flash = s.flash := rfl
@[simp] theorem State.withResult_boot (x : Result) : (s.withResult x).boot = s.boot := rfl
@[simp] theorem State.withResult_faults (x : Result) : (s.withResult x).faults = s.faults := rfl
@[simp] theorem State.withResult_input (x : Result) : (s.withResult x).input = s.input := rfl
@[simp] theorem State.withResult_result (x : Result) : (s.withResult x).result = x := rfl
@[simp] theorem State.withResult_draw (x : Result) : (s.withResult x).draw = s.draw := rfl
@[simp] theorem State.withResult_self : s.withResult s.result = s := rfl
@[simp] theorem State.withResult_withResult (x y : Result) : (s.withResult x).withResult y = s.withResult y := rfl

/-! `setEp`, `setEts`, `recordFault` -/

@[simp] theorem State.setEp_par (n : Ep) (r : EpReg) : (s.setEp n r).par = s.par := rfl
@[simp] theorem State.setEp_pma (n : Ep) (r : EpReg) : (s.setEp n r).pma = s.pma := rfl
@[simp] theorem State.setEp_drv (n : Ep) (r : EpReg) : (s.setEp n r).drv = s.drv := rfl
@[simp] theorem State.setEp_disp (n : Ep) (r : EpReg) : (s.setEp n r).disp = s.disp := rfl
@[simp] theorem State.setEp_hid (n : Ep) (r : EpReg) : (s.setEp n r).hid = s.hid := rfl
@[simp] theorem State.setEp_fctl (n : Ep) (r : EpReg) : (s.setEp n r).fctl = s.fctl := rfl
@[simp] theorem State.setEp_fseq (n : Ep) (r : EpReg) : (s.setEp n r).fseq = s.fseq := rfl
@[simp] theorem State.setEp_flash (n : Ep) (r : EpReg) : (s.setEp n r).flash = s.flash := rfl
@[simp] theorem State.setEp_boot (n : Ep) (r : EpReg) : (s.setEp n r).boot = s.boot := rfl
@[simp] theorem State.setEp_faults (n : Ep) (r : EpReg) : (s.setEp n r).faults = s.faults := rfl
@[simp] theorem State.setEp_input (n : Ep) (r : EpReg) : (s.setEp n r).input = s.input := rfl
@[simp] theorem State.setEp_result (n : Ep) (r : EpReg) : (s.setEp n r).result = s.result := rfl
@[simp] theorem State.setEp_draw (n : Ep) (r : EpReg) : (s.setEp n r).draw = s.draw := rfl
@[simp] theorem State.setEp_usb (n : Ep) (r : EpReg) : (s.setEp n r).usb = s.usb.setEp n r := rfl
@[simp] theorem State.setEts_par (e : Ep) (x : EpXfer) : (s.setEts e x).par = s.par := rfl
@[simp] theorem State.setEts_usb (e : Ep) (x : EpXfer) : (s.setEts e x).usb = s.usb := rfl
@[simp] theorem State.setEts_pma (e : Ep) (x : EpXfer) : (s.setEts e x).pma = s.pma := rfl
@[simp] theorem State.setEts_disp (e : Ep) (x : EpXfer) : (s.setEts e x).disp = s.disp := rfl
@[simp] theorem State.setEts_hid (e : Ep) (x : EpXfer) : (s.setEts e x).hid = s.hid := rfl
@[simp] theorem State.setEts_fctl (e : Ep) (x : EpXfer) : (s.setEts e x).fctl = s.fctl := rfl
@[simp] theorem State.setEts_fseq (e : Ep) (x : EpXfer) : (s.setEts e x).fseq = s.fseq := rfl
@[simp] theorem State.setEts_flash (e : Ep) (x : EpXfer) : (s.setEts e x).flash = s.flash := rfl
@[simp] theorem State.setEts_boot (e : Ep) (x : EpXfer) : (s.setEts e x).boot = s.boot := rfl
@[simp] theorem State.setEts_faults (e : Ep) (x : EpXfer) : (s.setEts e x).faults = s.faults := rfl
@[simp] theorem State.setEts_input (e : Ep) (x : EpXfer) : (s.setEts e x).input = s.input := rfl
@[simp] theorem State.setEts_result (e : Ep) (x : EpXfer) : (s.setEts e x).result = s.result := rfl
@[simp] theorem State.setEts_draw (e : Ep) (x : EpXfer) : (s.setEts e x).draw = s.draw := rfl
@[simp] theorem State.setEts_drv (e : Ep) (x : EpXfer) : (s.setEts e x).drv = s.drv.setEts e x := rfl
@[simp] theorem recordFault_par (f : Fault) : (recordFault s f).par = s.par := rfl
@[simp] theorem recordFault_usb (f : Fault) : (recordFault s f).usb = s.usb := rfl
@[simp] theorem recordFault_pma (f : Fault) : (recordFault s f).pma = s.pma := rfl
@[simp] theorem recordFault_drv (f : Fault) : (recordFault s f).drv = s.drv := rfl
@[simp] theorem recordFault_disp (f : Fault) : (recordFault s f).disp = s.disp := rfl
@[simp] theorem recordFault_hid (f : Fault) : (recordFault s f).hid = s.hid := rfl
@[simp] theorem recordFault_fctl (f : Fault) : (recordFault s f).fctl = s.fctl := rfl
@[simp] theorem recordFault_fseq (f : Fault) : (recordFault s f).fseq = s.fseq := rfl
@[simp] theorem recordFault_flash (f : Fault) : (recordFault s f).flash = s.flash := rfl
@[simp] theorem recordFault_boot (f : Fault) : (recordFault s f).boot = s.boot := rfl
@[simp] theorem recordFault_input (f : Fault) : (recordFault s f).input = s.input := rfl
@[simp] theorem recordFault_result (f : Fault) : (recordFault s f).result = s.result := rfl
@[simp] theorem recordFault_draw (f : Fault) : (recordFault s f).draw = s.draw := rfl
@[simp] theorem recordFault_faults (f : Fault) : (recordFault s f).faults = s.faults ++ [f] := rfl

/-! The endpoint files -/

variable (u : Usb) (d : Driver)

@[simp] theorem Usb.ep_ep0 : u.ep .ep0 = u.ep0 := rfl
@[simp] theorem Usb.ep_ep1 : u.ep .ep1 = u.ep1 := rfl
@[simp] theorem Usb.ep_setEp (n m : Ep) (r : EpReg) : (u.setEp n r).ep m = if m = n then r else u.ep m := by
  cases n <;> cases m <;> rfl
@[simp] theorem Usb.setEp_setEp (n : Ep) (r q : EpReg) : (u.setEp n r).setEp n q = u.setEp n q := by cases n <;> rfl
@[simp] theorem Usb.setEp_ep (n : Ep) : u.setEp n (u.ep n) = u := by cases n <;> rfl
@[simp] theorem Usb.setEp_cntr (n : Ep) (r : EpReg) : (u.setEp n r).cntr = u.cntr := by cases n <;> rfl
@[simp] theorem Usb.setEp_istr (n : Ep) (r : EpReg) : (u.setEp n r).istr = u.istr := by cases n <;> rfl
@[simp] theorem Usb.setEp_daddr (n : Ep) (r : EpReg) : (u.setEp n r).daddr = u.daddr := by cases n <;> rfl
@[simp] theorem Usb.setEp_btable (n : Ep) (r : EpReg) : (u.setEp n r).btable = u.btable := by cases n <;> rfl
@[simp] theorem Usb.setEp_irqEn (n : Ep) (r : EpReg) : (u.setEp n r).irqEn = u.irqEn := by cases n <;> rfl
@[simp] theorem Usb.setEp_dpForceLow (n : Ep) (r : EpReg) : (u.setEp n r).dpForceLow = u.dpForceLow := by cases n <;> rfl

@[simp] theorem Driver.ets_ep0 : d.ets .ep0 = d.ets0 := rfl
@[simp] theorem Driver.ets_ep1 : d.ets .ep1 = d.ets1 := rfl
@[simp] theorem Driver.ets_setEts (e f : Ep) (x : EpXfer) : (d.setEts e x).ets f = if f = e then x else d.ets f := by
  cases e <;> cases f <;> rfl
@[simp] theorem Driver.setEts_setEts (e : Ep) (x y : EpXfer) : (d.setEts e x).setEts e y = d.setEts e y := by
  cases e <;> rfl
@[simp] theorem Driver.setEts_cbEp (e : Ep) (x : EpXfer) : (d.setEts e x).cbEp = d.cbEp := by cases e <;> rfl
@[simp] theorem Driver.setEts_cbReset (e : Ep) (x : EpXfer) : (d.setEts e x).cbReset = d.cbReset := by cases e <;> rfl
@[simp] theorem Driver.setEts_pendingAddr (e : Ep) (x : EpXfer) : (d.setEts e x).pendingAddr = d.pendingAddr := by
  cases e <;> rfl
@[simp] theorem Driver.setEts_configured (e : Ep) (x : EpXfer) : (d.setEts e x).configured = d.configured := by
  cases e <;> rfl
@[simp] theorem Driver.setEts_devStatus (e : Ep) (x : EpXfer) : (d.setEts e x).devStatus = d.devStatus := by
  cases e <;> rfl

end Sys2Proof.Machine
end

