-- ==== Sys2Proof/Laws/Ops.lean ====
section
/-! SUPPORT. One lemma per shared operation that says everything it can do: when it ends normally, when it raises a fault
(and in which state), when it refuses. The provers cite these and do not unfold the operations. -/

namespace Sys2Proof.Machine

open Host (Outcome)

/-! ### Parts of rules and their ends -/

/-- What holds of a part of a rule: `P` of the value it ends with, `Q` of the state it raises a fault in. -/
def Res.post {α : Type} (P : α → Prop) (Q : State → Prop) : Res α → Prop
  | .ok a => P a
  | .error (.raised _ s) => Q s
  | .error (.refused _) => True

variable {α β : Type} {P : α → Prop} {Q : State → Prop} {s t : State}

@[simp] theorem Res.post_ok (a : α) : Res.post P Q (.ok a) ↔ P a := Iff.rfl
@[simp] theorem Res.post_raise (f : Fault) : Res.post P Q (raise s f) ↔ Q s := Iff.rfl
@[simp] theorem Res.post_refuse (r : Refusal) : Res.post P Q (refuse r) ↔ True := Iff.rfl

/-- A rule in two parts. -/
theorem Res.post_bind {x : Res α} {k : α → Res β} {P : β → Prop} {P' : α → Prop} (hx : x.post P' Q)
    (hk : ∀ a, P' a → (k a).post P Q) : (x >>= k).post P Q := by
  match x, hx with
  | .ok a, h => exact hk a h
  | .error (.raised _ _), h => exact h
  | .error (.refused _), _ => trivial

/-- A weaker statement follows. -/
theorem Res.post_mono {x : Res α} {P' : α → Prop} {Q' : State → Prop} (hx : x.post P' Q') (hP : ∀ a, P' a → P a)
    (hQ : ∀ t, Q' t → Q t) : x.post P Q := by
  match x, hx with
  | .ok a, h => exact hP a h
  | .error (.raised _ _), h => exact hQ _ h
  | .error (.refused _), _ => trivial

/-- A rule that ends is an `ok` or a `raise`; what it leaves is the state, with the fault recorded if one was raised. -/
theorem finish_cases {x : Res State} (h : finish x = .next t) :
    x = .ok t ∨ ∃ f u, x = .error (.raised f u) ∧ t = recordFault u f := by
  match x with
  | .ok u => exact .inl (by simpa [finish] using h)
  | .error (.raised f u) => exact .inr ⟨f, u, rfl, by simpa [finish, eq_comm] using h⟩
  | .error (.refused r) => simp [finish] at h

/-- What holds at both ends of a rule holds of the next state, where recording a fault does not matter. -/
theorem finish_post {x : Res State} {P : State → Prop} (hx : x.post P P) (hf : ∀ u f, P u → P (recordFault u f))
    (h : finish x = .next t) : P t := by
  rcases finish_cases h with rfl | ⟨f, u, rfl, rfl⟩
  · exact hx
  · exact hf _ _ hx

/-- A step of MAIN is held, or it is the rule with the dispatcher idle (00_scope.md R9). -/
theorem mainStep_cases {x : Res State} (h : mainStep s x = .next t) :
    (s.disp.state ≠ .idle ∧ t = s) ∨ (s.disp.state = .idle ∧ finish x = .next t) := by
  unfold mainStep at h
  split at h
  · next e => exact .inr ⟨e, h⟩
  · next e => exact .inl ⟨e, by simpa [eq_comm] using h⟩

/-- A routine of the interrupt context is held, or it is the rule with the sequencer idle
(46_flash_page_programmer.md R292). -/
theorem unitStep_cases {x : Res State} (h : unitStep s x = .next t) :
    (s.fseq.state ≠ .idle ∧ t = s) ∨ (s.fseq.state = .idle ∧ finish x = .next t) := by
  unfold unitStep at h
  split at h
  · next e => exact .inr ⟨e, h⟩
  · next e => exact .inl ⟨e, by simpa [eq_comm] using h⟩

/-! ### Packet memory -/

/-- A byte of packet memory: below 512 the byte or UnwrittenRead in the state itself, else PmaRange in it
(42_usb_endpoint_buffer_manager.md R180). -/
theorem pmaRead_post (s : State) (o : Nat) : (pmaRead s o).post (fun v => s.pma.read? o = some v) (· = s) := by
  unfold pmaRead
  split
  · split
    · assumption
    · rfl
  · rfl

/-- A listed byte below 512 is read. -/
theorem pmaRead_ok {o : Nat} {v : Byte} (ho : o < Config.pmaSize) (h : s.pma.read? o = some v) : pmaRead s o = .ok v := by
  simp [pmaRead, ho, h]

/-- Reading bytes gives as many, or raises in the state itself. -/
theorem pmaReadBytes_post (s : State) (o n : Nat) : (pmaReadBytes s o n).post (fun vs => vs.length = n) (· = s) := by
  induction n generalizing o with
  | zero => rfl
  | succ n ih =>
    refine Res.post_bind (Res.post_mono (pmaRead_post s o) (fun _ _ => trivial) fun _ h => h) fun v _ => ?_
    refine Res.post_bind (ih (o + 1)) fun vs hvs => ?_
    simp [hvs]

/-- A halfword of packet memory. -/
theorem pmaRead16_post (s : State) (o : Nat) :
    (pmaRead16 s o).post (fun v => ∃ b0 b1, s.pma.read? o = some b0 ∧ s.pma.read? (o + 1) = some b1 ∧ v = le16 b0 b1)
      (· = s) :=
  Res.post_bind (pmaRead_post s o) fun b0 h0 => Res.post_bind (pmaRead_post s (o + 1)) fun b1 h1 => ⟨b0, b1, h0, h1, rfl⟩

/-- Storing bytes keeps packet memory within its 512 bytes and canonical (10_state.md R30). -/
theorem pmaOk_writeBytes {m : Memory} (hm : PmaOk m) {o : Nat} {bytes : List Byte}
    (h : o + bytes.length ≤ Config.pmaSize) : PmaOk (Memory.writeBytes none m o bytes) := by
  refine ⟨Memory.wf_writeBytes hm.1 o bytes, fun c hc => ?_⟩
  rcases Memory.mem_writeBytes hc with hc | hc
  · exact hm.2 c hc
  · omega

/-- Storing bytes in packet memory changes packet memory only; bytes that do not fit raise in the state itself. -/
theorem pmaWriteBytes_post (s : State) (o : Nat) (bytes : List Byte) :
    (pmaWriteBytes s o bytes).post (fun t => ∃ m, t = s.withPma m ∧ (PmaOk s.pma → PmaOk m)) (· = s) := by
  unfold pmaWriteBytes
  split
  · exact ⟨s.pma, rfl, id⟩
  · split
    · next h => exact ⟨_, rfl, fun hs => pmaOk_writeBytes hs h⟩
    · rfl

/-- Bytes that fit are stored. -/
theorem pmaWriteBytes_ok {o : Nat} {bytes : List Byte} (h : o + bytes.length ≤ Config.pmaSize) :
    pmaWriteBytes s o bytes = .ok (s.withPma (Memory.writeBytes none s.pma o bytes)) := by
  unfold pmaWriteBytes
  split
  · next e => subst e; rfl
  · rfl

/-- Where a table word lies, when the table lies in packet memory (41_usb_register_interface.md R156). -/
theorem bdtAddr_ok (n : Ep) (within : Nat) (h : TableInPma s) : bdtAddr s n within = .ok (tableWordAt s n within) := by
  simp only [bdtAddr, tableWordAt]
  rw [if_pos h]

/-- With a table that extends beyond packet memory no table word is accessed: outside packet memory it is the fault, inside it
is refused (41_usb_register_interface.md R156; log 38). -/
theorem bdtAddr_beyond (n : Ep) (within : Nat) (h : ¬TableInPma s) :
    bdtAddr s n within = if tableWordAt s n within + 2 ≤ Config.pmaSize then refuse .pmaRange else raise s .pmaRange :=
  if_neg h

/-- A table word's place changes nothing; it raises in the state itself. -/
theorem bdtAddr_post (s : State) (n : Ep) (within : Nat) : (bdtAddr s n within).post (fun _ => TableInPma s) (· = s) := by
  by_cases h : TableInPma s
  · rw [bdtAddr_ok n within h]; exact h
  · rw [bdtAddr_beyond n within h]
    split
    · trivial
    · rfl

/-- Every word of the two entries lies in packet memory with its table. -/
theorem tableWordAt_lt (n : Ep) {within : Nat} (hw : within + 2 ≤ 8) (h : TableInPma s) :
    tableWordAt s n within + 2 ≤ Config.pmaSize := by
  cases n <;> simp only [tableWordAt, epNumber, TableInPma, Config.bdtSize] at * <;> omega

/-- Reading a table word changes nothing; it raises in the state itself. -/
theorem bdtRead_post (s : State) (n : Ep) (within : Nat) : (bdtRead s n within).post (fun _ => True) (· = s) :=
  Res.post_bind (bdtAddr_post s n within) fun _ _ =>
    Res.post_mono (pmaRead16_post s _) (fun _ _ => trivial) fun _ h => h

/-- A written table word is read. -/
theorem bdtRead_ok (n : Ep) {within : Nat} (hw : within + 2 ≤ 8) (h : TableInPma s) {b0 b1 : Byte}
    (h0 : s.pma.read? (tableWordAt s n within) = some b0) (h1 : s.pma.read? (tableWordAt s n within + 1) = some b1) :
    bdtRead s n within = .ok (le16 b0 b1) := by
  have hlt := tableWordAt_lt n hw h
  rw [bdtRead, bdtAddr_ok n within h]
  show pmaRead16 s _ = _
  rw [pmaRead16, pmaRead_ok (by omega) h0]
  show (pmaRead s _ >>= fun b1 => Except.ok (le16 b0 b1)) = _
  rw [pmaRead_ok (by omega) h1]
  rfl

/-- When a table word reads as a value: its table lies in packet memory and both its bytes are written
(42_usb_endpoint_buffer_manager.md R180). -/
theorem bdtRead_eq_ok_iff (n : Ep) {within : Nat} (hw : within + 2 ≤ 8) (v : Half) :
    bdtRead s n within = .ok v ↔
      TableInPma s ∧ ∃ b0 b1, s.pma.read? (tableWordAt s n within) = some b0 ∧
        s.pma.read? (tableWordAt s n within + 1) = some b1 ∧ v = le16 b0 b1 := by
  constructor
  · intro h
    by_cases ht : TableInPma s
    · rw [bdtRead, bdtAddr_ok n within ht] at h
      have hp := pmaRead16_post s (tableWordAt s n within)
      rw [show pmaRead16 s (tableWordAt s n within) = .ok v from h] at hp
      exact ⟨ht, hp⟩
    · rw [bdtRead, bdtAddr_beyond n within ht] at h
      split at h <;> cases h
  · rintro ⟨ht, b0, b1, h0, h1, rfl⟩
    exact bdtRead_ok n hw ht h0 h1

/-- A table word depends on BTABLE and packet memory only. -/
theorem bdtRead_congr (n : Ep) {within : Nat} (hw : within + 2 ≤ 8) (hb : t.usb.btable = s.usb.btable) (hp : t.pma = s.pma)
    (v : Half) : bdtRead t n within = .ok v ↔ bdtRead s n within = .ok v := by
  rw [bdtRead_eq_ok_iff n hw, bdtRead_eq_ok_iff n hw]
  simp only [TableInPma, tableWordAt, hb, hp]

/-- Bytes all written below 512 are read. -/
theorem pmaReadBytes_ok {o : Nat} {d : List Byte} (hl : o + d.length ≤ Config.pmaSize)
    (hd : ∀ k, k < d.length → s.pma.read? (o + k) = d[k]?) : pmaReadBytes s o d.length = .ok d := by
  induction d generalizing o with
  | nil => rfl
  | cons v vs ih =>
    simp only [List.length_cons] at hl
    have h0 := hd 0 (by simp)
    simp only [Nat.add_zero, List.getElem?_cons_zero] at h0
    show (pmaRead s o >>= _) = _
    rw [pmaRead_ok (by omega) h0]
    show (pmaReadBytes s (o + 1) vs.length >>= _) = _
    rw [ih (by omega) fun k hk => ?_]
    · rfl
    · have := hd (k + 1) (by simpa using hk)
      rwa [List.getElem?_cons_succ, ← Nat.add_assoc, Nat.add_right_comm] at this

/-- A buffer all written is read (42_usb_endpoint_buffer_manager.md R190, 43_usb_packet_dispatcher.md R216). -/
theorem bufferRead_ok (n : Ep) {within : Nat} {d : List Byte}
    (h : d ≠ [] → ∃ a : Half, bdtRead s n within = .ok a ∧ a.toNat + d.length ≤ Config.pmaSize ∧
      ∀ k, k < d.length → s.pma.read? (a.toNat + k) = d[k]?) : bufferRead s n within d.length = .ok d := by
  by_cases hd : d = []
  · subst hd; rfl
  · obtain ⟨a, ha, hl, hk⟩ := h hd
    rw [bufferRead, if_neg (by simpa using hd), ha]
    exact pmaReadBytes_ok hl hk

/-- A buffer that fits is written (42_usb_endpoint_buffer_manager.md R186, 43_usb_packet_dispatcher.md R214). -/
theorem bufferWrite_ok (n : Ep) {within : Nat} (bytes : List Byte)
    (h : bytes ≠ [] → ∃ a : Half, bdtRead s n within = .ok a ∧ a.toNat + bytes.length ≤ Config.pmaSize) :
    ∃ m, bufferWrite s n within bytes = .ok (s.withPma m) ∧ (bytes = [] → m = s.pma) ∧
      ∀ a : Half, bytes ≠ [] → bdtRead s n within = .ok a → m = Memory.writeBytes none s.pma a.toNat bytes := by
  by_cases hb : bytes = []
  · exact ⟨s.pma, by simp [bufferWrite, hb], fun _ => rfl, fun _ k => absurd hb k⟩
  · obtain ⟨a, ha, hl⟩ := h hb
    refine ⟨_, ?_, fun k => absurd k hb, fun a' _ k => by rw [ha] at k; cases k; rfl⟩
    rw [bufferWrite, if_neg hb, ha]
    exact pmaWriteBytes_ok hl

/-- Writing a table word changes packet memory only; it raises in the state itself. -/
theorem bdtWrite_post (s : State) (n : Ep) (within : Nat) (v : Half) :
    (bdtWrite s n within v).post (fun t => ∃ m, t = s.withPma m ∧ (PmaOk s.pma → PmaOk m)) (· = s) :=
  Res.post_bind (bdtAddr_post s n within) fun o _ => pmaWriteBytes_post s o (halfBytes v)

/-- A table word is stored. -/
theorem bdtWrite_ok (n : Ep) {within : Nat} (hw : within + 2 ≤ 8) (h : TableInPma s) (v : Half) :
    bdtWrite s n within v =
      .ok (s.withPma (Memory.writeBytes none s.pma (tableWordAt s n within) (halfBytes v))) := by
  rw [bdtWrite, bdtAddr_ok n within h]
  show pmaWrite16 s _ v = _
  rw [pmaWrite16, pmaWriteBytes_ok (by have := tableWordAt_lt n hw h; simpa [halfBytes] using this)]

/-- Reading a buffer gives as many bytes as asked, or raises in the state itself. -/
theorem bufferRead_post (s : State) (n : Ep) (within count : Nat) :
    (bufferRead s n within count).post (fun vs => vs.length = count) (· = s) := by
  unfold bufferRead
  split
  · next h => exact h.symm
  · exact Res.post_bind (bdtRead_post s n within) fun a _ => pmaReadBytes_post s a.toNat count

/-- Writing a buffer changes packet memory only; it raises in the state itself. -/
theorem bufferWrite_post (s : State) (n : Ep) (within : Nat) (bytes : List Byte) :
    (bufferWrite s n within bytes).post (fun t => ∃ m, t = s.withPma m ∧ (PmaOk s.pma → PmaOk m)) (· = s) := by
  unfold bufferWrite
  split
  · exact ⟨s.pma, rfl, id⟩
  · exact Res.post_bind (bdtRead_post s n within) fun a _ =>
      pmaWriteBytes_post s a.toNat bytes

/-! ### What the USB side of the block leaves alone -/

/-- The step changed USB registers, packet memory, the driver's registers and the answer only, and kept what the invariant
says of them. -/
structure UsbSide (s t : State) : Prop where
  frame : t = { s with usb := t.usb, pma := t.pma, drv := t.drv, result := t.result }
  pma : PmaOk s.pma → PmaOk t.pma
  ets0 : XferOk s.drv.ets0 → XferOk t.drv.ets0
  ets1 : XferOk s.drv.ets1 → XferOk t.drv.ets1
  irqEn : t.usb.irqEn = s.usb.irqEn
  cbEp : t.drv.cbEp = s.drv.cbEp
  cbReset : t.drv.cbReset = s.drv.cbReset
  table : s.usb.btable &&& 7 = 0 → t.usb.btable &&& 7 = 0

theorem UsbSide.refl (s : State) : UsbSide s s := ⟨rfl, id, id, id, rfl, rfl, rfl, id⟩

theorem UsbSide.trans {u : State} (h : UsbSide s t) (k : UsbSide t u) : UsbSide s u where
  frame := by rw [k.frame, h.frame]
  pma := k.pma ∘ h.pma
  ets0 := k.ets0 ∘ h.ets0
  ets1 := k.ets1 ∘ h.ets1
  irqEn := k.irqEn.trans h.irqEn
  cbEp := k.cbEp.trans h.cbEp
  cbReset := k.cbReset.trans h.cbReset
  table := k.table ∘ h.table

/-- Only packet memory changed. -/
theorem UsbSide.ofPma {m : Memory} (h : PmaOk s.pma → PmaOk m) : UsbSide s (s.withPma m) :=
  ⟨rfl, h, id, id, rfl, rfl, rfl, id⟩

/-- Only the answer changed. -/
theorem UsbSide.ofResult (r : Result) : UsbSide s (s.withResult r) := ⟨rfl, id, id, id, rfl, rfl, rfl, id⟩

/-- Only USB registers changed, the table's place and the line's enable not among them. -/
theorem UsbSide.ofUsb {u : Usb} (hi : u.irqEn = s.usb.irqEn) (hb : u.btable = s.usb.btable) : UsbSide s (s.withUsb u) :=
  ⟨rfl, id, id, id, hi, rfl, rfl, by simp [hb]⟩

/-- Only an endpoint register changed. -/
theorem UsbSide.ofEp (n : Ep) (r : EpReg) : UsbSide s (s.setEp n r) := UsbSide.ofUsb (by simp) (by simp)

/-- Only an Endpoint Transfer State changed, and well. -/
theorem UsbSide.ofEts (e : Ep) {x : EpXfer} (h : XferOk (s.drv.ets e) → XferOk x) : UsbSide s (s.setEts e x) := by
  cases e
  · exact ⟨rfl, id, h, id, rfl, rfl, rfl, id⟩
  · exact ⟨rfl, id, id, h, rfl, rfl, rfl, id⟩

/-- The invariant is about nothing else of the USB side. -/
theorem UsbSide.inv (h : UsbSide s t) (hs : Inv s) : Inv t := by
  have hf := h.frame
  constructor
  · rw [hf]; exact hs.params
  · exact h.pma hs.pma
  · rw [hf]; exact hs.pageBuf
  · rw [hf]; exact hs.flash
  · exact h.ets0 hs.ets0
  · exact h.ets1 hs.ets1
  · intro hi; rw [h.cbEp, h.cbReset]; exact hs.callbacks (h.irqEn ▸ hi)
  · exact h.table hs.table
  · rw [hf]; exact hs.control
  · rw [hf]; exact hs.cursor
  · rw [hf]; exact hs.snap
  · rw [hf]; exact hs.sequencer

/-- A recorded fault is no part of the invariant. -/
theorem Inv.record (hs : Inv s) (f : Fault) : Inv (recordFault s f) :=
  ⟨hs.params, hs.pma, hs.pageBuf, hs.flash, hs.ets0, hs.ets1, hs.callbacks, hs.table, hs.control, hs.cursor, hs.snap,
    hs.sequencer⟩

end Sys2Proof.Machine
end

