-- ==== Sys2Proof/Laws/Flash.lean ====
section
/-! SUPPORT. What the flash controller's operations can do: register writes change the controller's registers only and start
an operation only where the rules say; the array changes only when an operation completes or a reset interrupts it. -/

namespace Sys2Proof.Machine

variable {s t : State}

/-- The step changed the flash controller's registers only, and kept what the invariant says of them. -/
structure FctlSide (s t : State) : Prop where
  frame : t = { s with fctl := t.fctl }
  ok : FlashCtlOk s.par s.fctl → FlashCtlOk s.par t.fctl

theorem FctlSide.refl (s : State) : FctlSide s s := ⟨rfl, id⟩

theorem FctlSide.par (h : FctlSide s t) : t.par = s.par := by rw [h.frame]

theorem FctlSide.trans {u : State} (h : FctlSide s t) (k : FctlSide t u) : FctlSide s u where
  frame := by rw [k.frame, h.frame]
  ok := fun hs => h.par ▸ k.ok (h.par ▸ h.ok hs)

/-- The invariant is about nothing else of the controller. -/
theorem FctlSide.inv (h : FctlSide s t) (hs : Inv s) : Inv t := by
  have hf := h.frame
  constructor
  · rw [hf]; exact hs.params
  · rw [hf]; exact hs.pma
  · rw [hf]; exact hs.pageBuf
  · rw [hf]; exact hs.flash
  · rw [hf]; exact hs.ets0
  · rw [hf]; exact hs.ets1
  · rw [hf]; exact hs.callbacks
  · rw [hf]; exact hs.table
  · rw [h.par]; exact h.ok hs.control
  · rw [hf]; exact hs.cursor
  · rw [hf]; exact hs.snap
  · rw [hf]; exact hs.sequencer

/-- With BSY clear there is no operation in progress. -/
theorem FlashCtlOk.idle {p : Params} {f : FlashCtl} (h : FlashCtlOk p f) (hb : f.bsy = false) :
    f.pendingOp = .none ∧ f.strt = false := by
  have h1 : f.pendingOp = .none := by
    by_contra hn
    exact Bool.false_ne_true (hb ▸ h.1.2 hn)
  refine ⟨h1, ?_⟩
  by_contra hn
  obtain ⟨a, ha⟩ := h.2.1.1 (by simpa using hn)
  rw [h1] at ha
  cases ha

/-- Write to FLASH_KEYR (46_flash_page_programmer.md R293). -/
theorem writeKeyr_side (s : State) (v : Word) : FctlSide s (s.withFctl (writeKeyr s.fctl v)) := by
  refine ⟨rfl, fun h => ?_⟩
  have : ∀ f : FlashCtl, f.bsy = s.fctl.bsy → f.pendingOp = s.fctl.pendingOp → f.strt = s.fctl.strt →
      f.pg = s.fctl.pg → f.per = s.fctl.per → FlashCtlOk s.par f := by
    intro f h1 h2 h3 h4 h5
    simp only [FlashCtlOk, h1, h2, h3, h4, h5]
    exact h
  show FlashCtlOk s.par (writeKeyr s.fctl v)
  unfold writeKeyr
  split
  · exact this _ rfl rfl rfl rfl rfl
  · split <;> exact this _ rfl rfl rfl rfl rfl
  · exact h

/-- Locking keeps what the invariant says of the controller. -/
theorem lockFlash_side (s : State) : FctlSide s (s.withFctl (lockFlash s.fctl)) := ⟨rfl, id⟩

/-- Write to FLASH_CR (46_flash_page_programmer.md R294). -/
theorem writeCr_post (s : State) (v : Word) : (writeCr s v).post (FctlSide s) (FctlSide s) := by
  unfold writeCr
  split
  · trivial
  · next hb =>
    split
    · split
      · exact lockFlash_side s
      · exact FctlSide.refl s
    · split
      · trivial
      · next hm =>
        have hpp : ¬(bit v 0 = true ∧ bit v 1 = true) := by simpa [Bool.and_eq_true] using hm
        have hmode : FlashCtlOk s.par s.fctl → FlashCtlOk s.par { s.fctl with pg := bit v 0, per := bit v 1 } :=
          fun h => ⟨h.1, h.2.1, hpp, h.2.2.2⟩
        split
        · exact ⟨rfl, fun h => ⟨h.1, h.2.1, hpp, h.2.2.2⟩⟩
        · split
          · dsimp only
            split
            · next hin =>
              exact ⟨rfl, fun _ => ⟨⟨fun _ h => by simp at h, fun _ => rfl⟩, ⟨fun _ => ⟨_, rfl⟩, fun _ => rfl⟩, hpp, hin⟩⟩
            · exact ⟨rfl, hmode⟩
          · exact ⟨rfl, hmode⟩

/-- A write to FLASH_CR that asks for no erase raises nothing (46_flash_page_programmer.md R294). -/
theorem writeCr_mode_post (s : State) {v : Word} (hv : (bit v 6 && bit v 1) = false) :
    (writeCr s v).post (FctlSide s) (fun _ => False) := by
  have h := writeCr_post s v
  revert h
  unfold writeCr
  dsimp only
  split_ifs with h1 h2 h3 h4 h5 h6
  all_goals first | exact id | exact fun h => h | simp_all

/-- A write to FLASH_CR starts nothing but an erase at FLASH_AR (46_flash_page_programmer.md R294). -/
theorem writeCr_pending (s : State) (v : Word) :
    (writeCr s v).post
      (fun t => t.fctl.ar = s.fctl.ar ∧ (t.fctl.pendingOp = s.fctl.pendingOp ∨
        (s.fctl.lock = false ∧ bit v 6 = true ∧ t.fctl.pendingOp = .erase s.fctl.ar)) ∧
        (s.fctl.lock = true → t.fctl.lock = true))
      (fun t => t.fctl.pendingOp = s.fctl.pendingOp) := by
  unfold writeCr
  dsimp only
  split_ifs with h1 h2 hv h3 h4 h5 h6
  · trivial
  · exact ⟨rfl, .inl rfl, fun _ => rfl⟩
  · exact ⟨rfl, .inl rfl, id⟩
  · trivial
  · exact ⟨rfl, .inl rfl, fun _ => rfl⟩
  · simp only [Bool.and_eq_true] at h5
    exact ⟨rfl, .inr ⟨by simpa using h2, h5.1, rfl⟩, id⟩
  · rfl
  · exact ⟨rfl, .inl rfl, id⟩

/-- Write to FLASH_AR (46_flash_page_programmer.md R295). -/
theorem writeAr_post (s : State) (v : Word) : (writeAr s v).post (FctlSide s) (FctlSide s) := by
  unfold writeAr
  split_ifs
  · trivial
  · exact FctlSide.refl s
  · exact ⟨rfl, id⟩

/-- A write to the flash array (46_flash_page_programmer.md R296). -/
theorem writeFlash_post (s : State) (width : Width) (a : Word) (h : Half) :
    (writeFlash s width a h).post (FctlSide s) (FctlSide s) := by
  unfold writeFlash
  split_ifs with h1 h2 h3 h4 h5 h6
  · trivial
  · trivial
  · trivial
  · exact FctlSide.refl s
  · exact FctlSide.refl s
  · exact FctlSide.refl s
  · refine ⟨rfl, fun hs => ⟨⟨fun _ h => by simp at h, fun _ => rfl⟩, ⟨fun hst => ?_, fun ⟨_, h⟩ => by simp at h⟩, hs.2.2.1,
      by simpa using h5, by simpa using h2⟩⟩
    exact absurd hst (by simp [(hs.idle (by simpa using h3)).2])

/-- A write to the flash array starts nothing but the program of that halfword (46_flash_page_programmer.md R296). -/
theorem writeFlash_pending (s : State) (width : Width) (a : Word) (h : Half) :
    (writeFlash s width a h).post
      (fun t => t.fctl.pendingOp = s.fctl.pendingOp ∨ t.fctl.pendingOp = .prog a h)
      (fun t => t.fctl.pendingOp = s.fctl.pendingOp) := by
  unfold writeFlash
  split_ifs
  · trivial
  · trivial
  · trivial
  · exact .inl rfl
  · rfl
  · rfl
  · exact .inr rfl

/-- The unlock sequence (46_flash_page_programmer.md R293). -/
theorem unlockFlash_side (s : State) : FctlSide s (unlockFlash s) :=
  (writeKeyr_side s Config.key1).trans (writeKeyr_side _ Config.key2)

/-- The unlock sequence starts nothing. -/
theorem unlockFlash_pending (s : State) : (unlockFlash s).fctl.pendingOp = s.fctl.pendingOp := by
  have : ∀ (f : FlashCtl) (v : Word), (writeKeyr f v).pendingOp = f.pendingOp := by
    intro f v
    unfold writeKeyr
    split
    · rfl
    · split <;> rfl
    · rfl
  exact (this _ _).trans (this _ _)

/-- The erase start (46_flash_page_programmer.md R294, R295). -/
theorem startErase_post (s : State) (a : Word) : (startErase s a).post (FctlSide s) (FctlSide s) := by
  unfold startErase
  refine Res.post_bind (writeCr_post s _) fun u hu => ?_
  refine Res.post_bind (Res.post_mono (writeAr_post u a) (fun _ k => hu.trans k) fun _ k => hu.trans k) fun w hw => ?_
  exact Res.post_mono (writeCr_post w _) (fun _ k => hw.trans k) fun _ k => hw.trans k

/-- The erase start starts nothing but the erase at its address. -/
theorem startErase_pending (s : State) (a : Word) :
    (startErase s a).post
      (fun t => t.fctl.pendingOp = s.fctl.pendingOp ∨ t.fctl.pendingOp = .erase a)
      (fun t => t.fctl.pendingOp = s.fctl.pendingOp) := by
  unfold startErase
  refine Res.post_bind (P' := fun u => u.fctl.pendingOp = s.fctl.pendingOp) ?_ fun u hu => ?_
  · refine Res.post_mono (writeCr_pending s _) (fun u hu => ?_) fun _ h => h
    rcases hu.2.1 with h | ⟨_, h, _⟩
    · exact h
    · exact absurd h (by decide)
  refine Res.post_bind (P' := fun w => w.fctl.pendingOp = u.fctl.pendingOp ∧ (w.fctl.lock = false → w.fctl.ar = a))
    ?_ fun w hw => ?_
  · unfold writeAr
    split_ifs with h1 h2
    · trivial
    · exact ⟨rfl, fun h => absurd (h2.symm.trans h) (by decide)⟩
    · exact ⟨rfl, fun _ => rfl⟩
  refine Res.post_mono (writeCr_pending w _) (fun t ht => ?_) fun t h => h.trans (hw.1.trans hu)
  rcases ht.2.1 with h | ⟨hl, _, h⟩
  · exact .inl (h.trans (hw.1.trans hu))
  · exact .inr (by rw [h, hw.2 hl])

/-- The addresses of the array (46_flash_page_programmer.md R297). -/
theorem inFlash_iff (p : Params) (b : Nat) :
    inFlash p b = true ↔ p.flashBase.toNat ≤ b ∧ b < p.flashBase.toNat + p.flashPages.toNat * 1024 := by
  rw [inFlash, Bool.and_eq_true, decide_eq_true_eq, decide_eq_true_eq, Config.pageSize]

/-- A page that contains an address of the array lies in the array (46_flash_page_programmer.md R295). -/
theorem page_inFlash {p : Params} {a : Word} (h : inFlash p a.toNat = true) {b : Nat} (h1 : pageStart p a ≤ b)
    (h2 : b < pageStart p a + Config.pageSize) : inFlash p b = true := by
  rw [inFlash_iff] at h ⊢
  simp only [pageStart, Config.pageSize] at h1 h2
  omega

/-- The address after an even address of the array lies in the array. -/
theorem next_inFlash {p : Params} (hp : p.flashOk) {a : Word} (h : inFlash p a.toNat = true) (he : bit a 0 = false) :
    inFlash p (a.toNat + 1) = true := by
  have h0 : a.toNat % 2 = 0 := by
    simp only [bit, BitVec.getLsbD, Nat.testBit_zero, decide_eq_false_iff_not] at he
    omega
  have hb := hp.1
  rw [inFlash_iff] at h ⊢
  simp only [Config.pageSize] at hb
  omega

/-- Storing bytes within the array keeps the array canonical and within its range. -/
theorem flashOk_writeBytes {p : Params} {m : Memory} (hm : FlashOk p m) {a : Nat} {bytes : List Byte}
    (h : ∀ b, a ≤ b → b < a + bytes.length → inFlash p b = true) :
    FlashOk p (Memory.writeBytes (some Config.flashUnlisted) m a bytes) := by
  refine ⟨Memory.wf_writeBytes hm.1 a bytes, fun c hc => ?_⟩
  rcases Memory.mem_writeBytes hc with hc | hc
  · exact hm.2 c hc
  · exact h _ hc.1 hc.2

@[simp] theorem interruptedBytes_length (draw a n : Nat) : (interruptedBytes draw a n).length = n := by
  induction n generalizing a with
  | zero => rfl
  | succ n ih => simp [interruptedBytes, ih]

/-- FLASHC.COMPLETE keeps the invariant and changes the controller's registers and the array only
(46_flash_page_programmer.md R298). -/
theorem completeFlash_inv (hs : Inv s) : Inv (completeFlash s) := by
  have hc := hs.control
  unfold completeFlash
  split
  · exact hs
  · next a ha =>
    refine ⟨hs.params, hs.pma, hs.pageBuf, ⟨Memory.wf_unlist hs.flash.1 _ _, fun c hc => hs.flash.2 c (Memory.mem_unlist hc)⟩,
      hs.ets0, hs.ets1, hs.callbacks, hs.table, ?_, hs.cursor, hs.snap, hs.sequencer⟩
    exact ⟨by simp, by simp, hc.2.2.1, trivial⟩
  · next a h ha =>
    have hp : inFlash s.par a.toNat = true ∧ bit a 0 = false := by
      have := hc.2.2.2
      rwa [ha] at this
    refine ⟨hs.params, hs.pma, hs.pageBuf, flashOk_writeBytes hs.flash fun b h1 h2 => ?_, hs.ets0, hs.ets1, hs.callbacks,
      hs.table, ?_, hs.cursor, hs.snap, hs.sequencer⟩
    · simp only [halfBytes, List.length_cons, List.length_nil] at h2
      rcases (by omega : b = a.toNat ∨ b = a.toNat + 1) with rfl | rfl
      · exact hp.1
      · exact next_inFlash hs.params hp.1 hp.2
    · have hst : s.fctl.strt = false := by
        by_contra hn
        obtain ⟨x, hx⟩ := hc.2.1.1 (by simpa using hn)
        rw [ha] at hx
        cases hx
      exact ⟨by simp, by simp [hst], hc.2.2.1, trivial⟩

/-- A hardware reset leaves the array canonical and within its range. -/
theorem flashAfterReset_ok (hs : Inv s) : FlashOk s.par (flashAfterReset s) := by
  have hc := hs.control.2.2.2
  unfold flashAfterReset
  split
  · exact hs.flash
  · next a ha =>
    rw [ha] at hc
    exact flashOk_writeBytes hs.flash fun b h1 h2 => page_inFlash hc h1 (by simpa using h2)
  · next a h ha =>
    rw [ha] at hc
    refine flashOk_writeBytes hs.flash fun b h1 h2 => ?_
    simp only [interruptedBytes_length] at h2
    rcases (by omega : b = a.toNat ∨ b = a.toNat + 1) with rfl | rfl
    · exact hc.1
    · exact next_inFlash hs.params hc.1 hc.2

/-- A hardware reset keeps the invariant (40_boot_controller_interface.md R139). -/
theorem hardwareReset_inv (hs : Inv s) (magic : Half) : Inv (hardwareReset s magic) := by
  have hx : XferOk EpXfer.reset := ⟨rfl, rfl, by decide⟩
  have hf : FlashOk s.par (flashAfterReset s) := flashAfterReset_ok hs
  refine ⟨hs.params, ⟨rfl, by simp [hardwareReset]⟩, ⟨rfl, by simp [hardwareReset, Hid.reset]⟩, hf, hx, hx,
    fun h => ?_, BitVec.zero_and, ?_, ?_, ?_, ?_⟩
  · exact absurd (show Usb.reset.irqEn = true from h) (by decide)
  · exact ⟨by simp [hardwareReset, FlashCtl.reset], by simp [hardwareReset, FlashCtl.reset],
      by simp [hardwareReset, FlashCtl.reset], trivial⟩
  · have := hs.params
    refine ⟨rfl, by simp [hardwareReset, Hid.reset], ?_, ?_⟩ <;> simp only [hardwareReset, Hid.reset] <;> omega
  · show Dispatcher.reset.snap.toNat % 16 < 2
    decide
  · exact ⟨trivial, fun h => absurd rfl h⟩

end Sys2Proof.Machine
end

