-- ==== Sys2Proof/Laws/Transfer.lean ====
section
/-! SUPPORT. What the USB side's routines can do: each ends, or raises, in a state that differs from its own on the USB
side only (`UsbSide`). -/

namespace Sys2Proof.Machine

variable {s t : State}

/-- Taking up to `max_packet` bytes off the queue keeps its count (10_state.md R33). -/
theorem xferOk_afterChunk {x : EpXfer} (h : XferOk x) :
    XferOk { x with
      txQueue := x.txQueue.drop (min x.txRemaining.toNat x.maxPacket.toNat)
      txRemaining := x.txRemaining - BitVec.ofNat 16 (min x.txRemaining.toNat x.maxPacket.toNat) } := by
  obtain ⟨h1, h2, h3⟩ := h
  refine ⟨?_, h2, h3⟩
  have hlt := x.txRemaining.isLt
  have hle : min x.txRemaining.toNat x.maxPacket.toNat ≤ x.txRemaining.toNat := Nat.min_le_left _ _
  simp only [List.length_drop, BitVec.toNat_sub, BitVec.toNat_ofNat]
  omega

/-- EP.TXCHUNK (42_usb_endpoint_buffer_manager.md R186). -/
theorem txChunk_post (s : State) (e : Ep) : (txChunk s e).post (UsbSide s) (UsbSide s) := by
  unfold txChunk
  refine Res.post_bind (Res.post_mono (bufferWrite_post s e _ _) (fun _ h => h) ?_) ?_
  · rintro _ rfl; exact UsbSide.refl _
  · rintro _ ⟨m, rfl, hm⟩
    refine Res.post_bind (Res.post_mono (bdtWrite_post _ e _ _) (fun _ h => h) ?_) ?_
    · rintro _ rfl; exact UsbSide.ofPma hm
    rintro _ ⟨m', rfl, hm'⟩
    refine ((UsbSide.ofPma (hm' ∘ hm)).trans (UsbSide.ofEts e ?_)).trans (UsbSide.ofEp e _)
    exact xferOk_afterChunk

/-- A queue of as many bytes as are counted. -/
theorem UsbSide.ofQueue (e : Ep) (data : List Byte) (length : Half) (h : length.toNat ≤ data.length) :
    UsbSide s (queueData s e data length) :=
  UsbSide.ofEts e fun hx => ⟨by simpa using h, hx.2.1, hx.2.2⟩

/-- `sendData` with no more than its data (42_usb_endpoint_buffer_manager.md R184). -/
theorem sendData_post (s : State) (e : Nat) {data : List Byte} {length : Half} (h : length.toNat ≤ data.length) :
    (sendData s e data length).post (UsbSide s) (UsbSide s) := by
  unfold sendData
  split
  · exact UsbSide.refl s
  · split
    · exact UsbSide.refl s
    · exact Res.post_mono (txChunk_post _ _) (fun _ k => (UsbSide.ofQueue _ _ _ h).trans k)
        fun _ k => (UsbSide.ofQueue _ _ _ h).trans k

/-- A descriptor answer (44_usb_control_requests.md R241). -/
theorem answerDescriptor_post (s : State) (d : List Byte) (wLength : Half) :
    (answerDescriptor s d wLength).post (UsbSide s) (UsbSide s) := by
  refine sendData_post s 0 ?_
  have := wLength.isLt
  simp only [BitVec.toNat_ofNat]
  omega

/-- A zero-length answer (44_usb_control_requests.md R240). -/
theorem answerEmpty_post (s : State) : (answerEmpty s).post (UsbSide s) (UsbSide s) := sendData_post s 0 (by simp)

/-- The acknowledgment frame (45_hid_reassembly_commands.md R266). -/
theorem acknowledge_post (s : State) : (acknowledge s).post (UsbSide s) (UsbSide s) := sendData_post s 1 (by decide)

/-- A change of the Device Session State. -/
theorem UsbSide.ofSession (pending : BitVec 7) (configured : Bool) :
    UsbSide s (s.withDrv { s.drv with pendingAddr := pending, configured := configured }) :=
  ⟨rfl, id, id, id, rfl, rfl, rfl, id⟩

/-- SET_ADDRESS at the SETUP (44_usb_control_requests.md R246). -/
theorem requestAddress_post (s : State) (wValue : Half) : (requestAddress s wValue).post (UsbSide s) (UsbSide s) :=
  Res.post_mono (answerEmpty_post _) (fun _ k => (UsbSide.ofSession _ _).trans k) fun _ k => (UsbSide.ofSession _ _).trans k

/-- SET_CONFIGURATION (44_usb_control_requests.md R247). -/
theorem requestConfiguration_post (s : State) : (requestConfiguration s).post (UsbSide s) (UsbSide s) :=
  Res.post_mono (answerEmpty_post _) (fun _ k => (UsbSide.ofSession _ _).trans k) fun _ k => (UsbSide.ofSession _ _).trans k

/-- `HandleSetup` (44_usb_control_requests.md R241). -/
theorem handleSetup_post (s : State) (p : Packet8) : (handleSetup s p).post (UsbSide s) (UsbSide s) := by
  unfold handleSetup
  dsimp only
  split_ifs
  · exact answerDescriptor_post s _ _
  · exact answerDescriptor_post s _ _
  · exact answerDescriptor_post s _ _
  · exact answerDescriptor_post s _ _
  · exact answerDescriptor_post s _ _
  · exact requestAddress_post s _
  · exact requestConfiguration_post s
  · exact answerEmpty_post s

/-- `ApplyPendingAddress` (44_usb_control_requests.md R250). -/
theorem applyPendingAddress_side (s : State) : UsbSide s (applyPendingAddress s) := by
  unfold applyPendingAddress
  split
  · exact UsbSide.refl s
  · exact ⟨rfl, id, id, id, rfl, rfl, rfl, id⟩

/-- The transmit half of the endpoint service (42_usb_endpoint_buffer_manager.md R190). -/
theorem transmitHalf_post (s : State) (e : Ep) : (transmitHalf s e).post (UsbSide s) (UsbSide s) := by
  have h1 : UsbSide s (clearCtrTx s e) := UsbSide.ofEp e _
  have h2 : UsbSide s (if e = .ep0 then applyPendingAddress (clearCtrTx s e) else clearCtrTx s e) := by
    split
    · exact h1.trans (applyPendingAddress_side _)
    · exact h1
  have h3 : ∀ u, UsbSide s u → Res.post (UsbSide s) (UsbSide s)
      (if 0 < (u.drv.ets e).txRemaining.toNat then txChunk u e else .ok u) := by
    intro u hu
    split
    · exact Res.post_mono (txChunk_post u e) (fun _ k => hu.trans k) fun _ k => hu.trans k
    · exact hu
  unfold transmitHalf
  split
  · exact h3 _ h2
  · exact UsbSide.refl s

/-- The re-arm and the transmit half (42_usb_endpoint_buffer_manager.md R190). -/
theorem afterReceive_post (s : State) (e : Ep) : (afterReceive s e).post (UsbSide s) (UsbSide s) :=
  Res.post_mono (transmitHalf_post _ e) (fun _ k => (UsbSide.ofEp e _).trans k) fun _ k => (UsbSide.ofEp e _).trans k

/-- The receive half of the endpoint service up to its acknowledgment (42_usb_endpoint_buffer_manager.md R190). -/
theorem takePacket_post (s : State) (e : Ep) : (takePacket s e).post (UsbSide s) (UsbSide s) := by
  unfold takePacket
  refine Res.post_bind (Res.post_mono (bdtRead_post s e _) (fun _ h => h) ?_) fun count _ => ?_
  · rintro _ rfl; exact UsbSide.refl _
  refine Res.post_bind (Res.post_mono (bufferRead_post s e _ _) (fun _ h => h) ?_) fun bytes _ => ?_
  · rintro _ rfl; exact UsbSide.refl _
  split
  · exact UsbSide.refl s
  · next hc =>
    refine (UsbSide.ofEts e fun hx => ?_).trans (UsbSide.ofEp e _)
    refine ⟨hx.1, hx.2.1, ?_⟩
    simp only [Config.maxPacket, BitVec.toNat_ofNat] at hc ⊢
    omega

/-- A SETUP or an OUT packet (43_usb_packet_dispatcher.md R214, R215). -/
theorem receivePacket_post (s : State) (n : Ep) (d : List Byte) (setup : Bool) :
    (receivePacket s n d setup).post (UsbSide s) (UsbSide s) := by
  unfold receivePacket
  refine Res.post_bind (Res.post_mono (bufferWrite_post s n _ _) (fun _ h => h) ?_) ?_
  · rintro _ rfl; exact UsbSide.refl _
  rintro _ ⟨m, rfl, hm⟩
  refine Res.post_bind (Res.post_mono (bdtRead_post _ n _) (fun _ h => h) ?_) fun count _ => ?_
  · rintro _ rfl; exact UsbSide.ofPma hm
  refine Res.post_bind (Res.post_mono (bdtWrite_post _ n _ _) (fun _ h => h) ?_) ?_
  · rintro _ rfl; exact UsbSide.ofPma hm
  rintro _ ⟨m', rfl, hm'⟩
  exact ((UsbSide.ofPma (hm' ∘ hm)).trans (UsbSide.ofEp n _)).trans (UsbSide.ofResult _)

/-- An offered packet (43_usb_packet_dispatcher.md R214, R215, R217). -/
theorem offerPacket_post (s : State) (a e : Byte) (d : List Byte) (setup : Bool) :
    (offerPacket s a e d setup).post (UsbSide s) (UsbSide s) := by
  have hn : ∀ l, Res.post (UsbSide s) (UsbSide s) (notAccepted s l) := fun l => UsbSide.ofResult _
  unfold offerPacket
  split
  · split
    · exact hn _
    · split
      · exact hn _
      · split
        · exact hn _
        · exact hn _
        · exact hn _
        · split
          · exact hn _
          · refine Res.post_bind (Res.post_mono (bdtRead_post s _ _) (fun _ h => h) ?_) fun count _ => ?_
            · rintro _ rfl; exact UsbSide.refl _
            · split
              · exact receivePacket_post s _ d setup
              · exact hn _
  · exact hn _

/-- A packet handed to the host (43_usb_packet_dispatcher.md R216). -/
theorem transmitPacket_post (s : State) (n : Ep) : (transmitPacket s n).post (UsbSide s) (UsbSide s) := by
  unfold transmitPacket
  refine Res.post_bind (Res.post_mono (bdtRead_post s n _) (fun _ h => h) ?_) fun count _ => ?_
  · rintro _ rfl; exact UsbSide.refl _
  refine Res.post_bind (Res.post_mono (bufferRead_post s n _ _) (fun _ h => h) ?_) fun bytes _ => ?_
  · rintro _ rfl; exact UsbSide.refl _
  exact (UsbSide.ofEp n _).trans (UsbSide.ofResult _)

/-- A request for a packet (43_usb_packet_dispatcher.md R216, R217). -/
theorem requestPacket_post (s : State) (a e : Byte) : (requestPacket s a e).post (UsbSide s) (UsbSide s) := by
  have hn : ∀ l, Res.post (UsbSide s) (UsbSide s) (notAccepted s l) := fun l => UsbSide.ofResult _
  unfold requestPacket
  split
  · split
    · exact hn _
    · split
      · exact hn _
      · exact hn _
      · exact hn _
      · split
        · exact hn _
        · exact transmitPacket_post s _
  · exact hn _

/-- An access of a descriptor-table word (42_usb_endpoint_buffer_manager.md R180). -/
theorem accessBdt_post (s : State) (n : Ep) (within : Nat) (acc : Access 16) :
    (accessBdt s n within acc).post (UsbSide s) (UsbSide s) := by
  cases acc with
  | read =>
    refine Res.post_bind (Res.post_mono (bdtRead_post s n within) (fun _ h => h) ?_) fun v _ => UsbSide.ofResult _
    rintro _ rfl; exact UsbSide.refl _
  | write v =>
    refine Res.post_mono (bdtWrite_post s n within v) ?_ ?_
    · rintro _ ⟨m, rfl, hm⟩; exact UsbSide.ofPma hm
    · rintro _ rfl; exact UsbSide.refl _

/-! ### Where the transmit side goes through -/

/-- EP.TXCHUNK where the table and the buffer lie in packet memory (42_usb_endpoint_buffer_manager.md R186). -/
theorem txChunk_ok (e : Ep) (hw : Memory.wf none s.pma = true)
    (hr : TxReady s e ((s.drv.ets e).txQueue.take (min (s.drv.ets e).txRemaining.toNat (s.drv.ets e).maxPacket.toNat)).length) :
    ∃ t, txChunk s e = .ok t ∧ ChunkArmed s t e (s.drv.ets e) := by
  obtain ⟨ht, hb⟩ := hr
  generalize hx : s.drv.ets e = x at *
  rw [ne_eq, List.length_eq_zero_iff] at hb
  obtain ⟨n, hn⟩ : ∃ n, n = min x.txRemaining.toNat x.maxPacket.toNat := ⟨_, rfl⟩
  rw [← hn] at hb
  obtain ⟨m, hm, hm0, hm1⟩ := bufferWrite_ok e (x.txQueue.take n) hb
  have hmw : Memory.wf none m = true := by
    by_cases hbb : x.txQueue.take n = []
    · rw [hm0 hbb]; exact hw
    · obtain ⟨a, ha, _⟩ := hb hbb
      rw [hm1 a hbb ha]; exact Memory.wf_writeBytes hw _ _
  have key : txChunk s e = .ok (setStatTx (((s.withPma m).withPma (Memory.writeBytes none m (tableWordAt s e offCountTx)
      (halfBytes (BitVec.ofNat 16 n)))).setEts e
      { x with txQueue := x.txQueue.drop n, txRemaining := x.txRemaining - BitVec.ofNat 16 n }) e .valid) := by
    unfold txChunk
    simp only [hx]
    rw [← hn, hm]
    show (bdtWrite _ _ _ _ >>= _) = _
    rw [bdtWrite_ok e (by decide) (by exact ht)]
    rfl
  refine ⟨_, key, ?_⟩
  unfold ChunkArmed
  dsimp only
  rw [← hn]
  refine ⟨rfl, rfl, rfl, m.read?, fun h => by rw [hm0 h], fun h a ha => ?_, fun o => ?_⟩
  · rw [hm1 a h ha]
    funext o
    exact Memory.read?_writeBytes hw _ _ o
  · exact Memory.read?_writeBytes hmw _ _ o

/-- The transfer state a chunk works on need not be written back first. -/
theorem chunkArmed_setEts (e : Ep) (x : EpXfer) : ChunkArmed (s.setEts e x) t e x ↔ ChunkArmed s t e x := by
  have hc : ∀ a, bdtRead (s.setEts e x) e offAddrTx = .ok a ↔ bdtRead s e offAddrTx = .ok a :=
    bdtRead_congr e (by decide) rfl rfl
  constructor
  · rintro ⟨h1, h2, h3, buffer, h4, h5, h6⟩
    exact ⟨h1, by cases e <;> exact h2, h3, buffer, h4, fun k a ha => h5 k a ((hc a).2 ha), h6⟩
  · rintro ⟨h1, h2, h3, buffer, h4, h5, h6⟩
    exact ⟨h1, by cases e <;> exact h2, h3, buffer, h4, fun k a ha => h5 k a ((hc a).1 ha), h6⟩

/-- `sendData` on endpoint 0, or on endpoint 1 when configured (42_usb_endpoint_buffer_manager.md R184). -/
theorem sendData_ok {k : Nat} {e : Ep} (hk : epOfNat k = some e) (hc : e = .ep0 ∨ s.drv.configured = true) {data : List Byte}
    {length : Half} (hl : length.toNat ≤ data.length) (hw : Memory.wf none s.pma = true)
    (hr : TxReady s e (min length.toNat (s.drv.ets e).maxPacket.toNat)) :
    ∃ t, sendData s k data length = .ok t ∧
      ChunkArmed s t e { s.drv.ets e with txQueue := data.take length.toNat, txRemaining := length } := by
  have hets : (queueData s e data length).drv.ets e =
      { s.drv.ets e with txQueue := data.take length.toNat, txRemaining := length } := by cases e <;> rfl
  have h1 : ¬(e ≠ .ep0 ∧ s.drv.configured = false) := by rcases hc with h | h <;> simp [h]
  obtain ⟨t, ht, ha⟩ := txChunk_ok (s := queueData s e data length) e hw (by
    rw [hets]
    dsimp only
    rw [List.length_take, List.length_take]
    have : min (min length.toNat (s.drv.ets e).maxPacket.toNat) (min length.toNat data.length) =
      min length.toNat (s.drv.ets e).maxPacket.toNat := by omega
    rw [this]
    refine ⟨hr.1, fun h => ?_⟩
    obtain ⟨a, h2, h3⟩ := hr.2 h
    exact ⟨a, (bdtRead_congr (s := s) (t := queueData s e data length) e (by decide) rfl rfl a).2 h2, h3⟩)
  rw [hets] at ha
  refine ⟨t, ?_, (chunkArmed_setEts e _).1 ha⟩
  rw [← ht, sendData, hk]
  exact if_neg h1

end Sys2Proof.Machine
end

