-- ==== Sys2Proof/Laws/Upload.lean ====
section
/-! SUPPORT. Unit H, the endpoint service, the flash sequencer and the dispatcher keep the invariant: one lemma per routine,
for its normal end and for the state it raises a fault in. -/

namespace Sys2Proof.Machine

variable {s t : State}

/-- Both ends of a routine keep the invariant. -/
abbrev KeepsInv (r : Res State) : Prop := r.post Inv Inv

/-- A routine of the USB side keeps the invariant. -/
theorem keepsInv_of_usbSide {r : Res State} (hs : Inv s) (h : r.post (UsbSide s) (UsbSide s)) : KeepsInv r :=
  Res.post_mono h (fun _ k => k.inv hs) fun _ k => k.inv hs

/-- A routine of the flash controller's registers keeps the invariant. -/
theorem keepsInv_of_fctlSide {r : Res State} (hs : Inv s) (h : r.post (FctlSide s) (FctlSide s)) : KeepsInv r :=
  Res.post_mono h (fun _ k => k.inv hs) fun _ k => k.inv hs

/-- Another upload state, its page buffer canonical and its cursor in range. -/
theorem Inv.withHid (hs : Inv s) {h : Hid} (hb : PageBufOk h.pageBuf) (hc : CursorOk s.par h)
    (hp : s.fseq.state = .idle ∨ h.pageIndex = s.hid.pageIndex) : Inv (s.withHid h) := by
  refine ⟨hs.params, hs.pma, hb, hs.flash, hs.ets0, hs.ets1, hs.callbacks, hs.table, hs.control, hc, hs.snap,
    hs.sequencer.1, fun hn => ?_⟩
  rcases hp with hp | hp
  · exact absurd hp hn
  · have := hs.sequencer.2 hn
    exact ⟨this.1, fun hcaller => by rw [State.withHid_hid, hp]; exact this.2.1 hcaller, this.2.2⟩

/-- Another dispatcher state, with the endpoint number of its snapshot in range. -/
theorem Inv.withDisp (hs : Inv s) {d : Dispatcher} (hd : d.snap.toNat % 16 < 2)
    (hp : s.fseq.state = .idle ∨ d.state = s.disp.state) : Inv (s.withDisp d) := by
  refine ⟨hs.params, hs.pma, hs.pageBuf, hs.flash, hs.ets0, hs.ets1, hs.callbacks, hs.table, hs.control, hs.cursor, hd,
    hs.sequencer.1, fun hn => ?_⟩
  rcases hp with hp | hp
  · exact absurd hp hn
  · have := hs.sequencer.2 hn
    exact ⟨this.1, this.2.1, fun hcaller => hp.trans (this.2.2 hcaller)⟩

/-- Another boot state. -/
theorem Inv.withBoot (hs : Inv s) (b : Boot) : Inv (s.withBoot b) :=
  ⟨hs.params, hs.pma, hs.pageBuf, hs.flash, hs.ets0, hs.ets1, hs.callbacks, hs.table, hs.control, hs.cursor, hs.snap,
    hs.sequencer⟩

/-- Another sequencer state that meets the sequencer's part of the invariant. -/
theorem Inv.withFseq (hs : Inv s) {f : FlashSeq} (hf : SequencerOk (s.withFseq f)) : Inv (s.withFseq f) :=
  ⟨hs.params, hs.pma, hs.pageBuf, hs.flash, hs.ets0, hs.ets1, hs.callbacks, hs.table, hs.control, hs.cursor, hs.snap, hf⟩

/-- Other USB registers, with the table's place aligned and the line's enable as before or off. -/
theorem Inv.withUsb (hs : Inv s) {u : Usb} (hb : u.btable &&& 7 = 0) (hi : u.irqEn = true → s.usb.irqEn = true) :
    Inv (s.withUsb u) :=
  ⟨hs.params, hs.pma, hs.pageBuf, hs.flash, hs.ets0, hs.ets1, fun h => hs.callbacks (hi h), hb, hs.control, hs.cursor,
    hs.snap, hs.sequencer⟩

/-! ### Unit H -/

/-- HID.APPEND (45_hid_reassembly_commands.md R262). -/
theorem appendPacket_post (s : State) (rx : Packet8) :
    (appendPacket s rx).post
      (fun t => t = s.withHid t.hid ∧ t.hid.pageOffset = s.hid.pageOffset + 8 ∧ t.hid.pageIndex = s.hid.pageIndex ∧
        t.hid.uploadStarted = s.hid.uploadStarted ∧ t.hid.uploadFinished = s.hid.uploadFinished ∧
        s.hid.pageOffset.toNat + 8 ≤ 1024 ∧ (PageBufOk s.hid.pageBuf → PageBufOk t.hid.pageBuf))
      (· = s) := by
  unfold appendPacket
  split
  · next h =>
    refine ⟨rfl, rfl, rfl, rfl, rfl, h, fun hb => ⟨Memory.wf_writeBytes hb.1 _ _, fun c hc => ?_⟩⟩
    rcases Memory.mem_writeBytes hc with hc | hc
    · exact hb.2 c hc
    · simp only [Packet8.toList, List.length_cons, List.length_nil, Config.maxPacket] at hc h
      omega
  · rfl

theorem appendPacket_inv (hs : Inv s) (rx : Packet8) : KeepsInv (appendPacket s rx) := by
  refine Res.post_mono (appendPacket_post s rx) ?_ (fun _ h => h ▸ hs)
  rintro t ⟨h1, h2, h3, _, _, h6, h7⟩
  have hc := hs.cursor
  rw [h1]
  refine hs.withHid (h7 hs.pageBuf) ⟨?_, ?_, ?_, ?_⟩ (.inr h3)
  · rw [h2, BitVec.toNat_add]; have := hc.1; simp; omega
  · rw [h2, BitVec.toNat_add]; simp only [Config.pageSize]; simp; omega
  · rw [h3]; exact hc.2.2.1
  · rw [h3]; exact hc.2.2.2

/-- The three commands (45_hid_reassembly_commands.md R264, R265). -/
theorem runCommand_inv (hs : Inv s) (hq : s.fseq.state = .idle) (opcode : Byte) : Inv (runCommand s opcode) := by
  have hp := hs.params
  unfold runCommand
  split_ifs
  · exact hs.withHid hs.pageBuf ⟨by simp, by simp [Config.pageSize], le_rfl, by simp only; omega⟩ (.inl hq)
  · exact hs.withHid hs.pageBuf hs.cursor (.inl hq)
  · exact hs

/-- Entry of `writePage` (46_flash_page_programmer.md R291). -/
theorem startWritePage_inv (hs : Inv s) (a : Word) (data : PageSource) (size : Half) (caller : Caller)
    (hi : caller ≠ .alone → s.hid.pageIndex.toNat < s.par.flashPages.toNat)
    (hd : caller = .dispatcher → s.disp.state = .doCtr) : KeepsInv (startWritePage s a data size caller) := by
  unfold startWritePage
  split
  · trivial
  · next h =>
    rw [not_or, not_lt] at h
    exact hs.withFseq ⟨rfl, fun _ => ⟨h.2, hi, hd⟩⟩

/-- The start of a page commit (45_hid_reassembly_commands.md R266). -/
theorem commitPage_inv (hs : Inv s) (caller : Caller) (hd : caller = .dispatcher → s.disp.state = .doCtr) :
    KeepsInv (commitPage s caller) := by
  unfold commitPage
  split
  · exact hs
  · next h => exact startWritePage_inv hs _ _ _ _ (fun _ => not_le.1 h) hd

/-- `HidData` (45_hid_reassembly_commands.md R261). -/
theorem hidData_inv (hs : Inv s) (hq : s.fseq.state = .idle) (rx : Packet8) (caller : Caller)
    (hd : caller = .dispatcher → s.disp.state = .doCtr) : KeepsInv (hidData s rx caller) := by
  unfold hidData
  refine Res.post_bind (P' := fun t => Inv t ∧ t.fseq = s.fseq ∧ t.disp = s.disp) ?_ ?_
  · have h1 := appendPacket_inv hs rx
    have h2 := appendPacket_post s rx
    revert h1 h2
    generalize appendPacket s rx = r
    match r with
    | .ok t =>
      intro h1 h2
      refine ⟨h1, ?_, ?_⟩
      · rw [h2.1]; rfl
      · rw [h2.1]; rfl
    | .error (.raised _ _) => exact fun h _ => h
    | .error (.refused _) => exact fun _ _ => trivial
  · rintro t ⟨ht, h1, h2⟩
    split_ifs
    · exact runCommand_inv ht (by rw [h1, hq]) _
    · exact commitPage_inv ht caller fun h => by rw [h2]; exact hd h
    · exact ht

/-- EP.CONFIGURE (42_usb_endpoint_buffer_manager.md R181). -/
theorem epConfigure_side (s : State) : UsbSide s (epConfigure s) := by
  have hx : ∀ x : EpXfer, XferOk (configuredEts x) := fun x => ⟨rfl, rfl, by simp [configuredEts]⟩
  have hlen : 0 + configuredTable.length ≤ Config.pmaSize := by simp [configuredTable, Config.pmaSize]
  have key : ∀ (u : Usb) (bytes : List Byte), u.irqEn = s.usb.irqEn → u.btable = 0 → 0 + bytes.length ≤ Config.pmaSize →
      UsbSide s (((s.withUsb u).withPma (Memory.writeBytes none s.pma 0 bytes)).withDrv
        { s.drv with ets0 := configuredEts s.drv.ets0, ets1 := configuredEts s.drv.ets1 }) := by
    intro u bytes hi hb hlen
    exact ⟨rfl, fun h => pmaOk_writeBytes h hlen, fun _ => hx _, fun _ => hx _, hi, rfl, rfl, fun _ => by simp [hb]⟩
  exact key _ configuredTable (by simp [writeEp]) (by simp [writeEp]) hlen

/-- The bus-reset handler (45_hid_reassembly_commands.md R270). -/
theorem hidBusReset_inv (hs : Inv s) (hq : s.fseq.state = .idle) : Inv (hidBusReset s) := by
  have hp := hs.params
  have h1 := epConfigure_side s
  unfold hidBusReset
  generalize epConfigure s = u at h1
  have hpar : u.par = s.par := by rw [h1.frame]
  have h2 : UsbSide u (u.withDrv { u.drv with pendingAddr := 0, configured := false, devStatus := 0 }) :=
    ⟨rfl, id, id, id, rfl, rfl, rfl, id⟩
  have h3 := ((h1.trans h2).inv hs).withHid (h := { u.hid with pageIndex := u.par.firstPage, pageOffset := 0 })
    (by have := (h1.inv hs).pageBuf; exact this)
    ⟨by simp, by simp [Config.pageSize], le_rfl, by simp only [State.withDrv_par, hpar]; omega⟩
    (.inl (by simp only [State.withDrv_fseq]; rw [h1.frame]; exact hq))
  exact h3.withUsb (h1.table hs.table) fun h => h

/-! ### The endpoint service and the sequencer -/

/-- The endpoint service, with no `writePage` under way (42_usb_endpoint_buffer_manager.md R190). -/
theorem epService_inv (hs : Inv s) (hq : s.fseq.state = .idle) (e : Ep) (caller : Caller)
    (hd : caller = .dispatcher → s.disp.state = .doCtr) : KeepsInv (epService s e caller) := by
  unfold epService
  split
  · refine Res.post_bind (Res.post_mono (takePacket_post s e) (fun _ h => h) fun _ h => h.inv hs) fun t ht => ?_
    have ht' := ht.inv hs
    have hfs : t.fseq = s.fseq := by rw [ht.frame]
    have hdisp : t.disp = s.disp := by rw [ht.frame]
    dsimp only
    split_ifs
    · refine Res.post_bind (Res.post_mono (handleSetup_post t _) (fun _ h => h) fun _ h => h.inv ht') fun u hu => ?_
      exact keepsInv_of_usbSide (hu.inv ht') (afterReceive_post u e)
    · refine Res.post_bind (hidData_inv ht' (by rw [hfs, hq]) _ caller fun h => by rw [hdisp]; exact hd h) fun u hu => ?_
      split
      · exact keepsInv_of_usbSide hu (afterReceive_post u e)
      · exact hu
    · exact keepsInv_of_usbSide ht' (afterReceive_post t e)
  · exact keepsInv_of_usbSide hs (transmitHalf_post s e)

/-- EP.SERVICE of a four-bit endpoint number (42_usb_endpoint_buffer_manager.md R190). -/
theorem serveEndpoint_inv (hs : Inv s) (hq : s.fseq.state = .idle) (e : BitVec 4) (caller : Caller)
    (hd : caller = .dispatcher → s.disp.state = .doCtr) : KeepsInv (serveEndpoint s e caller) := by
  unfold serveEndpoint
  split
  · exact epService_inv hs hq _ caller hd
  · exact hs

/-- Moving the sequencer, with the conditions of its new state. -/
theorem setFseqState_inv (hs : Inv s) (x : FseqState) (hn : s.fseq.state ≠ .idle)
    (hi : SequencerIndexOk { s.fseq with state := x }) : Inv (setFseqState s x) :=
  hs.withFseq ⟨hi, fun _ => hs.sequencer.2 hn⟩

/-- The sequencer back in F_IDLE. -/
theorem setFseqIdle_inv (hs : Inv s) : Inv (setFseqState s .idle) := hs.withFseq ⟨trivial, fun h => absurd rfl h⟩

/-- The rest of a commit (46_flash_page_programmer.md R292). -/
theorem finishCommit_inv (hs : Inv s) (hq : s.fseq.state = .idle) (hi : s.hid.pageIndex.toNat < s.par.flashPages.toNat) :
    (finishCommit s).post (fun t => Inv t ∧ t.fseq = s.fseq ∧ t.disp = s.disp) Inv := by
  have hc := hs.cursor
  have hb : s.hid.pageIndex.toNat + 1 < 65536 := by have := s.par.flashPages.isLt; omega
  have h1 : Inv (s.withHid { s.hid with pageIndex := s.hid.pageIndex + 1, pageOffset := 0 }) := by
    refine hs.withHid hs.pageBuf ⟨by simp, by simp [Config.pageSize], ?_, ?_⟩ (.inl hq)
    · simp only [BitVec.toNat_add]
      have := hc.2.2.1
      simp; omega
    · simp only [BitVec.toNat_add]
      simp; omega
  unfold finishCommit
  refine Res.post_bind (Res.post_mono (acknowledge_post _) (fun _ h => h) fun _ h => h.inv h1) fun u hu => ?_
  refine Res.post_mono (afterReceive_post u .ep0) (fun t ht => ?_) fun t ht => (hu.trans ht).inv h1
  have hf := (hu.trans ht).frame
  exact ⟨(hu.trans ht).inv h1, by rw [hf]; rfl, by rw [hf]; rfl⟩

/-- Bus reset served (43_usb_packet_dispatcher.md R222). -/
theorem serveReset_inv (hs : Inv s) (hq : s.fseq.state = .idle) : Inv (serveReset s) := by
  unfold serveReset
  have : Inv (s.withUsb (writeIstr s.usb 0xFBFF)) := hs.withUsb hs.table id
  dsimp only
  split
  · exact hidBusReset_inv this hq
  · exact this

/-- Suspend served (43_usb_packet_dispatcher.md R222). -/
theorem serveSusp_inv (hs : Inv s) : Inv (serveSusp s) := hs.withUsb hs.table id

/-- Wakeup served (43_usb_packet_dispatcher.md R222). -/
theorem serveWkup_inv (hs : Inv s) : Inv (serveWkup s) := hs.withUsb hs.table id

/-- Serving bus reset, suspend or wakeup changes the USB registers, packet memory, the session and the cursor only. -/
abbrev SourcesFrame (s t : State) : Prop := t = { s with usb := t.usb, pma := t.pma, drv := t.drv, hid := t.hid }

/-- Two such changes, one after the other. -/
theorem SourcesFrame.trans {u : State} (h : SourcesFrame s t) (k : SourcesFrame t u) : SourcesFrame s u := by
  rw [SourcesFrame, k, h]

/-- What serving bus reset leaves (43_usb_packet_dispatcher.md R222). -/
theorem serveReset_frame (s : State) : SourcesFrame s (serveReset s) := by
  unfold serveReset; dsimp only; split <;> rfl

@[simp] theorem serveReset_fseq (s : State) : (serveReset s).fseq = s.fseq := by rw [serveReset_frame]

/-- What a status word asks for after suspend keeps the invariant and the sequencer. -/
theorem laterThanSusp_inv (hs : Inv s) (w : Half) : Inv (laterThanSusp w s) := by
  unfold laterThanSusp
  split
  · exact serveWkup_inv hs
  · exact hs

/-- What the sources after suspend leave. -/
theorem laterThanSusp_frame (w : Half) (s : State) : SourcesFrame s (laterThanSusp w s) := by
  unfold laterThanSusp; split <;> rfl

@[simp] theorem laterThanSusp_fseq (w : Half) (s : State) : (laterThanSusp w s).fseq = s.fseq := by rw [laterThanSusp_frame]

/-- What a status word asks for after bus reset keeps the invariant and the sequencer. -/
theorem laterThanReset_inv (hs : Inv s) (w : Half) : Inv (laterThanReset w s) := by
  unfold laterThanReset
  split
  · exact laterThanSusp_inv (serveSusp_inv hs) w
  · exact laterThanSusp_inv hs w

/-- What the sources after bus reset leave. -/
theorem laterThanReset_frame (w : Half) (s : State) : SourcesFrame s (laterThanReset w s) := by
  unfold laterThanReset
  split
  · exact SourcesFrame.trans (t := serveSusp s) rfl (laterThanSusp_frame w _)
  · exact laterThanSusp_frame w s

@[simp] theorem laterThanReset_fseq (w : Half) (s : State) : (laterThanReset w s).fseq = s.fseq := by
  rw [laterThanReset_frame]

/-- What a status word asks for after transfer-complete keeps the invariant and the sequencer. -/
theorem laterThanCtr_inv (hs : Inv s) (hq : s.fseq.state = .idle) (w : Half) : Inv (laterThanCtr w s) := by
  unfold laterThanCtr
  split
  · exact laterThanReset_inv (serveReset_inv hs hq) w
  · exact laterThanReset_inv hs w

/-- What the sources after transfer-complete leave. -/
theorem laterThanCtr_frame (w : Half) (s : State) : SourcesFrame s (laterThanCtr w s) := by
  unfold laterThanCtr
  split
  · exact (serveReset_frame s).trans (laterThanReset_frame w _)
  · exact laterThanReset_frame w s

@[simp] theorem laterThanCtr_fseq (w : Half) (s : State) : (laterThanCtr w s).fseq = s.fseq := by rw [laterThanCtr_frame]

/-- What F_LOCK goes on with (46_flash_page_programmer.md R292). -/
theorem continueCaller_inv (hs : Inv s) (hq : s.fseq.state = .idle)
    (hi : s.fseq.caller ≠ .alone → s.hid.pageIndex.toNat < s.par.flashPages.toNat) : KeepsInv (continueCaller s) := by
  unfold continueCaller
  split
  · exact hs
  · next h => exact Res.post_mono (finishCommit_inv hs hq (hi (by simp [h]))) (fun _ h => h.1) fun _ h => h
  · next h =>
    refine Res.post_bind (finishCommit_inv hs hq (hi (by simp [h]))) ?_
    rintro t ⟨ht, h1, _⟩
    exact laterThanCtr_inv ht (by rw [h1, hq]) _
  · next h =>
    refine Res.post_bind (finishCommit_inv hs hq (hi (by simp [h]))) ?_
    rintro t ⟨ht, h1, _⟩
    exact ht.withDisp ht.snap (.inl (by rw [h1, hq]))

/-- Both controller writes around a sequencer move leave the sequencer as it is. -/
theorem FctlSide.fseq (h : FctlSide s t) : t.fseq = s.fseq := by rw [h.frame]

/-- One step of the flash sequencer (46_flash_page_programmer.md R291). -/
theorem fseqStep_inv (hs : Inv s) : KeepsInv (fseqStep s) := by
  have hq := hs.sequencer
  unfold fseqStep
  split
  · exact hs
  · next h =>
    have h0 : s.fseq.i = 0 := by have := hq.1; rw [SequencerIndexOk, h] at this; exact this
    exact setFseqState_inv ((unlockFlash_side s).inv hs) _ (by rw [(unlockFlash_side s).fseq, h]; simp)
      (by rw [(unlockFlash_side s).fseq]; exact h0)
  · next h =>
    have h0 : s.fseq.i = 0 := by have := hq.1; rw [SequencerIndexOk, h] at this; exact this
    split
    · exact hs
    · exact setFseqState_inv hs _ (by simp [h]) h0
  · next h =>
    have h0 : s.fseq.i = 0 := by have := hq.1; rw [SequencerIndexOk, h] at this; exact this
    refine Res.post_bind (Res.post_mono (startErase_post s _) (fun _ h => h) fun _ k => k.inv hs) fun t ht => ?_
    exact setFseqState_inv (ht.inv hs) _ (by rw [ht.fseq, h]; simp) (by rw [ht.fseq]; exact h0)
  · next h =>
    have h0 : s.fseq.i = 0 := by have := hq.1; rw [SequencerIndexOk, h] at this; exact this
    split
    · exact hs
    · refine Res.post_bind (Res.post_mono (writeCr_post s _) (fun _ h => h) fun _ k => k.inv hs) fun t ht => ?_
      refine setFseqState_inv (ht.inv hs) _ (by rw [ht.fseq, h]; simp) ?_
      rw [ht.fseq]
      show s.fseq.i.toNat < 512
      rw [h0]; decide
  · next h =>
    have h0 : s.fseq.i.toNat < 512 := by have := hq.1; rw [SequencerIndexOk, h] at this; exact this
    have hb : ∀ (t : State) (k : Nat), Inv t → (sourceByte t k).post (fun _ => True) Inv := by
      intro t k ht
      unfold sourceByte
      split
      · split
        · trivial
        · exact ht
      · split
        · trivial
        · exact ht
    refine Res.post_bind (Res.post_mono (writeCr_post s _) (fun _ h => h) fun _ k => k.inv hs) fun t ht => ?_
    refine Res.post_bind (hb t _ (ht.inv hs)) fun b0 _ => ?_
    refine Res.post_bind (hb t _ (ht.inv hs)) fun b1 _ => ?_
    refine Res.post_bind (Res.post_mono (writeFlash_post t _ _ _) (fun _ h => h) fun _ k => (ht.trans k).inv hs) fun u hu => ?_
    have hf : u.fseq = s.fseq := (ht.trans hu).fseq
    exact setFseqState_inv ((ht.trans hu).inv hs) _ (by rw [hf, h]; simp) (by rw [hf]; exact h0)
  · next h =>
    have h0 : s.fseq.i.toNat < 512 := by have := hq.1; rw [SequencerIndexOk, h] at this; exact this
    have hne : s.fseq.state ≠ .idle := by simp [h]
    split
    · exact hs
    · dsimp only
      split
      · next hlt => exact hs.withFseq ⟨hlt, fun _ => hq.2 hne⟩
      · refine Res.post_bind (Res.post_mono (writeCr_mode_post _ (by decide)) (fun _ h => h) fun _ h => h.elim) fun t ht => ?_
        have hf : setFseqState t .lock = (s.withFctl t.fctl).withFseq { s.fseq with i := s.fseq.i + 1, state := .lock } := by
          rw [ht.frame]; rfl
        have h1 : FctlSide s (s.withFctl t.fctl) := ⟨rfl, ht.ok⟩
        show Inv (setFseqState t .lock)
        rw [hf]
        exact (h1.inv hs).withFseq ⟨trivial, fun _ => hq.2 hne⟩
  · next h =>
    refine Res.post_bind (Res.post_mono (writeCr_post s _) (fun _ h => h) fun _ k => k.inv hs) fun t ht => ?_
    refine continueCaller_inv (setFseqIdle_inv (ht.inv hs)) rfl fun hcaller => ?_
    have hf := ht.frame
    have := (hq.2 (by simp [h])).2.1
    rw [hf] at hcaller ⊢
    exact this hcaller

end Sys2Proof.Machine
end

