-- ==== Sys2Proof/Laws/Main.lean ====
section
/-! SUPPORT. The dispatcher, the register accesses and the main line keep the invariant: one lemma per routine, and one for each
way a routine is held. -/

namespace Sys2Proof.Machine

open Host (Outcome)

variable {s t : State}

/-- A routine that ends in a state of the invariant. -/
theorem keepsInv_ok (hs : Inv s) : KeepsInv (.ok s) := hs

/-- The outcome of a routine that keeps the invariant. -/
theorem keepsInv_finish {r : Res State} (h : KeepsInv r) (hf : finish r = .next t) : Inv t := finish_post h (fun _ f k => k.record f) hf

/-- A routine of the interrupt context, held or run (46_flash_page_programmer.md R292). -/
theorem keepsInv_unitStep {r : Res State} (hs : Inv s) (h : s.fseq.state = .idle → KeepsInv r) (hf : unitStep s r = .next t) : Inv t := by
  rcases unitStep_cases hf with ⟨_, rfl⟩ | ⟨hq, hf⟩
  · exact hs
  · exact keepsInv_finish (h hq) hf

/-- A step of MAIN, held or run (00_scope.md R9). -/
theorem keepsInv_mainStep {r : Res State} (hs : Inv s) (h : KeepsInv r) (hf : mainStep s r = .next t) : Inv t := by
  rcases mainStep_cases hf with ⟨_, rfl⟩ | ⟨hq, hf⟩
  · exact hs
  · exact keepsInv_finish h hf

/-- A step of the dispatcher, held or run (43_usb_packet_dispatcher.md R220 to R222). -/
theorem keepsInv_dispStep {r : Res State} {x : DispState} (hs : Inv s) (h : s.disp.state = x → s.fseq.state = .idle → KeepsInv r) (hf : dispStep s x r = .next t) : Inv t := by
  unfold dispStep at hf
  split at hf
  · next e => exact keepsInv_finish (h e.1 e.2) hf
  · cases hf; exact hs

/-- What BTABLE stores is a multiple of 8 (41_usb_register_interface.md R156). -/
theorem btable_aligned (v : Half) : (v &&& 0xFFF8) &&& 7 = 0 := by rw [BitVec.and_assoc]; simp

/-- The core-reset effect (43_usb_packet_dispatcher.md R213). -/
theorem coreReset_inv (hs : Inv s) : Inv (s.withUsb (coreReset s.usb)) := hs.withUsb hs.table id

/-- A write of CNTR leaves BTABLE and the line's enable (41_usb_register_interface.md R153). -/
theorem writeCntr_proj (u : Usb) (v : Half) : (writeCntr u v).btable = u.btable ∧ (writeCntr u v).irqEn = u.irqEn := by
  unfold writeCntr; dsimp only; split <;> exact ⟨rfl, rfl⟩

/-- REG.WRITE (41_usb_register_interface.md R152). -/
theorem regWrite_inv (hs : Inv s) (win : Window) (width : Width) (off : Half) (v : Word) : KeepsInv (regWrite s win width off v) := by
  unfold regWrite
  split
  · cases win with
    | usbReg =>
      have h1 : (usbWrite s.usb off.toNat (v.setWidth 16)).irqEn = s.usb.irqEn ∧ ((usbWrite s.usb off.toNat (v.setWidth 16)).btable &&& 7 = 0) := by
        unfold usbWrite
        split
        · exact ⟨rfl, hs.table⟩
        · exact ⟨rfl, hs.table⟩
        · exact ⟨(writeCntr_proj _ _).2, by rw [(writeCntr_proj _ _).1]; exact hs.table⟩
        · exact ⟨rfl, hs.table⟩
        · exact ⟨rfl, hs.table⟩
        · exact ⟨rfl, btable_aligned _⟩
        · exact ⟨rfl, hs.table⟩
      exact hs.withUsb h1.2 fun h => h1.1 ▸ h
    | flashReg =>
      dsimp only
      unfold flashRegWrite
      split
      · exact (writeKeyr_side s v).inv hs
      · exact keepsInv_of_fctlSide hs (writeCr_post s v)
      · exact keepsInv_of_fctlSide hs (writeAr_post s v)
      · exact hs
  · trivial

/-- REG.READ (41_usb_register_interface.md R151). -/
theorem regRead_inv (hs : Inv s) (win : Window) (width : Width) (off : Half) : KeepsInv (regRead s win width off) := by
  unfold regRead
  split
  · cases win <;> exact (UsbSide.ofResult _).inv hs
  · trivial

/-- An access of a USB core register. -/
theorem accessUsb_inv (hs : Inv s) (off : Half) (acc : Access 16) : KeepsInv (accessUsb s off acc) := by
  cases acc
  · exact regRead_inv hs _ _ _
  · exact regWrite_inv hs _ _ _ _

/-- An access of a flash controller register. -/
theorem accessFlashReg_inv (hs : Inv s) (off : Half) (acc : Access 32) : KeepsInv (accessFlashReg s off acc) := by
  cases acc
  · exact regRead_inv hs _ _ _
  · exact regWrite_inv hs _ _ _ _

/-- Transfer-complete served (43_usb_packet_dispatcher.md R222). -/
theorem serveCtr_inv (hs : Inv s) (hq : s.fseq.state = .idle) (n : BitVec 4) (c : Caller) (hd : c = .dispatcher → s.disp.state = .doCtr) : KeepsInv (serveCtr s n c) := by
  unfold serveCtr
  split
  · exact serveEndpoint_inv hs hq n c hd
  · split
    · exact ((UsbSide.ofEp _ _).trans (UsbSide.ofEp _ _)).inv hs
    · exact hs

/-- The return of the interrupt (60_exceptions.md R327). -/
theorem returnInterrupt_inv (hs : Inv s) (hq : s.fseq.state = .idle) : Inv (returnInterrupt s) := 
  (Inv.withUsb hs (u := writeIstr s.usb 0x0000) hs.table id).withDisp hs.snap (.inl hq)

/-- The snapshot's endpoint number is 0 or 1 (10_state.md R23). -/
theorem snapshot_endpoint (u : Usb) : u.snapshot.toNat % 16 < 2 := by
  have h : u.snapshot &&& 0xF = u.istrHalf &&& 0xF := by
    apply BitVec.eq_of_getLsbD_eq; intro i hi
    simp only [Usb.snapshot, Usb.maskedStatus, BitVec.getLsbD_and, BitVec.getLsbD_or]
    interval_cases i <;> simp
  have h2 : u.istrHalf &&& 0xF = u.epId.setWidth 16 := by
    apply BitVec.eq_of_getLsbD_eq; intro i hi
    rw [BitVec.getLsbD_and, Usb.getLsbD_istrHalf, BitVec.getLsbD_setWidth]
    interval_cases i <;> simp
  have h3 : u.epId.toNat < 2 := by unfold Usb.epId; split <;> decide
  have h4 : (u.snapshot &&& 0xF).toNat = u.epId.toNat := by rw [h, h2, BitVec.toNat_setWidth]; omega
  rw [BitVec.toNat_and] at h4
  have : u.snapshot.toNat &&& (15#16 : BitVec 16).toNat = u.snapshot.toNat % 16 := by
    rw [show (15#16 : BitVec 16).toNat = 2^4 - 1 from rfl, Nat.and_two_pow_sub_one_eq_mod]
  have h5 : u.snapshot.toNat % 16 = u.epId.toNat := by rw [← this]; exact h4
  omega

/-- The status read (43_usb_packet_dispatcher.md R221). -/
theorem readStatus_inv (hs : Inv s) (hq : s.fseq.state = .idle) : Inv (readStatus s) := by
  have h1 : Inv (s.withDisp { s.disp with snap := s.usb.snapshot }) := hs.withDisp (snapshot_endpoint _) (.inl hq)
  unfold readStatus
  dsimp only
  split
  · exact h1.withDisp h1.snap (.inl hq)
  · exact returnInterrupt_inv h1 hq

/-- The dispatcher moves with the sequencer idle. -/
theorem setDispState_inv (hs : Inv s) (hq : s.fseq.state = .idle) (x : DispState) : Inv (setDispState s x) := hs.withDisp hs.snap (.inl hq)

/-- DO_CTR (43_usb_packet_dispatcher.md R222). -/
theorem handleCtr_inv (hs : Inv s) (hq : s.fseq.state = .idle) (hd : s.disp.state = .doCtr) : KeepsInv (handleCtr s) := by
  unfold handleCtr
  refine Res.post_bind (P' := Inv) ?_ fun u hu => ?_
  · split
    · exact serveCtr_inv hs hq _ _ fun _ => hd
    · exact hs
  · split
    · next h => exact setDispState_inv hu h _
    · exact hu

/-- `initialize` (41_usb_register_interface.md R160). -/
theorem bringUp_inv (hs : Inv s) : Inv (bringUp s) := by
  have hx : ∀ x : EpXfer, XferOk x → XferOk (clearedEts x) := fun x h => ⟨rfl, h.2.1, by simp [clearedEts]⟩
  have hu : (bringUpUsb s.usb).btable = s.usb.btable := rfl
  have hc := hs.cursor
  refine ⟨hs.params, hs.pma, hs.pageBuf, hs.flash, hx _ hs.ets0, hx _ hs.ets1, fun _ => ⟨rfl, rfl⟩, ?_, hs.control, hs.cursor, hs.snap, hs.sequencer⟩
  show (bringUpUsb s.usb).btable &&& 7 = 0
  rw [hu]; exact hs.table

/-- `shutdown` (41_usb_register_interface.md R161). -/
theorem shutDown_inv (hs : Inv s) : Inv (shutDown s) := by
  have hu : (shutDownUsb s.usb).btable = s.usb.btable := rfl
  have hi : (shutDownUsb s.usb).irqEn = false := rfl
  refine ⟨hs.params, hs.pma, hs.pageBuf, hs.flash, hs.ets0, hs.ets1, fun h => ?_, ?_, hs.control, hs.cursor, hs.snap, hs.sequencer⟩
  · have : (shutDown s).usb.irqEn = false := rfl
    rw [this] at h; cases h
  · show (shutDownUsb s.usb).btable &&& 7 = 0
    rw [hu]; exact hs.table

/-- A read of a flash word raises in the state itself (log 31). -/
theorem flashRead32_post (s : State) (a : Word) : (flashRead32 s a).post (fun _ => True) (· = s) := by
  unfold flashRead32; split
  · trivial
  · rfl

end Sys2Proof.Machine
end

