-- ==== Sys2Proof/Laws/PerInstr.lean ====
section
/-! SUPPORT. A statement for every operation: its encoding carries the fixed bits of its row. The masks and the values are
written from the table's own columns (30_encoding.md R102, R104, R106, R109, R112, R118), not from the encoder. -/

namespace Sys2Proof.Laws

set_option Elab.async false

open Sys2Proof Sys2Proof.Machine

/-- The fixed bits of a row: the format, the mask and the value of its leading bytes, in the order they are stored. -/
structure FixedBits where
  format : Format
  mask : List Byte
  value : List Byte
deriving DecidableEq, Repr

/-- A row that fixes whole leading bytes. -/
def FixedBits.whole (f : Format) (value : List Byte) : FixedBits := ⟨f, List.replicate value.length 0xFF, value⟩

/-- The signature of the command and acknowledgment frames (30_encoding.md R102). -/
def signatureBytes : List Byte := [0x42, 0x54, 0x4C, 0x44, 0x43, 0x4D, 0x44]

/-- The row of opcode_table.json that an operation comes from. -/
def tableRow : Instr → FixedBits
  | .cmdResetPages => .whole .cmd64 (signatureBytes ++ [0x00] ++ List.replicate 56 0)
  | .cmdReboot => .whole .cmd64 (signatureBytes ++ [0x01] ++ List.replicate 56 0)
  | .cmdIgnored _ => ⟨.cmd64, List.replicate 7 0xFF ++ [0x00] ++ List.replicate 56 0xFF, signatureBytes ++ List.replicate 57 0⟩
  | .ackPage => .whole .ack8 (signatureBytes ++ [0x02])
  | .dataAppend _ => ⟨.data8, List.replicate 8 0, List.replicate 8 0⟩
  | .setupGetDescriptorDevice _ _ _ _ =>
    ⟨.setup8, [0x60, 0xFF, 0x00, 0xFF, 0x00, 0x00, 0x00, 0x00], [0x00, 0x06, 0x00, 0x01, 0x00, 0x00, 0x00, 0x00]⟩
  | .setupGetDescriptorConfiguration _ _ _ _ =>
    ⟨.setup8, [0x60, 0xFF, 0x00, 0xFF, 0x00, 0x00, 0x00, 0x00], [0x00, 0x06, 0x00, 0x02, 0x00, 0x00, 0x00, 0x00]⟩
  | .setupGetDescriptorReport _ _ _ _ =>
    ⟨.setup8, [0x60, 0xFF, 0x00, 0xFF, 0x00, 0x00, 0x00, 0x00], [0x00, 0x06, 0x00, 0x22, 0x00, 0x00, 0x00, 0x00]⟩
  | .setupGetDescriptorString _ _ _ _ =>
    ⟨.setup8, [0x60, 0xFF, 0x00, 0xFF, 0x00, 0x00, 0x00, 0x00], [0x00, 0x06, 0x00, 0x03, 0x00, 0x00, 0x00, 0x00]⟩
  | .setupSetAddress _ _ _ _ =>
    ⟨.setup8, [0x60, 0xFF, 0x00, 0x00, 0x00, 0x00, 0x00, 0x00], [0x00, 0x05, 0x00, 0x00, 0x00, 0x00, 0x00, 0x00]⟩
  | .setupSetConfiguration _ _ _ _ =>
    ⟨.setup8, [0x60, 0xFF, 0x00, 0x00, 0x00, 0x00, 0x00, 0x00], [0x00, 0x09, 0x00, 0x00, 0x00, 0x00, 0x00, 0x00]⟩
  | .setupOther _ =>
    ⟨.setup8, [0x00, 0x00, 0x00, 0x00, 0x00, 0x00, 0x00, 0x00], [0x00, 0x00, 0x00, 0x00, 0x00, 0x00, 0x00, 0x00]⟩
  | .evtCtr _ => ⟨.evt, [0x00, 0x80], [0x00, 0x80]⟩
  | .evtReset _ => ⟨.evt, [0x00, 0x04], [0x00, 0x04]⟩
  | .evtSusp _ => ⟨.evt, [0x00, 0x08], [0x00, 0x08]⟩
  | .evtWkup _ => ⟨.evt, [0x00, 0x10], [0x00, 0x10]⟩
  | .evtNone _ => ⟨.evt, [0x00, 0x9C], [0x00, 0x00]⟩
  | .regEp0r _ => .whole .reg16 [0x00]
  | .regEp1r _ => .whole .reg16 [0x04]
  | .regCntr _ => .whole .reg16 [0x40]
  | .regIstr _ => .whole .reg16 [0x44]
  | .regDaddr _ => .whole .reg16 [0x4C]
  | .regBtable _ => .whole .reg16 [0x50]
  | .regFlashKeyr _ => .whole .reg32 [0x04]
  | .regFlashSr _ => .whole .reg32 [0x0C]
  | .regFlashCr _ => .whole .reg32 [0x10]
  | .regFlashAr _ => .whole .reg32 [0x14]
  | .bdtAddrTx _ _ => ⟨.bdt, [0x07], [0x00]⟩
  | .bdtCountTx _ _ => ⟨.bdt, [0x07], [0x02]⟩
  | .bdtAddrRx _ _ => ⟨.bdt, [0x07], [0x04]⟩
  | .bdtCountRx _ _ => ⟨.bdt, [0x07], [0x06]⟩
  | .fopUnlock => ⟨.fop, [0xC3, 0x00, 0x00, 0x00], [0x00, 0x00, 0x00, 0x00]⟩
  | .fopErasePage _ => ⟨.fop, [0xC3, 0x00, 0x00, 0x00], [0x42, 0x00, 0x00, 0x00]⟩
  | .fopProgHalfword _ _ _ => ⟨.fop, [0xC3, 0x00, 0x00, 0x00], [0x01, 0x00, 0x00, 0x00]⟩
  | .fopLock => ⟨.fop, [0xC3, 0x00, 0x00, 0x00], [0x80, 0x00, 0x00, 0x00]⟩
  | .hostReset => .whole .op [0x01]
  | .hostSuspend => .whole .op [0x02]
  | .hostWakeup => .whole .op [0x03]
  | .hostSetup _ _ _ => .whole .op [0x04]
  | .hostOut _ _ _ => .whole .op [0x05]
  | .hostIn _ _ => .whole .op [0x06]
  | .hwReset => .whole .op [0x07]
  | .hwPowerloss => .whole .op [0x08]
  | .drvInitialize => .whole .op [0x10]
  | .drvShutdown => .whole .op [0x11]
  | .drvSenddata _ _ _ => .whole .op [0x12]
  | .flashWritepage _ _ _ => .whole .op [0x13]
  | .flashcComplete => .whole .op [0x14]
  | .regRead _ _ _ => .whole .op [0x15]
  | .regWrite _ _ _ _ => .whole .op [0x16]
  | .dispEnter => .whole .op [0x20]
  | .dispRead => .whole .op [0x21]
  | .dispCtr => .whole .op [0x22]
  | .dispReset => .whole .op [0x23]
  | .dispSusp => .whole .op [0x24]
  | .dispWkup => .whole .op [0x25]
  | .epService _ => .whole .op [0x30]
  | .epTxchunk _ => .whole .op [0x31]
  | .epConfigure => .whole .op [0x32]
  | .hidAppend _ => .whole .op [0x40]
  | .hidBusreset => .whole .op [0x41]
  | .bootEvaluate => .whole .op [0x50]
  | .bootUpdatemode => .whole .op [0x51]
  | .bootLaunch => .whole .op [0x52]
  | .bootSysreset => .whole .op [0x53]

/-- The encoding of a well-formed operation is in its row's format and carries its row's fixed bits. -/
def Encoding.Statement (i : Instr) : Prop :=
  i.wellFormed = true → (encode i).1 = (tableRow i).format ∧ (tableRow i).mask.length ≤ (encode i).2.length ∧
    List.zipWith (· &&& ·) (encode i).2 (tableRow i).mask = (tableRow i).value

/-- A byte against a mask of zeros. -/
@[simp] theorem byte_and_zero (b : Byte) : b &&& 0x00 = 0x00 := by simp

/-- A byte against a mask of ones. -/
@[simp] theorem byte_and_ones (b : Byte) : b &&& 0xFF = b := by
  exact BitVec.and_allOnes

/-- A bit of the high byte of a status word. -/
theorem hiByte_and_twoPow (w : Half) (k : Nat) (hk : k < 8) :
    hiByte w &&& BitVec.twoPow 8 k = if bit w (8 + k) then BitVec.twoPow 8 k else 0 := by
  apply BitVec.eq_of_getLsbD_eq
  intro j hj
  by_cases h : j = k
  · subst h
    by_cases b : w.getLsbD (8 + j) <;> simp [hiByte, bit, b, hj]
  · by_cases b : w.getLsbD (8 + k) <;> simp [hiByte, bit, b, Ne.symm h]

/-- The leading bytes of an EVT row with one flag bit, which lies in the high byte. -/
theorem evtBytes_flag (w : Half) (k : Nat) (hk : k < 8) (h : bit w (8 + k) = true) :
    List.zipWith (· &&& ·) (halfBytes w) [0x00, BitVec.twoPow 8 k] = [0x00, BitVec.twoPow 8 k] := by
  simp [halfBytes, hiByte_and_twoPow w k hk, h]

/-- The leading bytes of the EVT row without a flagged source. -/
theorem evtBytes_none (w : Half) (h : Instr.wellFormed (.evtNone w) = true) :
    List.zipWith (· &&& ·) (halfBytes w) [0x00, 0x9C] = [0x00, 0x00] := by
  obtain ⟨⟨⟨h15, h10⟩, h11⟩, h12⟩ : ((bit w 15 = false ∧ bit w 10 = false) ∧ bit w 11 = false) ∧ bit w 12 = false := by
    simpa [Instr.wellFormed] using h
  have e : (0x9C : Byte) =
      ((BitVec.twoPow 8 7 ||| BitVec.twoPow 8 2) ||| BitVec.twoPow 8 3) ||| BitVec.twoPow 8 4 := by decide
  have a7 := hiByte_and_twoPow w 7 (by decide)
  have a2 := hiByte_and_twoPow w 2 (by decide)
  have a3 := hiByte_and_twoPow w 3 (by decide)
  have a4 := hiByte_and_twoPow w 4 (by decide)
  rw [h15] at a7
  rw [h10] at a2
  rw [h11] at a3
  rw [h12] at a4
  have : hiByte w &&& 0x9C = 0 := by
    rw [e, BitVec.and_or_distrib_left, BitVec.and_or_distrib_left, BitVec.and_or_distrib_left, a7, a2, a3, a4]
    decide
  simpa [halfBytes] using this

theorem Encoding.cmdResetPages : Encoding.Statement (.cmdResetPages) := by
  intro _
  decide

theorem Encoding.cmdReboot : Encoding.Statement (.cmdReboot) := by
  intro _
  decide

theorem Encoding.cmdIgnored (opcode : Byte) : Encoding.Statement (.cmdIgnored opcode) := by
  intro _
  refine ⟨rfl, Nat.le_refl _, ?_⟩
  simp [tableRow, encode, commandFrame, signatureBytes, Config.sig, List.replicate]

theorem Encoding.ackPage : Encoding.Statement (.ackPage) := by
  intro _
  decide

theorem Encoding.dataAppend (d : Packet8) : Encoding.Statement (.dataAppend d) := by
  intro _
  exact ⟨rfl, Nat.le_refl _, by simp [tableRow, encode, Packet8.toList]⟩

theorem Encoding.setupGetDescriptorDevice (rt ix : Byte) (wIndex wLength : Half) : Encoding.Statement (.setupGetDescriptorDevice rt ix wIndex wLength) := by
  intro h
  exact ⟨rfl, Nat.le_refl _, by simpa [tableRow, encode, encodeGetDescriptor, halfBytes] using (beq_iff_eq.mp h : rt &&& 0x60 = 0)⟩

theorem Encoding.setupGetDescriptorConfiguration (rt ix : Byte) (wIndex wLength : Half) : Encoding.Statement (.setupGetDescriptorConfiguration rt ix wIndex wLength) := by
  intro h
  exact ⟨rfl, Nat.le_refl _, by simpa [tableRow, encode, encodeGetDescriptor, halfBytes] using (beq_iff_eq.mp h : rt &&& 0x60 = 0)⟩

theorem Encoding.setupGetDescriptorReport (rt ix : Byte) (wIndex wLength : Half) : Encoding.Statement (.setupGetDescriptorReport rt ix wIndex wLength) := by
  intro h
  exact ⟨rfl, Nat.le_refl _, by simpa [tableRow, encode, encodeGetDescriptor, halfBytes] using (beq_iff_eq.mp h : rt &&& 0x60 = 0)⟩

theorem Encoding.setupGetDescriptorString (rt ix : Byte) (wIndex wLength : Half) : Encoding.Statement (.setupGetDescriptorString rt ix wIndex wLength) := by
  intro h
  exact ⟨rfl, Nat.le_refl _, by simpa [tableRow, encode, encodeGetDescriptor, halfBytes] using (beq_iff_eq.mp h : rt &&& 0x60 = 0)⟩

theorem Encoding.setupSetAddress (rt : Byte) (wValue wIndex wLength : Half) : Encoding.Statement (.setupSetAddress rt wValue wIndex wLength) := by
  intro h
  exact ⟨rfl, Nat.le_refl _, by simpa [tableRow, encode, encodeRequest, halfBytes] using (beq_iff_eq.mp h : rt &&& 0x60 = 0)⟩

theorem Encoding.setupSetConfiguration (rt : Byte) (wValue wIndex wLength : Half) : Encoding.Statement (.setupSetConfiguration rt wValue wIndex wLength) := by
  intro h
  exact ⟨rfl, Nat.le_refl _, by simpa [tableRow, encode, encodeRequest, halfBytes] using (beq_iff_eq.mp h : rt &&& 0x60 = 0)⟩

theorem Encoding.setupOther (p : Packet8) : Encoding.Statement (.setupOther p) := by
  intro _
  exact ⟨rfl, Nat.le_refl _, by simp [tableRow, encode, Packet8.toList]⟩

theorem Encoding.evtCtr (w : Half) : Encoding.Statement (.evtCtr w) := by
  intro h
  refine ⟨rfl, Nat.le_refl _, evtBytes_flag w 7 (by decide) ?_⟩
  simp [Instr.wellFormed] at h
  exact h

theorem Encoding.evtReset (w : Half) : Encoding.Statement (.evtReset w) := by
  intro h
  refine ⟨rfl, Nat.le_refl _, evtBytes_flag w 2 (by decide) ?_⟩
  simp [Instr.wellFormed] at h
  simp [h]

theorem Encoding.evtSusp (w : Half) : Encoding.Statement (.evtSusp w) := by
  intro h
  refine ⟨rfl, Nat.le_refl _, evtBytes_flag w 3 (by decide) ?_⟩
  simp [Instr.wellFormed] at h
  simp [h]

theorem Encoding.evtWkup (w : Half) : Encoding.Statement (.evtWkup w) := by
  intro h
  refine ⟨rfl, Nat.le_refl _, evtBytes_flag w 4 (by decide) ?_⟩
  simp [Instr.wellFormed] at h
  simp [h]

theorem Encoding.evtNone (w : Half) : Encoding.Statement (.evtNone w) := by
  intro h
  exact ⟨rfl, Nat.le_refl _, evtBytes_none w h⟩

theorem Encoding.regEp0r (acc : Access 16) : Encoding.Statement (.regEp0r acc) := by
  intro _
  refine ⟨rfl, ?_, ?_⟩ <;> simp [tableRow, FixedBits.whole, encode]

theorem Encoding.regEp1r (acc : Access 16) : Encoding.Statement (.regEp1r acc) := by
  intro _
  refine ⟨rfl, ?_, ?_⟩ <;> simp [tableRow, FixedBits.whole, encode]

theorem Encoding.regCntr (acc : Access 16) : Encoding.Statement (.regCntr acc) := by
  intro _
  refine ⟨rfl, ?_, ?_⟩ <;> simp [tableRow, FixedBits.whole, encode]

theorem Encoding.regIstr (acc : Access 16) : Encoding.Statement (.regIstr acc) := by
  intro _
  refine ⟨rfl, ?_, ?_⟩ <;> simp [tableRow, FixedBits.whole, encode]

theorem Encoding.regDaddr (acc : Access 16) : Encoding.Statement (.regDaddr acc) := by
  intro _
  refine ⟨rfl, ?_, ?_⟩ <;> simp [tableRow, FixedBits.whole, encode]

theorem Encoding.regBtable (acc : Access 16) : Encoding.Statement (.regBtable acc) := by
  intro _
  refine ⟨rfl, ?_, ?_⟩ <;> simp [tableRow, FixedBits.whole, encode]

theorem Encoding.regFlashKeyr (acc : Access 32) : Encoding.Statement (.regFlashKeyr acc) := by
  intro _
  refine ⟨rfl, ?_, ?_⟩ <;> simp [tableRow, FixedBits.whole, encode]

theorem Encoding.regFlashSr (acc : Access 32) : Encoding.Statement (.regFlashSr acc) := by
  intro _
  refine ⟨rfl, ?_, ?_⟩ <;> simp [tableRow, FixedBits.whole, encode]

theorem Encoding.regFlashCr (acc : Access 32) : Encoding.Statement (.regFlashCr acc) := by
  intro _
  refine ⟨rfl, ?_, ?_⟩ <;> simp [tableRow, FixedBits.whole, encode]

theorem Encoding.regFlashAr (acc : Access 32) : Encoding.Statement (.regFlashAr acc) := by
  intro _
  refine ⟨rfl, ?_, ?_⟩ <;> simp [tableRow, FixedBits.whole, encode]

theorem Encoding.bdtAddrTx (n : Ep) (acc : Access 16) : Encoding.Statement (.bdtAddrTx n acc) := by
  intro _
  cases n <;> refine ⟨rfl, ?_, ?_⟩ <;> simp [tableRow, encode, bdtOffset]

theorem Encoding.bdtCountTx (n : Ep) (acc : Access 16) : Encoding.Statement (.bdtCountTx n acc) := by
  intro _
  cases n <;> refine ⟨rfl, ?_, ?_⟩ <;> simp [tableRow, encode, bdtOffset]

theorem Encoding.bdtAddrRx (n : Ep) (acc : Access 16) : Encoding.Statement (.bdtAddrRx n acc) := by
  intro _
  cases n <;> refine ⟨rfl, ?_, ?_⟩ <;> simp [tableRow, encode, bdtOffset]

theorem Encoding.bdtCountRx (n : Ep) (acc : Access 16) : Encoding.Statement (.bdtCountRx n acc) := by
  intro _
  cases n <;> refine ⟨rfl, ?_, ?_⟩ <;> simp [tableRow, encode, bdtOffset]

theorem Encoding.fopUnlock : Encoding.Statement (.fopUnlock) := by
  intro _
  decide

theorem Encoding.fopErasePage (a : Word) : Encoding.Statement (.fopErasePage a) := by
  intro _
  refine ⟨rfl, ?_, ?_⟩ <;> simp [tableRow, encode]

theorem Encoding.fopProgHalfword (width : Width) (a : Word) (h : Half) : Encoding.Statement (.fopProgHalfword width a h) := by
  intro _
  refine ⟨rfl, ?_, ?_⟩ <;> simp [tableRow, encode]

theorem Encoding.fopLock : Encoding.Statement (.fopLock) := by
  intro _
  decide

theorem Encoding.hostReset : Encoding.Statement (.hostReset) := by
  intro _
  decide

theorem Encoding.hostSuspend : Encoding.Statement (.hostSuspend) := by
  intro _
  decide

theorem Encoding.hostWakeup : Encoding.Statement (.hostWakeup) := by
  intro _
  decide

theorem Encoding.hostSetup (a e : Byte) (d : List Byte) : Encoding.Statement (.hostSetup a e d) := by
  intro _
  refine ⟨rfl, ?_, ?_⟩ <;> simp [tableRow, FixedBits.whole, encode]

theorem Encoding.hostOut (a e : Byte) (d : List Byte) : Encoding.Statement (.hostOut a e d) := by
  intro _
  refine ⟨rfl, ?_, ?_⟩ <;> simp [tableRow, FixedBits.whole, encode]

theorem Encoding.hostIn (a e : Byte) : Encoding.Statement (.hostIn a e) := by
  intro _
  refine ⟨rfl, ?_, ?_⟩ <;> simp [tableRow, FixedBits.whole, encode]

theorem Encoding.hwReset : Encoding.Statement (.hwReset) := by
  intro _
  decide

theorem Encoding.hwPowerloss : Encoding.Statement (.hwPowerloss) := by
  intro _
  decide

theorem Encoding.drvInitialize : Encoding.Statement (.drvInitialize) := by
  intro _
  decide

theorem Encoding.drvShutdown : Encoding.Statement (.drvShutdown) := by
  intro _
  decide

theorem Encoding.drvSenddata (e : Byte) (data : List Byte) (length : Half) : Encoding.Statement (.drvSenddata e data length) := by
  intro _
  refine ⟨rfl, ?_, ?_⟩ <;> simp [tableRow, FixedBits.whole, encode]

theorem Encoding.flashWritepage (a : Word) (data : PageSource) (size : Half) : Encoding.Statement (.flashWritepage a data size) := by
  intro _
  cases data <;> refine ⟨rfl, ?_, ?_⟩ <;> simp [tableRow, FixedBits.whole, encode]

theorem Encoding.flashcComplete : Encoding.Statement (.flashcComplete) := by
  intro _
  decide

theorem Encoding.regRead (win : Window) (width : Width) (offset : Half) : Encoding.Statement (.regRead win width offset) := by
  intro _
  refine ⟨rfl, ?_, ?_⟩ <;> simp [tableRow, FixedBits.whole, encode]

theorem Encoding.regWrite (win : Window) (width : Width) (offset : Half) (value : Word) : Encoding.Statement (.regWrite win width offset value) := by
  intro _
  refine ⟨rfl, ?_, ?_⟩ <;> simp [tableRow, FixedBits.whole, encode]

theorem Encoding.dispEnter : Encoding.Statement (.dispEnter) := by
  intro _
  decide

theorem Encoding.dispRead : Encoding.Statement (.dispRead) := by
  intro _
  decide

theorem Encoding.dispCtr : Encoding.Statement (.dispCtr) := by
  intro _
  decide

theorem Encoding.dispReset : Encoding.Statement (.dispReset) := by
  intro _
  decide

theorem Encoding.dispSusp : Encoding.Statement (.dispSusp) := by
  intro _
  decide

theorem Encoding.dispWkup : Encoding.Statement (.dispWkup) := by
  intro _
  decide

theorem Encoding.epService (e : BitVec 4) : Encoding.Statement (.epService e) := by
  intro _
  refine ⟨rfl, ?_, ?_⟩ <;> simp [tableRow, FixedBits.whole, encode]

theorem Encoding.epTxchunk (e : Ep) : Encoding.Statement (.epTxchunk e) := by
  intro _
  refine ⟨rfl, ?_, ?_⟩ <;> simp [tableRow, FixedBits.whole, encode]

theorem Encoding.epConfigure : Encoding.Statement (.epConfigure) := by
  intro _
  decide

theorem Encoding.hidAppend (rx : Packet8) : Encoding.Statement (.hidAppend rx) := by
  intro _
  refine ⟨rfl, ?_, ?_⟩ <;> simp [tableRow, FixedBits.whole, encode]

theorem Encoding.hidBusreset : Encoding.Statement (.hidBusreset) := by
  intro _
  decide

theorem Encoding.bootEvaluate : Encoding.Statement (.bootEvaluate) := by
  intro _
  decide

theorem Encoding.bootUpdatemode : Encoding.Statement (.bootUpdatemode) := by
  intro _
  decide

theorem Encoding.bootLaunch : Encoding.Statement (.bootLaunch) := by
  intro _
  decide

theorem Encoding.bootSysreset : Encoding.Statement (.bootSysreset) := by
  intro _
  decide

end Sys2Proof.Laws
end

