-- ==== Sys2Proof/Laws/Service.lean ====
section
/-! SUPPORT. What the caller's name does to the endpoint service: it is the name a begun page commit goes on under, and nothing
else; and what the transmit half of the service leaves. -/

namespace Sys2Proof.Machine

variable {s t : State}

/-- The state with a begun commit under the name of its caller. -/
def underCaller (c : Caller) (t : State) : State :=
  if t.fseq.state = .idle then t else t.withFseq { t.fseq with caller := c }

/-- Without a commit the name is nowhere. -/
theorem underCaller_idle (c : Caller) (h : t.fseq.state = .idle) : underCaller c t = t := if_pos h

/-- The result with a begun commit under the name of its caller. -/
def resUnderCaller (c : Caller) : Res State → Res State
  | .ok t => .ok (underCaller c t)
  | .error e => .error e

/-- A part that leaves the sequencer idle does not know its caller. -/
theorem resUnderCaller_idle {r : Res State} (c : Caller) (h : r.post (fun t => t.fseq.state = .idle) (fun _ => True)) :
    r = resUnderCaller c r := by
  match r, h with
  | .ok t, h => show _ = Except.ok (underCaller c t); rw [underCaller_idle c h]
  | .error _, _ => rfl

/-- The buffer manager and the USB registers leave the sequencer idle. -/
theorem UsbSide.idle (h : UsbSide s t) (hq : s.fseq.state = .idle) : t.fseq.state = .idle := by rw [h.frame]; exact hq

/-- The end of the receive half leaves the sequencer idle. -/
theorem afterReceive_idle (hq : s.fseq.state = .idle) (e : Ep) :
    (afterReceive s e).post (fun t => t.fseq.state = .idle) (fun _ => True) :=
  Res.post_mono (afterReceive_post s e) (fun _ h => h.idle hq) fun _ _ => trivial

/-- A commit starts under the name of its caller (45_hid_reassembly_commands.md R266). -/
theorem commitPage_caller (c : Caller) : commitPage s c = resUnderCaller c (commitPage s .service) := by
  unfold commitPage startWritePage
  split
  · rfl
  · split <;> rfl

/-- The hook of unit H (45_hid_reassembly_commands.md R261). -/
theorem hidData_caller (hq : s.fseq.state = .idle) (rx : Packet8) (c : Caller) :
    hidData s rx c = resUnderCaller c (hidData s rx .service) := by
  unfold hidData
  have h : (appendPacket s rx).post (fun t => t.fseq = s.fseq) (fun _ => True) := by
    unfold appendPacket; split
    · exact rfl
    · trivial
  match hx : appendPacket s rx with
  | .error e => rfl
  | .ok u =>
    rw [hx] at h
    have hu : u.fseq.state = .idle := by rw [show u.fseq = s.fseq from h]; exact hq
    show (if _ then _ else if _ then _ else _) = resUnderCaller c (if _ then _ else if _ then _ else _)
    split_ifs
    · refine resUnderCaller_idle c ?_
      unfold runCommand
      split_ifs <;> exact hu
    · exact commitPage_caller c
    · exact resUnderCaller_idle c hu

/-- The endpoint service does the same for every caller, but for the name a begun commit goes on under
(42_usb_endpoint_buffer_manager.md R190, 46_flash_page_programmer.md R292). -/
theorem epService_caller (hq : s.fseq.state = .idle) (e : Ep) (c : Caller) :
    epService s e c = resUnderCaller c (epService s e .service) := by
  unfold epService
  split
  · have h := takePacket_post s e
    match hx : takePacket s e with
    | .error e => rfl
    | .ok u =>
      rw [hx] at h
      have hu : u.fseq.state = .idle := UsbSide.idle h hq
      show (if _ then _ else if _ then _ else _) = resUnderCaller c (if _ then _ else if _ then _ else _)
      split_ifs
      · refine resUnderCaller_idle c ?_
        exact Res.post_bind (P' := fun t => t.fseq.state = .idle)
          (Res.post_mono (handleSetup_post _ _) (fun _ h => h.idle hu) fun _ _ => trivial) fun v hv => afterReceive_idle hv e
      · rw [hidData_caller hu]
        match hidData u (u.drv.ets e).rxBuf .service with
        | .error e => rfl
        | .ok v =>
          show (if (underCaller c v).fseq.state = .idle then _ else _) = resUnderCaller c (if _ then _ else _)
          by_cases hv : v.fseq.state = .idle
          · rw [underCaller_idle c hv, if_pos hv]
            exact resUnderCaller_idle c (afterReceive_idle hv e)
          · have : (underCaller c v).fseq.state = v.fseq.state := by rw [underCaller, if_neg hv]; rfl
            rw [if_neg hv, this, if_neg hv]; rfl
      · exact resUnderCaller_idle c (afterReceive_idle hu e)
  · exact resUnderCaller_idle c (Res.post_mono (transmitHalf_post s e) (fun _ h => h.idle hq) fun _ _ => trivial)

/-- The same by the four bits of an endpoint number. -/
theorem serveEndpoint_caller (hq : s.fseq.state = .idle) (k : BitVec 4) (c : Caller) :
    serveEndpoint s k c = resUnderCaller c (serveEndpoint s k .service) := by
  unfold serveEndpoint
  split
  · exact epService_caller hq _ c
  · rw [resUnderCaller, underCaller_idle c hq]

/-- What is left when a completed transmission has been handed back (42_usb_endpoint_buffer_manager.md R190,
44_usb_control_requests.md R250). -/
theorem handBack_done (s : State) (e : Ep) :
    TransmissionDone s (if e = .ep0 then applyPendingAddress (clearCtrTx s e) else clearCtrTx s e) e := by
  cases e with
  | ep1 => exact ⟨rfl, rfl, rfl, by simp [clearCtrTx]⟩
  | ep0 =>
    rw [if_pos rfl, applyPendingAddress]
    by_cases hp : s.drv.pendingAddr = 0
    · rw [if_pos (by exact hp)]
      exact ⟨rfl, rfl, rfl, by simp [clearCtrTx, hp]⟩
    · rw [if_neg (by exact hp)]
      refine ⟨rfl, rfl, rfl, ?_⟩
      rw [if_pos ⟨rfl, hp⟩]
      refine ⟨?_, rfl⟩
      apply BitVec.eq_of_getLsbD_eq
      intro i hi
      rw [Daddr.getLsbD_toHalf, BitVec.getLsbD_or, BitVec.getLsbD_setWidth]
      simp only [State.withDrv_usb, State.withUsb_usb]
      show (if i < 7 then s.drv.pendingAddr.getLsbD i else if i = 7 then true else false) = _
      interval_cases i <;> simp

end Sys2Proof.Machine
end

