-- ==== Sys2Proof/Tests/Slice0.lean ====
section
/-! SUPPORT. The model's own tests: each check of WellFormed refuses a term, words written out from the spec's encodings decode
to their operations, one-step checks against the derived vectors of 95_test_vectors.md, and a witness for every statement that
has hypotheses. -/

namespace Sys2Proof.Tests

set_option Elab.async false

open Sys2Proof Sys2Proof.Machine

/-! ### Each check refuses an ill-formed term -/

theorem test_wf_ignored_reset_pages : (Instr.cmdIgnored 0x00).wellFormed = false := by decide

theorem test_wf_ignored_reboot : (Instr.cmdIgnored 0x01).wellFormed = false := by decide

theorem test_wf_request_of_other_type :
    (Instr.setupGetDescriptorDevice 0x20 0 0 0).wellFormed = false ∧
    (Instr.setupGetDescriptorConfiguration 0x40 0 0 0).wellFormed = false ∧
    (Instr.setupGetDescriptorReport 0xA0 0 0 0).wellFormed = false ∧
    (Instr.setupGetDescriptorString 0x60 0 0 0).wellFormed = false ∧
    (Instr.setupSetAddress 0x20 0 0 0).wellFormed = false ∧
    (Instr.setupSetConfiguration 0xC0 0 0 0).wellFormed = false := by decide

theorem test_wf_other_is_known :
    (Instr.setupOther ⟨0x80, 0x06, 0, 0x01, 0, 0, 0, 0⟩).wellFormed = false ∧
    (Instr.setupOther ⟨0x80, 0x06, 0, 0x02, 0, 0, 0, 0⟩).wellFormed = false ∧
    (Instr.setupOther ⟨0x81, 0x06, 0, 0x22, 0, 0, 0, 0⟩).wellFormed = false ∧
    (Instr.setupOther ⟨0x80, 0x06, 0, 0x03, 0, 0, 0, 0⟩).wellFormed = false ∧
    (Instr.setupOther ⟨0x00, 0x05, 0, 0, 0, 0, 0, 0⟩).wellFormed = false ∧
    (Instr.setupOther ⟨0x00, 0x09, 0, 0, 0, 0, 0, 0⟩).wellFormed = false := by decide

theorem test_wf_event_without_its_flag :
    (Instr.evtCtr 0x0400).wellFormed = false ∧ (Instr.evtReset 0x0800).wellFormed = false ∧
    (Instr.evtSusp 0x1000).wellFormed = false ∧ (Instr.evtWkup 0x0000).wellFormed = false := by decide

theorem test_wf_event_of_an_earlier_row :
    (Instr.evtReset 0x8400).wellFormed = false ∧ (Instr.evtSusp 0x0C00).wellFormed = false ∧
    (Instr.evtWkup 0x1800).wellFormed = false ∧ (Instr.evtNone 0x1000).wellFormed = false := by decide

theorem test_wf_host_packet_too_long :
    (Instr.hostSetup 0 0 (List.replicate 65536 0)).wellFormed = false ∧
    (Instr.hostOut 0 0 (List.replicate 65536 0)).wellFormed = false := by
  simp [Instr.wellFormed, -List.reduceReplicate]

theorem test_wf_senddata_beyond_its_data : (Instr.drvSenddata 1 [1, 2, 3] 4).wellFormed = false := by decide

theorem test_wf_data_too_long :
    (Instr.drvSenddata 1 (List.replicate 65536 0) 0).wellFormed = false ∧
    (Instr.flashWritepage 0 (.literal (List.replicate 65536 0)) 1024).wellFormed = false := by
  simp [Instr.wellFormed, -List.reduceReplicate]

theorem test_wf_value_too_wide :
    (Instr.regWrite .usbReg .w16 0x40 0x10000).wellFormed = false ∧
    (Instr.regWrite .usbReg .w8 0x40 0x100).wellFormed = false := by decide

/-! ### Words written out from the spec's encodings decode to their operations -/

/-- 30_encoding.md R102: `B T L D C M D`. -/
def sevenBytes : List Byte := [0x42, 0x54, 0x4C, 0x44, 0x43, 0x4D, 0x44]

theorem test_decode_cmdResetPages :
    decode .cmd64 (sevenBytes ++ [0x00] ++ List.replicate 56 0) = .ok .cmdResetPages := by rfl

theorem test_decode_cmdReboot :
    decode .cmd64 (sevenBytes ++ [0x01] ++ List.replicate 56 0) = .ok .cmdReboot := by rfl

theorem test_decode_cmdIgnored :
    decode .cmd64 (sevenBytes ++ [0x02] ++ List.replicate 56 0) = .ok (.cmdIgnored 0x02) := by rfl

/-- 30_encoding.md R114 (b): one non-zero byte after the opcode makes the block data. -/
theorem test_decode_cmd_trailing_byte :
    decode .cmd64 (sevenBytes ++ [0x00] ++ List.replicate 55 0 ++ [1]) = .error .badFrame := by rfl

theorem test_decode_ackPage : decode .ack8 [0x42, 0x54, 0x4C, 0x44, 0x43, 0x4D, 0x44, 0x02] = .ok .ackPage := by rfl

theorem test_decode_dataAppend :
    decode .data8 [1, 2, 3, 4, 5, 6, 7, 8] = .ok (.dataAppend ⟨1, 2, 3, 4, 5, 6, 7, 8⟩) := by rfl

theorem test_decode_setupGetDescriptorDevice :
    decode .setup8 [0x80, 0x06, 0x00, 0x01, 0x00, 0x00, 0x40, 0x01] =
      .ok (.setupGetDescriptorDevice 0x80 0x00 0x0000 0x0140) := by rfl

theorem test_decode_setupGetDescriptorConfiguration :
    decode .setup8 [0x80, 0x06, 0x00, 0x02, 0x00, 0x00, 0xFF, 0x00] =
      .ok (.setupGetDescriptorConfiguration 0x80 0x00 0x0000 0x00FF) := by rfl

theorem test_decode_setupGetDescriptorReport :
    decode .setup8 [0x81, 0x06, 0x00, 0x22, 0x01, 0x02, 0x22, 0x00] =
      .ok (.setupGetDescriptorReport 0x81 0x00 0x0201 0x0022) := by rfl

theorem test_decode_setupGetDescriptorString :
    decode .setup8 [0x80, 0x06, 0x02, 0x03, 0x09, 0x04, 0x04, 0x00] =
      .ok (.setupGetDescriptorString 0x80 0x02 0x0409 0x0004) := by rfl

theorem test_decode_setupSetAddress :
    decode .setup8 [0x00, 0x05, 0x85, 0x01, 0x00, 0x00, 0x00, 0x00] =
      .ok (.setupSetAddress 0x00 0x0185 0x0000 0x0000) := by rfl

theorem test_decode_setupSetConfiguration :
    decode .setup8 [0x00, 0x09, 0x01, 0x00, 0x00, 0x00, 0x00, 0x00] =
      .ok (.setupSetConfiguration 0x00 0x0001 0x0000 0x0000) := by rfl

/-- 30_encoding.md R106: a class request with SET_CONFIGURATION's number is row 7. -/
theorem test_decode_setupOther :
    decode .setup8 [0x21, 0x09, 0x00, 0x02, 0x00, 0x00, 0x40, 0x00] =
      .ok (.setupOther ⟨0x21, 0x09, 0x00, 0x02, 0x00, 0x00, 0x40, 0x00⟩) := by rfl

theorem test_decode_evtCtr : decode .evt [0x11, 0x84] = .ok (.evtCtr 0x8411) := by rfl

theorem test_decode_evtReset : decode .evt [0x00, 0x0C] = .ok (.evtReset 0x0C00) := by rfl

theorem test_decode_evtSusp : decode .evt [0x00, 0x18] = .ok (.evtSusp 0x1800) := by rfl

theorem test_decode_evtWkup : decode .evt [0x00, 0x10] = .ok (.evtWkup 0x1000) := by rfl

theorem test_decode_evtNone : decode .evt [0x00, 0x00] = .ok (.evtNone 0x0000) := by rfl

theorem test_decode_regEp0r : decode .reg16 [0x00, 1, 0x20, 0x32] = .ok (.regEp0r (.write 0x3220)) := by rfl

theorem test_decode_regEp1r : decode .reg16 [0x04, 1, 0x21, 0x06] = .ok (.regEp1r (.write 0x0621)) := by rfl

theorem test_decode_regCntr : decode .reg16 [0x40, 1, 0x00, 0x9C] = .ok (.regCntr (.write 0x9C00)) := by rfl

theorem test_decode_regIstr : decode .reg16 [0x44, 0] = .ok (.regIstr .read) := by rfl

theorem test_decode_regDaddr : decode .reg16 [0x4C, 1, 0x85, 0x00] = .ok (.regDaddr (.write 0x0085)) := by rfl

theorem test_decode_regBtable : decode .reg16 [0x50, 0] = .ok (.regBtable .read) := by rfl

/-- KEY1 of 10_state.md R42. -/
theorem test_decode_regFlashKeyr :
    decode .reg32 [0x04, 1, 0x23, 0x01, 0x67, 0x45] = .ok (.regFlashKeyr (.write 0x45670123)) := by rfl

theorem test_decode_regFlashSr : decode .reg32 [0x0C, 0] = .ok (.regFlashSr .read) := by rfl

theorem test_decode_regFlashCr : decode .reg32 [0x10, 1, 0x42, 0, 0, 0] = .ok (.regFlashCr (.write 0x42)) := by rfl

theorem test_decode_regFlashAr :
    decode .reg32 [0x14, 1, 0x10, 0x0A, 0x00, 0x08] = .ok (.regFlashAr (.write 0x08000A10)) := by rfl

theorem test_decode_bdtAddrTx : decode .bdt [0x00, 0] = .ok (.bdtAddrTx .ep0 .read) := by rfl

theorem test_decode_bdtCountTx : decode .bdt [0x0A, 1, 0x08, 0x00] = .ok (.bdtCountTx .ep1 (.write 0x0008)) := by rfl

theorem test_decode_bdtAddrRx : decode .bdt [0x0C, 0] = .ok (.bdtAddrRx .ep1 .read) := by rfl

theorem test_decode_bdtCountRx : decode .bdt [0x06, 1, 0x00, 0x10] = .ok (.bdtCountRx .ep0 (.write 0x1000)) := by rfl

theorem test_decode_fopUnlock : decode .fop [0x00, 0, 0, 0] = .ok .fopUnlock := by rfl

theorem test_decode_fopErasePage :
    decode .fop [0x42, 0, 0, 0, 0x10, 0x0A, 0x00, 0x08] = .ok (.fopErasePage 0x08000A10) := by rfl

theorem test_decode_fopProgHalfword :
    decode .fop [0x01, 0, 0, 0, 0, 0x02, 0x08, 0x00, 0x08, 0x34, 0x12] =
      .ok (.fopProgHalfword .w16 0x08000802 0x1234) := by rfl

theorem test_decode_fopLock : decode .fop [0x80, 0, 0, 0] = .ok .fopLock := by rfl

/-- PG and PER together select no row (30_encoding.md R111). -/
theorem test_decode_fop_no_row : decode .fop [0x03, 0, 0, 0] = .error .noRow := by rfl

theorem test_decode_host_moves :
    decode .op [0x01] = .ok .hostReset ∧ decode .op [0x02] = .ok .hostSuspend ∧ decode .op [0x03] = .ok .hostWakeup ∧
    decode .op [0x04, 5, 0, 0, 0, 0, 9, 1, 0, 0, 0, 0, 0] = .ok (.hostSetup 5 0 [0, 9, 1, 0, 0, 0, 0, 0]) ∧
    decode .op [0x05, 5, 0, 3, 0, 0xA1, 0xA2, 0xA3] = .ok (.hostOut 5 0 [0xA1, 0xA2, 0xA3]) ∧
    decode .op [0x06, 5, 1] = .ok (.hostIn 5 1) := ⟨rfl, rfl, rfl, rfl, rfl, rfl⟩

theorem test_decode_hardware_resets :
    decode .op [0x07] = .ok .hwReset ∧ decode .op [0x08] = .ok .hwPowerloss := ⟨rfl, rfl⟩

theorem test_decode_driver :
    decode .op [0x10] = .ok .drvInitialize ∧ decode .op [0x11] = .ok .drvShutdown ∧
    decode .op [0x12, 1, 2, 0, 3, 0, 9, 8, 7] = .ok (.drvSenddata 1 [9, 8, 7] 2) ∧
    decode .op [0x13, 0, 0x00, 0x08, 0x00, 0x08, 0, 0] = .ok (.flashWritepage 0x08000800 .pageBuf 1024) ∧
    decode .op [0x14] = .ok .flashcComplete := ⟨rfl, rfl, rfl, rfl, rfl⟩

theorem test_decode_register_access :
    decode .op [0x15, 0, 0, 0x40, 0x00] = .ok (.regRead .usbReg .w16 0x40) ∧
    decode .op [0x16, 1, 1, 0x10, 0x00, 0x80, 0, 0, 0] = .ok (.regWrite .flashReg .w32 0x10 0x80) := ⟨rfl, rfl⟩

theorem test_decode_dispatcher :
    decode .op [0x20] = .ok .dispEnter ∧ decode .op [0x21] = .ok .dispRead ∧ decode .op [0x22] = .ok .dispCtr ∧
    decode .op [0x23] = .ok .dispReset ∧ decode .op [0x24] = .ok .dispSusp ∧ decode .op [0x25] = .ok .dispWkup :=
  ⟨rfl, rfl, rfl, rfl, rfl, rfl⟩

theorem test_decode_units :
    decode .op [0x30, 1] = .ok (.epService 1) ∧ decode .op [0x31, 1] = .ok (.epTxchunk .ep1) ∧
    decode .op [0x32] = .ok .epConfigure ∧
    decode .op [0x40, 1, 2, 3, 4, 5, 6, 7, 8] = .ok (.hidAppend ⟨1, 2, 3, 4, 5, 6, 7, 8⟩) ∧
    decode .op [0x41] = .ok .hidBusreset := ⟨rfl, rfl, rfl, rfl, rfl⟩

theorem test_decode_boot :
    decode .op [0x50] = .ok .bootEvaluate ∧ decode .op [0x51] = .ok .bootUpdatemode ∧
    decode .op [0x52] = .ok .bootLaunch ∧ decode .op [0x53] = .ok .bootSysreset ∧ decode .op [0x54] = .error .noRow :=
  ⟨rfl, rfl, rfl, rfl, rfl⟩

/-- Table words as the host numbers them: the first byte is the least significant. -/
theorem test_decode_table_words :
    decodeTableWord 8 0x14 = some .flashcComplete ∧ decodeTableWord 16 0x0400 = some (.evtReset 0x0400) ∧
    decodeTableWord 64 0x0000000000000500 = some (.setupSetAddress 0 0 0 0) := ⟨rfl, rfl, rfl⟩

/-! ### States to step from: the named start states of 95_test_vectors.md -/

/-- The state an operation leads to. -/
def after (i : Instr) (s : State) : State := (nextState? (exec i s)).getD s

/-- The state a list of operations leads to. -/
def afterAll : List Instr → State → State
  | [], s => s
  | i :: is, s => afterAll is (after i s)

/-- The name an operation is refused with. -/
def refusalOf (i : Instr) (s : State) : Option Refusal :=
  match exec i s with
  | .refused r => some r
  | .next _ => none
  | .fault _ => none

/-- S_HW: the state after a hardware reset. -/
abbrev sHw : State := State.reset

/-- S_INIT. -/
def sInit : State := afterAll [.drvShutdown, .drvInitialize] sHw

/-- S_BUS. -/
def sBus : State := after .hidBusreset sInit

/-- S_CONF5, with EP0R = 3220. -/
def sConf : State :=
  (sBus.withUsb { sBus.usb with daddr := daddrOf 0x0085 }).withDrv { sBus.drv with configured := true }

/-- A state with the upload cursor moved. -/
def atCursor (s : State) (p o : Half) : State := s.withHid { s.hid with pageIndex := p, pageOffset := o }

/-- A state whose page buffer begins with the bytes. -/
def withPage (s : State) (bytes : List Byte) : State :=
  s.withHid { s.hid with pageBuf := Memory.writeBytes none [] 0 bytes }

/-- The flash controller unlocked. -/
def sUnlocked : State := after .fopUnlock sHw

/-- The first key written. -/
def sHalfUnlocked : State := after (.regFlashKeyr (.write 0x45670123)) sHw

/-- The key sequence blocked. -/
def sBlocked : State := after (.regFlashKeyr (.write 0)) sHw

/-- Both writes of FLASH_CR and the address of an erase, started (T46-4). -/
def sErasing : State := after (.fopErasePage 0x08000A10) sUnlocked

/-- Programming mode (T46-7). -/
def sProgramming : State := after (.regFlashCr (.write 0x01)) sUnlocked

/-- The bytes of PMA from an offset. -/
def pmaAt (s : State) (o n : Nat) : List (Option Byte) := (List.range n).map fun k => s.pma.read? (o + k)

/-- The bytes 01 to 08. -/
def oneToEight : List Byte := [1, 2, 3, 4, 5, 6, 7, 8]

/-- `OUT 5 0 : 01 .. 08` received and not yet served (T42-10). -/
def sReceived : State := after (.hostOut 5 0 oneToEight) sConf

/-- A SETUP packet received and not yet served (T43-3). -/
def sSetup : State := after (.hostSetup 0 0 [0x80, 0x06, 0x00, 0x01, 0x00, 0x00, 0x40, 0x00]) sBus

/-- The acknowledgment armed on endpoint 1 (T42-3). -/
def sArmed : State := after .ackPage sConf

/-- The image of P1 at APP_BASE. -/
def sImage : State :=
  { sHw with flash := Memory.writeBytes (some Config.flashUnlisted) [] 0x08000800 [0x00, 0x50, 0x00, 0x20, 0xC1, 0x08, 0x00, 0x08] }

theorem test_start_states :
    sInit.usb.cntr.toHalf = 0x9C00 ∧ sInit.usb.attached = true ∧
    sBus.usb.ep0.toHalf = 0x3220 ∧ sBus.usb.ep1.toHalf = 0x0621 ∧ sBus.usb.daddr.toHalf = 0x0080 ∧
    sConf.usb.daddr.toHalf = 0x0085 := by decide +kernel

/-! ### One step of each operation -/

/-- T45-3: the eighth packet of the frame. -/
theorem test_cmdResetPages :
    (after .cmdResetPages (atCursor sConf 3 64)).hid.pageIndex = 2 ∧
    (after .cmdResetPages (atCursor sConf 3 64)).hid.pageOffset = 0 ∧
    (after .cmdResetPages (atCursor sConf 3 64)).hid.uploadStarted = true := by decide +kernel

/-- T45-4. -/
theorem test_cmdReboot :
    (after .cmdReboot (atCursor sConf 3 64)).hid.uploadFinished = true ∧
    (after .cmdReboot (atCursor sConf 3 64)).hid.pageOffset = 64 := by decide +kernel

/-- T45-5. -/
theorem test_cmdIgnored : exec (.cmdIgnored 0x02) (atCursor sConf 3 64) = .next (atCursor sConf 3 64) := by rfl

/-- T45-9: PMA[50..57], COUNT_TX(1), EP1R. -/
theorem test_ackPage :
    pmaAt sArmed 0x50 8 = [0x42, 0x54, 0x4C, 0x44, 0x43, 0x4D, 0x44, 0x02].map some ∧
    pmaAt sArmed 0x0A 2 = [some 8, some 0] ∧ sArmed.usb.ep1.toHalf = 0x0631 := by decide +kernel

/-- T45-1. -/
theorem test_dataAppend :
    (after (.dataAppend ⟨1, 2, 3, 4, 5, 6, 7, 8⟩) sConf).hid.pageOffset = 8 ∧
    (after (.dataAppend ⟨1, 2, 3, 4, 5, 6, 7, 8⟩) sConf).hid.pageBuf.read? 7 = some 8 := by decide +kernel

/-- T44-1: after the SETUP, COUNT_TX(0) = 8 and ten bytes are left. -/
theorem test_setupGetDescriptorDevice :
    pmaAt (after (.setupGetDescriptorDevice 0x80 0 0 0x40) sBus) 0x48 8 =
      [0x12, 0x01, 0x10, 0x01, 0x00, 0x00, 0x00, 0x08].map some ∧
    (after (.setupGetDescriptorDevice 0x80 0 0 0x40) sBus).drv.ets0.txRemaining = 10 := by decide +kernel

/-- T44-6. -/
theorem test_setupGetDescriptorConfiguration :
    pmaAt (after (.setupGetDescriptorConfiguration 0x80 0 0 0xFF) sBus) 0x48 8 =
      [0x09, 0x02, 0x22, 0x00, 0x01, 0x01, 0x00, 0xC0].map some ∧
    (after (.setupGetDescriptorConfiguration 0x80 0 0 0xFF) sBus).drv.ets0.txRemaining = 26 := by decide +kernel

/-- T44-7. -/
theorem test_setupGetDescriptorReport :
    pmaAt (after (.setupGetDescriptorReport 0x81 0 0 0x22) sBus) 0x48 8 =
      [0x06, 0x00, 0xFF, 0x09, 0x01, 0xA1, 0x01, 0x09].map some := by decide +kernel

/-- T44-8: index 2, four bytes; index 3 is beyond the last string. -/
theorem test_setupGetDescriptorString :
    pmaAt (after (.setupGetDescriptorString 0x80 2 0x0409 4) sBus) 0x48 4 = [0x0A, 0x03, 0x42, 0x00].map some ∧
    pmaAt (after (.setupGetDescriptorString 0x80 3 0x0409 4) sBus) 0x02 2 = [some 0, some 0] := by decide +kernel

/-- T44-10: only wValue[6:0] is used, and DADDR does not change yet. -/
theorem test_setupSetAddress :
    (after (.setupSetAddress 0 0x0185 0 0) sBus).drv.pendingAddr = 5 ∧
    (after (.setupSetAddress 0 0x0185 0 0) sBus).usb.daddr.toHalf = 0x0080 := by decide +kernel

/-- T44-13: either value configures the device. -/
theorem test_setupSetConfiguration :
    (after (.setupSetConfiguration 0 0x0000 0 0) sBus).drv.configured = true ∧
    (after (.setupSetConfiguration 0 0x0000 0 0) sBus).usb.ep0.toHalf = 0x3230 := by decide +kernel

/-- T44-14: GET_STATUS is answered with a zero-length packet. -/
theorem test_setupOther :
    (after (.setupOther ⟨0x80, 0, 0, 0, 0, 0, 2, 0⟩) sBus).usb.ep0.toHalf = 0x3230 ∧
    pmaAt (after (.setupOther ⟨0x80, 0, 0, 0, 0, 0, 2, 0⟩) sBus) 0x02 2 = [some 0, some 0] := by decide +kernel

/-- The first example of 43_usb_packet_dispatcher.md R222: `snap` = 8810 with DADDR = 0085. -/
theorem test_evtCtr :
    (after (.evtCtr 0x8810) (after .hostSuspend sReceived)).hid.pageOffset = 8 ∧
    (after (.evtCtr 0x8810) (after .hostSuspend sReceived)).usb.ep0.toHalf = 0x3220 ∧
    (after (.evtCtr 0x8810) (after .hostSuspend sReceived)).usb.istrHalf = 0x0000 ∧
    (after (.evtCtr 0x8810) (after .hostSuspend sReceived)).usb.daddr.toHalf = 0x0080 := by decide +kernel

/-- T43-2, the handler. -/
theorem test_evtReset :
    (after (.evtReset 0x0400) (after .hostReset sInit)).usb.ep1.toHalf = 0x0621 ∧
    (after (.evtReset 0x0400) (after .hostReset sInit)).usb.istrHalf = 0x0000 ∧
    (after (.evtReset 0x1C00) (afterAll [.hostReset, .hostSuspend, .hostWakeup] sInit)).usb.istrHalf = 0x0000 := by
  decide +kernel

/-- T43-9. -/
theorem test_evtSusp :
    (after (.evtSusp 0x0800) (after .hostSuspend sConf)).usb.daddr.toHalf = 0x0080 ∧
    (after (.evtSusp 0x0800) (afterAll [.hostSuspend, .hostWakeup] sConf)).usb.istrHalf = 0x1000 ∧
    (after (.evtSusp 0x1800) (afterAll [.hostSuspend, .hostWakeup] sConf)).usb.istrHalf = 0x0000 := by decide +kernel

/-- T43-10. -/
theorem test_evtWkup :
    (after (.evtWkup 0x1000) (after .hostWakeup sConf)).usb.daddr.toHalf = 0x0085 ∧
    (after (.evtWkup 0x1000) (after .hostWakeup sConf)).usb.istrHalf = 0x0000 := by decide +kernel

/-- 43_usb_packet_dispatcher.md R221, R223: the exit, with a masked source's flag cleared; no exit while a source is flagged, nor
out of READ. -/
theorem test_evtNone :
    (after (.evtNone 0) ((afterAll [.regCntr (.write 0x9400), .hostSuspend] sConf).withDisp ⟨.read, 0⟩)).disp.state = .idle ∧
    (after (.evtNone 0) ((afterAll [.regCntr (.write 0x9400), .hostSuspend] sConf).withDisp ⟨.read, 0⟩)).usb.istrHalf = 0 ∧
    (after (.evtNone 0) ((after .hostSuspend sConf).withDisp ⟨.read, 0⟩)).disp.state = .read ∧
    (after (.evtNone 0) (sConf.withDisp ⟨.doWkup, 0⟩)).disp.state = .doWkup := by decide +kernel

/-- T41-8, T41-9. -/
theorem test_regEp0r :
    (after (.regEp0r (.write 0xFFFF)) sHw).usb.ep0.toHalf = 0x363F ∧
    (after (.regEp0r (.write 0x32A0)) sSetup).usb.ep0.toHalf = 0x3A20 := by decide +kernel

/-- T41-8 at the other register. -/
theorem test_regEp1r : (after (.regEp1r (.write 0xFFFF)) sHw).usb.ep1.toHalf = 0x363F := by decide +kernel

/-- T41-4: FRES was already 1 and the effect is applied again. -/
theorem test_regCntr :
    (after (.regCntr (.write 0x0001)) sHw).usb.cntr.toHalf = 0x0001 ∧
    (after (.regCntr (.write 0x0001)) sHw).usb.istrHalf = 0x0400 := by decide +kernel

/-- T41-6: CTR, DIR and EP_ID are derived. -/
theorem test_regIstr :
    (after (.regIstr (.write 0x0000)) sReceived).usb.istrHalf = 0x8010 ∧
    (after (.regIstr (.write 0xF7FF)) (afterAll [.hostSuspend, .hostWakeup] sConf)).usb.istrHalf = 0x1000 := by
  decide +kernel

/-- T41-7. -/
theorem test_regDaddr : (after (.regDaddr (.write 0x1234)) sHw).usb.daddr.toHalf = 0x0034 := by decide +kernel

/-- T41-7. -/
theorem test_regBtable : (after (.regBtable (.write 0xFFFF)) sHw).usb.btable = 0xFFF8 := by decide +kernel

/-- T46-1, T46-2. -/
theorem test_regFlashKeyr :
    (afterAll [.regFlashKeyr (.write 0x45670123), .regFlashKeyr (.write 0xCDEF89AB)] sHw).fctl.crWord = 0 ∧
    (after (.regFlashKeyr (.write 0xCDEF89AB)) sHw).fctl.keyState = .blocked := by decide +kernel

/-- T46-4: BSY reads 1 and cannot be written. -/
theorem test_regFlashSr :
    (after (.regFlashSr .read) sErasing).result = .word 1 ∧
    (after (.regFlashSr (.write 0)) sErasing).fctl.srWord = 1 := by decide +kernel

/-- T46-5, T46-10. -/
theorem test_regFlashCr :
    exec (.regFlashCr (.write 0x00)) sErasing = .refused .flashBusyWrite ∧
    exec (.regFlashCr (.write 0x03)) sUnlocked = .refused .flashModeConflict := ⟨rfl, rfl⟩

/-- 10_state.md R41, R42: LOCK written 1 again returns the key sequence to K0 and FLASH_CR reads as before; a blocked one stays. -/
theorem test_regFlashCr_locked :
    (after (.regFlashCr (.write 0xC2)) sHalfUnlocked).fctl = sHw.fctl ∧
    (after (.regFlashCr (.write 0x02)) sHalfUnlocked).fctl = sHalfUnlocked.fctl ∧
    (after (.regFlashCr (.write 0x80)) sBlocked).fctl = sBlocked.fctl := by decide +kernel

/-- T46-13: locked, the address is not written. -/
theorem test_regFlashAr :
    (after (.regFlashAr (.write 0x08001000)) sHw).fctl.ar = 0 ∧
    (after (.regFlashAr (.write 0x08001000)) sUnlocked).fctl.ar = 0x08001000 := by decide +kernel

/-- T42-2: the table of S_BUS. -/
theorem test_bdtAddrTx : (after (.bdtAddrTx .ep1 .read) sBus).result = .half 0x0050 := by decide +kernel

theorem test_bdtCountTx : pmaAt (after (.bdtCountTx .ep1 (.write 0x0102)) sBus) 0x0A 2 = [some 2, some 1] := by
  decide +kernel

theorem test_bdtAddrRx : (after (.bdtAddrRx .ep1 .read) sBus).result = .half 0x0058 := by decide +kernel

theorem test_bdtCountRx :
    (after (.bdtCountRx .ep0 .read) sBus).result = .half 0x1000 ∧
    (after (.bdtCountRx .ep0 .read) sHw).faults = [.unwrittenRead .pma 6] := by decide +kernel

/-- T46-1. -/
theorem test_fopUnlock : sUnlocked.fctl.crWord = 0x00 := by decide +kernel

/-- T46-4. -/
theorem test_fopErasePage :
    sErasing.fctl.crWord = 0x42 ∧ sErasing.fctl.srWord = 1 ∧ sErasing.fctl.pendingOp = .erase 0x08000A10 := by
  decide +kernel

/-- T46-9. -/
theorem test_fopProgHalfword :
    refusalOf (.fopProgHalfword .w16 0x08000801 0) sProgramming = some .flashOddAddress ∧
    (after (.fopProgHalfword .w16 0x08010000 0) sProgramming).faults = [.flashRange 0x08010000] := by decide +kernel

/-- T46-13. -/
theorem test_fopLock : (after .fopLock sUnlocked).fctl.crWord = 0x80 := by decide +kernel

/-- T43-1, T41-17. -/
theorem test_hostReset :
    (after .hostReset sInit).usb.istrHalf = 0x0400 ∧ (after .hostReset sInit).usb.irqLine = true ∧
    (after .hostReset sHw).usb.istrHalf = 0x0000 := by decide +kernel

/-- T43-9. -/
theorem test_hostSuspend : (after .hostSuspend sConf).usb.istrHalf = 0x0800 := by decide +kernel

/-- T43-10. -/
theorem test_hostWakeup : (after .hostWakeup sConf).usb.istrHalf = 0x1000 := by decide +kernel

/-- T43-3, T43-5. -/
theorem test_hostSetup :
    pmaAt sSetup 0x40 8 = [0x80, 0x06, 0x00, 0x01, 0x00, 0x00, 0x40, 0x00].map some ∧
    pmaAt sSetup 0x06 2 = [some 0x08, some 0x10] ∧ sSetup.usb.ep0.toHalf = 0xAA20 ∧ sSetup.usb.istrHalf = 0x8010 ∧
    refusalOf (.hostSetup 0 0 [1, 2, 3, 4, 5, 6, 7]) sBus = some .badHostMove := by decide +kernel

/-- T42-10 before RUN, T43-4. -/
theorem test_hostOut :
    sReceived.usb.ep0.toHalf = 0xA220 ∧ pmaAt sReceived 0x06 2 = [some 0x08, some 0x10] ∧
    (after (.hostOut 0 0 [1, 2, 3, 4, 5, 6, 7, 8, 9]) sBus).usb = sBus.usb := by decide +kernel

/-- T43-7, T43-8. -/
theorem test_hostIn :
    (after (.hostIn 5 1) sArmed).result = .packet [0x42, 0x54, 0x4C, 0x44, 0x43, 0x4D, 0x44, 0x02] ∧
    (after (.hostIn 5 1) sArmed).usb.ep1.toHalf = 0x06A1 ∧ (after (.hostIn 4 1) sArmed).usb = sArmed.usb := by
  decide +kernel

/-- T40-10's state but for the page under erase. -/
theorem test_hwReset :
    (after .hwReset sConf).usb.cntr.toHalf = 0x0003 ∧ (after .hwReset sErasing).fctl.crWord = 0x80 := by decide +kernel

/-- T40-9. -/
theorem test_hwPowerloss :
    (after .hwPowerloss (sConf.withBoot { sConf.boot with magic := 0x424C })).boot.magic = 0x0000 ∧
    (after .hwReset (sConf.withBoot { sConf.boot with magic := 0x424C })).boot.magic = 0x424C := by decide +kernel

/-- T41-12. -/
theorem test_drvInitialize :
    (after .drvInitialize sHw).usb.cntr.toHalf = 0x9C00 ∧ (after .drvInitialize sHw).usb.istrHalf = 0x0000 ∧
    (after .drvInitialize sHw).usb.irqEn = true := by decide +kernel

/-- T41-14. -/
theorem test_drvShutdown :
    (after .drvShutdown sInit).usb.cntr.toHalf = 0x0003 ∧ (after .drvShutdown sInit).usb.dpForceLow = true ∧
    (after .drvShutdown sInit).drv.cbEp = false := by decide +kernel

/-- T42-4: the armed packet is overwritten, bytes beyond the count are stale. -/
theorem test_drvSenddata :
    pmaAt (after (.drvSenddata 1 [9, 9, 9] 3) sArmed) 0x50 8 = [9, 9, 9, 0x44, 0x43, 0x4D, 0x44, 0x02].map some ∧
    exec (.drvSenddata 2 [1] 1) sConf = .next sConf := ⟨by decide +kernel, rfl⟩

/-- T46-15. -/
theorem test_flashWritepage :
    refusalOf (.flashWritepage 0x08000800 .pageBuf 512) sHw = some .flashSize ∧
    (after (.flashWritepage 0x08000800 .pageBuf 1024) sHw).fseq.state = .unlock := by decide +kernel

/-- T46-6 and T46-7. -/
theorem test_flashcComplete :
    (after .flashcComplete sErasing).fctl.crWord = 0x02 ∧
    flashByte (afterAll [.fopProgHalfword .w16 0x08000800 0x5000, .flashcComplete] sProgramming) 0x08000801 = 0x50 := by
  decide +kernel

/-- T41-1, T41-2. -/
theorem test_regRead :
    (after (.regRead .flashReg .w32 0x10) sHw).result = .word 0x80 ∧
    refusalOf (.regRead .usbReg .w16 0x42) sHw = some .regAccessShape := by decide +kernel

/-- T41-3. -/
theorem test_regWrite : (after (.regWrite .usbReg .w16 0x40 0xFFFF) sHw).usb.cntr.toHalf = 0x9C03 := by decide +kernel

/-- T43-15: with the line disabled the entry is not enabled. -/
theorem test_dispEnter :
    (after .dispEnter sReceived).disp.state = .read ∧
    (after .dispEnter (sReceived.withUsb { sReceived.usb with irqEn := false })).disp.state = .idle := by decide +kernel

/-- T43-12: `snap` = 9810. -/
theorem test_dispRead :
    (afterAll [.hostSuspend, .hostWakeup, .dispEnter, .dispRead] sReceived).disp = ⟨.doCtr, 0x9810⟩ := by decide +kernel

/-- T42-10. -/
theorem test_dispCtr :
    (afterAll [.dispEnter, .dispRead, .dispCtr] sReceived).hid.pageOffset = 8 ∧
    (afterAll [.dispEnter, .dispRead, .dispCtr] sReceived).disp.state = .doReset := by decide +kernel

/-- T43-2: the fourth step. -/
theorem test_dispReset :
    (after .dispReset ((after .hostReset sInit).withDisp ⟨.doReset, 0x0400⟩)).usb.ep0.toHalf = 0x3220 := by
  decide +kernel

/-- T43-12, the SUSP step. -/
theorem test_dispSusp :
    (after .dispSusp (sConf.withDisp ⟨.doSusp, 0x9810⟩)).usb.daddr.toHalf = 0x0080 ∧
    (after .dispSusp (sConf.withDisp ⟨.doSusp, 0x1000⟩)).usb.daddr.toHalf = 0x0085 := by decide +kernel

/-- T43-12, the WKUP step. -/
theorem test_dispWkup :
    (after .dispWkup ((after .hostWakeup sConf).withDisp ⟨.doWkup, 0x9810⟩)).usb.istrHalf = 0x0000 := by decide +kernel

/-- T42-11: a short packet leaves the old bytes of `rx_buf`, and all eight are appended. -/
theorem test_epService :
    (after (.epService 0) sReceived).drv.ets0.rxLen = 8 ∧
    (afterAll [.epService 0, .hostOut 5 0 [0xA1, 0xA2, 0xA3], .epService 0] sReceived).hid.pageBuf.read? 11 = some 4 := by
  decide +kernel

/-- T42-9: the second chunk. -/
theorem test_epTxchunk :
    (after (.epTxchunk .ep0) (after (.setupGetDescriptorDevice 0x80 0 0 0x40) sBus)).drv.ets0.txRemaining = 2 := by
  decide +kernel

/-- T42-2. -/
theorem test_epConfigure :
    pmaAt (after .epConfigure sInit) 0 16 =
      [0x48, 0, 0, 0, 0x40, 0, 0, 0x10, 0x50, 0, 0, 0, 0x58, 0, 0, 0].map some := by decide +kernel

/-- T45-1. -/
theorem test_hidAppend :
    (after (.hidAppend ⟨1, 2, 3, 4, 5, 6, 7, 8⟩) (atCursor sConf 2 1016)).hid.pageOffset = 1024 := by decide +kernel

/-- T45-15. -/
theorem test_hidBusreset :
    (after .hidBusreset (atCursor sConf 3 24)).hid.pageOffset = 0 ∧
    (after .hidBusreset (atCursor sConf 3 24)).drv.configured = false := by decide +kernel

/-- T40-1, T40-2. -/
theorem test_bootEvaluate :
    (after .bootEvaluate sHw).boot.state = .updateMode ∧ (after .bootEvaluate sImage).boot.state = .launch := by
  decide +kernel

/-- T40-7: the poll answers false, then the indicator toggles. -/
theorem test_bootUpdatemode :
    (after .bootUpdatemode (sConf.withBoot { sConf.boot with state := .updateMode, um := .poll })).result = .polled false ∧
    (afterAll [.bootUpdatemode, .bootUpdatemode]
      (sConf.withBoot { sConf.boot with state := .updateMode, um := .poll })).boot.indicator = true := by decide +kernel

/-- T40-6. -/
theorem test_bootLaunch :
    (afterAll [.bootEvaluate, .bootLaunch] sImage).boot.vtor = 0x08000800 ∧
    (afterAll [.bootEvaluate, .bootLaunch] sImage).boot.msp = 0x20005000 ∧
    (afterAll [.bootEvaluate, .bootLaunch] sImage).boot.pcApp = 0x080008C1 := by decide +kernel

/-- T40-8: S_HW with the flash kept. -/
theorem test_bootSysreset :
    (after .bootSysreset sImage).flash = sImage.flash ∧ (after .bootSysreset sConf).usb = Usb.reset := by decide +kernel

/-! ### A step -/

/-- A fault is recorded in one step and stops the next. -/
theorem test_step_fault :
    step (recordFault sHw (.flashRange 64)) = .fault (.flashRange 64) ∧
    step { sHw with input := [.op .op [0x54]] } = .refused (.undecodable .noRow) := ⟨rfl, rfl⟩

/-- The first operation after reset through the host's interface. -/
theorem test_step_first_operation :
    (nextState? (step (State.reset.withFetchWord 8 0x50))).map (·.boot.state) = some .updateMode := by decide +kernel

/-! ### Witnesses: the hypotheses of each statement are met, clause by clause -/

/-- A state with one stimulus waiting. -/
def offered (s : State) (bytes : List Byte) : State := { s with input := [.op .op bytes] }

/-- A commit of page 2 in the dispatcher, its erase started and not completed (T40-10). -/
def sCommit : State :=
  { sConf with
    disp := ⟨.doCtr, 0x8010⟩
    hid := { sConf.hid with pageOffset := 1024 }
    fctl := { sErasing.fctl with ar := 0x08000800, pendingOp := .erase 0x08000800 }
    fseq := ⟨.waitErase, 0x08000800, 0, .pageBuf, .dispatcher⟩ }

/-- A state whose flash unit rests and whose other parts are as the invariant asks, as one test. -/
abbrev Resting (s : State) : Prop :=
  (s.par.flashOk ∧ s.usb.btable &&& 7 = 0 ∧ s.disp.snap.toNat % 16 < 2 ∧ s.fseq.state = .idle) ∧
  (s.fctl.bsy = false ∧ s.fctl.strt = false ∧ s.fctl.pg = false ∧ s.fctl.pendingOp = .none) ∧
  (Memory.wf none s.pma = true ∧ Memory.wf none s.hid.pageBuf = true ∧
    Memory.wf (some Config.flashUnlisted) s.flash = true) ∧
  ((∀ c ∈ s.pma, c.1 < Config.pmaSize) ∧ (∀ c ∈ s.hid.pageBuf, c.1 < Config.pageSize) ∧
    ∀ c ∈ s.flash, inFlash s.par c.1 = true) ∧
  (∀ x ∈ [s.drv.ets0, s.drv.ets1], x.txQueue.length = x.txRemaining.toNat ∧ x.maxPacket = 8 ∧ x.rxLen.toNat ≤ 8) ∧
  (s.usb.irqEn = true → s.drv.cbEp = true ∧ s.drv.cbReset = true) ∧
  s.hid.pageOffset.toNat % 8 = 0 ∧ s.hid.pageOffset.toNat ≤ Config.pageSize ∧
    s.par.firstPage.toNat ≤ s.hid.pageIndex.toNat ∧ s.hid.pageIndex.toNat ≤ s.par.flashPages.toNat

/-- A resting state meets the invariant. -/
theorem Resting.inv {s : State} (h : Resting s) : Inv s := by
  obtain ⟨⟨hp, ht, hs, hi⟩, ⟨a, b, c, d⟩, ⟨w1, w2, w3⟩, ⟨r1, r2, r3⟩, he, hc, hu⟩ := h
  exact
    { params := hp, pma := ⟨w1, r1⟩, pageBuf := ⟨w2, r2⟩, flash := ⟨w3, r3⟩
      ets0 := he _ (by simp), ets1 := he _ (by simp), callbacks := hc, table := ht
      control := by simp [FlashCtlOk, a, b, c, d, PendingOk]
      cursor := hu, snap := hs
      sequencer := ⟨by simp [SequencerIndexOk, hi], fun h => absurd hi h⟩ }

/-- The configured device is a state of the invariant. -/
theorem witness_inv_sConf : Inv sConf := Resting.inv (by decide +kernel)

/-- The invariant does not look at the stimuli. -/
theorem inv_offered {s : State} (h : Inv s) (bytes : List Byte) : Inv (offered s bytes) :=
  ⟨h.params, h.pma, h.pageBuf, h.flash, h.ets0, h.ets1, h.callbacks, h.table, h.control, h.cursor, h.snap, h.sequencer⟩

/-- A commit in progress is a state of the invariant. -/
theorem witness_inv_sCommit : Inv sCommit where
  params := witness_inv_sConf.params
  pma := witness_inv_sConf.pma
  pageBuf := witness_inv_sConf.pageBuf
  flash := witness_inv_sConf.flash
  ets0 := witness_inv_sConf.ets0
  ets1 := witness_inv_sConf.ets1
  callbacks := witness_inv_sConf.callbacks
  table := witness_inv_sConf.table
  control :=
    ⟨by decide +kernel, ⟨fun _ => ⟨0x08000800, rfl⟩, fun _ => by decide +kernel⟩, by decide +kernel,
      show inFlash sCommit.par (0x08000800 : Word).toNat = true by decide +kernel⟩
  cursor := by unfold CursorOk; decide +kernel
  snap := by decide +kernel
  sequencer := ⟨show (0 : Half) = 0 from rfl, fun _ => by decide +kernel⟩

/-- A commit in progress is a state the block's own agents reach. -/
theorem witness_commitsOnly_sCommit (bytes : List Byte) : CommitsOnly (offered sCommit bytes) :=
  ⟨inv_offered witness_inv_sCommit bytes,
    fun _ => show Caller.dispatcher ≠ .alone ∧ (0x08000800 : Word) = pageAddress sCommit.par sCommit.hid.pageIndex by
      decide +kernel,
    show (appBase sCommit.par).toNat ≤ (0x08000800 : Word).toNat by decide +kernel⟩

/-! Encoding -/

theorem witness_DecodeOfEncodeIsIdentity :
    (Instr.hostSetup 127 15 []).wellFormed = true ∧ (Instr.drvSenddata 1 [1, 2] 2).wellFormed = true ∧
    (Instr.regWrite .usbReg .w16 0x40 0xFFFF).wellFormed = true ∧ (Instr.cmdIgnored 0xFF).wellFormed = true ∧
    (Instr.evtNone 0x63FF).wellFormed = true ∧
    (Instr.setupOther ⟨0x20, 0x06, 0, 1, 0, 0, 0, 0⟩).wellFormed = true := by decide +kernel

theorem witness_DecodedOperationsAreWellFormed :
    decode .evt [0xFF, 0x63] = .ok (.evtNone 0x63FF) ∧
    decode .setup8 [0x20, 6, 0, 1, 0, 0, 0, 0] = .ok (.setupOther ⟨0x20, 6, 0, 1, 0, 0, 0, 0⟩) := ⟨rfl, rfl⟩

theorem witness_EncodeOfDecodeIsIdentity :
    decode .op [0x32, 0, 0] = .ok .epConfigure ∧ decode .fop [0xBC, 9, 9, 9] = .ok .fopLock ∧
    Format.op ≠ .fop := ⟨rfl, rfl, by decide⟩

/-! The step -/

theorem witness_StepRunsDecodedOperation :
    (offered sConf [0x03]).faults = [] ∧ (offered sConf [0x03]).input = .op .op [0x03] :: [] ∧
    decode .op [0x03] = .ok .hostWakeup ∧ Instr.hostWakeup.wellFormed = true ∧
    (offered sConf [0x03]).boot.launched = false ∧
    (offered (afterAll [.bootEvaluate, .bootLaunch] sImage) [0x03]).faults = [] ∧
    (offered (afterAll [.bootEvaluate, .bootLaunch] sImage) [0x03]).boot.launched = true :=
  ⟨by decide +kernel, rfl, rfl, rfl, by decide +kernel, by decide +kernel, by decide +kernel⟩

theorem witness_StepWithoutOperation :
    ((recordFault sHw (.flashRange 64)).faults = .flashRange 64 :: [] ∧ sHw.faults = [] ∧ sHw.input = [] ∧
      (offered sHw [0x54]).input = .op .op [0x54] :: [] ∧ sHw.boot.state ≠ .launch ∧
      ({ sHw with input := [.bootPin true] } : State).input = .bootPin true :: []) ∧
    decode .op [0x54] = .error .noRow ∧
    ((after .bootEvaluate sImage).boot.state = .launch ∧ (after .bootEvaluate sImage).faults = []) ∧
    FlashOk (after .bootEvaluate sImage).par (after .bootEvaluate sImage).flash :=
  ⟨by decide +kernel, rfl, by decide +kernel, by unfold FlashOk; decide +kernel⟩

/-! Invariants and whole-machine rules -/

theorem witness_StepKeepsInv :
    Inv (offered sConf [0x05, 5, 0, 1, 0, 0xA1]) ∧
    ∃ t, step (offered sConf [0x05, 5, 0, 1, 0, 0xA1]) = .next t ∧ t.usb.ep0.ctrRx = true :=
  ⟨inv_offered witness_inv_sConf _, _, rfl, by decide +kernel⟩

theorem witness_BootloaderPagesSurvive :
    CommitsOnly (offered sCommit [0x14]) ∧ (offered sCommit [0x14]).input = .op .op [0x14] :: [] ∧
    (∀ f bytes i, Stimulus.op .op [0x14] = .op f bytes → decode f bytes = .ok i → isAgentMove i = true) ∧
    ∃ t, step (offered sCommit [0x14]) = .next t ∧ t.fctl.bsy = false := by
  refine ⟨witness_commitsOnly_sCommit _, rfl, ?_, _, rfl, by decide +kernel⟩
  intro f bytes i h hd
  cases h
  cases hd
  rfl

theorem witness_WritePageStoresThePage :
    (Inv sConf ∧ Inv (sConf.withFctl sBlocked.fctl)) ∧
    (SequencerIdle sConf ∧ sConf.fctl.bsy = false ∧ sConf.fctl.keyState = .k0 ∧ 63 < sConf.par.flashPages.toNat ∧
      sBlocked.fctl.bsy = false ∧ sBlocked.fctl.keyState = .blocked ∧ sBlocked.fctl.lock = true) ∧
    Config.pageSize ≤ (List.replicate 1024 (0xA5 : Byte)).length :=
  ⟨⟨witness_inv_sConf, Resting.inv (by decide +kernel)⟩, by decide +kernel, by rw [List.length_replicate]; decide⟩

theorem witness_FlashChangesOnlyAtCompletion :
    exec .flashcComplete sErasing = .next (after .flashcComplete sErasing) ∧
    exec .hostReset sErasing = .next (after .hostReset sErasing) ∧
    exec .hwReset sErasing = .next (after .hwReset sErasing) ∧ sErasing.fctl.pendingOp ≠ .none :=
  ⟨rfl, rfl, rfl, by decide +kernel⟩

theorem witness_MagicWordIsOnlyCleared :
    exec .hwPowerloss (sHw.withBoot { sHw.boot with magic := 0x424C }) =
      .next (after .hwPowerloss (sHw.withBoot { sHw.boot with magic := 0x424C })) ∧
    exec .bootEvaluate (sHw.withBoot { sHw.boot with magic := 0x424C }) =
      .next (after .bootEvaluate (sHw.withBoot { sHw.boot with magic := 0x424C })) := ⟨rfl, rfl⟩

theorem witness_ParametersAndFaultRecordPersist :
    exec (.bdtCountRx .ep0 .read) sHw = .next (after (.bdtCountRx .ep0 .read) sHw) ∧
    (after (.bdtCountRx .ep0 .read) sHw).faults = [.unwrittenRead .pma 6] := ⟨rfl, by decide +kernel⟩

theorem witness_DispatcherEntryAndReturn :
    (Inv (after .hostSuspend sConf) ∧ (after .hostSuspend sConf).disp.state = .idle ∧
      exec .dispEnter (after .hostSuspend sConf) = .next (afterAll [.hostSuspend, .dispEnter] sConf) ∧
      (afterAll [.hostSuspend, .dispEnter] sConf).disp.state ≠ .idle) ∧
    Inv (sConf.withDisp ⟨.read, 0⟩) ∧ (sConf.withDisp ⟨.read, 0⟩).disp.state ≠ .idle ∧
    ∀ i ∈ [Instr.dispRead, .evtNone 0], exec i (sConf.withDisp ⟨.read, 0⟩) = .next (after i (sConf.withDisp ⟨.read, 0⟩)) ∧
      (after i (sConf.withDisp ⟨.read, 0⟩)).disp.state = .idle :=
  ⟨⟨Resting.inv (by decide +kernel), by decide +kernel, rfl, by decide +kernel⟩, Resting.inv (by decide +kernel),
    by decide +kernel, fun i h => by
      rcases List.mem_cons.1 h with rfl | h
      · exact ⟨rfl, by decide +kernel⟩
      · cases List.mem_singleton.1 h
        exact ⟨rfl, by decide +kernel⟩⟩

/-- A SET_CONFIGURATION packet received and not yet served. -/
def sConfiguring : State := after (.hostSetup 0 0 [0, 9, 1, 0, 0, 0, 0, 0]) sBus

theorem witness_ConfiguredOnlyByRequest :
    sBus.drv.configured = false ∧ (after (.setupSetConfiguration 0 1 0 0) sBus).drv.configured = true ∧
    sConfiguring.drv.configured = false ∧ (after (.epService 0) sConfiguring).drv.configured = true ∧
    (after (.evtCtr 0x8010) sConfiguring).drv.configured = true ∧
    (after .dispCtr (sConfiguring.withDisp ⟨.doCtr, 0x8010⟩)).drv.configured = true := by decide +kernel

theorem witness_HeldOperations :
    (sConf.withDisp ⟨.read, 0⟩).disp.state ≠ .idle ∧ sCommit.fseq.state ≠ .idle ∧
    isUnitRoutine .epConfigure = true ∧ SequencerIdle sConf ∧ sConf.disp.state ≠ .read ∧ sConf.disp.state ≠ .doCtr ∧
    sConf.disp.state ≠ .doReset ∧ sConf.disp.state ≠ .doSusp ∧ sConf.disp.state ≠ .doWkup := by decide +kernel

/-! Registers -/

theorem witness_ControlRegisterWrite : bit (0x0001 : Half) 0 = true ∧ bit (0xFFFE : Half) 0 = false := by decide

/-- The descriptor table one unit beyond the last place it fits. -/
def sTableOut : State := after (.regBtable (.write 0x01F8)) sBus

/-- The last word inside packet memory and the first outside. -/
theorem witness_TableRegisterWrite :
    SequencerIdle sTableOut ∧ Config.pmaSize < sTableOut.usb.btable.toNat + 16 ∧
    tableWordAt sTableOut .ep0 6 + 2 = Config.pmaSize ∧ tableWordAt sTableOut .ep1 0 = Config.pmaSize := by
  decide +kernel

theorem witness_RegisterReads :
    ((0x5C : Half).toNat % 4 = 0 ∧ (0x5C : Half).toNat < 0x60) ∧ ((0x20 : Half).toNat % 4 = 0 ∧ (0x20 : Half).toNat < 0x24) ∧
    ¬(Window.usbReg = .usbReg ∧ Width.w16 = .w16 ∧ (0x60 : Half).toNat % 4 = 0 ∧ (0x60 : Half).toNat < 0x60) ∧
    ¬(Window.usbReg = .flashReg ∧ Width.w16 = .w32 ∧ (0x60 : Half).toNat % 4 = 0 ∧ (0x60 : Half).toNat < 0x24) ∧
    ¬(Window.flashReg = .usbReg ∧ Width.w16 = .w16 ∧ (0x10 : Half).toNat % 4 = 0 ∧ (0x10 : Half).toNat < 0x60) ∧
    ¬(Window.flashReg = .flashReg ∧ Width.w16 = .w32 ∧ (0x10 : Half).toNat % 4 = 0 ∧ (0x10 : Half).toNat < 0x24) := by
  decide

theorem witness_WriteByOffset :
    ((0x08 : Half).toNat % 4 = 0 ∧ (0x08 : Half).toNat < 0x60 ∧ (0x08 : Half).toNat ∉ [0x00, 0x04, 0x40, 0x44, 0x4C, 0x50]) ∧
    ((0x5C : Half).toNat % 4 = 0 ∧ (0x5C : Half).toNat < 0x60 ∧ (0x5C : Half).toNat ∉ [0x00, 0x04, 0x40, 0x44, 0x4C, 0x50]) ∧
    ((0x00 : Half).toNat % 4 = 0 ∧ (0x00 : Half).toNat < 0x24 ∧ (0x00 : Half).toNat ∉ [0x04, 0x10, 0x14]) ∧
    ((0x20 : Half).toNat % 4 = 0 ∧ (0x20 : Half).toNat < 0x24 ∧ (0x20 : Half).toNat ∉ [0x04, 0x10, 0x14]) ∧
    ¬(Window.flashReg = .usbReg ∧ Width.w32 = .w16 ∧ (0x24 : Half).toNat % 4 = 0 ∧ (0x24 : Half).toNat < 0x60) ∧
    ¬(Window.flashReg = .flashReg ∧ Width.w32 = .w32 ∧ (0x24 : Half).toNat % 4 = 0 ∧ (0x24 : Half).toNat < 0x24) := by
  decide

/-! The descriptor table -/

/-- The descriptor table at the last place it fits, half written. -/
def sTableLast : State := afterAll [.regBtable (.write 0x01F0), .bdtCountRx .ep1 (.write 0x1234)] sBus

theorem witness_TableWordAccess :
    SequencerIdle sTableLast ∧ TableInPma sTableLast ∧ Memory.wf none sTableLast.pma = true ∧
    sTableLast.pma.read? (tableWordAt sTableLast .ep1 6) = some 0x34 ∧
    sTableLast.pma.read? (tableWordAt sTableLast .ep1 6 + 1) = some 0x12 ∧ tableWordAt sTableLast .ep1 6 + 1 = 511 ∧
    sTableLast.pma.read? (tableWordAt sTableLast .ep0 0) = none ∧
    sTableLast.pma.read? (tableWordAt sTableLast .ep0 2) = none ∧
    sTableLast.pma.read? (tableWordAt sTableLast .ep0 4) = none := by decide +kernel

/-! The flash controller -/

theorem witness_KeyRegisterWrite :
    sHw.fctl.keyState = .k0 ∧ sHalfUnlocked.fctl.keyState = .k1 ∧ (0 : Word) ≠ 0xCDEF89AB ∧
    sBlocked.fctl.keyState = .blocked := by decide +kernel

/-- An address just beyond the array waits in FLASH_AR. -/
def sBeyond : State := after (.regFlashAr (.write 0x08010000)) sUnlocked

/-- An address in the array waits in FLASH_AR. -/
def sWithin : State := after (.regFlashAr (.write 0x0800FFFF)) sUnlocked

theorem flashCtlOk_resting (p : Params) (f : FlashCtl) (h : f.bsy = false ∧ f.strt = false ∧ f.pg = false ∧ f.pendingOp = .none) :
    FlashCtlOk p f := by
  obtain ⟨a, b, c, d⟩ := h
  simp [FlashCtlOk, a, b, c, d, PendingOk]

theorem witness_FlashControlWrite :
    (FlashCtlOk sCommit.par sCommit.fctl ∧ sCommit.fctl.bsy = true) ∧
    ((FlashCtlOk sHalfUnlocked.par sHalfUnlocked.fctl ∧ FlashCtlOk sBlocked.par sBlocked.fctl) ∧
      sHalfUnlocked.fctl.bsy = false ∧ sHalfUnlocked.fctl.lock = true ∧ sHalfUnlocked.fctl.keyState = .k1 ∧
      sBlocked.fctl.bsy = false ∧ sBlocked.fctl.lock = true ∧ sBlocked.fctl.keyState = .blocked) ∧
    (FlashCtlOk sUnlocked.par sUnlocked.fctl ∧ sUnlocked.fctl.bsy = false ∧ sUnlocked.fctl.lock = false ∧
      (bit (0x03 : Word) 0 = true ∧ bit (0x03 : Word) 1 = true) ∧
      ¬(bit (0x42 : Word) 0 = true ∧ bit (0x42 : Word) 1 = true) ∧ bit (0x82 : Word) 7 = true ∧
      bit (0x01 : Word) 6 = false ∧ bit (0x40 : Word) 1 = false) ∧
    (FlashCtlOk sBeyond.par sBeyond.fctl ∧ sBeyond.fctl.bsy = false ∧ sBeyond.fctl.lock = false ∧
      bit (0x42 : Word) 7 = false ∧ bit (0x42 : Word) 6 = true ∧ bit (0x42 : Word) 1 = true ∧
      inFlash sBeyond.par sBeyond.fctl.ar.toNat = false) ∧
    (FlashCtlOk sWithin.par sWithin.fctl ∧ inFlash sWithin.par sWithin.fctl.ar.toNat = true) :=
  ⟨⟨witness_inv_sCommit.control, by decide +kernel⟩,
    ⟨⟨flashCtlOk_resting _ _ (by decide +kernel), flashCtlOk_resting _ _ (by decide +kernel)⟩, by decide +kernel⟩,
    ⟨flashCtlOk_resting _ _ (by decide +kernel), by decide +kernel⟩,
    ⟨flashCtlOk_resting _ _ (by decide +kernel), by decide +kernel⟩,
    flashCtlOk_resting _ _ (by decide +kernel), by decide +kernel⟩

theorem witness_FlashAddressWrite :
    sErasing.fctl.bsy = true ∧ (sHw.fctl.bsy = false ∧ sHw.fctl.lock = true) ∧
    (sUnlocked.fctl.bsy = false ∧ sUnlocked.fctl.lock = false) := by decide +kernel

theorem witness_UnlockAndLock :
    (SequencerIdle sHw ∧ sHw.fctl.keyState = .k0) ∧ (SequencerIdle sBlocked ∧ sBlocked.fctl.keyState = .blocked) ∧
    (SequencerIdle sHalfUnlocked ∧ sHalfUnlocked.fctl.keyState = .k1 ∧ sHalfUnlocked.fctl.bsy = false ∧
      sHalfUnlocked.fctl.lock = true) ∧
    (SequencerIdle sErasing ∧ sErasing.fctl.bsy = true) ∧
    (SequencerIdle sUnlocked ∧ sUnlocked.fctl.bsy = false ∧ sUnlocked.fctl.lock = false) := by decide +kernel

/-- A halfword programmed at the beginning of page 2. -/
def sProgrammed : State := afterAll [.fopProgHalfword .w16 0x08000800 0x5000, .flashcComplete] sProgramming

theorem witness_FlashOperationsStart :
    (SequencerIdle sProgramming ∧ sProgramming.fctl.bsy = false ∧ sProgramming.fctl.lock = false ∧
      sProgramming.fctl.pg = true ∧ inFlash sProgramming.par (0x0800FFFE : Word).toNat = true ∧
      (0x0800FFFE : Word).toNat % 2 = 0 ∧ flashByte sProgramming (0x0800FFFE : Word).toNat = 0xFF ∧
      flashByte sProgramming ((0x0800FFFE : Word).toNat + 1) = 0xFF) ∧
    (Width.w8 ≠ .w16 ∧ Width.w32 ≠ .w16 ∧ (0x08000801 : Word).toNat % 2 = 1) ∧
    (SequencerIdle sErasing ∧ sErasing.fctl.bsy = true) ∧
    (SequencerIdle sHw ∧ sHw.fctl.bsy = false ∧ sHw.fctl.lock = true) ∧ sUnlocked.fctl.pg = false ∧
    inFlash sProgramming.par (0x08010000 : Word).toNat = false ∧
    inFlash sProgramming.par (0x07FFFFFE : Word).toNat = false ∧
    (SequencerIdle sProgrammed ∧ sProgrammed.fctl.bsy = false ∧ sProgrammed.fctl.lock = false ∧
      sProgrammed.fctl.pg = true ∧ inFlash sProgrammed.par (0x08000800 : Word).toNat = true ∧
      flashByte sProgrammed (0x08000800 : Word).toNat ≠ 0xFF) := by decide +kernel

theorem witness_FlashOperationCompletes :
    (FlashOk sHw.par sHw.flash ∧ sHw.fctl.pendingOp = .none) ∧
    (FlashOk sErasing.par sErasing.flash ∧ sErasing.fctl.pendingOp = .erase 0x08000A10 ∧
      sErasing.par.flashBase.toNat ≤ (0x08000A10 : Word).toNat) ∧
    (FlashOk sProgramming.par sProgramming.flash ∧
      (after (.fopProgHalfword .w16 0x08000800 0x5000) sProgramming).fctl.pendingOp = .prog 0x08000800 0x5000) :=
  ⟨⟨⟨by decide +kernel, by decide +kernel⟩, by decide +kernel⟩, ⟨⟨by decide +kernel, by decide +kernel⟩, by decide +kernel⟩,
    ⟨by decide +kernel, by decide +kernel⟩, by decide +kernel⟩

theorem witness_WritePageBegins :
    SequencerIdle sHw ∧ (∀ d, PageSource.pageBuf = .literal d → 1024 ≤ d.length) ∧
    (∀ d, PageSource.literal (List.replicate 1024 0) = .literal d → 1024 ≤ d.length) ∧ (512 : Half) ≠ 1024 ∧
    (∃ d, PageSource.literal (List.replicate 1023 0) = .literal d ∧ d.length < 1024) :=
  ⟨rfl, fun _ h => (by cases h), fun _ h => (by cases h; rw [List.length_replicate]), by decide, _, rfl, by
    rw [List.length_replicate]; decide⟩

/-- A running `writePage` at a place of its table, with its controller unlocked and resting. -/
def sequencerAt (x : FseqState) (i : Half) : State := sUnlocked.withFseq ⟨x, 0x08000800, i, .pageBuf, .alone⟩

/-- The same with the controller blocked by a wrong key. -/
def blockedAt (x : FseqState) (i : Half) : State := sBlocked.withFseq ⟨x, 0x08000800, i, .pageBuf, .alone⟩

theorem witness_SequencerStepsInOrder :
    ((sHw.withFseq ⟨.unlock, 0x08000800, 0, .pageBuf, .alone⟩).fseq.state = .unlock ∧ sHw.fctl.keyState = .k0) ∧
    (sHalfUnlocked.fctl.keyState = .k1 ∧ sBlocked.fctl.keyState = .blocked) ∧
    (sCommit.fseq.state = .waitErase ∧ sCommit.fctl.bsy = true) ∧
    ((sequencerAt .waitIdle 0).fctl.bsy = false ∧ (sequencerAt .waitIdle 0).fctl.lock = false ∧
      (sequencerAt .waitIdle 0).fseq.state = .waitIdle) ∧
    ((sequencerAt .erase 0).fseq.state = .erase ∧
      inFlash (sequencerAt .erase 0).par (sequencerAt .erase 0).fseq.addr.toNat = true) ∧
    (sequencerAt .waitErase 0).fseq.state = .waitErase ∧
    ((sequencerAt .waitProg 510).fseq.state = .waitProg ∧ (sequencerAt .waitProg 510).fseq.i.toNat < 511) ∧
    ((sequencerAt .waitProg 511).fseq.state = .waitProg ∧ (sequencerAt .waitProg 511).fseq.i.toNat = 511) ∧
    ((sequencerAt .lock 512).fseq.state = .lock ∧ (sequencerAt .lock 512).fseq.caller = .alone) ∧
    ((blockedAt .erase 0).fctl.bsy = false ∧ (blockedAt .erase 0).fctl.lock = true ∧
      (blockedAt .waitProg 511).fseq.i.toNat = 511 ∧ (blockedAt .lock 512).fseq.caller = .alone) := by decide +kernel

/-- The programming step at the last halfword, its data in the page buffer. -/
def sLastHalfword : State :=
  (sequencerAt .prog 511).withHid { sHw.hid with pageBuf := [(1022, 0x34), (1023, 0x12)] }

/-- The programming step at the first halfword of literal data. -/
def sFirstHalfword : State := sUnlocked.withFseq ⟨.prog, 0x08000800, 0, .literal [0x34, 0x12], .alone⟩

theorem witness_SequencerProgramsHalfword :
    (SequencerIndexOk sLastHalfword.fseq ∧ SequencerIndexOk sFirstHalfword.fseq) ∧
    (sLastHalfword.fseq.state = .prog ∧ sLastHalfword.fctl.bsy = false ∧ sLastHalfword.fctl.lock = false ∧
      sLastHalfword.fseq.i.toNat < 512 ∧
      (0x08000BFE : Word) = sLastHalfword.fseq.addr + 2 * zext32 sLastHalfword.fseq.i ∧ (0x08000BFE : Word).toNat % 2 = 0 ∧
      inFlash sLastHalfword.par (0x08000BFE : Word).toNat = true ∧
      flashByte sLastHalfword (0x08000BFE : Word).toNat = 0xFF ∧
      flashByte sLastHalfword ((0x08000BFE : Word).toNat + 1) = 0xFF ∧ sLastHalfword.fseq.source = .pageBuf ∧
      sLastHalfword.hid.pageBuf.read? (2 * sLastHalfword.fseq.i.toNat) = some 0x34 ∧
      sLastHalfword.hid.pageBuf.read? (2 * sLastHalfword.fseq.i.toNat + 1) = some 0x12) ∧
    (sFirstHalfword.fseq.state = .prog ∧ sFirstHalfword.fctl.bsy = false ∧ sFirstHalfword.fctl.lock = false ∧
      sFirstHalfword.fseq.i.toNat < 512 ∧
      (0x08000800 : Word) = sFirstHalfword.fseq.addr + 2 * zext32 sFirstHalfword.fseq.i ∧
      inFlash sFirstHalfword.par (0x08000800 : Word).toNat = true ∧
      flashByte sFirstHalfword (0x08000800 : Word).toNat = 0xFF ∧
      flashByte sFirstHalfword ((0x08000800 : Word).toNat + 1) = 0xFF ∧
      sFirstHalfword.fseq.source = .literal [0x34, 0x12]) ∧
    (sHw.fctl.bsy = false ∧ sHw.fctl.lock = true) :=
  ⟨⟨show (511 : Half).toNat < 512 by decide, show (0 : Half).toNat < 512 by decide⟩, by decide +kernel⟩

/-- A commit at its last step, with a caller, configured or not. -/
def sCommitEnds (c : Caller) (configured : Bool) : State :=
  ((sConf.withFctl sUnlocked.fctl).withFseq ⟨.lock, 0x08000800, 512, .pageBuf, c⟩).withDrv
    { sConf.drv with configured := configured }

/-- The same with the controller blocked by a wrong key. -/
def sCommitBlocked : State := (sCommitEnds .dispatcher true).withFctl sBlocked.fctl

/-- The same with the zero-length answer to a request fetched meanwhile. -/
def sCommitAnswered : State := after (.hostIn 5 0) ((sCommitEnds .dispatcher false).withUsb
  { sConf.usb with ep0 := { sConf.usb.ep0 with statTx := .valid } })

/-- Each caller, configured or not; the blocked controller (T46-16); a completed transmission left for the end. -/
theorem witness_CommitEnds :
    (∀ c ∈ [Caller.service, .event 0x8010, .event 0x8410, .dispatcher], ∀ b ∈ [true, false],
      (sCommitEnds c b).fseq.state = .lock ∧ (sCommitEnds c b).fseq.caller ≠ .alone ∧
      (sCommitEnds c b).fctl.bsy = false ∧ (sCommitEnds c b).fctl.lock = false ∧
      Memory.wf none (sCommitEnds c b).pma = true ∧ (sCommitEnds c b).usb.ep0.ctrTx = false) ∧
    (sCommitBlocked.fctl.bsy = false ∧ sCommitBlocked.fctl.lock = true ∧ sCommitBlocked.fctl.keyState = .blocked ∧
      (after .dispCtr sCommitBlocked).hid.pageIndex = sConf.hid.pageIndex + 1 ∧
      (after .dispCtr sCommitBlocked).disp.state = .doReset) ∧
    (TxReady (sCommitEnds .dispatcher true) .ep1 (min 8 (sCommitEnds .dispatcher true).drv.ets1.maxPacket.toNat)) ∧
    (sCommitAnswered.usb.ep0.ctrTx = true ∧ sCommitAnswered.fseq.state = .lock ∧
      (after .dispCtr sCommitAnswered).usb.ep0.ctrTx = false) :=
  ⟨by decide +kernel, by decide +kernel, ⟨by decide +kernel, fun _ => ⟨0x50, rfl, by decide +kernel⟩⟩, by decide +kernel⟩

/-! The bus side -/

theorem witness_BusResetLatches : sHw.usb.attached = false ∧ sConf.usb.attached = true ∧ bit (0x0001 : Half) 0 = true := by
  decide +kernel

theorem witness_SuspendAndWakeupLatch :
    sHw.usb.attached = false ∧ sConf.usb.attached = true ∧ sConf.usb.cntr.suspm = true ∧ sConf.usb.irqEn = true := by
  decide +kernel

/-- The receive buffer of endpoint 0 is one byte too high for eight bytes. -/
def sRxTooHigh : State := after (.bdtAddrRx .ep0 (.write 0x01F9)) sConf

theorem witness_OfferedPacketIsReceived :
    (oneToEight.length = 8 ∧ (5 : Byte).toNat ≤ 127 ∧ (0 : Byte).toNat ≤ 15 ∧ sConf.usb.enabledAt 5 = true ∧
      sConf.usb.lookup 0 = some .ep0 ∧ (sConf.usb.ep .ep0).epType = .control ∧ (sConf.usb.ep .ep0).statRx = .valid ∧
      (sConf.usb.ep .ep0).ctrRx = false ∧ TableInPma sConf ∧ Memory.wf none sConf.pma = true) ∧
    bdtRead sConf .ep0 offCountRx = .ok 0x1000 ∧
    (bit (0x1000 : Half) 15 = false ∧ oneToEight.length ≤ 2 * (field (0x1000 : Half) 10 5).toNat) ∧
    (∃ b : Half, bdtRead sConf .ep0 offAddrRx = .ok b ∧ b.toNat + oneToEight.length ≤ Config.pmaSize) ∧
    ((sRxTooHigh.usb.enabledAt 5 = true ∧ sRxTooHigh.usb.lookup 0 = some .ep0 ∧
        (sRxTooHigh.usb.ep .ep0).epType = .control ∧ (sRxTooHigh.usb.ep .ep0).statRx = .valid ∧
        (sRxTooHigh.usb.ep .ep0).ctrRx = false ∧ TableInPma sRxTooHigh ∧ Memory.wf none sRxTooHigh.pma = true) ∧
      bdtRead sRxTooHigh .ep0 offCountRx = .ok 0x1000 ∧ bdtRead sRxTooHigh .ep0 offAddrRx = .ok 0x1F9 ∧
      oneToEight ≠ [] ∧ Config.pmaSize + 1 = (0x1F9 : Half).toNat + oneToEight.length) :=
  ⟨by decide +kernel, rfl, by decide +kernel, ⟨0x40, rfl, by decide +kernel⟩, by decide +kernel, rfl, rfl,
    by decide +kernel⟩

/-- T43-4: another address; endpoint 1, not CONTROL; no such endpoint; nine bytes for a capacity of eight; and the moves
that are no USB packet (T43-5). -/
theorem witness_OfferedPacketIsNotAccepted :
    ((sConf.usb.enabledAt 4 = false ∧ oneToEight.length = 8) ∧
      (sConf.usb.lookup 1 = some .ep1 ∧ (sConf.usb.ep .ep1).epType ≠ .control) ∧ sConf.usb.lookup 15 = none ∧
      sReceived.usb.ep0.ctrRx = true ∧ ¬(9 ≤ 2 * (field (0x1000 : Half) 10 5).toNat) ∧
      127 < (128 : Byte).toNat ∧ 15 < (16 : Byte).toNat ∧ ([] : List Byte).length ≠ 8) ∧
    1023 < (List.replicate 1024 (0 : Byte)).length :=
  ⟨by decide +kernel, by rw [List.length_replicate]; decide⟩

/-- The armed transmit buffer of endpoint 1 is moved just beyond packet memory. -/
def sTxTooHigh : State := after (.bdtAddrTx .ep1 (.write 0x0200)) sArmed

theorem witness_RequestedPacket :
    ((5 : Byte).toNat ≤ 127 ∧ (1 : Byte).toNat ≤ 15 ∧ sArmed.usb.enabledAt 5 = true ∧ sArmed.usb.lookup 1 = some .ep1 ∧
      (sArmed.usb.ep .ep1).statTx = .valid ∧ (sArmed.usb.ep .ep1).ctrTx = false) ∧
    bdtRead sArmed .ep1 offCountTx = .ok 8 ∧ Config.ackFrame.length = (field (8 : Half) 0 10).toNat ∧
    (bdtRead sArmed .ep1 offAddrTx = .ok 0x50 ∧ (0x50 : Half).toNat + Config.ackFrame.length ≤ Config.pmaSize) ∧
    (∀ k, k < 8 → sArmed.pma.read? (0x50 + k) = Config.ackFrame[k]?) ∧
    (sConf.usb.ep1.statTx ≠ .valid ∧ sConf.usb.enabledAt 4 = false) ∧
    ((sTxTooHigh.usb.enabledAt 5 = true ∧ sTxTooHigh.usb.lookup 1 = some .ep1 ∧ (sTxTooHigh.usb.ep .ep1).statTx = .valid ∧
        (sTxTooHigh.usb.ep .ep1).ctrTx = false ∧ (field (8 : Half) 0 10).toNat ≠ 0) ∧
      bdtRead sTxTooHigh .ep1 offCountTx = .ok 8 ∧ bdtRead sTxTooHigh .ep1 offAddrTx = .ok 0x200 ∧
      Config.pmaSize = (0x200 : Half).toNat) :=
  ⟨by decide +kernel, rfl, by decide +kernel, ⟨rfl, by decide +kernel⟩, by decide +kernel, by decide +kernel,
    by decide +kernel, rfl, rfl, by decide +kernel⟩

/-! The interrupt -/

theorem witness_InterruptEntry :
    (SequencerIdle sReceived ∧ sReceived.disp.state = .idle ∧ sReceived.usb.irqLine = true) ∧
    (SequencerIdle sConf ∧ sConf.usb.irqLine = false) ∧ (sConf.withDisp ⟨.doCtr, 0⟩).disp.state ≠ .idle := by
  decide +kernel

/-- The status read about to be made. -/
def atRead (s : State) : State := s.withDisp ⟨.read, 0⟩

theorem witness_StatusRead :
    (SequencerIdle (atRead sReceived) ∧ (atRead sReceived).disp.state = .read ∧
      ((0x8010 : Half) = ((atRead sReceived).usb.istrHalf &&& (atRead sReceived).usb.cntr.toHalf &&& 0x9C00) |||
        ((atRead sReceived).usb.istrHalf &&& 0x001F)) ∧ (0x8010 : Half) &&& 0x9C00 ≠ 0) ∧
    (SequencerIdle (atRead sConf) ∧ (atRead sConf).disp.state = .read ∧
      ((0x0000 : Half) = ((atRead sConf).usb.istrHalf &&& (atRead sConf).usb.cntr.toHalf &&& 0x9C00) |||
        ((atRead sConf).usb.istrHalf &&& 0x001F)) ∧ (0x0000 : Half) &&& 0x9C00 = 0) ∧
    (SequencerIdle sConf ∧ sConf.disp.state ≠ .read) := by decide +kernel

theorem witness_SuspendAndWakeupServed :
    (bit (0x0800 : Half) 12 = false ∧ bit (0x1800 : Half) 12 = true) ∧ SequencerIdle (sConf.withDisp ⟨.doSusp, 0x0800⟩) ∧ (sConf.withDisp ⟨.doSusp, 0x0800⟩).disp.state = .doSusp ∧
    (sConf.withDisp ⟨.doWkup, 0x1000⟩).disp.state = .doWkup := by decide +kernel

theorem witness_BusResetServed :
    (SequencerIdle (sConf.withDisp ⟨.doReset, 0x0400⟩) ∧ Memory.wf none (sConf.withDisp ⟨.doReset, 0x0400⟩).pma = true ∧
      (sConf.withDisp ⟨.doReset, 0x0400⟩).drv.cbReset = true ∧
      (sConf.withDisp ⟨.doReset, 0x0400⟩).disp.state = .doReset ∧ bit (0x0400 : Half) 10 = true) ∧
    (sHw.drv.cbReset = false ∧ SequencerIdle (sHw.withDisp ⟨.doReset, 0x0400⟩) ∧ Memory.wf none sHw.pma = true) ∧
    bit (0x8000 : Half) 10 = false := by decide +kernel

/-- The zero-length answer of SET_ADDRESS fetched (T44-9). -/
def sAddressed : State := afterAll [.setupSetAddress 0 5 0 0, .hostIn 0 0] sBus

/-- The first eight bytes of the device descriptor fetched, ten left to send (T44-1). -/
def sChunkSent : State := afterAll [.setupGetDescriptorDevice 0x80 0 0 0x40, .hostIn 5 0] sConf

/-- A reception beside it: both completion flags (T42-13). -/
def sBoth : State := after (.hostOut 5 0 oneToEight) sChunkSent

/-- The reception served alone, then the transmission beside it. -/
theorem witness_both_flags :
    (sBoth.usb.ep0.toHalf = 0xA2A0 ∧ SequencerIdle sBoth) ∧
    ∀ r t : State,
      r = after (.epService 0) (sBoth.setEp .ep0 { sBoth.usb.ep .ep0 with ctrTx := false }) →
      t = after (.epService 0) (r.setEp .ep0 { r.usb.ep .ep0 with ctrTx := true }) →
      (r.faults = sBoth.faults ∧ SequencerIdle r ∧ t.faults = sBoth.faults) ∧
      (t = after (.epService 0) sBoth ∧ t.usb.ep0.toHalf = 0x3230 ∧ t.hid.pageOffset = 8 ∧ t.drv.ets0.txRemaining = 2) :=
  ⟨by decide +kernel, by rintro _ _ rfl rfl; decide +kernel⟩

theorem witness_TransmissionServed :
    ((SequencerIdle sAddressed ∧ (0 : BitVec 4).toNat = epNumber .ep0 ∧ field (0x8000 : Half) 0 4 = (0 : BitVec 4) ∧
        (sAddressed.usb.ep .ep0).ctrRx = false ∧ (sAddressed.usb.ep .ep0).ctrTx = true ∧
        (sAddressed.drv.ets .ep0).txRemaining = 0 ∧ sAddressed.drv.cbEp = true ∧ sAddressed.drv.pendingAddr ≠ 0) ∧
      ((sAddressed.withDisp ⟨.doCtr, 0x8000⟩).disp.state = .doCtr ∧ bit (0x8000 : Half) 15 = true) ∧
      ((1 : BitVec 4).toNat = epNumber .ep1 ∧ field (0x8001 : Half) 0 4 = (1 : BitVec 4) ∧
        (after (.hostIn 5 1) sArmed).usb.ep1.ctrTx = true ∧ (after (.hostIn 5 1) sArmed).usb.ep1.ctrRx = false ∧
        (after (.hostIn 5 1) sArmed).drv.ets1.txRemaining = 0) ∧
      (sConf.usb.ep0.ctrRx = false ∧ sConf.usb.ep0.ctrTx = false) ∧ sHw.drv.cbEp = false ∧
      ((sConf.withDisp ⟨.doCtr, 0x0800⟩).disp.state = .doCtr ∧ bit (0x0800 : Half) 15 = false) ∧
      (bit (0x8800 : Half) 10 = false ∧ bit (0x8400 : Half) 10 = true)) ∧
    (SequencerIdle sChunkSent ∧ sChunkSent.usb.ep0.ctrRx = false ∧ sChunkSent.usb.ep0.ctrTx = true ∧
      sChunkSent.drv.ets0.txRemaining = 10) ∧
    NextChunkReady sChunkSent .ep0 :=
  ⟨by decide +kernel, by decide +kernel, fun _ _ => ⟨by decide +kernel, by decide +kernel, fun _ => ⟨0x48, rfl, by decide +kernel⟩⟩⟩

/-! Control requests and transmission -/

/-- Both transmit buffers of the configured device take a packet. -/
theorem witness_txReady_sConf (n : Nat) (h : n ≤ 8) : TxReady sConf .ep0 n ∧ TxReady sConf .ep1 n :=
  ⟨⟨by decide +kernel, fun _ => ⟨0x48, rfl, by rw [show (0x48 : Half).toNat = 72 from rfl, Config.pmaSize]; omega⟩⟩,
    ⟨by decide +kernel, fun _ => ⟨0x50, rfl, by rw [show (0x50 : Half).toNat = 80 from rfl, Config.pmaSize]; omega⟩⟩⟩

theorem witness_QueuedDataIsArmed :
    (SequencerIdle sConf ∧ Memory.wf none sConf.pma = true ∧ sConf.drv.configured = true ∧ (2 : Half).toNat ≤ [9, 9].length ∧
      (1 : Byte).toNat = epNumber .ep1 ∧ 2 ≤ (2 : Byte).toNat) ∧
    (TxReady sConf .ep1 (min (2 : Half).toNat (sConf.drv.ets .ep1).maxPacket.toNat) ∧
      TxReady sConf .ep0 ((sConf.drv.ets .ep0).txQueue.take
        (min (sConf.drv.ets .ep0).txRemaining.toNat (sConf.drv.ets .ep0).maxPacket.toNat)).length ∧
      TxReady sConf .ep1 (min 8 sConf.drv.ets1.maxPacket.toNat)) ∧
    (SequencerIdle sBus ∧ sBus.drv.configured = false) :=
  ⟨by decide +kernel, ⟨(witness_txReady_sConf _ (by decide +kernel)).2, (witness_txReady_sConf _ (by decide +kernel)).1,
    (witness_txReady_sConf _ (by decide +kernel)).2⟩, by decide +kernel⟩

theorem witness_RequestsAreAnswered :
    (SequencerIdle sConf ∧ Memory.wf none sConf.pma = true) ∧
    TxReady sConf .ep0 (min (min sConf.par.deviceDesc.length (0x40 : Half).toNat) sConf.drv.ets0.maxPacket.toNat) ∧
    (sConf.par.stringDescs[(2 : Byte).toNat]? = some [0x0A, 0x03, 0x42, 0x00, 0x4F, 0x00, 0x4F, 0x00, 0x54, 0x00] ∧
      sConf.par.stringDescs.length ≤ (3 : Byte).toNat) ∧
    TxReady sConf .ep0 (min 0 sConf.drv.ets0.maxPacket.toNat) :=
  ⟨by decide +kernel, (witness_txReady_sConf _ (by decide +kernel)).1, by decide +kernel,
    (witness_txReady_sConf _ (by decide +kernel)).1⟩

/-- The eight bytes of `sSetup`. -/
def getDeviceDescriptor : List Byte := [0x80, 0x06, 0x00, 0x01, 0x00, 0x00, 0x40, 0x00]

/-- A SETUP packet waits, and the row that answers it runs on it (T43-3, T44-1). -/
theorem witness_SelectedRowIsTheRequest :
    PacketWaiting sSetup .ep0 getDeviceDescriptor ∧
    (SequencerIdle sBus ∧ sSetup.usb.ep0.setup = true ∧ sSetup.usb.ep0.ctrTx = false ∧ sSetup.drv.cbEp = true) ∧
    (after (.epService 0) sSetup).drv.ets0.rxBuf = ⟨0x80, 0x06, 0x00, 0x01, 0x00, 0x00, 0x40, 0x00⟩ ∧
    ((after (.epService 0) sSetup).usb.ep0.toHalf = 0x3A30 ∧ (after (.epService 0) sSetup).faults = [] ∧
      (after (.epService 0) sSetup).drv.ets0.txRemaining = 10) :=
  ⟨{ idle := rfl, received := rfl, table := by decide +kernel, count := ⟨0x1008, rfl, by decide⟩, short := by decide,
     buffer := fun _ => ⟨0x40, rfl, by decide, show ∀ k, k < 8 → sSetup.pma.read? (64 + k) = getDeviceDescriptor[k]? by
      decide +kernel⟩ }, by decide +kernel, by decide +kernel, by decide +kernel⟩

theorem witness_EndpointsConfigured : SequencerIdle sInit ∧ Memory.wf none sInit.pma = true := by decide +kernel

/-! Unit H -/

theorem witness_CommandsTakeEffect : SequencerIdle sConf := by decide +kernel

theorem witness_PacketIsAppended :
    SequencerIdle (atCursor sConf 2 1016) ∧ PageBufOk (atCursor sConf 2 1016).hid.pageBuf ∧
    (atCursor sConf 2 1016).hid.pageOffset.toNat + 8 ≤ 1024 :=
  ⟨by decide +kernel, ⟨by decide +kernel, by decide +kernel⟩, by decide +kernel⟩

/-- A packet of eight bytes waits, wherever the cursor stands. -/
theorem witness_waiting (p o : Half) (m : Memory) :
    DataPacketWaiting { sReceived with hid := { sReceived.hid with pageIndex := p, pageOffset := o, pageBuf := m } } oneToEight ∧
    sReceived.usb.ep0.ctrTx = false ∧ sReceived.drv.cbEp = true where
  left :=
    { idle := show sReceived.fseq.state = .idle by decide +kernel
      received := show sReceived.usb.ep0.ctrRx = true by decide +kernel
      table := show sReceived.usb.btable.toNat + Config.bdtSize ≤ Config.pmaSize by decide +kernel
      count := ⟨0x1008, rfl, by decide⟩
      short := by decide
      buffer := fun _ => ⟨0x40, rfl, by decide, show ∀ k, k < 8 → sReceived.pma.read? (64 + k) = oneToEight[k]? by decide +kernel⟩
      plain := show sReceived.usb.ep0.setup = false by decide +kernel
      nonempty := by decide }
  right := by decide +kernel

/-- The received packet with the cursor and the page buffer moved. -/
def receivedAt (p o : Half) (m : Memory) : State :=
  { sReceived with hid := { sReceived.hid with pageIndex := p, pageOffset := o, pageBuf := m } }

/-- An empty packet received and not yet served (T42-12). -/
def sEmptyReceived : State := after (.hostOut 5 0 []) sConf

/-- A reception on endpoint 1, which the block's own configuration never enables. -/
def sOnOne : State := sConf.withUsb { sConf.usb with ep1 := { sConf.usb.ep1 with ctrRx := true } }

theorem witness_no_hook :
    (PacketWaiting sEmptyReceived .ep0 [] ∧ sEmptyReceived.usb.ep0.ctrTx = false ∧ sEmptyReceived.usb.ep0.setup = false) ∧
    (PacketWaiting sOnOne .ep1 [] ∧ sOnOne.usb.ep1.ctrTx = false) :=
  ⟨⟨{ idle := rfl, received := rfl, table := by decide +kernel, count := ⟨0x1000, rfl, by decide⟩, short := by decide,
      buffer := fun h => absurd rfl h }, by decide +kernel⟩,
    { idle := rfl, received := rfl, table := by decide +kernel, count := ⟨0x0000, rfl, by decide⟩, short := by decide,
      buffer := fun h => absurd rfl h }, by decide +kernel⟩

theorem witness_DataPacketServed :
    (DataPacketWaiting (receivedAt 2 1008 []) oneToEight ∧ (receivedAt 2 1008 []).usb.ep0.ctrTx = false) ∧
    PageBufOk (receivedAt 2 1008 []).hid.pageBuf ∧
    (receivedAt 2 1008 []).hid.pageOffset.toNat + 8 < 1024 ∧ (receivedAt 2 1008 []).hid.pageOffset.toNat ≠ 56 :=
  ⟨⟨(witness_waiting _ _ _).1, (witness_waiting 0 0 []).2.1⟩, ⟨rfl, fun c h => by cases h⟩, by decide, by decide⟩

/-- 56 bytes of a command frame, and the zero bytes of its last packet waiting (T45-3). -/
def sFrame (opcode : Byte) : State :=
  after (.hostOut 5 0 (List.replicate 8 0))
    (atCursor (withPage sConf (sevenBytes ++ [opcode] ++ List.replicate 48 0)) 2 56)

/-- The whole frame is in the buffer after the packet. -/
def sFramed (opcode : Byte) : State := after (.epService 0) (sFrame opcode)

theorem witness_CommandFrameRecognised :
    (DataPacketWaiting (receivedAt 2 56 [(0, 1)]) oneToEight ∧ (receivedAt 2 56 [(0, 1)]).usb.ep0.ctrTx = false ∧
      PageBufOk (receivedAt 2 56 [(0, 1)]).hid.pageBuf ∧
      (receivedAt 2 56 [(0, 1)]).hid.pageOffset.toNat = 56 ∧
      HoldsData (after (.epService 0) (receivedAt 2 56 [(0, 1)])).hid.pageBuf) ∧
    ((sFrame 0).hid.pageOffset.toNat = 56 ∧ HoldsFrame (sFramed 0).hid.pageBuf 0) ∧
    ((sFrame 1).hid.pageOffset.toNat = 56 ∧ HoldsFrame (sFramed 1).hid.pageBuf 1) ∧
    ((sFrame 2).hid.pageOffset.toNat = 56 ∧ HoldsFrame (sFramed 2).hid.pageBuf 2) :=
  ⟨⟨(witness_waiting _ _ _).1, (witness_waiting 0 0 []).2.1, ⟨by decide, by decide⟩, by decide, 0, 1, by decide, by decide, by decide +kernel, by decide, by decide⟩,
    ⟨by decide +kernel, by unfold HoldsFrame; decide +kernel⟩,
    ⟨by decide +kernel, by unfold HoldsFrame; decide +kernel⟩,
    ⟨by decide +kernel, by unfold HoldsFrame; decide +kernel⟩⟩

theorem witness_FullPageIsCommitted :
    DataPacketWaiting (receivedAt 63 1016 []) oneToEight ∧ PageBufOk (receivedAt 63 1016 []).hid.pageBuf ∧
    ((receivedAt 63 1016 []).hid.pageOffset.toNat = 1016 ∧
      (receivedAt 63 1016 []).hid.pageIndex.toNat < (receivedAt 63 1016 []).par.flashPages.toNat) ∧
    (receivedAt 64 1016 []).par.flashPages.toNat ≤ (receivedAt 64 1016 []).hid.pageIndex.toNat :=
  ⟨(witness_waiting _ _ _).1, ⟨rfl, fun c h => by cases h⟩, by decide +kernel, by decide +kernel⟩

/-! The main line -/

theorem witness_InitializeBringsUp : DispatcherIdle sConf := by decide +kernel

theorem witness_ShutdownBringsDown : DispatcherIdle sConf := by decide +kernel

theorem witness_HardwareResets : FlashOk sErasing.par sErasing.flash ∧ DispatcherIdle sErasing :=
  ⟨⟨by decide +kernel, by decide +kernel⟩, by decide +kernel⟩

theorem witness_EvaluateAndLaunch :
    (DispatcherIdle sImage ∧ sImage.par.flashOk ∧ sImage.boot.state = .evaluate) ∧
    (DispatcherIdle (after .bootEvaluate sImage) ∧ (after .bootEvaluate sImage).boot.state = .launch) ∧
    (after .bootEvaluate sHw).boot.state = .updateMode := by decide +kernel

theorem witness_StackPointerTest : Params.default.sramBase = 0x20000000 := rfl

/-- The main line at a step of UpdateMode. -/
def sUpdating (um : UmStep) : State := sConf.withBoot { sConf.boot with state := .updateMode, um := um }

theorem witness_UpdateModeSequence :
    DispatcherIdle sConf ∧ sConf.boot.state ≠ .updateMode ∧
    (∀ um ∈ [UmStep.shutdownFirst, .bringUp, .poll, .blink, .shutdownLast, .reset],
      DispatcherIdle (sUpdating um) ∧ (sUpdating um).boot.state = .updateMode ∧ (sUpdating um).boot.um = um) ∧
    FlashOk (sUpdating .reset).par (sUpdating .reset).flash :=
  ⟨by decide +kernel, by decide +kernel, by decide +kernel, by decide +kernel, by decide +kernel⟩

end Sys2Proof.Tests
end

section
/-! PROOFS. The step on an operation, and when an operation is held (00_scope.md R9). -/

namespace Sys2Proof.Machine

variable {s : State} {i : Instr}

/-! ### The step on an operation -/

/-- With no fault recorded, the step offers the decoded operation to the agents. -/
theorem step_op {f : Format} {bytes : List Byte} {rest : List Stimulus} (hfaults : s.faults = [])
    (hinput : s.input = .op f bytes :: rest) (hdecode : decode f bytes = .ok i) :
    step s = stepOp i { s with input := rest, result := .none } := by
  simp only [step, hfaults, hinput, stepStimulus, hdecode]

/-- The hardware resets are HW.RESET and HW.POWERLOSS (40_boot_controller_interface.md R139). -/
theorem isHardwareReset_eq_false_iff : isHardwareReset i = false ↔ i ≠ .hwReset ∧ i ≠ .hwPowerloss := by
  cases i <;> simp [isHardwareReset]

/-- After BOOT.LAUNCH an operation is held unless it is one of the two hardware resets (40 R136, R141). -/
theorem stepOp_eq (i : Instr) (s : State) :
    stepOp i s = if s.boot.launched = true ∧ i ≠ .hwReset ∧ i ≠ .hwPowerloss then .next s else exec i s :=
  if_congr (and_congr_right fun _ => isHardwareReset_eq_false_iff) rfl rfl

/-- Settles O5: the step takes the stimulus off (`step_op`), and the hold after BOOT.LAUNCH is `stepOp_eq`. -/
theorem stepRunsDecodedOperation : Obligations.StepRunsDecodedOperation := by
  intro s f bytes rest i hfaults hinput hdecode _
  rw [step_op hfaults hinput hdecode, stepOp_eq]

/-! ### Held agents -/

/-- MAIN is held while the dispatcher is not idle (00_scope.md R9, 60_exceptions.md R333). -/
theorem mainStep_held (r : Res State) (hdisp : s.disp.state ≠ .idle) : mainStep s r = .next s := if_neg hdisp

/-- A routine of the interrupt context is held while `writePage` runs (46_flash_page_programmer.md R292). -/
theorem unitStep_held (r : Res State) (hseq : s.fseq.state ≠ .idle) : unitStep s r = .next s := if_neg hseq

/-- A dispatcher step is held while `writePage` runs (46_flash_page_programmer.md R292). -/
theorem dispStep_held (x : DispState) (r : Res State) (hseq : s.fseq.state ≠ .idle) : dispStep s x r = .next s :=
  if_neg fun h => hseq h.2

/-- A dispatcher step out of its turn is held (43_usb_packet_dispatcher.md R221, R222). -/
theorem dispStep_outOfTurn {x : DispState} (r : Res State) (hturn : s.disp.state ≠ x) : dispStep s x r = .next s :=
  if_neg fun h => hturn h.1

/-- No interrupt is taken while `writePage` runs (43_usb_packet_dispatcher.md R220, 46 R292). -/
theorem interruptTaken_eq_false_of_writePage (hseq : s.fseq.state ≠ .idle) : interruptTaken s = false := by
  simp [interruptTaken, hseq]

/-- DISP.ENTER is held while `writePage` runs. -/
theorem execDispEnter_held (hseq : s.fseq.state ≠ .idle) : execDispEnter s = .next s := by
  simp [execDispEnter, interruptTaken_eq_false_of_writePage hseq]

/-- DISP.CTR is held out of its turn when it is not the flash sequencer's step (43 R222). -/
theorem execDispCtr_outOfTurn (hseq : SequencerIdle s) (hturn : s.disp.state ≠ .doCtr) : execDispCtr s = .next s := by
  rw [execDispCtr, if_pos hseq, dispStep_outOfTurn _ hturn]

/-- Every routine that a test may call by itself is held while `writePage` runs: EVT.NONE is a dispatcher step, the
others are unit steps (46_flash_page_programmer.md R292, 70_reset_and_hazards.md R374). -/
theorem exec_unitRoutine_held (hunit : isUnitRoutine i = true) (hseq : s.fseq.state ≠ .idle) :
    exec i s = .next s := by
  cases i <;> cases hunit
  case evtNone => exact dispStep_held .read _ hseq
  all_goals exact unitStep_held _ hseq

/-- Settles O16: MAIN by `mainStep_held`, the interrupt context under a running `writePage` by `exec_unitRoutine_held` and
`dispStep_held`, the dispatcher's turns by `dispStep_outOfTurn`. -/
theorem heldOperations : Obligations.HeldOperations := by
  refine ⟨fun s hdisp => ?main, fun i s hseq hi => ?interrupt, fun s hseq => ?turns⟩
  case main =>
    exact ⟨mainStep_held _ hdisp, mainStep_held _ hdisp, mainStep_held _ hdisp, mainStep_held _ hdisp,
      mainStep_held _ hdisp, mainStep_held _ hdisp⟩
  case interrupt =>
    rcases hi with hunit | rfl | rfl | rfl | rfl | rfl
    · exact exec_unitRoutine_held hunit hseq
    · exact execDispEnter_held hseq
    · exact dispStep_held .read _ hseq
    · exact dispStep_held .doReset _ hseq
    · exact dispStep_held .doSusp _ hseq
    · exact dispStep_held .doWkup _ hseq
  case turns =>
    exact ⟨dispStep_outOfTurn _, execDispCtr_outOfTurn hseq, dispStep_outOfTurn _, dispStep_outOfTurn _,
      dispStep_outOfTurn _⟩

end Sys2Proof.Machine
end

section
/-! PROOFS. The state after reset and the register words: the reset state meets the invariants, EPnR holds its fields at their
bits, the derived status bits and signals follow from the registers (10_state.md R23, R26, R29, R50). -/

namespace Sys2Proof.Machine

/-! ### The state after reset -/

/-- The state after reset meets the invariant: memories empty, counts zero, the flash unit at rest (10_state.md R50). -/
theorem inv_reset : Inv State.reset where
  params := by decide
  pma := ⟨rfl, fun _ h => nomatch h⟩
  pageBuf := ⟨rfl, fun _ h => nomatch h⟩
  flash := ⟨rfl, fun _ h => nomatch h⟩
  ets0 := ⟨rfl, rfl, by decide⟩
  ets1 := ⟨rfl, rfl, by decide⟩
  callbacks := fun h => nomatch h
  table := rfl
  control := ⟨by decide, by simp [State.reset, FlashCtl.reset], by decide, trivial⟩
  cursor := by unfold CursorOk; decide
  snap := by decide
  sequencer := ⟨trivial, fun h => absurd rfl h⟩

/-- Settles O7: at reset no `writePage` runs and no flash operation is in progress. -/
theorem resetMeetsTheInvariants : Obligations.ResetMeetsTheInvariants :=
  ⟨inv_reset, ⟨inv_reset, fun h => absurd rfl h, trivial⟩, by decide, by decide⟩

/-! ### Register words -/

/-- A field is the value that has its bits. -/
theorem field_eq_of_bits {n k lo : Nat} {v : BitVec n} {x : BitVec k}
    (h : ∀ i, i < k → v.getLsbD (lo + i) = x.getLsbD i) : field v lo k = x := by
  apply BitVec.eq_of_getLsbD_eq
  intro i hi
  rw [field, BitVec.getLsbD_extractLsb', h i hi]
  simp [hi]

section EpRegFields
variable (r : EpReg)

theorem EpReg.field_ea : field r.toHalf 0 4 = r.ea :=
  field_eq_of_bits fun i hi => by rw [EpReg.getLsbD_toHalf]; interval_cases i <;> simp

theorem EpReg.field_statTx : field r.toHalf 4 2 = r.statTx.code :=
  field_eq_of_bits fun i hi => by rw [EpReg.getLsbD_toHalf]; interval_cases i <;> simp

theorem EpReg.field_epType : field r.toHalf 9 2 = r.epType.code :=
  field_eq_of_bits fun i hi => by rw [EpReg.getLsbD_toHalf]; interval_cases i <;> simp

theorem EpReg.field_statRx : field r.toHalf 12 2 = r.statRx.code :=
  field_eq_of_bits fun i hi => by rw [EpReg.getLsbD_toHalf]; interval_cases i <;> simp

theorem EpReg.reserved_zero : r.toHalf &&& 0x4140 = 0 := by
  apply BitVec.eq_of_getLsbD_eq
  intro i hi
  rw [BitVec.getLsbD_and, EpReg.getLsbD_toHalf]
  interval_cases i <;> simp

end EpRegFields

/-- Bit `i` of the masked interrupt status: each flag with its mask (10_state.md R23). -/
theorem Usb.getLsbD_maskedStatus (u : Usb) (i : Nat) : u.maskedStatus.getLsbD i =
    if i = 10 then u.istr.reset && u.cntr.resetm else if i = 11 then u.istr.susp && u.cntr.suspm
    else if i = 12 then u.istr.wkup && u.cntr.wkupm else if i = 15 then u.ctr && u.cntr.ctrm else false := by
  by_cases hi : i < 16
  · simp only [Usb.maskedStatus, BitVec.getLsbD_and, Usb.getLsbD_istrHalf, Cntr.getLsbD_toHalf]
    interval_cases i <;> simp
  · rw [BitVec.getLsbD_of_ge _ _ (by omega), if_neg (by omega), if_neg (by omega), if_neg (by omega), if_neg (by omega)]

/-- A flag is up with its mask exactly when the masked status is not zero. -/
theorem Usb.maskedStatus_ne_zero_iff (u : Usb) : u.maskedStatus ≠ 0 ↔
    (u.ctr = true ∧ u.cntr.ctrm = true) ∨ (u.istr.reset = true ∧ u.cntr.resetm = true) ∨
      (u.istr.susp = true ∧ u.cntr.suspm = true) ∨ (u.istr.wkup = true ∧ u.cntr.wkupm = true) := by
  have hbits := u.getLsbD_maskedStatus
  constructor
  · intro hne
    by_contra hflags
    simp only [not_or, ← Bool.and_eq_true, Bool.not_eq_true] at hflags
    refine hne (BitVec.eq_of_getLsbD_eq fun i _ => ?_)
    rw [hbits]
    simp [hflags]
  · intro hflags hzero
    have hclear (i : Nat) := (hbits i).symm.trans ((congrArg (·.getLsbD i) hzero).trans BitVec.getLsbD_zero)
    rcases hflags with ⟨hflag, hmask⟩ | ⟨hflag, hmask⟩ | ⟨hflag, hmask⟩ | ⟨hflag, hmask⟩
    · simpa [hflag, hmask] using hclear 15
    · simpa [hflag, hmask] using hclear 10
    · simpa [hflag, hmask] using hclear 11
    · simpa [hflag, hmask] using hclear 12

/-- An endpoint register has a completion pending (10_state.md R23). -/
theorem EpReg.completed_iff (r : EpReg) : r.completed = true ↔ r.ctrRx = true ∨ r.ctrTx = true := by
  simp [EpReg.completed]

section UsbStatus
variable (u : Usb)

/-- ISTR.CTR. -/
theorem Usb.istrHalf_ctr : bit u.istrHalf 15 = u.ctr := Usb.getLsbD_istrHalf u 15

/-- ISTR.DIR. -/
theorem Usb.istrHalf_dir : bit u.istrHalf 4 = u.dir := Usb.getLsbD_istrHalf u 4

/-- ISTR.EP_ID. -/
theorem Usb.istrHalf_epId : field u.istrHalf 0 4 = u.epId :=
  field_eq_of_bits fun i hi => by rw [Usb.getLsbD_istrHalf, Nat.zero_add, if_pos hi]

theorem Usb.ctr_iff : u.ctr = true ↔
    u.ep0.ctrRx = true ∨ u.ep0.ctrTx = true ∨ u.ep1.ctrRx = true ∨ u.ep1.ctrTx = true := by
  rw [Usb.ctr, Bool.or_eq_true, EpReg.completed_iff, EpReg.completed_iff, or_assoc]

theorem Usb.epId_eq : u.epId =
    if u.ep0.ctrRx = false ∧ u.ep0.ctrTx = false ∧ (u.ep1.ctrRx = true ∨ u.ep1.ctrTx = true) then 1 else 0 :=
  if_congr (by simp [EpReg.completed, and_assoc]) rfl rfl

theorem Usb.dir_eq : u.dir =
    if u.ep0.ctrRx = true ∨ u.ep0.ctrTx = true then u.ep0.ctrRx else u.ep1.ctrRx :=
  if_congr u.ep0.completed_iff rfl rfl

/-- The interrupt line: enabled, and a flag up with its mask (10_state.md R29). -/
theorem Usb.irqLine_iff : u.irqLine = true ↔ u.irqEn = true ∧ u.maskedStatus ≠ 0 := by
  simp [Usb.irqLine]

theorem Usb.attached_iff : u.attached = true ↔ u.dpForceLow = false ∧ u.cntr.pdwn = false ∧ u.cntr.fres = false := by
  simp [Usb.attached, and_assoc]

/-- `Lookup(e)` finds endpoint register 0 exactly when its EA is `e`. -/
theorem Usb.lookup_eq_ep0_iff (e : Byte) : u.lookup e = some .ep0 ↔ u.ep0.ea.toNat = e.toNat := by
  unfold Usb.lookup
  split_ifs <;> simp_all

/-- `Lookup(e)` finds endpoint register 1 exactly when its EA is `e` and the lower one's is not. -/
theorem Usb.lookup_eq_ep1_iff (e : Byte) :
    u.lookup e = some .ep1 ↔ u.ep0.ea.toNat ≠ e.toNat ∧ u.ep1.ea.toNat = e.toNat := by
  unfold Usb.lookup
  split_ifs <;> simp_all

end UsbStatus

/-- Settles O17: EPnR field by field, then the derived bits and signals one by one. -/
theorem wordLayoutAndDerivedStatus : Obligations.WordLayoutAndDerivedStatus := by
  refine ⟨fun r => ?layout, fun u => ?derived⟩
  case layout =>
    refine ⟨r.field_ea, r.getLsbD_toHalf 7, r.getLsbD_toHalf 11, r.getLsbD_toHalf 15, ?statTx, ?epType, ?statRx,
      r.reserved_zero⟩
    case statTx => rw [r.field_statTx]; cases r.statTx <;> rfl
    case epType => rw [r.field_epType]; cases r.epType <;> rfl
    case statRx => rw [r.field_statRx]; cases r.statRx <;> rfl
  case derived =>
    refine ⟨?_, ?_, ?_, ?_, u.attached_iff, fun e => ⟨u.lookup_eq_ep0_iff e, u.lookup_eq_ep1_iff e⟩⟩
    · rw [u.istrHalf_ctr, u.ctr_iff]
    · rw [u.istrHalf_epId, u.epId_eq]
    · rw [u.istrHalf_dir, u.dir_eq]
    · rw [u.irqLine_iff, u.maskedStatus_ne_zero_iff, u.istrHalf_ctr]

end Sys2Proof.Machine
end

section
/-! PROOFS. What an operation can do, said once (`exec_leaves`): the handlers' frame, the endpoint service, the sequencer's step and
MAIN, and what follows of it for every operation and every step (10_state.md R46, R48). -/

namespace Sys2Proof.Machine

open Host (Outcome)

variable {s t : State}

/-! ### The ends of a part of a rule -/

section Ends
variable {α : Type} {P P' : α → Prop} {Q Q' : State → Prop}

/-- What is known of both ends separately is known together. -/
theorem Res.post_and {r : Res α} (h : r.post P Q) (h' : r.post P' Q') :
    r.post (fun a => P a ∧ P' a) (fun u => Q u ∧ Q' u) := by
  match r, h, h' with
  | .ok _, h, h' => exact ⟨h, h'⟩
  | .error (.raised _ _), h, h' => exact ⟨h, h'⟩
  | .error (.refused _), _, _ => trivial

/-- What is known of both ends under a condition. -/
theorem Res.post_of_imp {r : Res α} {A : Prop} (h : A → r.post P Q) : r.post (fun a => A → P a) (fun u => A → Q u) := by
  match r, h with
  | .ok _, h => exact h
  | .error (.raised _ _), h => exact h
  | .error (.refused _), _ => trivial

end Ends

/-! ### What the handlers leave alone -/

/-- A handler of the interrupt context works on the USB side, the dispatcher and unit H: the flash unit, the boot controller
and the environment are left alone. -/
abbrev HandlerFrame (s t : State) : Prop :=
  t = { s with usb := t.usb, pma := t.pma, drv := t.drv, disp := t.disp, hid := t.hid, result := t.result }

theorem HandlerFrame.refl (s : State) : HandlerFrame s s := rfl

theorem HandlerFrame.trans {u : State} (h : HandlerFrame s t) (k : HandlerFrame t u) : HandlerFrame s u := by
  rw [HandlerFrame, k, h]

theorem UsbSide.handlerFrame (h : UsbSide s t) : HandlerFrame s t := by rw [HandlerFrame, h.frame]

theorem SourcesFrame.handlerFrame (h : SourcesFrame s t) : HandlerFrame s t := by rw [HandlerFrame, h]

theorem HandlerFrame.fseq (h : HandlerFrame s t) : t.fseq = s.fseq := by rw [h]

theorem HandlerFrame.fctl (h : HandlerFrame s t) : t.fctl = s.fctl := by rw [h]

theorem HandlerFrame.par (h : HandlerFrame s t) : t.par = s.par := by rw [h]

/-- Both ends of a routine of the USB side. -/
theorem handlerFrame_of_usbSide {r : Res State} (h : r.post (UsbSide s) (UsbSide s)) :
    r.post (HandlerFrame s) (HandlerFrame s) :=
  Res.post_mono h (fun _ k => k.handlerFrame) fun _ k => k.handlerFrame

theorem appendPacket_handlerFrame (s : State) (rx : Packet8) :
    (appendPacket s rx).post (HandlerFrame s) (HandlerFrame s) :=
  Res.post_mono (appendPacket_post s rx) (fun _ h => by rw [HandlerFrame, h.1]; rfl) fun _ h => h ▸ HandlerFrame.refl s

theorem runCommand_handlerFrame (s : State) (opcode : Byte) : HandlerFrame s (runCommand s opcode) := by
  unfold runCommand
  split_ifs <;> rfl

/-- A handler after a handler. -/
theorem handlerFrame_after {r : Res State} (h : HandlerFrame s t) (hr : r.post (HandlerFrame t) (HandlerFrame t)) :
    r.post (HandlerFrame s) (HandlerFrame s) :=
  Res.post_mono hr (fun _ k => h.trans k) fun _ k => h.trans k

/-- The rest of a commit (46_flash_page_programmer.md R292). -/
theorem finishCommit_handlerFrame (s : State) : (finishCommit s).post (HandlerFrame s) (HandlerFrame s) := by
  unfold finishCommit
  refine Res.post_bind (handlerFrame_after rfl (handlerFrame_of_usbSide (acknowledge_post _))) fun u hu => ?_
  exact handlerFrame_after hu (handlerFrame_of_usbSide (afterReceive_post u .ep0))

/-- What F_LOCK goes on with (46_flash_page_programmer.md R292). -/
theorem continueCaller_handlerFrame (s : State) : (continueCaller s).post (HandlerFrame s) (HandlerFrame s) := by
  unfold continueCaller
  split
  · rfl
  · exact finishCommit_handlerFrame s
  · exact Res.post_bind (finishCommit_handlerFrame s) fun u hu => hu.trans (laterThanCtr_frame _ u).handlerFrame
  · exact Res.post_bind (finishCommit_handlerFrame s) fun u hu => hu.trans (t := u) rfl

/-! ### The endpoint service: a handler that may begin a page commit -/

/-- The page commit at the cursor, begun in a state (45_hid_reassembly_commands.md R266). -/
def commitBegun (s : State) (caller : Caller) : State :=
  s.withFseq ⟨.unlock, pageAddress s.par s.hid.pageIndex, 0, .pageBuf, caller⟩

/-- What the endpoint service leaves: a handler's state, or the page commit at the cursor begun in one
(42_usb_endpoint_buffer_manager.md R190, 46_flash_page_programmer.md R292). -/
def ServiceEnd (caller : Caller) (s t : State) : Prop :=
  ∃ u, HandlerFrame s u ∧ (t = u ∨ t = commitBegun u caller)

theorem HandlerFrame.serviceEnd (h : HandlerFrame s t) (caller : Caller) : ServiceEnd caller s t := ⟨t, h, .inl rfl⟩

/-- Both ends of a handler. -/
theorem serviceEnd_of_handlerFrame {r : Res State} (caller : Caller) (h : r.post (HandlerFrame s) (HandlerFrame s)) :
    r.post (ServiceEnd caller s) (HandlerFrame s) :=
  Res.post_mono h (fun _ k => k.serviceEnd caller) fun _ k => k

/-- The service after a handler. -/
theorem serviceEnd_after {r : Res State} {caller : Caller} (h : HandlerFrame s t)
    (hr : r.post (ServiceEnd caller t) (HandlerFrame t)) : r.post (ServiceEnd caller s) (HandlerFrame s) :=
  Res.post_mono hr (fun _ ⟨u, hu, hend⟩ => ⟨u, h.trans hu, hend⟩) fun _ k => h.trans k

/-- The start of a page commit (45_hid_reassembly_commands.md R266). -/
theorem commitPage_end (s : State) (caller : Caller) :
    (commitPage s caller).post (· = commitBegun s caller) (HandlerFrame s) := by
  unfold commitPage
  split
  · rfl
  · unfold startWritePage
    split
    · trivial
    · rfl

/-- `HidData` (45_hid_reassembly_commands.md R261). -/
theorem hidData_end (s : State) (rx : Packet8) (caller : Caller) :
    (hidData s rx caller).post (ServiceEnd caller s) (HandlerFrame s) := by
  unfold hidData
  refine Res.post_bind (appendPacket_handlerFrame s rx) fun u hu => ?_
  split_ifs
  · exact (hu.trans (runCommand_handlerFrame u _)).serviceEnd caller
  · exact Res.post_mono (commitPage_end u caller) (fun _ k => ⟨u, hu, .inr k⟩) fun _ k => hu.trans k
  · exact hu.serviceEnd caller

/-- The endpoint service (42_usb_endpoint_buffer_manager.md R190). -/
theorem epService_end (s : State) (e : Ep) (caller : Caller) :
    (epService s e caller).post (ServiceEnd caller s) (HandlerFrame s) := by
  have hrest : ∀ u, HandlerFrame s u → (afterReceive u e).post (HandlerFrame s) (HandlerFrame s) := fun u hu =>
    handlerFrame_after hu (handlerFrame_of_usbSide (afterReceive_post u e))
  unfold epService
  split
  · refine Res.post_bind (handlerFrame_of_usbSide (takePacket_post s e)) fun u hu => ?_
    dsimp only
    split_ifs
    · refine Res.post_bind (handlerFrame_after hu (handlerFrame_of_usbSide (handleSetup_post u _))) fun v hv => ?_
      exact serviceEnd_of_handlerFrame caller (hrest v hv)
    · refine Res.post_bind (serviceEnd_after hu (hidData_end u _ caller)) fun v hv => ?_
      split
      · next hidle =>
        obtain ⟨w, hw, rfl | rfl⟩ := hv
        · exact serviceEnd_of_handlerFrame caller (hrest v hw)
        · exact nomatch hidle
      · exact hv
    · exact serviceEnd_of_handlerFrame caller (hrest u hu)
  · exact serviceEnd_of_handlerFrame caller (handlerFrame_of_usbSide (transmitHalf_post s e))

/-- Transfer-complete (43_usb_packet_dispatcher.md R222). -/
theorem serveEndpoint_end (s : State) (k : BitVec 4) (caller : Caller) :
    (serveEndpoint s k caller).post (ServiceEnd caller s) (HandlerFrame s) := by
  unfold serveEndpoint
  split
  · exact epService_end s _ caller
  · exact (HandlerFrame.refl s).serviceEnd caller

theorem serveCtr_end (s : State) (k : BitVec 4) (caller : Caller) :
    (serveCtr s k caller).post (ServiceEnd caller s) (HandlerFrame s) := by
  unfold serveCtr
  split
  · exact serveEndpoint_end s k caller
  · split
    · exact HandlerFrame.serviceEnd rfl caller
    · exact HandlerFrame.serviceEnd rfl caller

/-- What transfer-complete is followed by when it begins no commit. -/
theorem serviceEnd_then {caller : Caller} {f : State → State} (h : ServiceEnd caller s t) (hf : HandlerFrame t (f t)) :
    Res.post (ServiceEnd caller s) (HandlerFrame s) (if t.fseq.state = .idle then .ok (f t) else .ok t) := by
  split
  · next hidle =>
    obtain ⟨u, hu, rfl | rfl⟩ := h
    · exact (hu.trans hf).serviceEnd caller
    · exact nomatch hidle
  · exact h

/-- EVT.CTR (43_usb_packet_dispatcher.md R222, 30_encoding.md R118). -/
theorem serveEvent_end (s : State) (w : Half) :
    (serveEvent s w).post (ServiceEnd (.event w) s) (HandlerFrame s) :=
  Res.post_bind (serveCtr_end s _ _) fun u hu => serviceEnd_then hu (laterThanCtr_frame w u).handlerFrame

/-- DO_CTR (43_usb_packet_dispatcher.md R222). -/
theorem handleCtr_end (s : State) :
    (handleCtr s).post (ServiceEnd .dispatcher s) (HandlerFrame s) := by
  unfold handleCtr
  refine Res.post_bind (P' := ServiceEnd .dispatcher s) ?_ fun u hu => serviceEnd_then (f := (setDispState · .doReset)) hu rfl
  split
  · exact serveCtr_end s _ _
  · exact (HandlerFrame.refl s).serviceEnd _

/-! ### The flash sequencer's step -/

/-- The block's own part of the state: everything but the parameters, the flash array, the boot controller, the fault record and
the stimuli. -/
abbrev BlockFrame (s t : State) : Prop :=
  t = { s with usb := t.usb, pma := t.pma, drv := t.drv, disp := t.disp, hid := t.hid, fctl := t.fctl, fseq := t.fseq,
               result := t.result }

theorem HandlerFrame.blockFrame (h : HandlerFrame s t) : BlockFrame s t := by rw [BlockFrame, h]

theorem FctlSide.blockFrame (h : FctlSide s t) : BlockFrame s t := by rw [BlockFrame, h.frame]

theorem ServiceEnd.blockFrame {caller : Caller} (h : ServiceEnd caller s t) : BlockFrame s t := by
  obtain ⟨u, hu, rfl | rfl⟩ := h
  · exact hu.blockFrame
  · rw [BlockFrame, hu]; rfl

/-- A `writePage` goes on as before: the sequencer may move on and count, its address and its caller stay, and so does the
cursor (46_flash_page_programmer.md R291). -/
structure SequencerMoved (s t : State) : Prop where
  frame : t = { s with fctl := t.fctl, fseq := t.fseq }
  addr : t.fseq.addr = s.fseq.addr
  caller : t.fseq.caller = s.fseq.caller

/-- What a step of the sequencer leaves: `writePage` goes on, or it is over and its caller has gone on
(46_flash_page_programmer.md R291, R292). -/
def SequencerEnd (s t : State) : Prop :=
  SequencerMoved s t ∨ ∃ u, FctlSide s u ∧ HandlerFrame (setFseqState u .idle) t

/-- A step of the sequencer starts nothing but the erase at its address, in F_ERASE, and the program of its halfword, in F_PROG
(46_flash_page_programmer.md R291). -/
def SequencerStarts (s t : State) : Prop :=
  t.fctl.pendingOp = s.fctl.pendingOp ∨
  (s.fseq.state = .erase ∧ t.fctl.pendingOp = .erase s.fseq.addr) ∨
  (s.fseq.state = .prog ∧ ∃ h, t.fctl.pendingOp = .prog (s.fseq.addr + 2 * zext32 s.fseq.i) h)

theorem SequencerEnd.blockFrame (h : SequencerEnd s t) : BlockFrame s t := by
  rcases h with h | ⟨u, hu, ht⟩
  · rw [BlockFrame, h.frame]
  · rw [BlockFrame, ht, setFseqState, hu.frame]; rfl

theorem SequencerMoved.refl (s : State) : SequencerMoved s s := ⟨rfl, rfl, rfl⟩

/-- The controller's registers written. -/
theorem FctlSide.sequencerMoved (h : FctlSide s t) : SequencerMoved s t := ⟨by rw [h.frame], by rw [h.fseq], by rw [h.fseq]⟩

/-- The controller's registers written and the sequencer moved on. -/
theorem FctlSide.setFseqState (h : FctlSide s t) (x : FseqState) : SequencerMoved s (setFseqState t x) :=
  ⟨by rw [Machine.setFseqState, h.frame]; rfl, by rw [Machine.setFseqState, h.frame]; rfl,
    by rw [Machine.setFseqState, h.frame]; rfl⟩

/-- A write to FLASH_CR without STRT raises nothing and starts nothing (46_flash_page_programmer.md R294). -/
theorem writeCr_noStart {v : Word} (s : State) (hv : bit v 6 = false) :
    (writeCr s v).post (fun t => FctlSide s t ∧ t.fctl.pendingOp = s.fctl.pendingOp) (fun _ => False) := by
  refine Res.post_mono (Res.post_and (writeCr_mode_post s (by simp [hv])) (writeCr_pending s v)) (fun t ht => ?_) fun _ h => h.1
  obtain ⟨hside, _, hpend | ⟨_, hstrt, _⟩, _⟩ := ht
  · exact ⟨hside, hpend⟩
  · exact absurd hstrt (by simp [hv])

/-- A byte of the data operand is there or the read raises in the state itself (46_flash_page_programmer.md R291). -/
theorem sourceByte_post (s : State) (k : Nat) : (sourceByte s k).post (fun _ => True) (· = s) := by
  unfold sourceByte
  split
  · split
    · trivial
    · rfl
  · split
    · trivial
    · rfl

/-- F_PROG writes the halfword of its index (46_flash_page_programmer.md R291, R296). -/
theorem fseqStep_prog (hstate : s.fseq.state = .prog) :
    (fseqStep s).post (fun t => SequencerMoved s t ∧ SequencerStarts s t)
      (fun t => SequencerMoved s t ∧ SequencerStarts s t) := by
  unfold fseqStep
  rw [hstate]
  refine Res.post_bind (Res.post_mono (writeCr_noStart s (by decide)) (fun _ h => h) fun _ h => h.elim) fun u hu => ?_
  obtain ⟨hu, hpend⟩ := hu
  have hstay : SequencerMoved s u ∧ SequencerStarts s u := ⟨hu.sequencerMoved, .inl hpend⟩
  refine Res.post_bind (Res.post_mono (sourceByte_post u _) (fun _ h => h) fun _ h => h ▸ hstay) fun b0 _ => ?_
  refine Res.post_bind (Res.post_mono (sourceByte_post u _) (fun _ h => h) fun _ h => h ▸ hstay) fun b1 _ => ?_
  have hwrite := Res.post_and (writeFlash_post u .w16 (u.fseq.addr + 2 * zext32 u.fseq.i) (le16 b0 b1))
    (writeFlash_pending u .w16 (u.fseq.addr + 2 * zext32 u.fseq.i) (le16 b0 b1))
  refine Res.post_bind (Res.post_mono hwrite (fun _ h => h) ?_) ?_
  · rintro v ⟨hv, hsame⟩
    exact ⟨(hu.trans hv).sequencerMoved, .inl (hsame.trans hpend)⟩
  · rintro v ⟨hv, hstart⟩
    refine ⟨(hu.trans hv).setFseqState _, ?_⟩
    rw [hu.fseq] at hstart
    rcases hstart with hsame | hprog
    · exact .inl (hsame.trans hpend)
    · exact .inr (.inr ⟨hstate, _, hprog⟩)

/-- One step of the sequencer (46_flash_page_programmer.md R291, R292). -/
theorem fseqStep_end (s : State) :
    (fseqStep s).post (fun t => SequencerEnd s t ∧ SequencerStarts s t) (fun t => SequencerEnd s t ∧ SequencerStarts s t) := by
  have hstay : SequencerEnd s s ∧ SequencerStarts s s := ⟨.inl (.refl s), .inl rfl⟩
  have hmove : ∀ x, SequencerEnd s (setFseqState s x) ∧ SequencerStarts s (setFseqState s x) := fun x =>
    ⟨.inl ((FctlSide.refl s).setFseqState x), .inl rfl⟩
  cases hstate : s.fseq.state
  case prog =>
    exact Res.post_mono (fseqStep_prog hstate) (fun _ h => ⟨.inl h.1, h.2⟩) fun _ h => ⟨.inl h.1, h.2⟩
  all_goals
    unfold fseqStep
    rw [hstate]
    dsimp only
  case idle => exact hstay
  case unlock => exact ⟨.inl ((unlockFlash_side s).setFseqState _), .inl (unlockFlash_pending s)⟩
  case waitIdle =>
    split
    · exact hstay
    · exact hmove _
  case erase =>
    refine Res.post_bind (Res.post_mono (Res.post_and (startErase_post s _) (startErase_pending s _)) (fun _ h => h) ?_) ?_
    · rintro u ⟨hu, hsame⟩
      exact ⟨.inl hu.sequencerMoved, .inl hsame⟩
    · rintro u ⟨hu, hstart⟩
      refine ⟨.inl (hu.setFseqState _), ?_⟩
      rcases hstart with hsame | herase
      · exact .inl hsame
      · exact .inr (.inl ⟨hstate, herase⟩)
  case waitErase =>
    split
    · exact hstay
    · refine Res.post_bind (Res.post_mono (writeCr_noStart s (by decide)) (fun _ h => h) fun _ h => h.elim) ?_
      rintro u ⟨hu, hsame⟩
      exact ⟨.inl (hu.setFseqState _), .inl hsame⟩
  case waitProg =>
    split
    · exact hstay
    · split
      · exact ⟨.inl ⟨rfl, rfl, rfl⟩, .inl rfl⟩
      · refine Res.post_bind (Res.post_mono (writeCr_noStart _ (by decide)) (fun _ h => h) fun _ h => h.elim) ?_
        rintro u ⟨hu, hsame⟩
        have hmoved := hu.setFseqState .lock
        exact ⟨.inl ⟨by rw [hmoved.frame]; rfl, hmoved.addr, hmoved.caller⟩, .inl hsame⟩
  case lock =>
    refine Res.post_bind (Res.post_mono (writeCr_noStart s (by decide)) (fun _ h => h) fun _ h => h.elim) ?_
    rintro u ⟨hu, hsame⟩
    have hend : ∀ t, HandlerFrame (setFseqState u .idle) t → SequencerEnd s t ∧ SequencerStarts s t := fun t ht =>
      ⟨.inr ⟨u, hu, ht⟩, .inl (by rw [ht.fctl]; exact hsame)⟩
    exact Res.post_mono (continueCaller_handlerFrame _) hend hend

/-! ### What an operation can do -/

/-- Everything but the parameters, the flash array, the fault record and the stimuli. -/
abbrev MainFrame (s t : State) : Prop :=
  t = { s with usb := t.usb, pma := t.pma, drv := t.drv, disp := t.disp, hid := t.hid, fctl := t.fctl, fseq := t.fseq,
               boot := t.boot, result := t.result }

/-- What an operation leaves, a recorded fault aside: a change inside the block that keeps the invariant and the Magic Word, the
Magic Word read and cleared, a flash operation completed, or a hardware reset. -/
inductive Effect (i : Instr) (s : State) : State → Prop
  | inside {t : State} (frame : MainFrame s t) (magic : t.boot.magic = s.boot.magic) (inv : Inv s → Inv t) : Effect i s t
  | evaluated {t : State} (op : i = .bootEvaluate) (frame : MainFrame s t) (magic : t.boot.magic = 0) (inv : Inv s → Inv t) :
      Effect i s t
  | completed (op : i = .flashcComplete) : Effect i s (completeFlash s)
  | reset (op : i = .hwReset ∨ i = .bootSysreset ∨ i = .bootUpdatemode) : Effect i s (hardwareReset s s.boot.magic)
  | powerLost (op : i = .hwPowerloss) : Effect i s (hardwareReset s 0x0000)

/-- The next state: an effect of the operation, or one with the fault that was raised in it (60_exceptions.md R322). -/
def Leaves (i : Instr) (s t : State) : Prop := ∃ u, Effect i s u ∧ (t = u ∨ ∃ f, t = recordFault u f)

section Leaves
variable {i : Instr} {r : Res State}

theorem Effect.refl (i : Instr) (s : State) : Effect i s s := .inside rfl rfl id

theorem Effect.leaves (h : Effect i s t) : Leaves i s t := ⟨t, h, .inl rfl⟩

theorem BlockFrame.effect (h : BlockFrame s t) (hinv : Inv s → Inv t) : Effect i s t :=
  .inside (by rw [MainFrame, h]) (by rw [h]) hinv

theorem UsbSide.effect (h : UsbSide s t) : Effect i s t := h.handlerFrame.blockFrame.effect h.inv

/-- Both ends of a routine. -/
abbrev Effects (i : Instr) (s : State) (r : Res State) : Prop := r.post (Effect i s) (Effect i s)

/-- A routine of the block that keeps the invariant. -/
theorem effects_of_block (hframe : r.post (BlockFrame s) (BlockFrame s)) (hinv : Inv s → KeepsInv r) : Effects i s r :=
  Res.post_mono (Res.post_and hframe (Res.post_of_imp hinv)) (fun _ h => h.1.effect h.2) fun _ h => h.1.effect h.2

/-- A routine of the USB side. -/
theorem effects_of_usbSide (h : r.post (UsbSide s) (UsbSide s)) : Effects i s r :=
  Res.post_mono h (fun _ k => k.effect) fun _ k => k.effect

/-- A routine of the flash controller's registers. -/
theorem effects_of_fctlSide (h : r.post (FctlSide s) (FctlSide s)) : Effects i s r :=
  Res.post_mono h (fun _ k => k.blockFrame.effect k.inv) fun _ k => k.blockFrame.effect k.inv

/-- A routine that may begin a page commit. -/
theorem effects_of_service {caller : Caller} (hend : r.post (ServiceEnd caller s) (HandlerFrame s))
    (hinv : Inv s → KeepsInv r) : Effects i s r :=
  effects_of_block (Res.post_mono hend (fun _ h => h.blockFrame) fun _ h => h.blockFrame) hinv

/-- A routine that ends normally. -/
theorem effects_ok (h : Effect i s t) : Effects i s (.ok t) := h

/-- A handler that ends normally. -/
theorem effects_of_handler {u : State} (hframe : HandlerFrame s u) (hinv : Inv s → Inv u) : Effects i s (.ok u) :=
  hframe.blockFrame.effect hinv

/-- A routine that runs in some states only. -/
theorem effects_ite {c : Prop} [Decidable c] (h : c → Effects i s r) : Effects i s (if c then r else .ok s) := by
  split
  · next hc => exact h hc
  · exact Effect.refl i s

/-- A routine behind a test of its operands. -/
theorem effects_unlessRefused {c : Prop} [Decidable c] {x : Refusal} (h : ¬c → Effects i s r) :
    Effects i s (if c then refuse x else r) := by
  split
  · trivial
  · next hc => exact h hc

/-- The outcome of a routine. -/
theorem leaves_finish (h : Effects i s r) (hnext : finish r = .next t) : Leaves i s t := by
  rcases finish_cases hnext with rfl | ⟨f, u, rfl, rfl⟩
  · exact Effect.leaves h
  · exact ⟨u, h, .inr ⟨f, rfl⟩⟩

/-- A routine of the interrupt context, held or run (46_flash_page_programmer.md R292). -/
theorem leaves_unitStep (h : s.fseq.state = .idle → Effects i s r) (hnext : unitStep s r = .next t) : Leaves i s t := by
  rcases unitStep_cases hnext with ⟨_, rfl⟩ | ⟨hidle, hnext⟩
  · exact (Effect.refl i _).leaves
  · exact leaves_finish (h hidle) hnext

/-- A step of MAIN, held or run (00_scope.md R9). -/
theorem leaves_mainStep (h : Effects i s r) (hnext : mainStep s r = .next t) : Leaves i s t := by
  rcases mainStep_cases hnext with ⟨_, rfl⟩ | ⟨_, hnext⟩
  · exact (Effect.refl i _).leaves
  · exact leaves_finish h hnext

/-- A dispatcher step is held, or it is the rule in its turn with the sequencer idle (43_usb_packet_dispatcher.md R220 to
R222). -/
theorem dispStep_cases {x : DispState} (h : dispStep s x r = .next t) :
    t = s ∨ ((s.disp.state = x ∧ s.fseq.state = .idle) ∧ finish r = .next t) := by
  unfold dispStep at h
  split at h
  · next hturn => exact .inr ⟨hturn, h⟩
  · cases h; exact .inl rfl

/-- A dispatcher step, held or run. -/
theorem leaves_dispStep {x : DispState} (h : s.disp.state = x → s.fseq.state = .idle → Effects i s r)
    (hnext : dispStep s x r = .next t) : Leaves i s t := by
  rcases dispStep_cases hnext with rfl | ⟨⟨hturn, hidle⟩, hnext⟩
  · exact (Effect.refl i _).leaves
  · exact leaves_finish (h hturn hidle) hnext

end Leaves

/-! ### The effects of the register accesses, the status read and MAIN -/

section Routines
variable {i : Instr}

theorem regRead_usbSide (s : State) (win : Window) (width : Width) (offset : Half) :
    (regRead s win width offset).post (UsbSide s) (UsbSide s) := by
  unfold regRead
  split
  · cases win <;> exact UsbSide.ofResult _
  · trivial

theorem flashRegWrite_fctlSide (s : State) (offset : Nat) (v : Word) :
    (flashRegWrite s offset v).post (FctlSide s) (FctlSide s) := by
  unfold flashRegWrite
  split
  · exact writeKeyr_side s v
  · exact writeCr_post s v
  · exact writeAr_post s v
  · exact FctlSide.refl s

theorem regWrite_effects (s : State) (win : Window) (width : Width) (offset : Half) (v : Word) :
    Effects i s (regWrite s win width offset v) := by
  refine effects_of_block ?_ fun hinv => regWrite_inv hinv win width offset v
  unfold regWrite
  split
  · cases win with
    | usbReg => rfl
    | flashReg => exact Res.post_mono (flashRegWrite_fctlSide s _ v) (fun _ h => h.blockFrame) fun _ h => h.blockFrame
  · trivial

theorem accessUsb_effects (s : State) (offset : Half) (acc : Access 16) : Effects i s (accessUsb s offset acc) := by
  cases acc with
  | read => exact effects_of_usbSide (regRead_usbSide s _ _ _)
  | write v => exact regWrite_effects s _ _ _ _

theorem accessFlashReg_effects (s : State) (offset : Half) (acc : Access 32) :
    Effects i s (accessFlashReg s offset acc) := by
  cases acc with
  | read => exact effects_of_usbSide (regRead_usbSide s _ _ _)
  | write v => exact regWrite_effects s _ _ _ _

/-- Entry of `writePage` by a direct call (46_flash_page_programmer.md R291). -/
theorem startWritePage_effects (s : State) (a : Word) (data : PageSource) (size : Half) :
    Effects i s (startWritePage s a data size .alone) := by
  refine effects_of_block ?_ fun hinv => startWritePage_inv hinv a data size .alone (fun h => absurd rfl h) nofun
  unfold startWritePage
  split
  · trivial
  · rfl

theorem appendPacket_effects (s : State) (rx : Packet8) : Effects i s (appendPacket s rx) :=
  effects_of_block
    (Res.post_mono (appendPacket_handlerFrame s rx) (fun _ h => h.blockFrame) fun _ h => h.blockFrame)
    fun hinv => appendPacket_inv hinv rx

/-- An operation of unit H by a recognised command (45_hid_reassembly_commands.md R264, R265). -/
theorem runCommand_effects (hidle : s.fseq.state = .idle) (opcode : Byte) : Effects i s (.ok (runCommand s opcode)) :=
  effects_of_handler (runCommand_handlerFrame s opcode) fun hinv => runCommand_inv hinv hidle opcode

theorem handlerFrame_session (s : State) (d : Driver) (x : Hid) (u : Usb) :
    HandlerFrame s (((s.withDrv d).withHid x).withUsb u) := rfl

/-- The bus-reset handler (45_hid_reassembly_commands.md R270). -/
theorem hidBusReset_handlerFrame (s : State) : HandlerFrame s (hidBusReset s) :=
  (epConfigure_side s).handlerFrame.trans (handlerFrame_session _ _ _ _)

theorem readStatus_handlerFrame (s : State) : HandlerFrame s (readStatus s) := by
  unfold readStatus
  dsimp only
  split <;> rfl

/-- The status read (43_usb_packet_dispatcher.md R221). -/
theorem readStatus_effects (hidle : s.fseq.state = .idle) : Effects i s (.ok (readStatus s)) :=
  effects_of_handler (readStatus_handlerFrame s) fun hinv => readStatus_inv hinv hidle

theorem serveEvent_inv (hinv : Inv s) (hidle : s.fseq.state = .idle) (w : Half) : KeepsInv (serveEvent s w) := by
  refine Res.post_bind (serveCtr_inv hinv hidle _ (.event w) nofun) fun u hu => ?_
  split
  · next huidle => exact laterThanCtr_inv hu huidle w
  · exact hu

/-- A source served, if its flag is up, and the dispatcher's next turn (43_usb_packet_dispatcher.md R222). -/
theorem turn_effects (hidle : s.fseq.state = .idle) {serve : State → State} {flag : Bool} (x : DispState)
    (hframe : SourcesFrame s (serve s)) (hinv : Inv s → Inv (serve s)) :
    Effects i s (.ok (setDispState (if flag then serve s else s) x)) := by
  cases flag with
  | false => exact effects_of_handler rfl fun h => setDispState_inv h hidle x
  | true =>
    refine effects_of_handler (hframe.handlerFrame.trans rfl) fun h => setDispState_inv (hinv h) ?_ x
    rw [hframe.handlerFrame.fseq]
    exact hidle

/-- BOOT.EVALUATE clears the Magic Word, whatever it then finds (40_boot_controller_interface.md R131). -/
theorem evaluate_effects (s : State) : Effects .bootEvaluate s (evaluate s) := by
  have hclear : Effect .bootEvaluate s (s.withBoot { s.boot with magic := 0 }) :=
    .evaluated rfl rfl rfl fun hinv => hinv.withBoot _
  unfold evaluate
  refine Res.post_bind (Res.post_mono (flashRead32_post _ _) (fun _ h => h) ?_) fun v _ => ?_
  · rintro _ rfl
    exact hclear
  · exact .evaluated rfl rfl rfl fun hinv => (hinv.withBoot _).withBoot _

/-- BOOT.LAUNCH (40_boot_controller_interface.md R136). -/
theorem launch_effects (s : State) : Effects i s (launch s) := by
  have hread : ∀ a, (flashRead32 s a).post (fun _ => True) (Effect i s) := fun a =>
    Res.post_mono (flashRead32_post s a) (fun _ h => h) fun _ h => h ▸ Effect.refl i s
  exact Res.post_bind (hread _) fun m _ => Res.post_bind (hread _) fun p _ => .inside rfl rfl fun hinv => hinv.withBoot _

theorem bringUp_effect (s : State) : Effect i s (bringUp s) := .inside rfl rfl bringUp_inv

theorem shutDown_effect (s : State) : Effect i s (shutDown s) := .inside rfl rfl shutDown_inv

/-- A MAIN step of UpdateMode (40_boot_controller_interface.md R135). -/
theorem updateModeStep_effect (s : State) : Effect .bootUpdatemode s (updateModeStep s) := by
  unfold updateModeStep
  split
  · exact .inside rfl rfl fun hinv => (shutDown_inv hinv).withBoot _
  · exact .inside rfl rfl fun hinv => (bringUp_inv hinv).withBoot _
  · exact .inside rfl rfl fun hinv => ((UsbSide.ofResult _).inv hinv).withBoot _
  · unfold blinkIdle
    dsimp only
    split
    · exact .inside rfl rfl fun hinv => hinv.withBoot _
    · exact .inside rfl rfl fun hinv => (hinv.withBoot _).withBoot _
  · exact .inside rfl rfl fun hinv => (shutDown_inv hinv).withBoot _
  · exact .reset (.inr (.inr rfl))

/-- BOOT.UPDATEMODE, enabled or not. -/
theorem updateMode_effects (s : State) :
    Effects .bootUpdatemode s (.ok (if s.boot.state = .updateMode then updateModeStep s else s)) := by
  split
  · exact updateModeStep_effect s
  · exact Effect.refl _ s

/-- EVT.NONE, enabled or not (log 19). -/
theorem emptyRead_effects (hidle : s.fseq.state = .idle) :
    Effects i s (.ok (if s.usb.snapshot &&& 0x9C00 = 0 then readStatus s else s)) := by
  split
  · exact readStatus_effects hidle
  · exact Effect.refl _ s

/-- An event on the bus, seen while attached (43_usb_packet_dispatcher.md R211 to R213). -/
theorem leaves_busEvent {u : Usb} (hirq : u.irqEn = s.usb.irqEn) (htable : u.btable = s.usb.btable)
    (h : Outcome.next (if s.usb.attached then s.withUsb u else s) = (.next t : Outcome State Fault Refusal)) :
    Leaves i s t := by
  cases h
  split
  · exact (UsbSide.ofUsb hirq htable).effect.leaves
  · exact (Effect.refl i s).leaves

/-- DISP.ENTER is held, or the interrupt is taken with the sequencer idle (43_usb_packet_dispatcher.md R220,
46_flash_page_programmer.md R292). -/
theorem execDispEnter_cases (h : execDispEnter s = .next t) :
    t = s ∨ (s.fseq.state = .idle ∧ t = enterInterrupt s) := by
  unfold execDispEnter at h
  split at h
  · next htaken =>
    obtain ⟨⟨_, hidle⟩, _⟩ : (s.disp.state = .idle ∧ s.fseq.state = .idle) ∧ s.usb.irqLine = true := by
      simpa [interruptTaken] using htaken
    cases h
    exact .inr ⟨hidle, rfl⟩
  · cases h
    exact .inl rfl

/-- DISP.ENTER. -/
theorem execDispEnter_leaves (h : execDispEnter s = .next t) : Leaves i s t := by
  rcases execDispEnter_cases h with rfl | ⟨hidle, rfl⟩
  · exact (Effect.refl i _).leaves
  · exact (effects_of_handler (u := enterInterrupt s) rfl fun hinv => hinv.withDisp hinv.snap (.inl hidle)).leaves

/-- DISP.CTR: the handler in DO_CTR, or the sequencer's step (43_usb_packet_dispatcher.md R222,
46_flash_page_programmer.md R291). -/
theorem execDispCtr_leaves (h : execDispCtr s = .next t) : Leaves i s t := by
  unfold execDispCtr at h
  split at h
  · exact leaves_dispStep (fun hturn hidle =>
      effects_of_service (handleCtr_end s) fun hinv => handleCtr_inv hinv hidle hturn) h
  · exact leaves_finish (effects_of_block
      (Res.post_mono (fseqStep_end s) (fun _ h => h.1.blockFrame) fun _ h => h.1.blockFrame) fseqStep_inv) h

end Routines

/-- What every operation can leave. -/
theorem exec_leaves (i : Instr) (h : exec i s = .next t) : Leaves i s t := by
  cases i
  case cmdResetPages =>
    exact leaves_unitStep (fun hidle => runCommand_effects hidle Config.opResetPages) h
  case cmdReboot => exact leaves_unitStep (fun hidle => runCommand_effects hidle Config.opReboot) h
  case cmdIgnored => exact leaves_unitStep (fun _ => effects_ok (.refl _ s)) h
  case ackPage => exact leaves_unitStep (fun _ => effects_of_usbSide (acknowledge_post s)) h
  case dataAppend | hidAppend => exact leaves_unitStep (fun _ => appendPacket_effects s _) h
  case setupGetDescriptorDevice | setupGetDescriptorConfiguration | setupGetDescriptorReport | setupGetDescriptorString =>
    exact leaves_unitStep (fun _ => effects_of_usbSide (answerDescriptor_post s _ _)) h
  case setupSetAddress => exact leaves_unitStep (fun _ => effects_of_usbSide (requestAddress_post s _)) h
  case setupSetConfiguration => exact leaves_unitStep (fun _ => effects_of_usbSide (requestConfiguration_post s)) h
  case setupOther => exact leaves_unitStep (fun _ => effects_of_usbSide (answerEmpty_post s)) h
  case evtCtr w =>
    exact leaves_unitStep (fun hidle => effects_of_service (serveEvent_end s w) fun hinv => serveEvent_inv hinv hidle w) h
  case evtReset w =>
    exact leaves_unitStep (fun hidle => effects_of_handler
      ((serveReset_frame s).trans (laterThanReset_frame w _)).handlerFrame
      fun hinv => laterThanReset_inv (serveReset_inv hinv hidle) w) h
  case evtSusp w =>
    exact leaves_unitStep (fun _ => effects_of_handler
      (SourcesFrame.trans (t := serveSusp s) rfl (laterThanSusp_frame w _)).handlerFrame
      fun hinv => laterThanSusp_inv (serveSusp_inv hinv) w) h
  case evtWkup => exact leaves_unitStep (fun _ => effects_of_handler rfl serveWkup_inv) h
  case evtNone => exact leaves_dispStep (fun _ hidle => emptyRead_effects hidle) h
  case regEp0r | regEp1r | regCntr | regIstr | regDaddr | regBtable => exact leaves_finish (accessUsb_effects s _ _) h
  case regFlashKeyr | regFlashSr | regFlashCr | regFlashAr => exact leaves_finish (accessFlashReg_effects s _ _) h
  case bdtAddrTx | bdtCountTx | bdtAddrRx | bdtCountRx =>
    exact leaves_unitStep (fun _ => effects_of_usbSide (accessBdt_post s _ _ _)) h
  case fopUnlock => exact leaves_unitStep (fun _ => effects_ok ((unlockFlash_side s).blockFrame.effect (unlockFlash_side s).inv)) h
  case fopErasePage => exact leaves_unitStep (fun _ => effects_of_fctlSide (startErase_post s _)) h
  case fopProgHalfword => exact leaves_unitStep (fun _ => effects_of_fctlSide (writeFlash_post s _ _ _)) h
  case fopLock => exact leaves_unitStep (fun _ => effects_of_fctlSide (writeCr_post s _)) h
  case hostReset | hostSuspend | hostWakeup =>
    refine leaves_busEvent ?_ ?_ h <;> rfl
  case hostSetup | hostOut =>
    exact leaves_finish (effects_unlessRefused fun _ => effects_of_usbSide (offerPacket_post s _ _ _ _)) h
  case hostIn =>
    exact leaves_finish (effects_unlessRefused fun _ => effects_of_usbSide (requestPacket_post s _ _)) h
  case hwReset => cases h; exact (Effect.reset (.inl rfl)).leaves
  case hwPowerloss => cases h; exact (Effect.powerLost rfl).leaves
  case drvInitialize => exact leaves_mainStep (effects_ok (bringUp_effect s)) h
  case drvShutdown => exact leaves_mainStep (effects_ok (shutDown_effect s)) h
  case drvSenddata =>
    refine leaves_unitStep (fun _ => ?_) h
    split
    · next hlength => exact effects_of_usbSide (sendData_post s _ hlength)
    · trivial
  case flashWritepage => exact leaves_unitStep (fun _ => startWritePage_effects s _ _ _) h
  case flashcComplete => cases h; exact (Effect.completed rfl).leaves
  case regRead => exact leaves_finish (effects_of_usbSide (regRead_usbSide s _ _ _)) h
  case regWrite => exact leaves_finish (regWrite_effects s _ _ _ _) h
  case dispEnter => exact execDispEnter_leaves h
  case dispRead => exact leaves_dispStep (fun _ hidle => readStatus_effects hidle) h
  case dispCtr => exact execDispCtr_leaves h
  case dispReset =>
    exact leaves_dispStep (fun _ hidle => turn_effects hidle _ (serveReset_frame s) fun hinv => serveReset_inv hinv hidle) h
  case dispSusp => exact leaves_dispStep (fun _ hidle => turn_effects hidle _ (serve := serveSusp) rfl serveSusp_inv) h
  case dispWkup => exact leaves_dispStep (fun _ hidle => turn_effects hidle _ (serve := serveWkup) rfl serveWkup_inv) h
  case epService k =>
    exact leaves_unitStep (fun hidle => effects_of_service (serveEndpoint_end s k .service)
      fun hinv => serveEndpoint_inv hinv hidle k .service nofun) h
  case epTxchunk e => exact leaves_unitStep (fun _ => effects_of_usbSide (txChunk_post s e)) h
  case epConfigure => exact leaves_unitStep (fun _ => effects_ok (epConfigure_side s).effect) h
  case hidBusreset =>
    exact leaves_unitStep (fun hidle => effects_of_handler (hidBusReset_handlerFrame s) fun hinv => hidBusReset_inv hinv hidle) h
  case bootEvaluate => exact leaves_mainStep (effects_ite fun _ => evaluate_effects s) h
  case bootUpdatemode => exact leaves_mainStep (updateMode_effects s) h
  case bootLaunch => exact leaves_mainStep (effects_ite fun _ => launch_effects s) h
  case bootSysreset => exact leaves_mainStep (effects_ok (.reset (.inr (.inl rfl)))) h

/-! ### What follows for every operation -/

section EveryOperation
variable {i : Instr}

/-- FLASHC.COMPLETE changes the array and the controller's registers only (46_flash_page_programmer.md R298). -/
theorem completeFlash_frame (s : State) :
    completeFlash s = { s with flash := (completeFlash s).flash, fctl := (completeFlash s).fctl } := by
  unfold completeFlash
  split <;> rfl

theorem Effect.keepsInv (h : Effect i s t) (hinv : Inv s) : Inv t := by
  cases h with
  | inside _ _ hkeep => exact hkeep hinv
  | evaluated _ _ _ hkeep => exact hkeep hinv
  | completed _ => exact completeFlash_inv hinv
  | reset _ => exact hardwareReset_inv hinv _
  | powerLost _ => exact hardwareReset_inv hinv _

/-- No effect touches the parameters, the stimuli or the fault record (log 11, log 32). -/
theorem Effect.environment (h : Effect i s t) : t.par = s.par ∧ t.input = s.input ∧ t.faults = s.faults := by
  cases h with
  | inside hframe => rw [hframe]; exact ⟨rfl, rfl, rfl⟩
  | evaluated _ hframe => rw [hframe]; exact ⟨rfl, rfl, rfl⟩
  | completed _ => rw [completeFlash_frame]; exact ⟨rfl, rfl, rfl⟩
  | reset _ => exact ⟨rfl, rfl, rfl⟩
  | powerLost _ => exact ⟨rfl, rfl, rfl⟩

/-- The Magic Word is kept, or cleared by one of the two operations that clear it (10_state.md R46). -/
theorem Effect.magicWord (h : Effect i s t) :
    t.boot.magic = s.boot.magic ∨ (t.boot.magic = 0 ∧ (i = .bootEvaluate ∨ i = .hwPowerloss)) := by
  cases h with
  | inside _ hmagic => exact .inl hmagic
  | evaluated hop _ hmagic => exact .inr ⟨hmagic, .inl hop⟩
  | completed _ => rw [completeFlash_frame]; exact .inl rfl
  | reset _ => exact .inl rfl
  | powerLost hop => exact .inr ⟨rfl, .inr hop⟩

/-- Every operation keeps the invariant. -/
theorem exec_inv (hinv : Inv s) (h : exec i s = .next t) : Inv t := by
  obtain ⟨u, heffect, rfl | ⟨f, rfl⟩⟩ := exec_leaves i h
  · exact heffect.keepsInv hinv
  · exact (heffect.keepsInv hinv).record f

/-- Settles O12: of the effects an operation can have (`exec_leaves`), only BOOT.EVALUATE's and HW.POWERLOSS's clear the Magic
Word, and none sets it. -/
theorem magicWordIsOnlyCleared : Obligations.MagicWordIsOnlyCleared := by
  intro i s t h
  obtain ⟨u, heffect, rfl | ⟨f, rfl⟩⟩ := exec_leaves i h <;> exact heffect.magicWord

/-- Settles O13: an effect leaves the parameters, the stimuli and the fault record, and at most one fault is appended to it. -/
theorem parametersAndFaultRecordPersist : Obligations.ParametersAndFaultRecordPersist := by
  intro i s t h
  obtain ⟨u, heffect, hrecord⟩ := exec_leaves i h
  obtain ⟨hpar, hinput, hfaults⟩ := heffect.environment
  rcases hrecord with rfl | ⟨f, rfl⟩
  · exact ⟨hpar, hinput, .inl hfaults⟩
  · exact ⟨hpar, hinput, .inr ⟨f, by rw [recordFault_faults, hfaults]⟩⟩

end EveryOperation

/-! ### The step -/

/-- The state an operation acts in: its stimulus is taken off and the answer before it is dropped. -/
abbrev taken (s : State) (rest : List Stimulus) : State := { s with input := rest, result := .none }

/-- A step changes nothing, or it takes the next stimulus off and the stimulus acts. -/
theorem step_cases (h : step s = .next t) :
    (s.input = [] ∧ t = s) ∨ ∃ x rest, s.input = x :: rest ∧ stepStimulus x (taken s rest) = .next t := by
  unfold step at h
  split at h
  · cases h
  · split at h
    · next hinput => cases h; exact .inl ⟨hinput, rfl⟩
    · next x rest hinput => exact .inr ⟨x, rest, hinput, h⟩

/-- What a stimulus does: its operation is held or runs, the pin moves, or the out-of-band trigger acts. -/
theorem stepStimulus_cases {x : Stimulus} (h : stepStimulus x s = .next t) :
    (∃ f bytes i, x = .op f bytes ∧ decode f bytes = .ok i ∧ (t = s ∨ exec i s = .next t)) ∨
    (∃ b, t = setBootPin s b) ∨ t = outOfBandTrigger s := by
  cases x with
  | op f bytes =>
    simp only [stepStimulus] at h
    split at h
    · next i hdecode =>
      refine .inl ⟨f, bytes, i, rfl, hdecode, ?_⟩
      rw [stepOp] at h
      split at h
      · cases h; exact .inl rfl
      · exact .inr h
    · cases h
  | bootPin b => cases h; exact .inr (.inl ⟨b, rfl⟩)
  | outOfBand => cases h; exact .inr (.inr rfl)

/-- The invariant says nothing of the stimuli and the answer. -/
theorem Inv.taken (hinv : Inv s) (rest : List Stimulus) : Inv (taken s rest) :=
  ⟨hinv.params, hinv.pma, hinv.pageBuf, hinv.flash, hinv.ets0, hinv.ets1, hinv.callbacks, hinv.table, hinv.control,
    hinv.cursor, hinv.snap, hinv.sequencer⟩

/-- The out-of-band trigger keeps the invariant (40_boot_controller_interface.md R133). -/
theorem outOfBandTrigger_inv (hinv : Inv s) : Inv (outOfBandTrigger s) := by
  unfold outOfBandTrigger
  split
  · exact hardwareReset_inv hinv _
  · exact hinv

/-- Every stimulus keeps the invariant. -/
theorem stepStimulus_inv {x : Stimulus} (hinv : Inv s) (h : stepStimulus x s = .next t) : Inv t := by
  rcases stepStimulus_cases h with ⟨_, _, i, _, _, rfl | hexec⟩ | ⟨b, rfl⟩ | rfl
  · exact hinv
  · exact exec_inv hinv hexec
  · exact hinv.withBoot _
  · exact outOfBandTrigger_inv hinv

/-- Settles O8: the step is the next stimulus, and what every stimulus can do keeps the invariant (`exec_leaves`). -/
theorem stepKeepsInv : Obligations.StepKeepsInv := by
  intro s t hinv h
  rcases step_cases h with ⟨_, rfl⟩ | ⟨x, rest, _, hstimulus⟩
  · exact hinv
  · exact stepStimulus_inv (hinv.taken rest) hstimulus

end Sys2Proof.Machine
end

section
/-! PROOFS. The bootloader's own pages are never written (10_state.md R45, 45_hid_reassembly_commands.md R266): the block's agents
keep the flash unit to page commits, and a commit's page lies at or above APP_BASE. -/

namespace Sys2Proof.Machine

variable {s t : State}

/-! ### The flash addresses of a page -/

/-- Zero extension keeps the value (00_scope.md R10). -/
theorem zext32_toNat (v : Half) : (zext32 v).toNat = v.toNat := BitVec.toNat_setWidth_of_le (by decide)

/-- The address of a page of the array, without wrapping (20_memory.md R71). -/
theorem pageAddress_toNat {p : Params} (hp : p.flashOk) {index : Half} (hindex : index.toNat < p.flashPages.toNat) :
    (pageAddress p index).toNat = p.flashBase.toNat + 1024 * index.toNat := by
  obtain ⟨_, _, htop⟩ := hp
  simp only [Config.pageSize] at htop
  have hunit : (1024 : Word).toNat = 1024 := rfl
  rw [pageAddress, BitVec.toNat_add, BitVec.toNat_mul, zext32_toNat, hunit]
  omega

/-- APP_BASE, without wrapping. -/
theorem appBase_toNat {p : Params} (hp : p.flashOk) : (appBase p).toNat = p.flashBase.toNat + 1024 * p.firstPage.toNat :=
  pageAddress_toNat hp hp.2.1

/-- The pages of the array at or above FIRST_PAGE lie at or above APP_BASE. -/
theorem appBase_le_pageAddress {p : Params} (hp : p.flashOk) {index : Half} (hfirst : p.firstPage.toNat ≤ index.toNat)
    (hindex : index.toNat < p.flashPages.toNat) : (appBase p).toNat ≤ (pageAddress p index).toNat := by
  rw [appBase_toNat hp, pageAddress_toNat hp hindex]
  omega

/-- So do their halfwords. -/
theorem appBase_le_halfword {p : Params} (hp : p.flashOk) {index i : Half} (hfirst : p.firstPage.toNat ≤ index.toNat)
    (hindex : index.toNat < p.flashPages.toNat) (hi : i.toNat < 512) :
    (appBase p).toNat ≤ (pageAddress p index + 2 * zext32 i).toNat := by
  have hpage := pageAddress_toNat hp hindex
  obtain ⟨_, _, htop⟩ := id hp
  simp only [Config.pageSize] at htop
  have hunit : (2 : Word).toNat = 2 := rfl
  rw [appBase_toNat hp, BitVec.toNat_add, hpage, BitVec.toNat_mul, zext32_toNat, hunit]
  omega

/-- The page of an address at or above APP_BASE begins at or above it. -/
theorem appBase_le_pageStart {p : Params} (hp : p.flashOk) {a : Word} (ha : (appBase p).toNat ≤ a.toNat) :
    (appBase p).toNat ≤ pageStart p a := by
  rw [appBase_toNat hp] at ha ⊢
  simp only [pageStart, Config.pageSize]
  omega

/-! ### No byte below APP_BASE changes -/

/-- Bytes stored at or above an address change nothing below it. -/
theorem writeBytes_below {m : Memory} (hm : Memory.wf (some Config.flashUnlisted) m = true) {a b : Nat} (bytes : List Byte)
    (hb : b < a) :
    ((Memory.writeBytes (some Config.flashUnlisted) m a bytes).read? b).getD Config.flashUnlisted =
      (m.read? b).getD Config.flashUnlisted := by
  rw [Memory.getD_writeBytes hm, if_neg (by omega)]

/-- An operation in progress at or above APP_BASE completes there (46_flash_page_programmer.md R298). -/
theorem completeFlash_below (hcommits : CommitsOnly s) {b : Nat} (hb : b < (appBase s.par).toNat) :
    flashByte (completeFlash s) b = flashByte s b := by
  obtain ⟨hinv, _, hpending⟩ := hcommits
  unfold completeFlash
  split
  · rfl
  · next a herase =>
    rw [herase] at hpending
    have hstart := appBase_le_pageStart hinv.params hpending
    simp only [flashByte, State.withFctl_flash, State.withFlash_flash]
    rw [Memory.read?_unlist, if_neg (by omega)]
  · next a h hprog =>
    rw [hprog] at hpending
    exact writeBytes_below hinv.flash.1 _ (lt_of_lt_of_le hb hpending)

/-- What a hardware reset interrupts lies at or above APP_BASE (10_state.md R50, U6). -/
theorem flashAfterReset_below (hcommits : CommitsOnly s) {b : Nat} (hb : b < (appBase s.par).toNat) (magic : Half) :
    flashByte (hardwareReset s magic) b = flashByte s b := by
  obtain ⟨hinv, _, hpending⟩ := hcommits
  simp only [flashByte, hardwareReset, flashAfterReset]
  split
  · rfl
  · next a herase =>
    rw [herase] at hpending
    exact writeBytes_below hinv.flash.1 _ (lt_of_lt_of_le hb (appBase_le_pageStart hinv.params hpending))
  · next a h hprog =>
    rw [hprog] at hpending
    exact writeBytes_below hinv.flash.1 _ (lt_of_lt_of_le hb hpending)

/-- No effect changes a byte below APP_BASE. -/
theorem Effect.below {i : Instr} (h : Effect i s t) (hcommits : CommitsOnly s) {b : Nat}
    (hb : b < (appBase s.par).toNat) : flashByte t b = flashByte s b := by
  cases h with
  | inside hframe => rw [hframe]; rfl
  | evaluated _ hframe => rw [hframe]; rfl
  | completed _ => exact completeFlash_below hcommits hb
  | reset _ => exact flashAfterReset_below hcommits hb _
  | powerLost _ => exact flashAfterReset_below hcommits hb _

/-- No operation changes a byte below APP_BASE where the flash unit works for a page commit only. -/
theorem exec_below {i : Instr} (hcommits : CommitsOnly s) (h : exec i s = .next t) {b : Nat}
    (hb : b < (appBase s.par).toNat) : flashByte t b = flashByte s b := by
  obtain ⟨u, heffect, rfl | ⟨f, rfl⟩⟩ := exec_leaves i h <;> exact heffect.below hcommits hb

/-! ### The block's agents keep the flash unit to page commits -/

/-- What `CommitsOnly` says beyond the invariant (45_hid_reassembly_commands.md R266, 10_state.md R45). -/
structure ServesCommits (s : State) : Prop where
  commit : s.fseq.state ≠ .idle → s.fseq.caller ≠ .alone ∧ s.fseq.addr = pageAddress s.par s.hid.pageIndex
  pending : PendingAbove s.par s.fctl.pendingOp

theorem commitsOnly_iff : CommitsOnly s ↔ Inv s ∧ ServesCommits s :=
  ⟨fun ⟨hinv, hcommit, hpending⟩ => ⟨hinv, hcommit, hpending⟩,
    fun ⟨hinv, hcommit, hpending⟩ => ⟨hinv, hcommit, hpending⟩⟩

theorem CommitsOnly.serves (h : CommitsOnly s) : ServesCommits s := (commitsOnly_iff.1 h).2

/-- The flash unit and, while it runs, the cursor's page left alone. -/
theorem ServesCommits.congr (hs : ServesCommits s) (hpar : t.par = s.par) (hfctl : t.fctl = s.fctl) (hfseq : t.fseq = s.fseq)
    (hpage : s.fseq.state = .idle ∨ t.hid.pageIndex = s.hid.pageIndex) : ServesCommits t where
  commit hrun := by
    rw [hfseq] at hrun ⊢
    rcases hpage with hidle | hpage
    · exact absurd hidle hrun
    · rw [hpar, hpage]
      exact hs.commit hrun
  pending := by
    rw [hpar, hfctl]
    exact hs.pending

theorem UsbSide.servesCommits (h : UsbSide s t) (hs : ServesCommits s) : ServesCommits t :=
  hs.congr h.handlerFrame.par h.handlerFrame.fctl h.handlerFrame.fseq (.inr (by rw [h.frame]))

/-- A handler acts with the sequencer idle. -/
theorem HandlerFrame.servesCommits (h : HandlerFrame s t) (hs : ServesCommits s) (hidle : s.fseq.state = .idle) :
    ServesCommits t :=
  hs.congr h.par h.fctl h.fseq (.inl hidle)

/-- With the sequencer idle only the operation in progress matters. -/
theorem ServesCommits.ofIdle (hidle : t.fseq.state = .idle) (hpending : PendingAbove t.par t.fctl.pendingOp) :
    ServesCommits t := ⟨fun hrun => absurd hidle hrun, hpending⟩

/-- A hardware reset leaves the flash unit at rest (40_boot_controller_interface.md R139). -/
theorem hardwareReset_servesCommits (s : State) (magic : Half) : ServesCommits (hardwareReset s magic) :=
  .ofIdle rfl trivial

/-- No operation is in progress after FLASHC.COMPLETE (46_flash_page_programmer.md R298). -/
theorem completeFlash_pending (s : State) : (completeFlash s).fctl.pendingOp = .none := by
  unfold completeFlash
  split
  · next hnone => exact hnone
  · rfl
  · rfl

theorem completeFlash_servesCommits (hs : ServesCommits s) : ServesCommits (completeFlash s) where
  commit := by rw [completeFlash_frame]; exact hs.commit
  pending := by rw [completeFlash_pending]; trivial

/-- The endpoint service begins the commit of the cursor's page or none (45_hid_reassembly_commands.md R266). -/
theorem ServiceEnd.servesCommits {caller : Caller} (h : ServiceEnd caller s t) (hs : ServesCommits s)
    (hidle : s.fseq.state = .idle) (hcaller : caller ≠ .alone) : ServesCommits t := by
  obtain ⟨u, hu, rfl | rfl⟩ := h
  · exact hu.servesCommits hs hidle
  · exact ⟨fun _ => ⟨hcaller, rfl⟩, (hu.servesCommits hs hidle).pending⟩

/-- What the sequencer of a commit starts lies in the commit's page (46_flash_page_programmer.md R291). -/
theorem SequencerStarts.pendingAbove (h : SequencerStarts s t) (hcommits : CommitsOnly s) (hpar : t.par = s.par) :
    PendingAbove t.par t.fctl.pendingOp := by
  obtain ⟨hinv, hcommit, hpending⟩ := hcommits
  obtain ⟨_, _, hfirst, _⟩ := hinv.cursor
  obtain ⟨hindex, hrunning⟩ := hinv.sequencer
  rw [hpar]
  rcases h with hsame | ⟨hstate, herase⟩ | ⟨hstate, h, hprog⟩
  · rw [hsame]
    exact hpending
  · have hne : s.fseq.state ≠ .idle := by simp [hstate]
    obtain ⟨hcaller, haddr⟩ := hcommit hne
    obtain ⟨_, hpage, _⟩ := hrunning hne
    rw [herase, haddr]
    exact appBase_le_pageAddress hinv.params hfirst (hpage hcaller)
  · have hne : s.fseq.state ≠ .idle := by simp [hstate]
    obtain ⟨hcaller, haddr⟩ := hcommit hne
    obtain ⟨_, hpage, _⟩ := hrunning hne
    have hi : s.fseq.i.toNat < 512 := by rwa [SequencerIndexOk, hstate] at hindex
    rw [hprog, haddr]
    exact appBase_le_halfword hinv.params hfirst (hpage hcaller) hi

/-- A step of the sequencer of a commit goes on with that commit or ends it (46_flash_page_programmer.md R291, R292). -/
theorem SequencerEnd.servesCommits (h : SequencerEnd s t) (hstarts : SequencerStarts s t) (hcommits : CommitsOnly s)
    (hrun : s.fseq.state ≠ .idle) : ServesCommits t := by
  have hpending := hstarts.pendingAbove hcommits (by rw [h.blockFrame])
  rcases h with hmoved | ⟨u, hu, ht⟩
  · obtain ⟨hcaller, haddr⟩ := hcommits.commit hrun
    refine ⟨fun _ => ⟨hmoved.caller ▸ hcaller, ?_⟩, hpending⟩
    rw [hmoved.addr, haddr, hmoved.frame]
  · exact .ofIdle (by rw [ht.fseq]; rfl) hpending

section Agents
variable {r : Res State} {i : Instr}

/-- Both ends of a routine keep the flash unit to page commits. -/
abbrev KeepsCommits (r : Res State) : Prop := r.post ServesCommits ServesCommits

theorem keepsCommits_ok (h : ServesCommits t) : KeepsCommits (.ok t) := h

theorem servesCommits_finish (h : KeepsCommits r) (hnext : finish r = .next t) : ServesCommits t :=
  finish_post h (fun _ _ hu => hu.congr rfl rfl rfl (.inr rfl)) hnext

theorem servesCommits_mainStep (hs : ServesCommits s) (h : KeepsCommits r) (hnext : mainStep s r = .next t) :
    ServesCommits t := by
  rcases mainStep_cases hnext with ⟨_, rfl⟩ | ⟨_, hnext⟩
  · exact hs
  · exact servesCommits_finish h hnext

/-- A dispatcher step other than the sequencer's. -/
theorem servesCommits_dispStep {x : DispState} (hs : ServesCommits s) (h : s.fseq.state = .idle → KeepsCommits r)
    (hnext : dispStep s x r = .next t) : ServesCommits t := by
  rcases dispStep_cases hnext with rfl | ⟨⟨_, hidle⟩, hnext⟩
  · exact hs
  · exact servesCommits_finish (h hidle) hnext

/-- A move of the host offered to the SIE. -/
theorem servesCommits_hostMove {c : Prop} [Decidable c] {x : Refusal} (hs : ServesCommits s)
    (h : r.post (UsbSide s) (UsbSide s)) (hnext : finish (if c then refuse x else r) = .next t) : ServesCommits t := by
  refine servesCommits_finish ?_ hnext
  split
  · trivial
  · exact Res.post_mono h (fun _ k => k.servesCommits hs) fun _ k => k.servesCommits hs

/-- A routine of MAIN, enabled or not, that leaves the flash unit and the cursor alone. -/
theorem keepsCommits_ite {c : Prop} [Decidable c] (hs : ServesCommits s) (h : KeepsCommits r) :
    KeepsCommits (if c then r else .ok s) := by
  split
  · exact h
  · exact hs

/-- Another boot state. -/
theorem ServesCommits.withBoot (hs : ServesCommits s) (b : Boot) : ServesCommits (s.withBoot b) :=
  hs.congr rfl rfl rfl (.inr rfl)

theorem flashRead32_keepsCommits (hs : ServesCommits s) (a : Word) :
    (flashRead32 s a).post (fun _ => True) ServesCommits :=
  Res.post_mono (flashRead32_post s a) (fun _ h => h) fun _ h => h ▸ hs

theorem evaluate_keepsCommits (hs : ServesCommits s) : KeepsCommits (evaluate s) :=
  Res.post_bind (flashRead32_keepsCommits (hs.withBoot _) _) fun _ _ => (hs.withBoot _).withBoot _

theorem launch_keepsCommits (hs : ServesCommits s) : KeepsCommits (launch s) :=
  Res.post_bind (flashRead32_keepsCommits hs _) fun _ _ =>
    Res.post_bind (flashRead32_keepsCommits hs _) fun _ _ => hs.withBoot _

theorem bringUp_servesCommits (hs : ServesCommits s) : ServesCommits (bringUp s) := hs.congr rfl rfl rfl (.inr rfl)

theorem shutDown_servesCommits (hs : ServesCommits s) : ServesCommits (shutDown s) := hs.congr rfl rfl rfl (.inr rfl)

theorem updateModeStep_servesCommits (hs : ServesCommits s) : ServesCommits (updateModeStep s) := by
  unfold updateModeStep
  split
  · exact (shutDown_servesCommits hs).withBoot _
  · exact (bringUp_servesCommits hs).withBoot _
  · exact hs.congr rfl rfl rfl (.inr rfl)
  · unfold blinkIdle
    dsimp only
    split
    · exact hs.withBoot _
    · exact (hs.withBoot _).withBoot _
  · exact (shutDown_servesCommits hs).withBoot _
  · exact hardwareReset_servesCommits s _

/-- DISP.CTR serves transfer-complete, or it is the step of a running commit (43_usb_packet_dispatcher.md R222,
46_flash_page_programmer.md R292). -/
theorem execDispCtr_servesCommits (hcommits : CommitsOnly s) (h : execDispCtr s = .next t) : ServesCommits t := by
  unfold execDispCtr at h
  split at h
  · refine servesCommits_dispStep hcommits.serves (fun hidle => ?_) h
    exact Res.post_mono (handleCtr_end s) (fun _ k => k.servesCommits hcommits.serves hidle nofun)
      fun _ k => k.servesCommits hcommits.serves hidle
  · next hrun =>
    exact servesCommits_finish (Res.post_mono (fseqStep_end s) (fun _ k => k.1.servesCommits k.2 hcommits hrun)
      fun _ k => k.1.servesCommits k.2 hcommits hrun) h

/-- Every move of the block's agents, of the host and of the environment keeps the flash unit to page commits. -/
theorem agentMove_servesCommits (hagent : isAgentMove i = true) (hcommits : CommitsOnly s) (h : exec i s = .next t) :
    ServesCommits t := by
  have hs := hcommits.serves
  cases i <;> cases hagent
  case hostReset | hostSuspend | hostWakeup =>
    cases h
    split
    · exact hs.congr rfl rfl rfl (.inr rfl)
    · exact hs
  case hostSetup | hostOut => exact servesCommits_hostMove hs (offerPacket_post s _ _ _ _) h
  case hostIn => exact servesCommits_hostMove hs (requestPacket_post s _ _) h
  case hwReset | hwPowerloss => cases h; exact hardwareReset_servesCommits s _
  case drvInitialize => exact servesCommits_mainStep hs (keepsCommits_ok (bringUp_servesCommits hs)) h
  case drvShutdown => exact servesCommits_mainStep hs (keepsCommits_ok (shutDown_servesCommits hs)) h
  case flashcComplete => cases h; exact completeFlash_servesCommits hs
  case dispEnter =>
    rcases execDispEnter_cases h with rfl | ⟨hidle, rfl⟩
    · exact hs
    · exact HandlerFrame.servesCommits rfl hs hidle
  case dispRead =>
    exact servesCommits_dispStep hs (fun hidle => keepsCommits_ok ((readStatus_handlerFrame s).servesCommits hs hidle)) h
  case dispCtr => exact execDispCtr_servesCommits hcommits h
  case dispReset =>
    refine servesCommits_dispStep hs (fun hidle => keepsCommits_ok (HandlerFrame.servesCommits ?_ hs hidle)) h
    split
    · exact (serveReset_frame s).handlerFrame.trans rfl
    · rfl
  case dispSusp | dispWkup =>
    refine servesCommits_dispStep hs (fun hidle => keepsCommits_ok (HandlerFrame.servesCommits ?_ hs hidle)) h
    split <;> rfl
  case bootEvaluate => exact servesCommits_mainStep hs (keepsCommits_ite hs (evaluate_keepsCommits hs)) h
  case bootUpdatemode =>
    refine servesCommits_mainStep hs (keepsCommits_ok ?_) h
    split
    · exact updateModeStep_servesCommits hs
    · exact hs
  case bootLaunch => exact servesCommits_mainStep hs (keepsCommits_ite hs (launch_keepsCommits hs)) h
  case bootSysreset => exact servesCommits_mainStep hs (keepsCommits_ok (hardwareReset_servesCommits s _)) h

end Agents

/-! ### The bootloader's own pages -/

theorem CommitsOnly.taken (hcommits : CommitsOnly s) (rest : List Stimulus) : CommitsOnly (taken s rest) :=
  ⟨hcommits.inv.taken rest, hcommits.commit, hcommits.pending⟩

/-- A stimulus of the block's agents, of the host or of the environment keeps the flash unit to page commits, and every byte
below APP_BASE. -/
theorem stepStimulus_below {x : Stimulus} (hcommits : CommitsOnly s)
    (hagent : ∀ f bytes i, x = .op f bytes → decode f bytes = .ok i → isAgentMove i = true)
    (h : stepStimulus x s = .next t) :
    CommitsOnly t ∧ ∀ a, a < (appBase s.par).toNat → flashByte t a = flashByte s a := by
  rw [commitsOnly_iff]
  refine (and_assoc.2 ⟨stepStimulus_inv hcommits.inv h, ?_⟩)
  rcases stepStimulus_cases h with ⟨f, bytes, i, hop, hdecode, rfl | hexec⟩ | ⟨b, rfl⟩ | rfl
  · exact ⟨hcommits.serves, fun _ _ => rfl⟩
  · exact ⟨agentMove_servesCommits (hagent f bytes i hop hdecode) hcommits hexec, fun _ ha => exec_below hcommits hexec ha⟩
  · exact ⟨hcommits.serves.withBoot _, fun _ _ => rfl⟩
  · unfold outOfBandTrigger
    split
    · exact ⟨hardwareReset_servesCommits s _, fun _ ha => flashAfterReset_below hcommits ha _⟩
    · exact ⟨hcommits.serves, fun _ _ => rfl⟩

/-- Settles O9: the agents keep the flash unit to page commits (`agentMove_servesCommits`), whose pages lie at or above APP_BASE,
so what completes or is interrupted lies there too (`Effect.below`). -/
theorem bootloaderPagesSurvive : Obligations.BootloaderPagesSurvive := by
  intro s t x rest hcommits hinput hagent h
  rcases step_cases h with ⟨hempty, _⟩ | ⟨y, rest', htaken, hstimulus⟩
  · cases hinput.symm.trans hempty
  · obtain ⟨rfl, rfl⟩ := List.cons_eq_cons.1 (hinput.symm.trans htaken)
    have hkept := stepStimulus_below (hcommits.taken rest) hagent hstimulus
    exact hkept

end Sys2Proof.Machine
end

section
/-! PROOFS. The decoder reads every encoding back (30_encoding.md R100 to R118): one equation per operand layout, then the
operations in the order of their formats. -/

namespace Sys2Proof

open Sys2Proof.Machine

/-! ### Operand fields read back -/

/-- An operation that nothing follows is accepted. -/
@[simp] theorem finishDecode_nil (i : Instr) : finishDecode i [] = .ok i := rfl

/-- A 16-bit length field takes all of the bytes it counts. -/
theorem takeBytes_lengthField {d : List Byte} (h : d.length < 65536) :
    takeBytes (BitVec.ofNat 16 d.length).toNat d = .ok (d, []) := by
  rw [BitVec.toNat_ofNat, Nat.mod_eq_of_lt h, takeBytes_length]

@[simp] theorem widthOf_code (w : Width) : widthOf w.code = some w := by cases w <;> rfl

@[simp] theorem windowOf_code (w : Window) : windowOf w.code = some w := by cases w <;> rfl

@[simp] theorem decodeAccess16_encodeAccess16 (mk : Access 16 → Instr) (acc : Access 16) :
    decodeAccess16 mk (encodeAccess16 acc) = .ok (mk acc) := by
  cases acc <;> simp [encodeAccess16, decodeAccess16, halfBytes]

@[simp] theorem decodeAccess32_encodeAccess32 (mk : Access 32 → Instr) (acc : Access 32) :
    decodeAccess32 mk (encodeAccess32 acc) = .ok (mk acc) := by
  cases acc <;> simp [encodeAccess32, decodeAccess32, wordBytes]

/-! ### The rows that a condition selects -/

/-- The CMD64 row an opcode selects (30_encoding.md R102). -/
def selectCommand (opcode : Byte) : Instr :=
  if opcode == Config.opResetPages then .cmdResetPages
  else if opcode == Config.opReboot then .cmdReboot
  else .cmdIgnored opcode

/-- A command frame is read by its opcode (30_encoding.md R102). -/
theorem decodeCmd64_commandFrame (opcode : Byte) : decodeCmd64 (commandFrame opcode) = .ok (selectCommand opcode) := rfl

/-- A packet of none of the rows 1 to 6 selects row 7 (30_encoding.md R106). -/
theorem selectSetup_of_not_known {p : Packet8} (h : isKnownRequest p = false) : selectSetup p = .setupOther p := by
  simp only [isKnownRequest, isDescriptorType, Bool.and_eq_false_iff, Bool.or_eq_false_iff] at h
  unfold selectSetup
  split_ifs <;> simp_all

/-- The status word of an EVT row selects the row (30_encoding.md R109). -/
theorem decodeEvt_halfBytes (w : Half) : decodeEvt (halfBytes w) = .ok (selectEvt w) := by
  simp [halfBytes, decodeEvt]

/-- The eight bytes of a packet select its row (30_encoding.md R106). -/
theorem decodeSetup8_toList (p : Packet8) : decodeSetup8 p.toList = .ok (selectSetup p) := rfl

/-! ### The operands of OP -/

theorem decodeHostSetup_encode {a e : Byte} {d : List Byte} (h : d.length < 65536) :
    decodeHostSetup ([a, e] ++ halfBytes (biasedField 8 d.length) ++ d) = .ok (.hostSetup a e d) := by
  simp [decodeHostSetup, halfBytes, biasedLength_biasedField h, bind, Except.bind]

theorem decodeHostOut_encode {a e : Byte} {d : List Byte} (h : d.length < 65536) :
    decodeHostOut ([a, e] ++ halfBytes (BitVec.ofNat 16 d.length) ++ d) = .ok (.hostOut a e d) := by
  simp [decodeHostOut, halfBytes, takeBytes_lengthField h, bind, Except.bind, -BitVec.toNat_ofNat]

theorem decodeSenddata_encode {e : Byte} {d : List Byte} {length : Half} (h : d.length < 65536)
    (hlength : length.toNat ≤ d.length) :
    decodeSenddata ([e] ++ halfBytes length ++ halfBytes (BitVec.ofNat 16 d.length) ++ d) =
      .ok (.drvSenddata e d length) := by
  simp [decodeSenddata, halfBytes, takeBytes_lengthField h, hlength, bind, Except.bind, -BitVec.toNat_ofNat]

theorem decodeWritepage_encode_pageBuf (a : Word) (size : Half) :
    decodeWritepage ([0] ++ wordBytes a ++ halfBytes (size - 1024)) = .ok (.flashWritepage a .pageBuf size) := by
  simp [decodeWritepage, wordBytes, halfBytes]

theorem decodeWritepage_encode_literal {a : Word} {size : Half} {d : List Byte} (h : d.length < 65536) :
    decodeWritepage ([1] ++ wordBytes a ++ halfBytes (size - 1024) ++ halfBytes (BitVec.ofNat 16 d.length) ++ d) =
      .ok (.flashWritepage a (.literal d) size) := by
  simp [decodeWritepage, wordBytes, halfBytes, takeBytes_lengthField h, bind, Except.bind, -BitVec.toNat_ofNat]

theorem decodeRegRead_encode (win : Window) (width : Width) (offset : Half) :
    decodeRegRead ([win.code, width.code] ++ halfBytes offset) = .ok (.regRead win width offset) := by
  simp [decodeRegRead, halfBytes]

theorem decodeRegWrite_encode {win : Window} {width : Width} {offset : Half} {value : Word}
    (h : value.toNat < 2 ^ width.bits) :
    decodeRegWrite ([win.code, width.code] ++ halfBytes offset ++ wordBytes value) =
      .ok (.regWrite win width offset value) := by
  simp [decodeRegWrite, halfBytes, wordBytes, h]

/-- An endpoint number fits its four bits (43_usb_packet_dispatcher.md R222). -/
theorem decodeService_encode (e : BitVec 4) : decodeService [e.zeroExtend 8] = .ok (.epService e) := by
  have hlt : (e.zeroExtend 8).toNat < 16 := by bv_omega
  have hfield : (e.zeroExtend 8).extractLsb' 0 4 = e := by
    apply BitVec.eq_of_getLsbD_eq
    intro k hk
    simp [hk, show k < 8 by omega]
  simp only [decodeService, if_pos hlt, hfield, finishDecode_nil]

/-! ### Every operation -/

/-- Settles O1, operation by operation: a row that fixes all its bytes by evaluation, the others by the equation of their
operands; the rows that a condition selects (CMD64, SETUP8, EVT) by the condition `wellFormed` states. -/
theorem decodeOfEncodeIsIdentity : Obligations.DecodeOfEncodeIsIdentity := by
  intro i hwf
  cases i
  case cmdIgnored opcode =>
    obtain ⟨hreset, hreboot⟩ : opcode ≠ Config.opResetPages ∧ opcode ≠ Config.opReboot := by
      simpa [Instr.wellFormed, Config.opResetPages, Config.opReboot] using hwf
    refine (decodeCmd64_commandFrame opcode).trans ?_
    simp [selectCommand, hreset, hreboot]
  case setupGetDescriptorDevice rt _ _ _ | setupGetDescriptorConfiguration rt _ _ _ | setupGetDescriptorReport rt _ _ _ |
      setupGetDescriptorString rt _ _ _ =>
    have hstandard : isStandard rt = true := hwf
    simp [encode, decode, encodeGetDescriptor, halfBytes, decodeSetup8, selectSetup, hstandard]
  case setupSetAddress rt _ _ _ | setupSetConfiguration rt _ _ _ =>
    have hstandard : isStandard rt = true := hwf
    simp [encode, decode, encodeRequest, halfBytes, decodeSetup8, selectSetup, hstandard]
  case setupOther p =>
    simp only [Instr.wellFormed, Bool.not_eq_true'] at hwf
    exact (decodeSetup8_toList p).trans (congrArg _ (selectSetup_of_not_known hwf))
  case evtCtr w | evtReset w | evtSusp w | evtWkup w | evtNone w =>
    refine (decodeEvt_halfBytes w).trans (congrArg _ ?_)
    simp_all [Instr.wellFormed, selectEvt]
  case regEp0r acc | regEp1r acc | regCntr acc | regIstr acc | regDaddr acc | regBtable acc =>
    exact decodeAccess16_encodeAccess16 _ acc
  case regFlashKeyr acc | regFlashSr acc | regFlashCr acc | regFlashAr acc => exact decodeAccess32_encodeAccess32 _ acc
  case bdtAddrTx n acc | bdtCountTx n acc | bdtAddrRx n acc | bdtCountRx n acc =>
    cases n <;> exact decodeAccess16_encodeAccess16 _ acc
  case fopErasePage a => simp [encode, decode, decodeFop, wordBytes]
  case fopProgHalfword width a h => simp [encode, decode, decodeFop, wordBytes, halfBytes]
  case hostSetup a e d => exact decodeHostSetup_encode (of_decide_eq_true hwf)
  case hostOut a e d => exact decodeHostOut_encode (of_decide_eq_true hwf)
  case drvSenddata e d length =>
    obtain ⟨hd, hlength⟩ := Bool.and_eq_true_iff.1 hwf
    exact decodeSenddata_encode (of_decide_eq_true hd) (of_decide_eq_true hlength)
  case flashWritepage a source size =>
    cases source with
    | pageBuf => exact decodeWritepage_encode_pageBuf a size
    | literal d => exact decodeWritepage_encode_literal (of_decide_eq_true hwf)
  case regRead win width offset => exact decodeRegRead_encode win width offset
  case regWrite win width offset value => exact decodeRegWrite_encode (of_decide_eq_true hwf)
  case epService e => exact decodeService_encode e
  case epTxchunk e => cases e <;> rfl
  all_goals rfl

end Sys2Proof
end

section
/-! PROOFS. What the decoder accepts: the bytes spell the well-formed operation it answers, with zeros after its encoding
(30_encoding.md R106, R111, R118). -/

namespace Sys2Proof

open Sys2Proof.Machine

/-! ### Bytes that spell an operation -/

/-- The bytes are the encoding of the well-formed operation in the format, followed by zeros. -/
structure Spells (f : Format) (bytes : List Byte) (i : Instr) : Prop where
  wellFormed : i.wellFormed = true
  format : (encode i).1 = f
  bytes : ∃ n, bytes = (encode i).2 ++ List.replicate n 0

/-- As `Spells`, in format FOP: of the FLASH_CR value the encoding keeps the bits of mask C3 of its first byte
(30_encoding.md R118). -/
structure SpellsMasked (bytes : List Byte) (i : Instr) : Prop where
  wellFormed : i.wellFormed = true
  format : (encode i).1 = .fop
  bytes : ∃ (n : Nat) (c x y z : Byte), bytes = c :: x :: y :: z :: ((encode i).2.drop 4 ++ List.replicate n 0) ∧
    (encode i).2.head? = some (c &&& 0xC3)

variable {i j : Instr} {f : Format} {bytes rest : List Byte}

/-! ### Accepted bytes, part by part -/

/-- Bytes that are all zero are so many zeros. -/
theorem eq_replicate_of_all_zero {bs : List Byte} (h : bs.all (· == 0) = true) : bs = List.replicate bs.length 0 :=
  List.eq_replicate_of_mem fun b hb => beq_iff_eq.1 (List.all_eq_true.1 h b hb)

/-- An operation ends with zeros. -/
theorem finishDecode_eq_ok (h : finishDecode j rest = .ok i) : i = j ∧ ∃ n, rest = List.replicate n 0 := by
  unfold finishDecode at h
  split at h
  · next hzeros => exact ⟨(Except.ok.inj h).symm, _, eq_replicate_of_all_zero hzeros⟩
  · cases h

/-- Where the bytes read so far are the encoding of `j`, accepting `j` spells it. -/
theorem finishDecode_spells {read : List Byte} (h : finishDecode j rest = .ok i) (hwf : j.wellFormed = true)
    (hencode : encode j = (f, read)) : Spells f (read ++ rest) i := by
  obtain ⟨rfl, n, rfl⟩ := finishDecode_eq_ok h
  exact ⟨hwf, by rw [hencode], n, by rw [hencode]⟩

/-- Taking bytes splits the list. -/
theorem takeBytes_bind_eq_ok {α : Type} {n : Nat} {bs : List Byte} {k : List Byte × List Byte → Except DecodeError α} {r : α}
    (h : takeBytes n bs >>= k = .ok r) : ∃ d rest, bs = d ++ rest ∧ d.length = n ∧ k (d, rest) = .ok r := by
  unfold takeBytes at h
  split at h
  · cases h
  · next hlength =>
    exact ⟨bs.take n, bs.drop n, (List.take_append_drop n bs).symm, List.length_take_of_le (by omega), h⟩

@[simp] theorem halfBytes_le16 (b0 b1 : Byte) : halfBytes (le16 b0 b1) = [b0, b1] := by simp [halfBytes]

/-- A length counted from 8 gives its field back (log 2). -/
theorem biasedField_biasedLength (l : Half) : biasedField 8 (biasedLength 8 l) = l := by
  apply BitVec.eq_of_toNat_eq
  rw [biasedField, biasedLength, BitVec.toNat_ofNat]
  omega

theorem code_of_widthOf {b : Byte} {w : Width} (h : widthOf b = some w) : w.code = b := by
  unfold widthOf at h
  split_ifs at h <;> cases h <;> simp_all [Width.code]

theorem code_of_windowOf {b : Byte} {w : Window} (h : windowOf b = some w) : w.code = b := by
  unfold windowOf at h
  split_ifs at h <;> cases h <;> simp_all [Window.code]

/-- An access that is accepted after an offset byte spells the operation it is made into. -/
theorem decodeAccess16_spells {mk : Access 16 → Instr} {off : Byte} (h : decodeAccess16 mk rest = .ok i)
    (hmk : ∀ acc, (mk acc).wellFormed = true ∧ encode (mk acc) = (f, off :: encodeAccess16 acc)) :
    Spells f (off :: rest) i := by
  unfold decodeAccess16 at h
  split at h
  · exact finishDecode_spells h (hmk _).1 (hmk _).2
  · exact finishDecode_spells (read := [off, 1, _, _]) h (hmk _).1 (by simp [(hmk _).2, encodeAccess16])
  all_goals cases h

theorem decodeAccess32_spells {mk : Access 32 → Instr} {off : Byte} (h : decodeAccess32 mk rest = .ok i)
    (hmk : ∀ acc, (mk acc).wellFormed = true ∧ encode (mk acc) = (f, off :: encodeAccess32 acc)) :
    Spells f (off :: rest) i := by
  unfold decodeAccess32 at h
  split at h
  · exact finishDecode_spells h (hmk _).1 (hmk _).2
  · exact finishDecode_spells (read := [off, 1, _, _, _, _]) h (hmk _).1 (by simp [(hmk _).2, encodeAccess32])
  all_goals cases h

/-! ### The packet formats -/

/-- The row a packet selects is well-formed and its encoding is the packet (30_encoding.md R106). -/
theorem selectSetup_spec (p : Packet8) :
    (selectSetup p).wellFormed = true ∧ encode (selectSetup p) = (.setup8, p.toList) := by
  unfold selectSetup
  split_ifs <;>
    simp_all [Instr.wellFormed, encode, encodeGetDescriptor, encodeRequest, Packet8.toList, isKnownRequest, isDescriptorType]

theorem decodeSetup8_spells (h : decodeSetup8 bytes = .ok i) : Spells .setup8 bytes i := by
  unfold decodeSetup8 at h
  split at h
  · exact finishDecode_spells h (selectSetup_spec _).1 (selectSetup_spec _).2
  · cases h

/-- The row a status word selects is well-formed and its encoding is the word (30_encoding.md R109). -/
theorem selectEvt_spec (w : Half) : (selectEvt w).wellFormed = true ∧ encode (selectEvt w) = (.evt, halfBytes w) := by
  unfold selectEvt
  split_ifs <;> simp_all [Instr.wellFormed, encode]

theorem decodeEvt_spells (h : decodeEvt bytes = .ok i) : Spells .evt bytes i := by
  unfold decodeEvt at h
  split at h
  · next b0 b1 rest =>
    have hencode := (selectEvt_spec (le16 b0 b1)).2
    rw [halfBytes_le16] at hencode
    exact finishDecode_spells h (selectEvt_spec _).1 hencode
  · cases h

theorem decodeData8_spells (h : decodeData8 bytes = .ok i) : Spells .data8 bytes i := by
  unfold decodeData8 at h
  split at h
  · exact finishDecode_spells h rfl rfl
  · cases h

/-! ### The frames -/

/-- A frame with the signature and zeros after the opcode is a command frame (30_encoding.md R102). -/
theorem take_eq_commandFrame (hlength : Config.cmdSize ≤ bytes.length) (hsig : bytes.take 7 = Config.sig)
    (hzeros : ((bytes.take Config.cmdSize).drop 8).all (· == 0) = true) :
    bytes.take Config.cmdSize = commandFrame (bytes.getD 7 0) := by
  have hcmd : Config.cmdSize = 64 := rfl
  have htail : (bytes.take Config.cmdSize).drop 8 = List.replicate 56 0 := by
    refine (eq_replicate_of_all_zero hzeros).trans ?_
    rw [List.length_drop, List.length_take_of_le hlength, hcmd]
  have hhead : (bytes.take Config.cmdSize).take 8 = Config.sig ++ [bytes.getD 7 0] := by
    have h7 : 7 < bytes.length := by omega
    rw [List.take_take, ← hsig, List.getD_eq_getElem _ _ h7, List.take_concat_get' _ _ h7, hcmd]
    rfl
  rw [commandFrame, ← htail, ← hhead, List.take_append_drop]

/-- The operation of an opcode is well-formed and its encoding is the frame with that opcode (30_encoding.md R102). -/
theorem selectCommand_spec (opcode : Byte) :
    (selectCommand opcode).wellFormed = true ∧ encode (selectCommand opcode) = (.cmd64, commandFrame opcode) := by
  unfold selectCommand
  split_ifs <;> simp_all [Instr.wellFormed, encode, Config.opResetPages, Config.opReboot]

theorem decodeCmd64_spells (h : decodeCmd64 bytes = .ok i) : Spells .cmd64 bytes i := by
  unfold decodeCmd64 at h
  split_ifs at h with hshort hframe
  simp only [Bool.or_eq_true, bne_iff_ne, Bool.not_eq_true', not_or, not_not, Bool.not_eq_false] at hframe
  obtain ⟨hwf, hencode⟩ := selectCommand_spec (bytes.getD 7 0)
  rw [← take_eq_commandFrame (Nat.le_of_not_lt hshort) hframe.1 hframe.2] at hencode
  have hspells := finishDecode_spells h hwf hencode
  rwa [List.take_append_drop] at hspells

theorem decodeAck8_spells (h : decodeAck8 bytes = .ok i) : Spells .ack8 bytes i := by
  unfold decodeAck8 at h
  split_ifs at h with hshort hframe
  have hack : bytes.take 8 = Config.ackFrame := by simpa using hframe
  have hspells := finishDecode_spells (f := .ack8) h rfl (congrArg _ hack.symm)
  rwa [List.take_append_drop] at hspells

/-! ### The register and table offsets -/

theorem eq_of_toNat_eq_literal {b : Byte} {n : Nat} (h : b.toNat = n) : b = BitVec.ofNat 8 n := by
  rw [← h, BitVec.ofNat_toNat, BitVec.setWidth_eq]

theorem decodeReg16_spells (h : decodeReg16 bytes = .ok i) : Spells .reg16 bytes i := by
  unfold decodeReg16 at h
  split at h
  · cases h
  · split at h
    case h_7 => cases h
    all_goals
      next hoff =>
      rw [eq_of_toNat_eq_literal hoff]
      exact decodeAccess16_spells h fun _ => ⟨rfl, rfl⟩

theorem decodeReg32_spells (h : decodeReg32 bytes = .ok i) : Spells .reg32 bytes i := by
  unfold decodeReg32 at h
  split at h
  · cases h
  · split at h
    case h_5 => cases h
    all_goals
      next hoff =>
      rw [eq_of_toNat_eq_literal hoff]
      exact decodeAccess32_spells h fun _ => ⟨rfl, rfl⟩

theorem decodeBdt_spells (h : decodeBdt bytes = .ok i) : Spells .bdt bytes i := by
  unfold decodeBdt at h
  split at h
  · cases h
  · split at h
    case h_9 => cases h
    all_goals
      next hoff =>
      rw [eq_of_toNat_eq_literal hoff]
      exact decodeAccess16_spells h fun _ => ⟨rfl, rfl⟩

/-! ### The flash operations -/

theorem finishDecode_spellsMasked {c x y z : Byte} {m : Nat} {read : List Byte} (h : finishDecode j rest = .ok i)
    (hc : (c &&& 0xC3).toNat = m) (hwf : j.wellFormed = true)
    (hencode : encode j = (.fop, BitVec.ofNat 8 m :: 0 :: 0 :: 0 :: read)) :
    SpellsMasked (c :: x :: y :: z :: (read ++ rest)) i := by
  obtain ⟨rfl, n, rfl⟩ := finishDecode_eq_ok h
  exact ⟨hwf, by rw [hencode], n, c, x, y, z, by simp [hencode], by rw [hencode, eq_of_toNat_eq_literal hc]; rfl⟩

theorem decodeFop_spellsMasked (h : decodeFop bytes = .ok i) : SpellsMasked bytes i := by
  unfold decodeFop at h
  split at h
  case h_2 => cases h
  case h_1 c x y z rest =>
    split at h
    case h_1 hc => exact finishDecode_spellsMasked (read := []) h hc rfl rfl
    case h_2 hc =>
      split at h
      · exact finishDecode_spellsMasked (read := [_, _, _, _]) h hc rfl (by simp [encode])
      · cases h
    case h_3 hc =>
      split at h
      · split at h
        · next hwidth =>
          exact finishDecode_spellsMasked (read := [_, _, _, _, _, _, _]) h hc rfl (by simp [encode, code_of_widthOf hwidth])
        · cases h
      · cases h
    case h_4 hc => exact finishDecode_spellsMasked (read := []) h hc rfl rfl
    case h_5 => cases h

/-! ### The operands of OP -/

theorem decodeHostSetup_spells (h : decodeHostSetup bytes = .ok i) : Spells .op (0x04 :: bytes) i := by
  unfold decodeHostSetup at h
  split at h
  · next a e l0 l1 _ =>
    obtain ⟨d, rest, rfl, hlength, h⟩ := takeBytes_bind_eq_ok h
    have hlt : d.length < 65536 := by rw [hlength]; exact Nat.mod_lt _ (by decide)
    exact finishDecode_spells (read := 0x04 :: a :: e :: l0 :: l1 :: d) h (decide_eq_true hlt)
      (by simp [encode, hlength, biasedField_biasedLength])
  · cases h

theorem decodeHostOut_spells (h : decodeHostOut bytes = .ok i) : Spells .op (0x05 :: bytes) i := by
  unfold decodeHostOut at h
  split at h
  · next a e l0 l1 _ =>
    obtain ⟨d, rest, rfl, hlength, h⟩ := takeBytes_bind_eq_ok h
    have hlt : d.length < 65536 := hlength ▸ (le16 l0 l1).isLt
    exact finishDecode_spells (read := 0x05 :: a :: e :: l0 :: l1 :: d) h (decide_eq_true hlt) (by simp [encode, hlength])
  · cases h

theorem decodeHostIn_spells (h : decodeHostIn bytes = .ok i) : Spells .op (0x06 :: bytes) i := by
  unfold decodeHostIn at h
  split at h
  · exact finishDecode_spells h rfl rfl
  · cases h

theorem decodeSenddata_spells (h : decodeSenddata bytes = .ok i) : Spells .op (0x12 :: bytes) i := by
  unfold decodeSenddata at h
  split at h
  · next e l0 l1 n0 n1 _ =>
    obtain ⟨d, rest, rfl, hlength, h⟩ := takeBytes_bind_eq_ok h
    have hlt : d.length < 65536 := hlength ▸ (le16 n0 n1).isLt
    dsimp only at h
    split at h
    · next hle =>
      exact finishDecode_spells (read := 0x12 :: e :: l0 :: l1 :: n0 :: n1 :: d) h
        (Bool.and_eq_true_iff.2 ⟨decide_eq_true hlt, decide_eq_true hle⟩) (by simp [encode, hlength])
    · cases h
  · cases h

theorem decodeWritepage_spells (h : decodeWritepage bytes = .ok i) : Spells .op (0x13 :: bytes) i := by
  unfold decodeWritepage at h
  split at h
  · exact finishDecode_spells (read := [0x13, 0, _, _, _, _, _, _]) h rfl (by simp [encode])
  · next a0 a1 a2 a3 s0 s1 n0 n1 _ =>
    obtain ⟨d, rest, rfl, hlength, h⟩ := takeBytes_bind_eq_ok h
    have hlt : d.length < 65536 := hlength ▸ (le16 n0 n1).isLt
    exact finishDecode_spells (read := 0x13 :: 1 :: a0 :: a1 :: a2 :: a3 :: s0 :: s1 :: n0 :: n1 :: d) h
      (decide_eq_true hlt) (by simp [encode, hlength])
  · split at h <;> cases h
  · cases h

theorem decodeRegRead_spells (h : decodeRegRead bytes = .ok i) : Spells .op (0x15 :: bytes) i := by
  unfold decodeRegRead at h
  split at h
  · split at h
    · next hwindow hwidth =>
      exact finishDecode_spells (read := [0x15, _, _, _, _]) h rfl
        (by simp [encode, code_of_windowOf hwindow, code_of_widthOf hwidth])
    · cases h
  · cases h

theorem decodeRegWrite_spells (h : decodeRegWrite bytes = .ok i) : Spells .op (0x16 :: bytes) i := by
  unfold decodeRegWrite at h
  split at h
  · split at h
    · next hwindow hwidth =>
      split at h
      · next hfits =>
        exact finishDecode_spells (read := [0x16, _, _, _, _, _, _, _, _]) h (decide_eq_true hfits)
          (by simp [encode, code_of_windowOf hwindow, code_of_widthOf hwidth])
      · cases h
    · cases h
  · cases h

theorem decodeService_spells (h : decodeService bytes = .ok i) : Spells .op (0x30 :: bytes) i := by
  unfold decodeService at h
  split at h
  · next e rest =>
    split at h
    · next hlt =>
      have hfield : (e.extractLsb' 0 4).zeroExtend 8 = e := by
        apply BitVec.eq_of_toNat_eq
        simp only [BitVec.truncate_eq_setWidth, BitVec.toNat_setWidth, BitVec.extractLsb'_toNat]
        omega
      exact finishDecode_spells (read := [0x30, e]) h rfl (by rw [encode, hfield])
    · cases h
  · cases h

theorem decodeTxchunk_spells (h : decodeTxchunk bytes = .ok i) : Spells .op (0x31 :: bytes) i := by
  unfold decodeTxchunk at h
  split at h
  · exact finishDecode_spells h rfl rfl
  · exact finishDecode_spells h rfl rfl
  all_goals cases h

theorem decodeAppend_spells (h : decodeAppend bytes = .ok i) : Spells .op (0x40 :: bytes) i := by
  unfold decodeAppend at h
  split at h
  · exact finishDecode_spells h rfl rfl
  · cases h

/-- The selectors with operands by their own lemmas; every other selector is the whole operation (30_encoding.md R112). -/
theorem decodeOp_spells (h : decodeOp bytes = .ok i) : Spells .op bytes i := by
  unfold decodeOp at h
  split at h
  · cases h
  · split at h
    case h_31 => cases h
    all_goals
      rename_i hsel
      rw [eq_of_toNat_eq_literal hsel]
    case h_4 => exact decodeHostSetup_spells h
    case h_5 => exact decodeHostOut_spells h
    case h_6 => exact decodeHostIn_spells h
    case h_11 => exact decodeSenddata_spells h
    case h_12 => exact decodeWritepage_spells h
    case h_14 => exact decodeRegRead_spells h
    case h_15 => exact decodeRegWrite_spells h
    case h_22 => exact decodeService_spells h
    case h_23 => exact decodeTxchunk_spells h
    case h_25 => exact decodeAppend_spells h
    all_goals exact finishDecode_spells h rfl rfl

/-! ### Every format -/

/-- Outside FOP, the bytes the decoder accepts spell the operation it answers. -/
theorem decode_spells (h : decode f bytes = .ok i) (hf : f ≠ .fop) : Spells f bytes i := by
  cases f
  case cmd64 => exact decodeCmd64_spells h
  case ack8 => exact decodeAck8_spells h
  case data8 => exact decodeData8_spells h
  case setup8 => exact decodeSetup8_spells h
  case evt => exact decodeEvt_spells h
  case reg16 => exact decodeReg16_spells h
  case reg32 => exact decodeReg32_spells h
  case bdt => exact decodeBdt_spells h
  case fop => exact absurd rfl hf
  case op => exact decodeOp_spells h

/-- Settles O2: the row a condition selects meets it, and a length that came from a field fits it. -/
theorem decodedOperationsAreWellFormed : Obligations.DecodedOperationsAreWellFormed := by
  intro f bytes i h
  by_cases hf : f = .fop
  · subst hf
    exact (decodeFop_spellsMasked h).wellFormed
  · exact (decode_spells h hf).wellFormed

/-- Settles O3: what is accepted is spelled out by its encoding and zeros, in FOP up to the mask of R118. -/
theorem encodeOfDecodeIsIdentity : Obligations.EncodeOfDecodeIsIdentity := by
  intro f bytes i h
  by_cases hf : f = .fop
  · subst hf
    obtain ⟨_, hformat, hbytes⟩ := decodeFop_spellsMasked h
    exact ⟨hformat, fun hne => absurd rfl hne, fun _ => hbytes⟩
  · obtain ⟨_, hformat, hbytes⟩ := decode_spells h hf
    exact ⟨hformat, fun _ => hbytes, fun hfop => absurd hfop hf⟩

/-- Settles O4: the decoder evaluated on each word. -/
theorem wordsOfTheTablesDecode : Obligations.WordsOfTheTablesDecode :=
  ⟨rfl, rfl, rfl, rfl, rfl, rfl, rfl, rfl⟩

end Sys2Proof
end

section
/-! PROOFS. The boot controller (40_boot_controller_interface.md): the stack-pointer test, BOOT.EVALUATE and BOOT.LAUNCH, the
hardware resets, and the MAIN steps of UpdateMode. -/

namespace Sys2Proof.Machine

variable {s : State} {p : Params}

/-- MAIN steps while the dispatcher is idle (00_scope.md R9). -/
theorem mainStep_idle (r : Res State) (hdisp : DispatcherIdle s) : mainStep s r = finish r := if_pos hdisp

/-! ### The stack-pointer test -/

theorem checkUserCode_eq_true_iff (p : Params) (v : Word) : checkUserCode p v = true ↔ v &&& Config.spMask = p.sramBase :=
  beq_iff_eq

theorem checkUserCode_eq_false_iff (p : Params) (v : Word) :
    checkUserCode p v = false ↔ v &&& Config.spMask ≠ p.sramBase :=
  beq_eq_false_iff_ne

/-- The mask selects bit 29 and bits 27 to 17 (40_boot_controller_interface.md R134). -/
theorem getLsbD_spMask : ∀ k < 32, Config.spMask.getLsbD k = decide (k = 29 ∨ 17 ≤ k ∧ k ≤ 27) := by decide

/-- The default SRAM_BASE has bit 29 alone (00_scope.md R7). -/
theorem getLsbD_defaultSramBase : ∀ k < 32, (0x20000000 : Word).getLsbD k = decide (k = 29) := by decide

/-- The test of the default SRAM_BASE, bit by bit (40_boot_controller_interface.md R134). -/
theorem masked_eq_defaultSramBase_iff (v : Word) :
    v &&& Config.spMask = 0x20000000 ↔ bit v 29 = true ∧ ∀ k, 17 ≤ k → k ≤ 27 → bit v k = false := by
  constructor
  · intro h
    have hbit : ∀ k < 32, (bit v k && decide (k = 29 ∨ 17 ≤ k ∧ k ≤ 27)) = decide (k = 29) := fun k hk => by
      rw [← getLsbD_spMask k hk, ← getLsbD_defaultSramBase k hk, ← h, BitVec.getLsbD_and, bit]
    refine ⟨by simpa using hbit 29 (by decide), fun k hlow hhigh => ?_⟩
    simpa [hlow, hhigh, show k ≠ 29 by omega] using hbit k (by omega)
  · rintro ⟨hset, hclear⟩
    refine BitVec.eq_of_getLsbD_eq fun k hk => ?_
    rw [BitVec.getLsbD_and, getLsbD_spMask k hk, getLsbD_defaultSramBase k hk]
    by_cases h29 : k = 29
    · subst h29
      simpa [bit] using hset
    · by_cases hin : 17 ≤ k ∧ k ≤ 27
      · simpa [bit, h29, hin] using hclear k hin.1 hin.2
      · simp [h29, hin]

/-- Settles O59: the comparison is `checkUserCode_eq_true_iff`, its bits are `masked_eq_defaultSramBase_iff`, and in an erased
word bits 27 to 17 are set. -/
theorem stackPointerTest : Obligations.StackPointerTest := by
  refine fun p v => ⟨checkUserCode_eq_true_iff p v, fun hbase => ⟨?_, ?_⟩⟩
  · rw [checkUserCode_eq_true_iff, hbase, masked_eq_defaultSramBase_iff]
  · rw [checkUserCode_eq_false_iff, hbase]
    decide

/-! ### BOOT.EVALUATE and BOOT.LAUNCH -/

/-- The page at APP_BASE lies in the array (20_memory.md R71). -/
theorem appPage_inFlash (hp : p.flashOk) {k : Nat} (hk : k < 1024) : inFlash p ((appBase p).toNat + k) = true := by
  have hfirst := hp.2.1
  rw [inFlash_iff, appBase_toNat hp]
  omega

/-- The second word of the image, without wrapping. -/
theorem appBase_add_four_toNat (hp : p.flashOk) : (appBase p + 4).toNat = (appBase p).toNat + 4 := by
  have hin := appPage_inFlash hp (k := 1023) (by decide)
  obtain ⟨_, _, htop⟩ := hp
  simp only [Config.pageSize] at htop
  rw [inFlash_iff] at hin
  have hfour : (4 : Word).toNat = 4 := rfl
  rw [BitVec.toNat_add, hfour]
  omega

/-- A word inside the array is read. -/
theorem flashRead32_ok {a : Word} (hfirst : inFlash s.par a.toNat = true) (hlast : inFlash s.par (a.toNat + 3) = true) :
    flashRead32 s a = .ok (flashWordAt s a.toNat) := by
  rw [flashRead32, hfirst, hlast]
  rfl

/-- The stack pointer of the image is read (40_boot_controller_interface.md R131, R136). -/
theorem flashRead32_appBase (hp : s.par.flashOk) :
    flashRead32 s (appBase s.par) = .ok (flashWordAt s (appBase s.par).toNat) :=
  flashRead32_ok (appPage_inFlash hp (k := 0) (by decide)) (appPage_inFlash hp (by decide))

/-- The entry address of the image is read (40_boot_controller_interface.md R136). -/
theorem flashRead32_appEntry (hp : s.par.flashOk) :
    flashRead32 s (appBase s.par + 4) = .ok (flashWordAt s ((appBase s.par).toNat + 4)) := by
  have haddr := appBase_add_four_toNat hp
  rw [← haddr]
  refine flashRead32_ok ?_ ?_ <;> rw [haddr]
  · exact appPage_inFlash hp (k := 4) (by decide)
  · exact appPage_inFlash hp (k := 7) (by decide)

/-- What BOOT.EVALUATE decides (40_boot_controller_interface.md R131). -/
theorem evaluate_eq (hp : s.par.flashOk) :
    evaluate s = .ok (s.withBoot { s.boot with
      magic := 0
      state := if s.boot.magic = Config.magic ∨ s.boot.bootPin = true ∨
        checkUserCode s.par (flashWordAt s (appBase s.par).toNat) = false then .updateMode else .launch }) := by
  have hread := flashRead32_appBase (s := s.withBoot { s.boot with magic := 0 }) hp
  simp only [evaluate, hread]
  rfl

/-- What BOOT.LAUNCH hands over (40_boot_controller_interface.md R136). -/
theorem launch_eq (hp : s.par.flashOk) :
    launch s = .ok (s.withBoot { s.boot with
      vtor := appBase s.par
      msp := flashWordAt s (appBase s.par).toNat
      pcApp := flashWordAt s ((appBase s.par).toNat + 4)
      launched := true }) := by
  rw [launch, flashRead32_appBase hp, flashRead32_appEntry hp]
  rfl

theorem exec_bootEvaluate (hdisp : DispatcherIdle s) :
    exec .bootEvaluate s = finish (if s.boot.state = .evaluate then evaluate s else .ok s) := mainStep_idle _ hdisp

theorem exec_bootLaunch (hdisp : DispatcherIdle s) :
    exec .bootLaunch s = finish (if s.boot.state = .launch then launch s else .ok s) := mainStep_idle _ hdisp

/-- Settles O58: in their states `evaluate_eq` and `launch_eq`, the page at APP_BASE being readable. -/
theorem evaluateAndLaunch : Obligations.EvaluateAndLaunch := by
  intro s hdisp hp
  rw [exec_bootEvaluate hdisp, exec_bootLaunch hdisp]
  refine ⟨fun hstate => ?_, fun hstate => ?_, fun hstate => ?_, fun hstate => ?_⟩
  · rw [if_pos hstate, evaluate_eq hp]
    simp only [checkUserCode_eq_false_iff]
    rfl
  · rw [if_pos hstate, launch_eq hp]
    rfl
  · rw [if_neg hstate]
    rfl
  · rw [if_neg hstate]
    rfl

/-! ### The hardware resets -/

/-- A hardware reset keeps every flash byte that was under no operation (40_boot_controller_interface.md R139; log 10). -/
theorem flashByte_hardwareReset (hflash : FlashOk s.par s.flash) (magic : Half) {a : Nat} (ha : ¬UnderOperation s a) :
    flashByte (hardwareReset s magic) a = flashByte s a := by
  simp only [flashByte, hardwareReset, flashAfterReset]
  split
  · rfl
  · next x herase =>
    simp only [UnderOperation, herase] at ha
    rw [Memory.getD_writeBytes hflash.1, interruptedBytes_length, if_neg ha]
  · next x h hprog =>
    simp only [UnderOperation, hprog] at ha
    rw [Memory.getD_writeBytes hflash.1, interruptedBytes_length, if_neg (by omega)]

/-- The USB core registers after a hardware reset, as words (10_state.md R50). -/
theorem usbReset_words : Usb.reset.ep0.toHalf = 0 ∧ Usb.reset.ep1.toHalf = 0 ∧ Usb.reset.cntr.toHalf = 0x0003 ∧
    Usb.reset.istrHalf = 0 ∧ Usb.reset.daddr.toHalf = 0 := by decide

/-- The flash controller's registers after a hardware reset, as words (10_state.md R50). -/
theorem flashCtlReset_words : FlashCtl.reset.srWord = 0 ∧ FlashCtl.reset.crWord = 0x80 := by decide

/-- A hardware reset leaves column HW of the reset table (10_state.md R50): the register words, the flash bytes kept, and for the
rest the fields of the records it stores. -/
theorem hardwareReset_done (hflash : FlashOk s.par s.flash) (magic : Half) :
    HardwareResetDone s (hardwareReset s magic) magic := by
  obtain ⟨hep0, hep1, hcntr, histr, hdaddr⟩ := usbReset_words
  obtain ⟨hsr, hcr⟩ := flashCtlReset_words
  have hkept : ∀ a, ¬UnderOperation s a → flashByte (hardwareReset s magic) a = flashByte s a :=
    fun _ => flashByte_hardwareReset hflash magic
  refine ⟨hep0, hep1, hcntr, histr, hdaddr, rfl, rfl, rfl, fun _ => rfl, rfl, rfl, rfl, rfl, fun _ => rfl, rfl, rfl,
    hsr, hcr, rfl, rfl, rfl, rfl, rfl, rfl, hkept, ?_⟩
  and_intros <;> rfl

/-- Settles O57: each of the three is `hardwareReset` with the Magic Word it leaves. -/
theorem hardwareResets : Obligations.HardwareResets := by
  intro s hflash
  exact ⟨⟨_, rfl, hardwareReset_done hflash _, mainStep_idle _⟩, ⟨_, rfl, hardwareReset_done hflash _⟩⟩

/-! ### UpdateMode -/

theorem exec_bootUpdatemode (hdisp : DispatcherIdle s) :
    exec .bootUpdatemode s = .next (if s.boot.state = .updateMode then updateModeStep s else s) := mainStep_idle _ hdisp

theorem exec_drvShutdown (hdisp : DispatcherIdle s) : exec .drvShutdown s = .next (shutDown s) := mainStep_idle _ hdisp

theorem exec_drvInitialize (hdisp : DispatcherIdle s) : exec .drvInitialize s = .next (bringUp s) := mainStep_idle _ hdisp

/-- The idle blink: the indicator turns over while no upload has started (40_boot_controller_interface.md R135). -/
theorem blinkIdle_eq (s : State) : blinkIdle s = s.withBoot { s.boot with
    um := .poll
    indicator := if s.hid.uploadStarted = true then s.boot.indicator else !s.boot.indicator } := by
  unfold blinkIdle
  split <;> rfl

/-- Settles O60: the line of the sequence that MAIN has reached, by the cases of `updateModeStep`. -/
theorem updateModeSequence : Obligations.UpdateModeSequence := by
  intro s hdisp
  rw [exec_bootUpdatemode hdisp, exec_drvShutdown hdisp, exec_drvInitialize hdisp]
  refine ⟨fun hstate => by rw [if_neg hstate], fun hstate => ?_⟩
  rw [if_pos hstate, updateModeStep]
  refine ⟨fun hum => ⟨_, rfl, ?_⟩, fun hum => ⟨_, rfl, ?_⟩, fun hum => ?_, fun hum => ?_, fun hum => ⟨_, rfl, ?_⟩,
    fun hum hflash => ⟨hardwareReset s s.boot.magic, ?_, hardwareReset_done hflash _⟩⟩
  · rw [hum]; rfl
  · rw [hum]; rfl
  · rw [hum]; rfl
  · rw [hum, ← blinkIdle_eq]
  · rw [hum]; rfl
  · rw [hum]

end Sys2Proof.Machine
end

section
/-! PROOFS. The register interface (41_usb_register_interface.md R150 to R157): what a write of each USB core register leaves, the
accesses by name and by offset, and the descriptor words of a table beyond packet memory. -/

namespace Sys2Proof.Machine

variable {s : State}

/-! ### The words that writes leave -/

/-- The word EPnR holds after a write (41_usb_register_interface.md R157). -/
theorem EpReg.toHalf_write (r : EpReg) (v : Half) :
    (r.write v).toHalf = (v &&& 0x363F) ||| (r.toHalf &&& 0x0800) ||| (r.toHalf &&& v &&& 0x8080) := by
  apply BitVec.eq_of_getLsbD_eq
  intro i hi
  simp only [BitVec.getLsbD_or, BitVec.getLsbD_and, EpReg.getLsbD_toHalf, EpReg.write, statOfCode_code, typeOfCode_code,
    field, bit, BitVec.getLsbD_extractLsb']
  interval_cases i <;> simp

/-- The word CNTR holds after a write (41_usb_register_interface.md R153). -/
theorem toHalf_cntrOf (v : Half) : (cntrOf v).toHalf = v &&& 0x9C03 := by
  apply BitVec.eq_of_getLsbD_eq
  intro i hi
  simp only [BitVec.getLsbD_and, Cntr.getLsbD_toHalf, cntrOf, bit]
  interval_cases i <;> simp

/-- The word DADDR holds after a write (41_usb_register_interface.md R155). -/
theorem toHalf_daddrOf (v : Half) : (daddrOf v).toHalf = v &&& 0x00FF := by
  apply BitVec.eq_of_getLsbD_eq
  intro i hi
  simp only [BitVec.getLsbD_and, Daddr.getLsbD_toHalf, daddrOf, field, bit, BitVec.getLsbD_extractLsb']
  interval_cases i <;> simp

/-- The word ISTR reads as after a write: its derived bits are those of the endpoint registers, which the write leaves
(41_usb_register_interface.md R154). -/
theorem istrHalf_writeIstr (u : Usb) (v : Half) : (writeIstr u v).istrHalf = u.istrHalf &&& (v ||| 0xE3FF) := by
  have hepId : (writeIstr u v).epId = u.epId := rfl
  have hdir : (writeIstr u v).dir = u.dir := rfl
  have hctr : (writeIstr u v).ctr = u.ctr := rfl
  have histr : (writeIstr u v).istr = u.istr.write v := rfl
  apply BitVec.eq_of_getLsbD_eq
  intro i hi
  simp only [BitVec.getLsbD_and, BitVec.getLsbD_or, Usb.getLsbD_istrHalf, hepId, hdir, hctr, histr, Istr.write, bit]
  interval_cases i <;> simp

/-- The address DADDR holds after a write (41_usb_register_interface.md R155). -/
theorem daddrOf_add_toNat (v : Half) : (daddrOf v).add.toNat = (v &&& 0x007F).toNat := by
  have hmask : (0x007F : Half).toNat = 2 ^ 7 - 1 := rfl
  rw [daddrOf, field, BitVec.extractLsb'_toNat, Nat.shiftRight_zero, BitVec.toNat_and, hmask,
    Nat.and_two_pow_sub_one_eq_mod]

/-- When a packet to a device address is considered (10_state.md R29). -/
theorem Usb.enabledAt_iff (u : Usb) (a : Byte) :
    u.enabledAt a = true ↔ u.attached = true ∧ u.daddr.ef = true ∧ a.toNat = u.daddr.add.toNat := by
  simp [Usb.enabledAt, and_assoc]

/-- A write of CNTR with FRES = 1 applies the core-reset effect (41_usb_register_interface.md R153). -/
theorem writeCntr_of_fres (u : Usb) {v : Half} (hfres : bit v 0 = true) :
    writeCntr u v = coreReset { u with cntr := cntrOf v } := if_pos hfres

/-- A write of CNTR with FRES = 0 stores the register only (41_usb_register_interface.md R153). -/
theorem writeCntr_of_not_fres (u : Usb) {v : Half} (hfres : bit v 0 = false) :
    writeCntr u v = { u with cntr := cntrOf v } := if_neg (ne_true_of_eq_false hfres)

/-- Every write of CNTR stores the register (41_usb_register_interface.md R153). -/
theorem writeCntr_cntr (u : Usb) (v : Half) : (writeCntr u v).cntr = cntrOf v := by
  cases hfres : bit v 0
  · rw [writeCntr_of_not_fres u hfres]
  · rw [writeCntr_of_fres u hfres]; rfl

/-! ### Accesses by offset -/

/-- The shapes of access that the two windows take (20_memory.md R75). -/
theorem accessShape_iff (win : Window) (width : Width) (off : Half) : accessShape win width off = true ↔
    (win = .usbReg ∧ width = .w16 ∧ off.toNat % 4 = 0 ∧ off.toNat < 0x60) ∨
      (win = .flashReg ∧ width = .w32 ∧ off.toNat % 4 = 0 ∧ off.toNat < 0x24) := by
  cases win <;> simp [accessShape, and_assoc]

section Shape
variable {win : Window} {width : Width} {off : Half}

theorem accessShape_usbReg (halign : off.toNat % 4 = 0) (hbound : off.toNat < 0x60) :
    accessShape .usbReg .w16 off = true := (accessShape_iff _ _ _).2 (.inl ⟨rfl, rfl, halign, hbound⟩)

theorem accessShape_flashReg (halign : off.toNat % 4 = 0) (hbound : off.toNat < 0x24) :
    accessShape .flashReg .w32 off = true := (accessShape_iff _ _ _).2 (.inr ⟨rfl, rfl, halign, hbound⟩)

theorem exec_regRead_usbReg (hshape : accessShape .usbReg .w16 off = true) :
    exec (.regRead .usbReg .w16 off) s = .next (s.withResult (.half (usbRead s.usb off.toNat))) :=
  congrArg finish (if_pos hshape)

theorem exec_regRead_flashReg (hshape : accessShape .flashReg .w32 off = true) :
    exec (.regRead .flashReg .w32 off) s = .next (s.withResult (.word (flashRegRead s.fctl off.toNat))) :=
  congrArg finish (if_pos hshape)

theorem exec_regRead_refused (hshape : ¬accessShape win width off = true) :
    exec (.regRead win width off) s = .refused .regAccessShape := congrArg finish (if_neg hshape)

theorem exec_regWrite_usbReg (w : Word) (hshape : accessShape .usbReg .w16 off = true) :
    exec (.regWrite .usbReg .w16 off w) s = .next (s.withUsb (usbWrite s.usb off.toNat (w.setWidth 16))) :=
  congrArg finish (if_pos hshape)

theorem exec_regWrite_flashReg (w : Word) (hshape : accessShape .flashReg .w32 off = true) :
    exec (.regWrite .flashReg .w32 off w) s = finish (flashRegWrite s off.toNat w) :=
  congrArg finish (if_pos hshape)

theorem exec_regWrite_refused (w : Word) (hshape : ¬accessShape win width off = true) :
    exec (.regWrite win width off w) s = .refused .regAccessShape := congrArg finish (if_neg hshape)

end Shape

/-- The USB core registers by offset, 0 where none is listed (41_usb_register_interface.md R151, 10_state.md R21). -/
theorem usbRead_toNat (u : Usb) (off : Half) : usbRead u off.toNat =
    if off = 0x00 then u.ep0.toHalf else if off = 0x04 then u.ep1.toHalf
    else if off = 0x40 then u.cntr.toHalf else if off = 0x44 then u.istrHalf
    else if off = 0x4C then u.daddr.toHalf else if off = 0x50 then u.btable else 0 := by
  simp only [BitVec.toNat_eq]
  generalize off.toNat = n
  unfold usbRead
  split <;> simp_all

/-- The flash controller's registers by offset, 0 where none is listed and for FLASH_KEYR
(41_usb_register_interface.md R151, 10_state.md R39). -/
theorem flashRegRead_toNat (f : FlashCtl) (off : Half) : flashRegRead f off.toNat =
    if off = 0x0C then f.srWord else if off = 0x10 then f.crWord else if off = 0x14 then f.ar else 0 := by
  simp only [BitVec.toNat_eq]
  generalize off.toNat = n
  unfold flashRegRead
  split <;> simp_all

/-- Where no USB core register is listed a write is ignored (41_usb_register_interface.md R152). -/
theorem usbWrite_unlisted (u : Usb) {off : Nat} (v : Half) (hoff : off ∉ [0x00, 0x04, 0x40, 0x44, 0x4C, 0x50]) :
    usbWrite u off v = u := by
  unfold usbWrite
  split <;> simp_all

/-- Where no writable register of the flash controller is listed a write is ignored
(41_usb_register_interface.md R152, 10_state.md R40). -/
theorem flashRegWrite_unlisted (s : State) {off : Nat} (w : Word) (hoff : off ∉ [0x04, 0x10, 0x14]) :
    flashRegWrite s off w = .ok s := by
  unfold flashRegWrite
  split <;> simp_all

/-- FLASH_SR as a word (10_state.md R40). -/
theorem FlashCtl.srWord_eq (f : FlashCtl) : f.srWord = if f.bsy then 1 else 0 := by
  unfold FlashCtl.srWord
  cases f.bsy <;> decide

/-! ### Accesses by name -/

/-- The low half of a zero-extended halfword. -/
@[simp] theorem setWidth_zext32 (v : Half) : (zext32 v).setWidth 16 = v := by simp [zext32]

/-- A write of a USB core register through its offset, the value zero-extended. -/
theorem exec_regWrite_zext32 {off : Half} (v : Half) (hshape : accessShape .usbReg .w16 off = true) :
    exec (.regWrite .usbReg .w16 off (zext32 v)) s = .next (s.withUsb (usbWrite s.usb off.toNat v)) := by
  rw [exec_regWrite_usbReg _ hshape, setWidth_zext32]

section Named
variable (s : State) (v : Half)

theorem exec_regEp0r_write : exec (.regEp0r (.write v)) s = .next (s.withUsb (writeEp s.usb .ep0 v)) :=
  exec_regWrite_zext32 v rfl

theorem exec_regEp1r_write : exec (.regEp1r (.write v)) s = .next (s.withUsb (writeEp s.usb .ep1 v)) :=
  exec_regWrite_zext32 v rfl

theorem exec_regCntr_write : exec (.regCntr (.write v)) s = .next (s.withUsb (writeCntr s.usb v)) :=
  exec_regWrite_zext32 v rfl

theorem exec_regIstr_write : exec (.regIstr (.write v)) s = .next (s.withUsb (writeIstr s.usb v)) :=
  exec_regWrite_zext32 v rfl

theorem exec_regDaddr_write : exec (.regDaddr (.write v)) s = .next (s.withUsb (writeDaddr s.usb v)) :=
  exec_regWrite_zext32 v rfl

theorem exec_regBtable_write : exec (.regBtable (.write v)) s = .next (s.withUsb (writeBtable s.usb v)) :=
  exec_regWrite_zext32 v rfl

end Named

/-- Settles O18: both registers take the write as `EpReg.write`, whose word is `EpReg.toHalf_write`. -/
theorem endpointRegisterWrite : Obligations.EndpointRegisterWrite := fun s v =>
  ⟨⟨s.usb.ep0.write v, exec_regEp0r_write s v, s.usb.ep0.toHalf_write v⟩,
    ⟨s.usb.ep1.write v, exec_regEp1r_write s v, s.usb.ep1.toHalf_write v⟩⟩

/-- Settles O19: by FRES in the value, with the core-reset effect or without. -/
theorem controlRegisterWrite : Obligations.ControlRegisterWrite := by
  intro s v
  obtain ⟨hep0, hep1, _, _, hdaddr⟩ := usbReset_words
  refine ⟨writeCntr s.usb v, exec_regCntr_write s v, ?word, fun hfres => ?set, fun hfres => ?clear⟩
  case word => rw [writeCntr_cntr, toHalf_cntrOf]
  case set =>
    rw [writeCntr_of_fres _ hfres]
    exact ⟨rfl, hep0, hep1, hdaddr⟩
  case clear => rw [writeCntr_of_not_fres _ hfres]

/-- Settles O20: the write keeps the derived bits and clears the latched flags (`istrHalf_writeIstr`). -/
theorem interruptStatusWrite : Obligations.InterruptStatusWrite := fun s v =>
  ⟨s.usb.istr.write v, exec_regIstr_write s v, istrHalf_writeIstr s.usb v⟩

/-- Settles O21: DADDR as written, and `enabled` read off it. -/
theorem addressRegisterWrite : Obligations.AddressRegisterWrite := by
  intro s v
  refine ⟨daddrOf v, exec_regDaddr_write s v, toHalf_daddrOf v, fun a => ?_⟩
  rw [Usb.enabledAt_iff, ← daddrOf_add_toNat]
  rfl

/-! ### A table beyond packet memory -/

/-- A routine of the interrupt context runs while no `writePage` does (46_flash_page_programmer.md R292). -/
theorem unitStep_idle (r : Res State) (hseq : SequencerIdle s) : unitStep s r = finish r := if_pos hseq

/-- With a table that extends beyond packet memory an access of one of its words, a read or a write, stops where the word's
place does (41_usb_register_interface.md R156; log 23, log 38). -/
theorem accessBdt_beyond (n : Ep) (within : Nat) (acc : Access 16) (htable : ¬TableInPma s) :
    accessBdt s n within acc =
      if tableWordAt s n within + 2 ≤ Config.pmaSize then refuse .pmaRange else raise s .pmaRange := by
  cases acc with
  | read => rw [accessBdt, bdtRead, bdtAddr_beyond n within htable]; split <;> rfl
  | write v => rw [accessBdt, bdtWrite, bdtAddr_beyond n within htable]; split <;> rfl

/-- The four operations on descriptor words access the word at their offset (10_state.md R31). -/
theorem exec_tableWord {n : Ep} {op : Ep → Access 16 → Instr} {off : Nat} {acc : Access 16} (hseq : SequencerIdle s)
    (hop : op = .bdtAddrTx ∧ off = 0 ∨ op = .bdtCountTx ∧ off = 2 ∨ op = .bdtAddrRx ∧ off = 4 ∨
      op = .bdtCountRx ∧ off = 6) :
    exec (op n acc) s = finish (accessBdt s n off acc) := by
  obtain ⟨rfl, rfl⟩ | ⟨rfl, rfl⟩ | ⟨rfl, rfl⟩ | ⟨rfl, rfl⟩ := hop <;> exact unitStep_idle _ hseq

/-- Settles O22: the register by `exec_regBtable_write`, the words of the table by `accessBdt_beyond`. -/
theorem tableRegisterWrite : Obligations.TableRegisterWrite := by
  intro s v
  refine ⟨exec_regBtable_write s v, fun hseq hbeyond n op off acc hop => ?_⟩
  rw [exec_tableWord hseq hop, accessBdt_beyond n off acc (Nat.not_le.2 hbeyond)]
  refine ⟨fun houtside => ?_, fun hinside => ?_⟩
  · rw [if_neg (Nat.not_le.2 houtside)]; rfl
  · rw [if_pos hinside]; rfl

/-! ### All registers -/

/-- Settles O23: the named reads are reads by offset; by offset the listed words (`usbRead_toNat`, `flashRegRead_toNat`). -/
theorem registerReads : Obligations.RegisterReads := by
  refine ⟨fun s => ?named, fun s win width off => ⟨?usb, ?flash, fun husb hflash => ?refused⟩⟩
  case named =>
    refine ⟨rfl, rfl, rfl, rfl, rfl, rfl, rfl, ?_, rfl, rfl⟩
    rw [← FlashCtl.srWord_eq]
    rfl
  case usb =>
    rintro rfl rfl halign hbound
    rw [exec_regRead_usbReg (accessShape_usbReg halign hbound), usbRead_toNat]
  case flash =>
    rintro rfl rfl halign hbound
    rw [exec_regRead_flashReg (accessShape_flashReg halign hbound), flashRegRead_toNat]
  case refused => exact exec_regRead_refused fun h => ((accessShape_iff _ _ _).1 h).elim husb hflash

/-- Settles O24: at a listed offset both are the same write; at the others the register file is left as it is. -/
theorem writeByOffset : Obligations.WriteByOffset := by
  intro s v w
  refine ⟨⟨_, exec_regWrite_zext32 v rfl, exec_regEp0r_write s v⟩, ⟨_, exec_regWrite_zext32 v rfl, exec_regEp1r_write s v⟩,
    ⟨_, exec_regWrite_zext32 v rfl, exec_regCntr_write s v⟩, ⟨_, exec_regWrite_zext32 v rfl, exec_regIstr_write s v⟩,
    ⟨_, exec_regWrite_zext32 v rfl, exec_regDaddr_write s v⟩, ⟨_, exec_regWrite_zext32 v rfl, exec_regBtable_write s v⟩,
    ⟨_, exec_regWrite_flashReg w rfl, rfl⟩, rfl, rfl, fun win width off => ⟨?usb, ?flash, fun husb hflash => ?refused⟩⟩
  case usb =>
    rintro rfl rfl halign hbound hunlisted
    rw [exec_regWrite_usbReg w (accessShape_usbReg halign hbound), usbWrite_unlisted _ _ hunlisted, State.withUsb_self]
  case flash =>
    rintro rfl rfl halign hbound hunlisted
    rw [exec_regWrite_flashReg w (accessShape_flashReg halign hbound), flashRegWrite_unlisted s w hunlisted, finish]
  case refused => exact exec_regWrite_refused w fun h => ((accessShape_iff _ _ _).1 h).elim husb hflash

end Sys2Proof.Machine
end

section
/-! PROOFS. `initialize` and `shutdown` (41_usb_register_interface.md R160, R161): their register writes taken one after the other
give columns INIT and SHUT of the reset table (10_state.md R50). -/

namespace Sys2Proof.Machine

/-- Zero written to ISTR clears every latched flag (41_usb_register_interface.md R154). -/
theorem writeIstr_zero (u : Usb) : writeIstr u 0x0000 = { u with istr := Usb.reset.istr } := by
  simp [writeIstr, Istr.write, bit, Usb.reset]

/-- The USB core registers after `initialize`: reset, then the four interrupt masks and the line's enable; BTABLE is kept
(41_usb_register_interface.md R160, 10_state.md R50). -/
theorem bringUpUsb_eq (u : Usb) :
    bringUpUsb u = { Usb.reset with cntr := cntrOf 0x9C00, btable := u.btable, irqEn := true } := by
  simp only [bringUpUsb]
  rw [writeCntr_of_fres _ (v := 0x0001) (by decide), writeCntr_of_not_fres _ (v := 0x0000) (by decide), writeIstr_zero,
    writeCntr_of_not_fres _ (v := 0x9C00) (by decide)]
  rfl

/-- The USB core registers after `shutdown`: reset, with the pull-up disconnected; BTABLE is kept
(41_usb_register_interface.md R161, 10_state.md R50). -/
theorem shutDownUsb_eq (u : Usb) : shutDownUsb u = { Usb.reset with btable := u.btable, dpForceLow := true } := by
  simp only [shutDownUsb]
  rw [writeCntr_of_fres _ (v := 0x0003) (by decide), writeIstr_zero]
  rfl

/-- `initialize` twice is `initialize` once. -/
theorem bringUp_idem (s : State) : bringUp (bringUp s) = bringUp s := by
  have husb : bringUpUsb (bringUp s).usb = bringUpUsb s.usb := by
    rw [bringUpUsb_eq, bringUpUsb_eq]
    rfl
  calc bringUp (bringUp s) = (bringUp s).withUsb (bringUpUsb (bringUp s).usb) := rfl
    _ = bringUp s := by rw [husb]; rfl

/-- Settles O55: the registers by `bringUpUsb_eq`, the second call by `bringUp_idem`. -/
theorem initializeBringsUp : Obligations.InitializeBringsUp := by
  intro s hdisp
  obtain ⟨hep0, hep1, _, histr, hdaddr⟩ := usbReset_words
  have husb : (bringUp s).usb = { Usb.reset with cntr := cntrOf 0x9C00, btable := s.usb.btable, irqEn := true } :=
    bringUpUsb_eq s.usb
  refine ⟨bringUp s, exec_drvInitialize hdisp, ?again, rfl, ?registers⟩
  case again =>
    have hstill : DispatcherIdle (bringUp s) := hdisp
    rw [exec_drvInitialize hstill, bringUp_idem]
  case registers =>
    rw [husb]
    exact ⟨hep0, hep1, toHalf_cntrOf _, histr, hdaddr, rfl, rfl, rfl, rfl, rfl⟩

/-- Settles O56: the registers by `shutDownUsb_eq`, of which the reset state differs in `dp_force_low` alone. -/
theorem shutdownBringsDown : Obligations.ShutdownBringsDown := by
  refine ⟨fun s hdisp => ⟨shutDown s, exec_drvShutdown hdisp, rfl, ?column⟩, ?fromReset⟩
  case column =>
    obtain ⟨hep0, hep1, hcntr, histr, hdaddr⟩ := usbReset_words
    have husb : (shutDown s).usb = { Usb.reset with btable := s.usb.btable, dpForceLow := true } := shutDownUsb_eq s.usb
    rw [husb]
    exact ⟨hep0, hep1, hcntr, histr, hdaddr, rfl, rfl, rfl, rfl, rfl⟩
  case fromReset =>
    rw [exec_drvShutdown rfl, shutDown, shutDownUsb_eq]
    rfl

end Sys2Proof.Machine
end

section
/-! PROOFS. The descriptor table and the transmit side of the endpoint buffer manager (42_usb_endpoint_buffer_manager.md R180, R181,
R184, R186): the four words of an entry, EP.CONFIGURE, and queued data armed for its endpoint. -/

namespace Sys2Proof.Machine

variable {s : State}

/-! ### The words of the descriptor table -/

/-- The offset of each of the four words leaves room for it in its entry (10_state.md R31). -/
theorem tableWord_offset_le {op : Ep → Access 16 → Instr} {off : Nat}
    (hop : op = .bdtAddrTx ∧ off = 0 ∨ op = .bdtCountTx ∧ off = 2 ∨ op = .bdtAddrRx ∧ off = 4 ∨
      op = .bdtCountRx ∧ off = 6) : off + 2 ≤ 8 := by
  obtain ⟨-, rfl⟩ | ⟨-, rfl⟩ | ⟨-, rfl⟩ | ⟨-, rfl⟩ := hop <;> decide

/-- A byte below 512 that nothing has written is no value (42_usb_endpoint_buffer_manager.md R180). -/
theorem pmaRead_unwritten {o : Nat} (ho : o < Config.pmaSize) (hread : s.pma.read? o = none) :
    pmaRead s o = raise s (.unwrittenRead .pma o) := by
  rw [pmaRead, if_pos ho, hread]

/-- A table word whose first byte nothing has written (42_usb_endpoint_buffer_manager.md R180). -/
theorem bdtRead_unwritten (n : Ep) {within : Nat} (hw : within + 2 ≤ 8) (htable : TableInPma s)
    (hread : s.pma.read? (tableWordAt s n within) = none) :
    bdtRead s n within = raise s (.unwrittenRead .pma (tableWordAt s n within)) := by
  have hinside : tableWordAt s n within < Config.pmaSize := Nat.lt_of_succ_lt (tableWordAt_lt n hw htable)
  rw [bdtRead, bdtAddr_ok n within htable]
  show pmaRead16 s _ = _
  rw [pmaRead16, pmaRead_unwritten hinside hread]
  rfl

/-- Settles O25: the operation is `accessBdt` at its word's offset (`exec_tableWord`); the read is `bdtRead_ok` or
`bdtRead_unwritten`, the write `bdtWrite_ok`. -/
theorem tableWordAccess : Obligations.TableWordAccess := by
  intro s n op off hop hseq htable hwf
  have hw := tableWord_offset_le hop
  refine ⟨fun b0 b1 h0 h1 => ?written, fun hnone => ?unwritten, fun v => ?stored⟩
  case written =>
    rw [exec_tableWord hseq hop, accessBdt, bdtRead_ok n hw htable h0 h1]
    rfl
  case unwritten =>
    rw [exec_tableWord hseq hop, accessBdt, bdtRead_unwritten n hw htable hnone]
    rfl
  case stored =>
    rw [exec_tableWord hseq hop, accessBdt, bdtWrite_ok n hw htable]
    exact ⟨_, rfl, Memory.read?_writeBytes hwf _ _⟩

/-! ### EP.CONFIGURE -/

/-- EPnR after a word without completion flags is written: the word, and the SETUP bit kept
(41_usb_register_interface.md R157; log 39). -/
theorem EpReg.toHalf_write_of_no_flags (r : EpReg) {v : Half} (hfields : v &&& 0x363F = v) (hflags : v &&& 0x8080 = 0#16) :
    (r.write v).toHalf = v ||| (r.toHalf &&& 0x0800) := by
  rw [EpReg.toHalf_write, hfields, BitVec.and_assoc, hflags, BitVec.and_zero, BitVec.or_zero]

/-- Settles O49: EP.CONFIGURE is `epConfigure`, its register words by `EpReg.toHalf_write_of_no_flags`, its table by
`Memory.read?_writeBytes`. -/
theorem endpointsConfigured : Obligations.EndpointsConfigured := by
  intro s hseq hwf
  refine ⟨epConfigure s, unitStep_idle _ hseq, rfl, rfl, ?ep0, ?ep1, fun o => ?table, rfl⟩
  case ep0 => exact s.usb.ep0.toHalf_write_of_no_flags (by decide) (by decide)
  case ep1 => exact s.usb.ep1.toHalf_write_of_no_flags (by decide) (by decide)
  case table => exact Memory.read?_writeBytes hwf 0 configuredTable o

/-! ### Queued data -/

/-- The number of an endpoint names it. -/
theorem epOfNat_of_eq {k : Nat} {e : Ep} (hk : k = epNumber e) : epOfNat k = some e := by
  subst hk
  cases e <;> rfl

theorem exec_epTxchunk (hseq : SequencerIdle s) (e : Ep) : exec (.epTxchunk e) s = finish (txChunk s e) :=
  unitStep_idle _ hseq

/-- DRV.SENDDATA with no more than its data (42_usb_endpoint_buffer_manager.md R184; log 30). -/
theorem exec_drvSenddata (hseq : SequencerIdle s) (k : Byte) {data : List Byte} {length : Half}
    (hlength : length.toNat ≤ data.length) :
    exec (.drvSenddata k data length) s = finish (sendData s k.toNat data length) :=
  (unitStep_idle _ hseq).trans (congrArg finish (if_pos hlength))

/-- ACK.PAGE is `sendData` of the acknowledgment frame on endpoint 1 (45_hid_reassembly_commands.md R266; log 17). -/
theorem exec_ackPage (hseq : SequencerIdle s) : exec .ackPage s = finish (sendData s 1 Config.ackFrame 8) :=
  unitStep_idle _ hseq

/-- `sendData` for a number that names no endpoint, or for endpoint 1 of a device not configured, is ignored
(42_usb_endpoint_buffer_manager.md R184). -/
theorem sendData_ignored {k : Nat} (hk : 2 ≤ k ∨ k = 1 ∧ s.drv.configured = false) (data : List Byte) (length : Half) :
    sendData s k data length = .ok s := by
  obtain hbeyond | ⟨rfl, hnot⟩ := hk
  · obtain ⟨j, rfl⟩ := Nat.exists_eq_add_of_le' hbeyond
    rfl
  · exact if_pos ⟨by decide, hnot⟩

/-- Settles O46: EP.TXCHUNK is `txChunk_ok`; DRV.SENDDATA and ACK.PAGE are `sendData_ok`, or `sendData_ignored`. -/
theorem queuedDataIsArmed : Obligations.QueuedDataIsArmed := by
  intro s hseq hwf
  refine ⟨fun e hready => ?chunk, fun e k data length hk hlength hcan hready => ?send,
    fun k data length hlength hignored => ?ignored, fun hconf hready => ?ack, fun hconf => ?noAck⟩
  case chunk =>
    obtain ⟨t, ht, harmed⟩ := txChunk_ok e hwf hready
    exact ⟨t, by rw [exec_epTxchunk hseq, ht]; rfl, harmed⟩
  case send =>
    obtain ⟨t, ht, harmed⟩ := sendData_ok (epOfNat_of_eq hk) hcan hlength hwf hready
    exact ⟨t, by rw [exec_drvSenddata hseq k hlength, ht]; rfl, harmed⟩
  case ignored =>
    rw [exec_drvSenddata hseq k hlength, sendData_ignored hignored]
    rfl
  case ack =>
    obtain ⟨t, ht, harmed⟩ := sendData_ok (k := 1) (e := .ep1) (data := Config.ackFrame) (length := 8) rfl (.inr hconf)
      (by decide) hwf hready
    exact ⟨t, by rw [exec_ackPage hseq, ht]; rfl, harmed⟩
  case noAck =>
    rw [exec_ackPage hseq, sendData_ignored (.inr ⟨rfl, hconf⟩)]
    rfl

end Sys2Proof.Machine
end

section
/-! PROOFS. The endpoint service and transfer-complete (42_usb_endpoint_buffer_manager.md R190, 43_usb_packet_dispatcher.md R222): what
EVT.CTR and DISP.CTR do with a service that ends, and the service cut into the packet taken, its hook and the end of the receive
half. -/

namespace Sys2Proof.Machine

variable {s t : State} {e : Ep} {k : BitVec 4}

/-! ### The later sources of a status word -/

/-- Suspend served (43_usb_packet_dispatcher.md R222 (c)). -/
theorem serveSusp_eq (s : State) : serveSusp s = suspServed s := by
  simp [serveSusp, suspServed, writeIstr, Istr.write, bit]

/-- Wakeup served (43_usb_packet_dispatcher.md R222 (d)). -/
theorem serveWkup_eq (s : State) : serveWkup s = wkupServed s := by
  simp [serveWkup, wkupServed, writeIstr, Istr.write, bit]

/-- The sources after bus reset, suspend before wakeup (43_usb_packet_dispatcher.md R222). -/
theorem laterThanReset_eq (w : Half) (s : State) : laterThanReset w s = lastServed w s := by
  simp only [laterThanReset, laterThanSusp, lastServed, serveSusp_eq, serveWkup_eq]

theorem laterThanCtr_of_no_reset {w : Half} (hreset : bit w 10 = false) (s : State) :
    laterThanCtr w s = lastServed w s := by
  rw [laterThanCtr, if_neg (ne_true_of_eq_false hreset), laterThanReset_eq]

theorem laterThanCtr_of_reset {w : Half} (hreset : bit w 10 = true) (s : State) :
    laterThanCtr w s = laterThanReset w (serveReset s) := by
  rw [laterThanCtr, if_pos hreset]

/-! ### Transfer-complete -/

theorem exec_evtCtr (hseq : SequencerIdle s) (w : Half) : exec (.evtCtr w) s = finish (serveEvent s w) :=
  unitStep_idle _ hseq

theorem exec_evtReset (hseq : SequencerIdle s) (w : Half) :
    exec (.evtReset w) s = .next (laterThanReset w (serveReset s)) := unitStep_idle _ hseq

/-- DISP.CTR in its turn (43_usb_packet_dispatcher.md R222). -/
theorem exec_dispCtr_inTurn (hseq : SequencerIdle s) (hturn : s.disp.state = .doCtr) :
    exec .dispCtr s = finish (handleCtr s) :=
  (if_pos hseq).trans (if_pos ⟨hturn, hseq⟩)

/-- EVT.CTR where transfer-complete ends without a commit: the later sources of the word (30_encoding.md R118). -/
theorem serveEvent_of_serveCtr {w : Half} (hserve : serveCtr s (field w 0 4) (.event w) = .ok t) (hidle : SequencerIdle t) :
    serveEvent s w = .ok (laterThanCtr w t) := by
  rw [serveEvent, hserve]
  exact if_pos hidle

/-- DO_CTR where transfer-complete ends without a commit: on to DO_RESET (43_usb_packet_dispatcher.md R222). -/
theorem handleCtr_of_serveCtr (hflag : bit s.disp.snap 15 = true)
    (hserve : serveCtr s (field s.disp.snap 0 4) .dispatcher = .ok t) (hidle : SequencerIdle t) :
    handleCtr s = .ok (setDispState t .doReset) := by
  rw [handleCtr, if_pos hflag, hserve]
  exact if_pos hidle

/-- DO_CTR without the flag in the snapshot only moves on (43_usb_packet_dispatcher.md R222). -/
theorem handleCtr_of_no_flag (hflag : bit s.disp.snap 15 = false) (hseq : SequencerIdle s) :
    handleCtr s = .ok (setDispState s .doReset) := by
  rw [handleCtr, if_neg (ne_true_of_eq_false hflag)]
  exact if_pos hseq

/-- Transfer-complete that ends without a commit, whoever called it: EVT.CTR goes on with the later sources of its word, DISP.CTR
with DO_RESET. -/
theorem transferCompleteServed_of_serveCtr (hseq : SequencerIdle s) (hserve : ∀ c, serveCtr s k c = .ok t)
    (hidle : SequencerIdle t) (hdisp : t.disp = s.disp) : TransferCompleteServed s t k := by
  refine ⟨fun w hk => ?event, fun hturn hflag hk => ?pass⟩
  case event =>
    have hevent : exec (.evtCtr w) s = .next (laterThanCtr w t) := by
      rw [exec_evtCtr hseq, serveEvent_of_serveCtr (hk ▸ hserve _) hidle, finish]
    refine ⟨fun hreset => ?_, fun hreset => ?_⟩
    · rw [hevent, laterThanCtr_of_no_reset hreset]
    · rw [hevent, laterThanCtr_of_reset hreset, exec_evtReset hidle]
  case pass =>
    rw [exec_dispCtr_inTurn hseq hturn, handleCtr_of_serveCtr hflag (hk ▸ hserve _) hidle, ← hdisp]
    rfl

/-! ### The endpoint service as three parts -/

/-- The hook of a packet in `rx_buf`: the control requests, unit H, or none (42_usb_endpoint_buffer_manager.md R190). -/
def receiveHook (e : Ep) (caller : Caller) (s : State) : Res State :=
  if e = .ep0 ∧ (s.usb.ep e).setup = true then handleSetup s (s.drv.ets e).rxBuf
  else if e = .ep0 ∧ (s.drv.ets e).rxLen ≠ 0 then hidData s (s.drv.ets e).rxBuf caller
  else .ok s

/-- The end of the receive half and the transmit half, unless the hook has begun a page commit
(46_flash_page_programmer.md R292). -/
def afterHook (e : Ep) (s : State) : Res State := if s.fseq.state = .idle then afterReceive s e else .ok s

/-- A data packet's hook is unit H's (45_hid_reassembly_commands.md R261). -/
theorem receiveHook_data (c : Caller) (hsetup : s.usb.ep0.setup = false) (hlen : s.drv.ets0.rxLen ≠ 0) :
    receiveHook .ep0 c s = hidData s s.drv.ets0.rxBuf c :=
  (if_neg fun h => ne_true_of_eq_false hsetup h.2).trans (if_pos ⟨rfl, hlen⟩)

/-- A packet without a hook: an empty one on endpoint 0, any on endpoint 1 (42_usb_endpoint_buffer_manager.md R190). -/
theorem receiveHook_none (c : Caller) (h : e = .ep0 → s.usb.ep0.setup = false ∧ s.drv.ets0.rxLen = 0) :
    receiveHook e c s = .ok s := by
  cases e with
  | ep0 =>
    obtain ⟨hsetup, hlen⟩ := h rfl
    exact (if_neg fun hs => ne_true_of_eq_false hsetup hs.2).trans (if_neg fun hl => hl.2 hlen)
  | ep1 => exact (if_neg fun hs => nomatch hs.1).trans (if_neg fun hl => nomatch hl.1)

/-- The service of a reception: the packet taken, its hook, and the end of the receive half. -/
theorem epService_of_received (hseq : SequencerIdle s) (hrx : (s.usb.ep e).ctrRx = true) (c : Caller) :
    epService s e c = takePacket s e >>= fun u => receiveHook e c u >>= afterHook e := by
  rw [epService, if_pos hrx]
  have htake := takePacket_post s e
  match hx : takePacket s e with
  | .error _ => rfl
  | .ok u =>
    rw [hx] at htake
    have hidle : SequencerIdle u := UsbSide.idle htake hseq
    show (if _ then _ else if _ then _ else _) = (receiveHook e c u >>= afterHook e)
    unfold receiveHook
    split_ifs
    · have hsetup := handleSetup_post u (u.drv.ets e).rxBuf
      match hy : handleSetup u (u.drv.ets e).rxBuf with
      | .error _ => rfl
      | .ok v =>
        rw [hy] at hsetup
        exact (if_pos (UsbSide.idle hsetup hidle)).symm
    · rfl
    · exact (if_pos hidle).symm

/-- The service without a reception is its transmit half (42_usb_endpoint_buffer_manager.md R190). -/
theorem epService_of_not_received (hrx : (s.usb.ep e).ctrRx = false) (c : Caller) : epService s e c = transmitHalf s e :=
  if_neg (ne_true_of_eq_false hrx)

/-- The hook works on the USB side, on unit H and on the sequencer's start: not on the dispatcher. -/
theorem receiveHook_disp (e : Ep) (c : Caller) (s : State) :
    (receiveHook e c s).post (fun t => t.disp = s.disp) (fun _ => True) := by
  unfold receiveHook
  split_ifs
  · exact Res.post_mono (handleSetup_post s _) (fun _ h => by rw [h.frame]) fun _ _ => trivial
  · unfold hidData
    refine Res.post_bind (Res.post_mono (appendPacket_post s _) (fun _ h => h) fun _ _ => trivial) fun u hu => ?_
    have hdisp : u.disp = s.disp := by rw [hu.1]; rfl
    split_ifs
    · unfold runCommand
      split_ifs <;> exact hdisp
    · exact Res.post_mono (commitPage_end u c) (fun _ h => h ▸ hdisp) fun _ _ => trivial
    · exact hdisp
  · rfl

/-- The endpoint service leaves the dispatcher alone. -/
theorem epService_disp (hseq : SequencerIdle s) (e : Ep) (c : Caller) :
    (epService s e c).post (fun t => t.disp = s.disp) (fun _ => True) := by
  cases hrx : (s.usb.ep e).ctrRx with
  | false =>
    rw [epService_of_not_received hrx]
    exact Res.post_mono (transmitHalf_post s e) (fun _ h => by rw [h.frame]) fun _ _ => trivial
  | true =>
    rw [epService_of_received hseq hrx]
    refine Res.post_bind (Res.post_mono (takePacket_post s e) (fun _ h => h) fun _ _ => trivial) fun u hu => ?_
    have hdisp : u.disp = s.disp := by rw [hu.frame]
    refine Res.post_bind (receiveHook_disp e c u) fun v hv => ?_
    unfold afterHook
    split_ifs
    · exact Res.post_mono (afterReceive_post v e) (fun _ h => by rw [h.frame]; exact hv.trans hdisp) fun _ _ => trivial
    · exact hv.trans hdisp

/-! ### Who calls the service -/

theorem serveEndpoint_eq (hk : k.toNat = epNumber e) (c : Caller) : serveEndpoint s k c = epService s e c := by
  rw [serveEndpoint, epOfNat_of_eq hk]

theorem exec_epService (hseq : SequencerIdle s) (hk : k.toNat = epNumber e) :
    exec (.epService k) s = finish (epService s e .service) :=
  (unitStep_idle _ hseq).trans (congrArg finish (serveEndpoint_eq hk .service))

/-- A service that ends without a commit does the same for every caller (`epService_caller`). -/
theorem epService_anyCaller (hseq : SequencerIdle s) (hserve : epService s e .service = .ok t) (hidle : SequencerIdle t)
    (c : Caller) : epService s e c = .ok t := by
  rw [epService_caller hseq, hserve, resUnderCaller, underCaller_idle c hidle]

/-- A service that ends without a commit is what transfer-complete does with a callback registered. -/
theorem transferCompleteServed_of_service (hseq : SequencerIdle s) (hk : k.toNat = epNumber e) (hcb : s.drv.cbEp = true)
    (hserve : epService s e .service = .ok t) (hidle : SequencerIdle t) : TransferCompleteServed s t k := by
  have hdisp := epService_disp hseq e .service
  rw [hserve] at hdisp
  refine transferCompleteServed_of_serveCtr hseq (fun c => ?_) hidle hdisp
  rw [serveCtr, if_pos hcb, serveEndpoint_eq hk, epService_anyCaller hseq hserve hidle]

/-- Both flags of an endpoint cleared (43_usb_packet_dispatcher.md R222, D26). -/
theorem clearFlags_eq (s : State) (e : Ep) :
    clearCtrTx (clearCtrRx s e) e = s.setEp e { s.usb.ep e with ctrRx := false, ctrTx := false } := by
  cases e <;> rfl

/-- Without a callback transfer-complete clears the endpoint's flags (43_usb_packet_dispatcher.md R222, D26). -/
theorem transferCompleteServed_without_callback (hseq : SequencerIdle s) (hk : k.toNat = epNumber e)
    (hcb : s.drv.cbEp = false) :
    TransferCompleteServed s (s.setEp e { s.usb.ep e with ctrRx := false, ctrTx := false }) k := by
  refine transferCompleteServed_of_serveCtr hseq (fun c => ?_) hseq rfl
  rw [serveCtr, if_neg (ne_true_of_eq_false hcb), epOfNat_of_eq hk, ← clearFlags_eq]

end Sys2Proof.Machine
end

section
/-! PROOFS. A completed transmission (42_usb_endpoint_buffer_manager.md R190, 44_usb_control_requests.md R250): the transmit half of
the endpoint service, and with both flags set the reception first. The receive half does not look at the flag it leaves for the
transmit half (`FlagsAside`), so serving the two one after the other is serving both. -/

namespace Sys2Proof.Machine

/-! ### The transmit half -/

section Transmit
variable {s t : State} {e : Ep}

/-- The completion of a transmission handed back: CTR_TX cleared, on endpoint 0 a pending address applied
(42_usb_endpoint_buffer_manager.md R190, 44_usb_control_requests.md R250). -/
def handedBack (s : State) (e : Ep) : State :=
  if e = .ep0 then applyPendingAddress (clearCtrTx s e) else clearCtrTx s e

theorem transmitHalf_of_ctrTx (htx : (s.usb.ep e).ctrTx = true) :
    transmitHalf s e =
      if 0 < ((handedBack s e).drv.ets e).txRemaining.toNat then txChunk (handedBack s e) e else .ok (handedBack s e) :=
  if_pos htx

theorem transmitHalf_of_not_ctrTx (htx : (s.usb.ep e).ctrTx = false) : transmitHalf s e = .ok s :=
  if_neg (ne_true_of_eq_false htx)

/-- Handing back leaves packet memory, the table's place and the transfer states. -/
theorem TransmissionDone.keeps (h : TransmissionDone s t e) :
    t.pma = s.pma ∧ t.usb.btable = s.usb.btable ∧ t.drv.ets e = s.drv.ets e := by
  obtain ⟨hframe, husb, hdrv, _⟩ := h
  refine ⟨by rw [hframe], by rw [husb]; exact Usb.setEp_btable _ _ _, ?_⟩
  rw [hdrv]
  cases e <;> rfl

/-- Whether a transmit buffer takes bytes depends on BTABLE and packet memory only. -/
theorem TxReady.congr {n : Nat} (h : TxReady s e n) (hbtable : t.usb.btable = s.usb.btable) (hpma : t.pma = s.pma) :
    TxReady t e n := by
  obtain ⟨htable, hbuffer⟩ := h
  refine ⟨by rw [TableInPma, hbtable]; exact htable, fun hn => ?_⟩
  obtain ⟨a, ha, hfit⟩ := hbuffer hn
  exact ⟨a, (bdtRead_congr e (by decide) hbtable hpma a).2 ha, hfit⟩

/-- The transmit half with a buffer ready for the next packet: `txChunk` on what handing back leaves
(42_usb_endpoint_buffer_manager.md R186, R190). -/
theorem transmitHalf_ok (hready : NextChunkReady s e) : ∃ t, transmitHalf s e = .ok t ∧ TransmitHalfDone s t e := by
  cases htx : (s.usb.ep e).ctrTx with
  | false => exact ⟨s, transmitHalf_of_not_ctrTx htx, ⟨fun _ => rfl, fun h => absurd h (ne_true_of_eq_false htx)⟩⟩
  | true =>
    have hdone : TransmissionDone s (handedBack s e) e := handBack_done s e
    obtain ⟨hpma, hbtable, hets⟩ := hdone.keeps
    rw [transmitHalf_of_ctrTx htx, hets]
    by_cases hleft : (s.drv.ets e).txRemaining = 0
    · exact ⟨handedBack s e, by rw [hleft]; rfl, ⟨fun h => absurd htx (ne_true_of_eq_false h), fun _ =>
        ⟨handedBack s e, hdone, fun _ => rfl, fun h => absurd hleft h⟩⟩⟩
    · obtain ⟨hwf, htxReady⟩ := hready htx hleft
      obtain ⟨t, ht, harmed⟩ := txChunk_ok (s := handedBack s e) e (hpma.symm ▸ hwf)
        (hets.symm ▸ htxReady.congr hbtable hpma)
      have hpos : 0 < (s.drv.ets e).txRemaining.toNat := Nat.pos_of_ne_zero fun h => hleft (BitVec.eq_of_toNat_eq h)
      exact ⟨t, by rw [if_pos hpos, ht], ⟨fun h => absurd htx (ne_true_of_eq_false h), fun _ =>
        ⟨handedBack s e, hdone, fun h => absurd h hleft, fun _ => hets ▸ harmed⟩⟩⟩

/-- The transmit half leaves the sequencer idle. -/
theorem transmitHalf_idle (hseq : SequencerIdle s) (hend : transmitHalf s e = .ok t) : SequencerIdle t := by
  have hside := transmitHalf_post s e
  rw [hend] at hside
  exact UsbSide.idle hside hseq

end Transmit

/-! ### The packet taken -/

section Taken
variable {s t : State} {e : Ep}

/-- A part that ends after another: both end. -/
theorem Res.bind_eq_ok {α β : Type} {x : Res α} {f : α → Res β} {b : β} (h : (x >>= f) = .ok b) :
    ∃ a, x = .ok a ∧ f a = .ok b := by
  cases x with
  | ok a => exact ⟨a, rfl, h⟩
  | error _ => cases h

/-- The packet in `rx_buf` and its completion acknowledged (42_usb_endpoint_buffer_manager.md R190). -/
def packetTaken (s : State) (e : Ep) (bytes : List Byte) : State :=
  clearCtrRx (s.setEts e { s.drv.ets e with
    rxBuf := overlay (s.drv.ets e).rxBuf bytes, rxLen := BitVec.ofNat 16 bytes.length }) e

/-- When a packet is taken: its count and its bytes are readable and fit into `rx_buf`
(42_usb_endpoint_buffer_manager.md R190; log 20). -/
theorem takePacket_eq_ok_iff : takePacket s e = .ok t ↔
    ∃ count bytes, bdtRead s e offCountRx = .ok count ∧ byteCount count = bytes.length ∧
      bufferRead s e offAddrRx bytes.length = .ok bytes ∧ bytes.length ≤ Config.maxPacket ∧
      t = packetTaken s e bytes := by
  constructor
  · intro h
    obtain ⟨count, hcount, h⟩ := Res.bind_eq_ok h
    obtain ⟨bytes, hbytes, h⟩ := Res.bind_eq_ok h
    have hlength := bufferRead_post s e offAddrRx (byteCount count)
    rw [hbytes, Res.post_ok] at hlength
    rw [← hlength] at hbytes h
    split at h
    · cases h
    · next hfits => exact ⟨count, bytes, hcount, hlength.symm, hbytes, Nat.le_of_not_lt hfits, (Except.ok.inj h).symm⟩
  · rintro ⟨count, bytes, hcount, hlength, hbytes, hfits, rfl⟩
    rw [takePacket, hcount]
    show (bufferRead s e offAddrRx (byteCount count) >>= _) = _
    rw [hlength, hbytes]
    exact if_neg (Nat.not_lt.2 hfits)

theorem pmaRead_congr (hpma : t.pma = s.pma) {o : Nat} {v : Byte} (h : pmaRead s o = .ok v) : pmaRead t o = .ok v := by
  unfold pmaRead at h ⊢
  rw [hpma]
  split_ifs at h ⊢
  · split at h
    · exact h
    · cases h
  · cases h

theorem pmaReadBytes_congr (hpma : t.pma = s.pma) {o n : Nat} {d : List Byte} (h : pmaReadBytes s o n = .ok d) :
    pmaReadBytes t o n = .ok d := by
  induction n generalizing o d with
  | zero => exact h
  | succ n ih =>
    obtain ⟨v, hv, h⟩ := Res.bind_eq_ok h
    obtain ⟨vs, hvs, h⟩ := Res.bind_eq_ok h
    rw [pmaReadBytes, pmaRead_congr hpma hv]
    show (pmaReadBytes t (o + 1) n >>= _) = _
    rw [ih hvs]
    exact h

/-- A buffer depends on BTABLE and packet memory only. -/
theorem bufferRead_congr (n : Ep) {within count : Nat} (hw : within + 2 ≤ 8) (hbtable : t.usb.btable = s.usb.btable)
    (hpma : t.pma = s.pma) {d : List Byte} (h : bufferRead s n within count = .ok d) :
    bufferRead t n within count = .ok d := by
  unfold bufferRead at h ⊢
  split_ifs at h ⊢
  · exact h
  · obtain ⟨a, ha, h⟩ := Res.bind_eq_ok h
    rw [(bdtRead_congr n hw hbtable hpma a).2 ha]
    exact pmaReadBytes_congr hpma h

end Taken

/-! ### What the receive half does not look at -/

section Flags
variable {s t : State} {e : Ep} {rx tx : Bool}

/-- The state with the completion flags of an endpoint as given. -/
def withFlags (s : State) (e : Ep) (rx tx : Bool) : State := s.setEp e { s.usb.ep e with ctrRx := rx, ctrTx := tx }

@[simp] theorem withFlags_ctrRx : ((withFlags s e rx tx).usb.ep e).ctrRx = rx := by cases e <;> rfl

@[simp] theorem withFlags_ctrTx : ((withFlags s e rx tx).usb.ep e).ctrTx = tx := by cases e <;> rfl

@[simp] theorem withFlags_setup : ((withFlags s e rx tx).usb.ep e).setup = (s.usb.ep e).setup := by cases e <;> rfl

@[simp] theorem withFlags_btable : (withFlags s e rx tx).usb.btable = s.usb.btable := Usb.setEp_btable _ _ _

@[simp] theorem withFlags_withFlags (rx' tx' : Bool) :
    withFlags (withFlags s e rx' tx') e rx tx = withFlags s e rx tx := by cases e <;> rfl

theorem withFlags_of_eq (hrx : (s.usb.ep e).ctrRx = rx) (htx : (s.usb.ep e).ctrTx = tx) : withFlags s e rx tx = s := by
  subst hrx htx
  cases e <;> rfl

theorem setCtrTx_eq_withFlags (hrx : (s.usb.ep e).ctrRx = rx) :
    s.setEp e { s.usb.ep e with ctrTx := tx } = withFlags s e rx tx := by
  subst hrx
  cases e <;> rfl

theorem setStatRx_withFlags (x : EpStat) :
    setStatRx (withFlags s e rx tx) e x = withFlags (setStatRx s e x) e rx tx := by cases e <;> rfl

/-- The second result is the first with the completion flags of an endpoint as given, where the first ends: a routine that does
not look at the flags gives such a pair from a state and the state with the flags so. -/
def FlagsAside (e : Ep) (rx tx : Bool) (x y : Res State) : Prop := ∀ t, x = .ok t → y = .ok (withFlags t e rx tx)

theorem flagsAside_ok : FlagsAside e rx tx (.ok t) (.ok (withFlags t e rx tx)) := by
  rintro _ ⟨⟩
  rfl

theorem flagsAside_error {y : Res State} (x : Stop) : FlagsAside e rx tx (.error x) y := fun _ h => nomatch h

theorem flagsAside_bind {x y : Res State} {f g : State → Res State} (hxy : FlagsAside e rx tx x y)
    (hfg : ∀ u, FlagsAside e rx tx (f u) (g (withFlags u e rx tx))) : FlagsAside e rx tx (x >>= f) (y >>= g) := by
  intro t h
  obtain ⟨u, hu, ht⟩ := Res.bind_eq_ok h
  rw [hxy u hu]
  exact hfg u t ht

theorem pmaWriteBytes_flagsAside (s : State) (o : Nat) (bytes : List Byte) :
    FlagsAside e rx tx (pmaWriteBytes s o bytes) (pmaWriteBytes (withFlags s e rx tx) o bytes) := by
  unfold pmaWriteBytes
  split_ifs
  · exact flagsAside_ok
  · exact flagsAside_ok
  · exact flagsAside_error _

theorem bdtWrite_flagsAside (s : State) (n : Ep) (within : Nat) (v : Half) :
    FlagsAside e rx tx (bdtWrite s n within v) (bdtWrite (withFlags s e rx tx) n within v) := by
  have hplace : tableWordAt (withFlags s e rx tx) n within = tableWordAt s n within := by
    rw [tableWordAt, withFlags_btable]
    rfl
  by_cases htable : TableInPma s
  · have htable' : TableInPma (withFlags s e rx tx) := by
      rw [TableInPma, withFlags_btable]
      exact htable
    rw [bdtWrite, bdtWrite, bdtAddr_ok n within htable, bdtAddr_ok n within htable', hplace]
    exact pmaWriteBytes_flagsAside s (tableWordAt s n within) (halfBytes v)
  · rw [bdtWrite, bdtAddr_beyond n within htable]
    split
    · exact flagsAside_error _
    · exact flagsAside_error _

theorem bufferWrite_flagsAside (s : State) (n : Ep) {within : Nat} (hw : within + 2 ≤ 8) (bytes : List Byte) :
    FlagsAside e rx tx (bufferWrite s n within bytes) (bufferWrite (withFlags s e rx tx) n within bytes) := by
  unfold bufferWrite
  split_ifs
  · exact flagsAside_ok
  · intro t h
    obtain ⟨a, ha, ht⟩ := Res.bind_eq_ok h
    rw [(bdtRead_congr n hw withFlags_btable rfl a).2 ha]
    exact pmaWriteBytes_flagsAside s _ _ t ht

theorem txChunk_flagsAside (s : State) (n : Ep) :
    FlagsAside e rx tx (txChunk s n) (txChunk (withFlags s e rx tx) n) := by
  refine flagsAside_bind (bufferWrite_flagsAside s n (by decide) _) fun u =>
    flagsAside_bind (bdtWrite_flagsAside u n _ _) fun v t ht => ?_
  cases ht
  cases e <;> cases n <;> rfl

theorem sendData_flagsAside (s : State) (n : Nat) (data : List Byte) (length : Half) :
    FlagsAside e rx tx (sendData s n data length) (sendData (withFlags s e rx tx) n data length) := by
  unfold sendData
  split
  · exact flagsAside_ok
  · next m _ =>
    show FlagsAside e rx tx (if m ≠ .ep0 ∧ s.drv.configured = false then _ else _)
      (if m ≠ .ep0 ∧ s.drv.configured = false then _ else _)
    split_ifs
    · exact flagsAside_ok
    · exact txChunk_flagsAside (queueData s m data length) m

theorem handleSetup_flagsAside (s : State) (p : Packet8) :
    FlagsAside e rx tx (handleSetup s p) (handleSetup (withFlags s e rx tx) p) := by
  unfold handleSetup
  dsimp only
  split_ifs
  · exact sendData_flagsAside s _ _ _
  · exact sendData_flagsAside s _ _ _
  · exact sendData_flagsAside s _ _ _
  · exact sendData_flagsAside s _ _ _
  · exact sendData_flagsAside s _ _ _
  · exact sendData_flagsAside (s.withDrv { s.drv with pendingAddr := field (le16 p.b2 p.b3) 0 7 }) 0 [] 0
  · exact sendData_flagsAside (s.withDrv { s.drv with configured := true }) 0 [] 0
  · exact sendData_flagsAside s _ _ _

theorem appendPacket_flagsAside (s : State) (p : Packet8) :
    FlagsAside e rx tx (appendPacket s p) (appendPacket (withFlags s e rx tx) p) := by
  show FlagsAside e rx tx (if s.hid.pageOffset.toNat + Config.maxPacket ≤ Config.pageSize then _ else _)
    (if s.hid.pageOffset.toNat + Config.maxPacket ≤ Config.pageSize then _ else _)
  split_ifs
  · exact flagsAside_ok
  · exact flagsAside_error _

theorem runCommand_withFlags (s : State) (opcode : Byte) :
    runCommand (withFlags s e rx tx) opcode = withFlags (runCommand s opcode) e rx tx := by
  unfold runCommand
  split_ifs <;> rfl

theorem commitPage_flagsAside (s : State) (c : Caller) :
    FlagsAside e rx tx (commitPage s c) (commitPage (withFlags s e rx tx) c) := by
  show FlagsAside e rx tx (if s.par.flashPages.toNat ≤ s.hid.pageIndex.toNat then _ else _)
    (if s.par.flashPages.toNat ≤ s.hid.pageIndex.toNat then _ else _)
  split_ifs
  · exact flagsAside_error _
  · exact flagsAside_ok (t := s.withFseq _)

theorem hidData_flagsAside (s : State) (p : Packet8) (c : Caller) :
    FlagsAside e rx tx (hidData s p c) (hidData (withFlags s e rx tx) p c) := by
  refine flagsAside_bind (appendPacket_flagsAside s p) fun u => ?_
  show FlagsAside e rx tx
    (if u.hid.pageOffset = 64 ∧ isCommand u = true then .ok (runCommand u (pageByte u 7))
      else if u.hid.pageOffset = 1024 then commitPage u c else .ok u)
    (if u.hid.pageOffset = 64 ∧ isCommand u = true then .ok (runCommand (withFlags u e rx tx) (pageByte u 7))
      else if u.hid.pageOffset = 1024 then commitPage (withFlags u e rx tx) c else .ok (withFlags u e rx tx))
  split_ifs
  · rw [runCommand_withFlags]
    exact flagsAside_ok
  · exact commitPage_flagsAside u c
  · exact flagsAside_ok

/-- The hook does not look at the completion flags. -/
theorem receiveHook_flagsAside (s : State) (c : Caller) :
    FlagsAside e rx tx (receiveHook e c s) (receiveHook e c (withFlags s e rx tx)) := by
  have hdrv : (withFlags s e rx tx).drv = s.drv := rfl
  unfold receiveHook
  rw [withFlags_setup, hdrv]
  split_ifs
  · exact handleSetup_flagsAside s _
  · exact hidData_flagsAside s _ c
  · exact flagsAside_ok

/-- Taking the packet clears CTR_RX and does not look at either flag. -/
theorem takePacket_withFlags (h : takePacket s e = .ok t) (rx tx : Bool) :
    takePacket (withFlags s e rx tx) e = .ok (withFlags t e false tx) := by
  obtain ⟨count, bytes, hcount, hlength, hbytes, hfits, rfl⟩ := takePacket_eq_ok_iff.1 h
  refine takePacket_eq_ok_iff.2 ⟨count, bytes, (bdtRead_congr e (by decide) withFlags_btable rfl count).2 hcount, hlength,
    bufferRead_congr e (by decide) withFlags_btable rfl hbytes, hfits, ?_⟩
  cases e <;> rfl

end Flags

/-! ### A reception and a completed transmission -/

section Both
variable {s r : State} {e : Ep}

/-- The end of the receive half without a completed transmission: the re-arm (42_usb_endpoint_buffer_manager.md R190). -/
theorem afterHook_of_not_ctrTx (hseq : SequencerIdle s) (htx : (s.usb.ep e).ctrTx = false) :
    afterHook e s = .ok (setStatRx s e .valid) := by
  refine (if_pos hseq).trans (transmitHalf_of_not_ctrTx ?_)
  rw [setStatRx, State.setEp_usb, Usb.ep_setEp, if_pos rfl]
  exact htx

/-- The service of a reception with no completed transmission: packet, hook, re-arm. -/
theorem epService_reception (hseq : SequencerIdle s) (hrx : (s.usb.ep e).ctrRx = true) {c : Caller} {v u : State}
    (htake : takePacket s e = .ok v) (hhook : receiveHook e c v = .ok u) (hidle : SequencerIdle u)
    (htx : (u.usb.ep e).ctrTx = false) : epService s e c = .ok (setStatRx u e .valid) := by
  rw [epService_of_received hseq hrx, htake]
  show (receiveHook e c v >>= afterHook e) = _
  rw [hhook]
  exact afterHook_of_not_ctrTx hidle htx

/-- A packet taken with no completed transmission: both flags are clear after it, and beside one it is taken the same. -/
theorem takePacket_besideTransmission {v : State} (htake : takePacket (withFlags s e true false) e = .ok v) :
    withFlags v e false false = v ∧ takePacket (withFlags s e true true) e = .ok (withFlags v e false true) := by
  have hsame := takePacket_withFlags htake true false
  have hboth := takePacket_withFlags htake true true
  rw [withFlags_withFlags] at hsame hboth
  exact ⟨Except.ok.inj (hsame.symm.trans htake), hboth⟩

/-- The hook with no completed transmission: both flags are clear after it, and beside one it does the same. -/
theorem receiveHook_besideTransmission {c : Caller} {v u : State} (hv : withFlags v e false false = v)
    (hhook : receiveHook e c v = .ok u) :
    withFlags u e false false = u ∧ receiveHook e c (withFlags v e false true) = .ok (withFlags u e false true) := by
  have hsame := receiveHook_flagsAside (rx := false) (tx := false) v c u hhook
  rw [hv] at hsame
  exact ⟨Except.ok.inj (hsame.symm.trans hhook), receiveHook_flagsAside v c u hhook⟩

/-- With both flags set the reception is served, and then the transmission (42_usb_endpoint_buffer_manager.md R190). -/
theorem epService_both (hseq : SequencerIdle s) (hrx : (s.usb.ep e).ctrRx = true) (htx : (s.usb.ep e).ctrTx = true)
    (hreception : epService (s.setEp e { s.usb.ep e with ctrTx := false }) e .service = .ok r) (hidle : SequencerIdle r) :
    ((r.setEp e { r.usb.ep e with ctrTx := true }).usb.ep e).ctrRx = false ∧
      epService s e .service = epService (r.setEp e { r.usb.ep e with ctrTx := true }) e .service := by
  rw [setCtrTx_eq_withFlags hrx, epService_of_received (s := withFlags s e true false) hseq withFlags_ctrRx] at hreception
  obtain ⟨v, htake, hreception⟩ := Res.bind_eq_ok hreception
  obtain ⟨u, hhook, hend⟩ := Res.bind_eq_ok hreception
  obtain ⟨hv, htakeBoth⟩ := takePacket_besideTransmission htake
  obtain ⟨hu, hhookBoth⟩ := receiveHook_besideTransmission hv hhook
  rw [withFlags_of_eq hrx htx] at htakeBoth
  have huidle : SequencerIdle u := by
    by_contra hbusy
    have hcommit : afterHook e u = .ok u := if_neg hbusy
    cases hcommit.symm.trans hend
    exact hbusy hidle
  have hr : r = setStatRx u e .valid :=
    Except.ok.inj (hend.symm.trans (afterHook_of_not_ctrTx huidle (by rw [← hu]; exact withFlags_ctrTx)))
  have hrrx : (r.usb.ep e).ctrRx = false := by
    rw [hr, ← hu, setStatRx_withFlags]
    exact withFlags_ctrRx
  rw [setCtrTx_eq_withFlags hrrx]
  refine ⟨withFlags_ctrRx, ?_⟩
  calc epService s e .service
      = afterHook e (withFlags u e false true) := by
        rw [epService_of_received hseq hrx, htakeBoth]
        show (receiveHook e .service (withFlags v e false true) >>= afterHook e) = _
        rw [hhookBoth]
        rfl
    _ = transmitHalf (setStatRx (withFlags u e false true) e .valid) e := if_pos huidle
    _ = transmitHalf (withFlags r e false true) e := by rw [setStatRx_withFlags, ← hr]
    _ = epService (withFlags r e false true) e .service := (epService_of_not_received withFlags_ctrRx _).symm

end Both

end Sys2Proof.Machine
end

section
/-! PROOFS. The statements on the endpoint service (42_usb_endpoint_buffer_manager.md R190): a completed transmission, alone and
beside a reception, and the data packet that is appended and no more. -/

namespace Sys2Proof.Machine

variable {s t : State} {e : Ep}

/-! ### A completed transmission -/

/-- A rule that raised a fault has one more in its record than the state it began in. -/
theorem eq_ok_of_finish {r : Res State} (hframe : r.post (fun _ => True) (HandlerFrame s)) (h : finish r = .next t)
    (hfaults : t.faults = s.faults) : r = .ok t := by
  obtain hok | ⟨f, u, rfl, rfl⟩ := finish_cases h
  · exact hok
  · have hu : u.faults = s.faults := by rw [show HandlerFrame s u from hframe]
    rw [recordFault_faults, hu] at hfaults
    exact absurd hfaults (by simp)

/-- EP.SERVICE that leaves no fault has ended. -/
theorem epService_eq_ok {k : BitVec 4} (hseq : SequencerIdle s) (hk : k.toNat = epNumber e)
    (h : exec (.epService k) s = .next t) (hfaults : t.faults = s.faults) : epService s e .service = .ok t :=
  eq_ok_of_finish (Res.post_mono (epService_end s e .service) (fun _ _ => trivial) fun _ h => h)
    ((exec_epService hseq hk).symm.trans h) hfaults

/-- Settles O45: the service without a reception is its transmit half (`transmitHalf_ok`), with one it is both in turn
(`epService_both`); transfer-complete is `transferCompleteServed_of_service`. -/
theorem transmissionServed : Obligations.TransmissionServed := by
  intro s e k hseq hk
  refine ⟨fun hrx hready => ?alone, fun r t hrx htx hr hrfaults hridle ht htfaults => ?both,
    transferCompleteServed_without_callback hseq hk, fun hturn hflag => ?noFlag⟩
  case alone =>
    obtain ⟨t, ht, hdone⟩ := transmitHalf_ok hready
    have hserve : epService s e .service = .ok t := (epService_of_not_received hrx _).trans ht
    refine ⟨t, hdone, by rw [exec_epService hseq hk, hserve]; rfl, fun hcb => ?_⟩
    exact transferCompleteServed_of_service hseq hk hcb hserve (transmitHalf_idle hseq ht)
  case both =>
    have hreception := epService_eq_ok (s := s.setEp e { s.usb.ep e with ctrTx := false }) hseq hk hr hrfaults
    obtain ⟨hrrx, hboth⟩ := epService_both hseq hrx htx hreception hridle
    have hlast := epService_eq_ok (s := r.setEp e { r.usb.ep e with ctrTx := true }) hridle hk ht
      (htfaults.trans hrfaults.symm)
    have hserve : epService s e .service = .ok t := hboth.trans hlast
    rw [epService_of_not_received hrrx] at hlast
    have hidle : SequencerIdle t := transmitHalf_idle (by exact hridle) hlast
    exact ⟨by rw [exec_epService hseq hk, hserve]; rfl, fun hcb =>
      transferCompleteServed_of_service hseq hk hcb hserve hidle⟩
  case noFlag =>
    rw [exec_dispCtr_inTurn hseq hturn, handleCtr_of_no_flag hflag hseq]
    rfl

/-! ### A data packet, and a packet without a hook -/

/-- `rx_buf` after a packet of at most eight bytes: its bytes, then those that were there (42_usb_endpoint_buffer_manager.md
R190). -/
theorem toList_overlay (p : Packet8) {bytes : List Byte} (hshort : bytes.length ≤ 8) :
    (overlay p bytes).toList = bytes ++ p.toList.drop bytes.length := by
  apply List.ext_getElem
  · have hnew : (overlay p bytes).toList.length = 8 := rfl
    have hold : p.toList.length = 8 := rfl
    rw [List.length_append, List.length_drop]
    omega
  · intro i hi _
    have hi : i < 8 := hi
    have hbyte : (overlay p bytes).toList[i] = bytes.getD i p.toList[i] := by
      interval_cases i <;> rfl
    refine hbyte.trans ?_
    rw [List.getElem_append]
    split
    · next hin => rw [List.getD_eq_getElem _ _ hin]
    · next hout =>
      rw [List.getD_eq_default _ _ (Nat.le_of_not_lt hout), List.getElem_drop]
      congr 1
      omega

/-- A waiting packet is taken. -/
theorem PacketWaiting.taken {bytes : List Byte} (h : PacketWaiting s e bytes) :
    takePacket s e = .ok (packetTaken s e bytes) := by
  obtain ⟨count, hcount, hlength⟩ := h.count
  exact takePacket_eq_ok_iff.2 ⟨count, bytes, hcount, hlength, bufferRead_ok e h.buffer, h.short, rfl⟩

/-- A packet taken and re-armed, whatever its hook left of unit H. -/
theorem packetTaken_rearmed {bytes : List Byte} (hshort : bytes.length ≤ 8) (h : Hid) :
    PacketTaken s (setStatRx ((packetTaken s e bytes).withHid h) e .valid) e bytes true := by
  have hbuf := toList_overlay (s.drv.ets e).rxBuf hshort
  cases e <;> exact ⟨rfl, rfl, rfl, hbuf⟩

/-- A waiting packet whose hook leaves the USB side alone, with no completed transmission: taken, re-armed, and what the hook did
to unit H. -/
theorem packetWaiting_served {k : BitVec 4} {bytes : List Byte} (hwait : PacketWaiting s e bytes) (hk : k.toNat = epNumber e)
    (htx : (s.usb.ep e).ctrTx = false) {h : Hid}
    (hhook : receiveHook e .service (packetTaken s e bytes) = .ok ((packetTaken s e bytes).withHid h)) :
    ∃ t, exec (.epService k) s = .next t ∧ (s.drv.cbEp = true → TransferCompleteServed s t k) ∧
      PacketTaken s t e bytes true ∧ t.fseq = s.fseq ∧ t.faults = s.faults ∧ t.hid = h ∧
      (t.drv.ets e).rxBuf = overlay (s.drv.ets e).rxBuf bytes := by
  have hutx : (((packetTaken s e bytes).withHid h).usb.ep e).ctrTx = false := by
    rw [← htx]
    cases e <;> rfl
  have hserve := epService_reception hwait.idle hwait.received hwait.taken hhook hwait.idle hutx
  refine ⟨_, by rw [exec_epService hwait.idle hk, hserve]; rfl, fun hcb => ?_, packetTaken_rearmed hwait.short h, rfl, rfl,
    rfl, by cases e <;> rfl⟩
  exact transferCompleteServed_of_service hwait.idle hk hcb hserve hwait.idle

/-- Unit H after the append of a packet (45_hid_reassembly_commands.md R262). -/
def appendedHid (h : Hid) (rx : Packet8) : Hid :=
  { h with
    pageBuf := Memory.writeBytes none h.pageBuf h.pageOffset.toNat rx.toList
    pageOffset := h.pageOffset + 8 }

/-- The append inside the page buffer (45_hid_reassembly_commands.md R262). -/
theorem appendPacket_ok (hfits : s.hid.pageOffset.toNat + 8 ≤ 1024) (rx : Packet8) :
    appendPacket s rx = .ok (s.withHid (appendedHid s.hid rx)) := if_pos hfits

/-- `HidData` of a packet that completes neither the first 64 bytes nor the page: the append alone
(45_hid_reassembly_commands.md R261). -/
theorem hidData_append (hfits : s.hid.pageOffset.toNat + 8 < 1024) (hframe : s.hid.pageOffset.toNat ≠ 56) (rx : Packet8)
    (c : Caller) : hidData s rx c = .ok (s.withHid (appendedHid s.hid rx)) := by
  have h64 : s.hid.pageOffset + 8 ≠ 64 := by bv_omega
  have h1024 : s.hid.pageOffset + 8 ≠ 1024 := by bv_omega
  rw [hidData, appendPacket_ok hfits.le]
  exact (if_neg fun h => h64 h.1).trans (if_neg h1024)

/-- The page buffer after the append, byte by byte (45_hid_reassembly_commands.md R262). -/
theorem appended_of_hid_eq {rx : Packet8} (hbuf : PageBufOk s.hid.pageBuf) (h : t.hid = appendedHid s.hid rx) :
    Appended s t rx := fun o => by
  rw [h]
  exact Memory.read?_writeBytes hbuf.1 _ _ o

/-- The recorded length of a packet that is not empty. -/
theorem rxLen_ne_zero {bytes : List Byte} (hshort : bytes.length ≤ 8) (hne : bytes ≠ []) :
    BitVec.ofNat 16 bytes.length ≠ 0 := by
  have hpos := List.length_pos_iff.2 hne
  intro h
  have hmod : bytes.length % 2 ^ 16 = 0 := congrArg BitVec.toNat h
  omega

/-- Settles O52: the data packet's hook is the append alone (`hidData_append`), the others have none (`receiveHook_none`); the rest
is `packetWaiting_served`. -/
theorem dataPacketServed : Obligations.DataPacketServed := by
  refine ⟨fun s bytes hwait htx hbuf hfits hframe => ?data, fun s e k bytes hwait hk htx hcase => ?noHook⟩
  case data =>
    have hhook := (receiveHook_data (s := packetTaken s .ep0 bytes) .service hwait.plain
      (rxLen_ne_zero hwait.short hwait.nonempty)).trans (hidData_append (s := packetTaken s .ep0 bytes) hfits hframe _ _)
    obtain ⟨t, hexec, hcomplete, htaken, hfseq, hfaults, hhid, hrx⟩ :=
      packetWaiting_served hwait.toPacketWaiting (k := 0) rfl htx hhook
    have hrx : t.drv.ets0.rxBuf = overlay s.drv.ets0.rxBuf bytes := hrx
    refine ⟨t, hexec, hcomplete, htaken, hfseq, hfaults, appended_of_hid_eq hbuf ?_, by rw [hhid]; rfl⟩
    rw [hrx, hhid]
    rfl
  case noHook =>
    have hhook : receiveHook e .service (packetTaken s e bytes) = .ok (packetTaken s e bytes) := by
      refine receiveHook_none _ fun he => ?_
      obtain ⟨_, rfl, hsetup⟩ | rfl := hcase
      · subst he
        exact ⟨hsetup, rfl⟩
      · cases he
    obtain ⟨t, hexec, hcomplete, htaken, hfseq, hfaults, hhid, _⟩ := packetWaiting_served hwait hk htx (h := s.hid) hhook
    exact ⟨t, hexec, hcomplete, htaken, hhid, hfseq, hfaults⟩

end Sys2Proof.Machine
end

section
/-! PROOFS. The bus side (43_usb_packet_dispatcher.md R210 to R217): bus reset, suspend and wakeup, and the SIE's answer to an
offered and to a requested packet. A packet is looked at twice, first at the endpoint register (`Accepts`, `Hands`), then at the
words and the buffer in packet memory. -/

namespace Sys2Proof.Machine

variable {s : State} {a e : Byte} {d : List Byte} {n : Ep}

/-! ### Bus reset, suspend and wakeup -/

/-- A register file whose EF is clear answers at no address (10_state.md R29). -/
theorem Usb.enabledAt_of_not_ef {u : Usb} (hef : u.daddr.ef = false) (a : Byte) : u.enabledAt a = false := by
  simp [Usb.enabledAt, hef]

/-- The interrupt line is up with a suspend latched, its mask and the line's enable set (10_state.md R29). -/
theorem Usb.irqLine_of_susp {u : Usb} (hsusp : u.istr.susp = true) (hmask : u.cntr.suspm = true) (hen : u.irqEn = true) :
    u.irqLine = true :=
  u.irqLine_iff.2 ⟨hen, u.maskedStatus_ne_zero_iff.2 (.inr (.inr (.inl ⟨hsusp, hmask⟩)))⟩

/-- What the bus does to a register file changes nothing while not attached (43_usb_packet_dispatcher.md R211 to R213). -/
theorem bus_not_attached (u : Usb) (hatt : s.usb.attached = false) : (if s.usb.attached then s.withUsb u else s) = s :=
  if_neg (ne_true_of_eq_false hatt)

/-- Settles O36: the registers after the core-reset effect are column HW's (`usbReset_words`), and a write of CNTR with FRES
applies the same effect (`writeCntr_of_fres`). -/
theorem busResetLatches : Obligations.BusResetLatches := by
  intro s
  refine ⟨fun hatt => congrArg Host.Outcome.next (bus_not_attached _ hatt), fun hatt => ?attached⟩
  obtain ⟨hep0, hep1, _, _, hdaddr⟩ := usbReset_words
  refine ⟨coreReset s.usb, congrArg Host.Outcome.next (if_pos hatt), rfl, hep0, hep1, hdaddr, Usb.enabledAt_of_not_ef rfl,
    Usb.istrHalf_ctr _, fun v hfres => ?fres⟩
  rw [exec_regCntr_write, writeCntr_of_fres _ hfres]
  rfl

/-- Settles O37: both moves are guarded by `attached`; the line by `Usb.irqLine_of_susp`. -/
theorem suspendAndWakeupLatch : Obligations.SuspendAndWakeupLatch := by
  intro s
  refine ⟨fun hatt => ⟨?_, ?_⟩, fun hatt => ⟨?_, ?_, fun hmask hen => Usb.irqLine_of_susp rfl hmask hen⟩⟩
  · exact congrArg Host.Outcome.next (bus_not_attached _ hatt)
  · exact congrArg Host.Outcome.next (bus_not_attached _ hatt)
  · exact congrArg Host.Outcome.next (if_pos hatt)
  · exact congrArg Host.Outcome.next (if_pos hatt)

/-! ### Moves that are USB packets -/

/-- An address or an endpoint number that no USB packet carries (43_usb_packet_dispatcher.md R210). -/
theorem badAddressing_iff : badAddressing a e = true ↔ 127 < a.toNat ∨ 15 < e.toNat := by
  simp [badAddressing]

theorem badAddressing_of_le (ha : a.toNat ≤ 127) (he : e.toNat ≤ 15) : ¬badAddressing a e = true := fun h =>
  (badAddressing_iff.1 h).elim (Nat.not_lt.2 ha) (Nat.not_lt.2 he)

/-- HOST.SETUP of other than eight bytes, or badly addressed (43_usb_packet_dispatcher.md R210, R214). -/
theorem exec_hostSetup_refused (h : badAddressing a e = true ∨ d.length ≠ 8) :
    exec (.hostSetup a e d) s = .refused .badHostMove := congrArg finish (if_pos h)

/-- HOST.OUT of more than 1023 bytes, or badly addressed (43_usb_packet_dispatcher.md R210, R215). -/
theorem exec_hostOut_refused (h : badAddressing a e = true ∨ 1023 < d.length) :
    exec (.hostOut a e d) s = .refused .badHostMove := congrArg finish (if_pos h)

/-- HOST.IN badly addressed (43_usb_packet_dispatcher.md R210). -/
theorem exec_hostIn_refused (h : badAddressing a e = true) : exec (.hostIn a e) s = .refused .badHostMove :=
  congrArg finish (if_pos h)

/-- Every SETUP and every OUT that is a USB packet is offered to the SIE (43_usb_packet_dispatcher.md R214, R215). -/
theorem exec_offered {i : Instr} {setup : Bool}
    (hi : i = .hostSetup a e d ∧ setup = true ∧ d.length = 8 ∨ i = .hostOut a e d ∧ setup = false ∧ d.length ≤ 1023)
    (ha : a.toNat ≤ 127) (he : e.toNat ≤ 15) : exec i s = finish (offerPacket s a e d setup) := by
  have haddr := badAddressing_of_le ha he
  obtain ⟨rfl, rfl, hlen⟩ | ⟨rfl, rfl, hlen⟩ := hi
  · exact congrArg finish (if_neg fun h => h.elim haddr (· hlen))
  · exact congrArg finish (if_neg fun h => h.elim haddr (Nat.not_lt.2 hlen))

theorem exec_hostIn (ha : a.toNat ≤ 127) (he : e.toNat ≤ 15) : exec (.hostIn a e) s = finish (requestPacket s a e) :=
  congrArg finish (if_neg (badAddressing_of_le ha he))

/-! ### The acceptance conditions on the endpoint register -/

/-- Endpoint register `n` takes the packet, as far as its register says (43_usb_packet_dispatcher.md R214, R215). -/
structure Accepts (s : State) (a e : Byte) (setup : Bool) (n : Ep) : Prop where
  enabled : s.usb.enabledAt a = true
  found : s.usb.lookup e = some n
  control : setup = true → (s.usb.ep n).epType = .control
  valid : (s.usb.ep n).statRx = .valid
  free : (s.usb.ep n).ctrRx = false

/-- Endpoint register `n` has a packet for the host (43_usb_packet_dispatcher.md R216). -/
structure Hands (s : State) (a e : Byte) (n : Ep) : Prop where
  enabled : s.usb.enabledAt a = true
  found : s.usb.lookup e = some n
  valid : (s.usb.ep n).statTx = .valid
  free : (s.usb.ep n).ctrTx = false

/-- A packet that its endpoint register takes: its capacity decides (43_usb_packet_dispatcher.md R214, R215). -/
theorem Accepts.offerPacket_eq {setup : Bool} (h : Accepts s a e setup n) (d : List Byte) :
    offerPacket s a e d setup = bdtRead s n offCountRx >>= fun count =>
      if d.length ≤ rxCapacity count then receivePacket s n d setup else notAccepted s .noresp := by
  have htype : ¬(setup = true ∧ (s.usb.ep n).epType ≠ .control) := fun k => k.2 (h.control k.1)
  simp [offerPacket, h.enabled, h.found, htype, h.valid, h.free]

/-- A packet that no endpoint register takes is not accepted (43_usb_packet_dispatcher.md R217). -/
theorem offerPacket_not_accepts {setup : Bool} (h : ∀ n, ¬Accepts s a e setup n) (d : List Byte) :
    ∃ l, offerPacket s a e d setup = notAccepted s l := by
  unfold offerPacket
  split
  · next henabled =>
    split
    · exact ⟨_, rfl⟩
    · next n hfound =>
      split
      · exact ⟨_, rfl⟩
      · next htype =>
        split
        · exact ⟨_, rfl⟩
        · exact ⟨_, rfl⟩
        · exact ⟨_, rfl⟩
        · next hvalid =>
          split
          · exact ⟨_, rfl⟩
          · next hfree =>
            have hcontrol : setup = true → (s.usb.ep n).epType = .control := fun hs =>
              Decidable.not_not.1 fun ht => htype ⟨hs, ht⟩
            exact absurd ⟨henabled, hfound, hcontrol, hvalid, eq_false_of_ne_true hfree⟩ (h n)
  · exact ⟨_, rfl⟩

/-- A request that its endpoint register answers (43_usb_packet_dispatcher.md R216). -/
theorem Hands.requestPacket_eq (h : Hands s a e n) : requestPacket s a e = transmitPacket s n := by
  simp [requestPacket, h.enabled, h.found, h.valid, h.free]

/-- A request that no endpoint register answers is not accepted (43_usb_packet_dispatcher.md R217). -/
theorem requestPacket_not_hands (h : ∀ n, ¬Hands s a e n) : ∃ l, requestPacket s a e = notAccepted s l := by
  unfold requestPacket
  split
  · next henabled =>
    split
    · exact ⟨_, rfl⟩
    · next n hfound =>
      split
      · exact ⟨_, rfl⟩
      · exact ⟨_, rfl⟩
      · exact ⟨_, rfl⟩
      · next hvalid =>
        split
        · exact ⟨_, rfl⟩
        · next hfree => exact absurd ⟨henabled, hfound, hvalid, eq_false_of_ne_true hfree⟩ (h n)
  · exact ⟨_, rfl⟩

/-! ### A packet received -/

/-- A written byte stays written when bytes are stored over packet memory (42_usb_endpoint_buffer_manager.md R180). -/
theorem Memory.isSome_read?_writeBytes {m : Memory} (hm : Memory.wf none m = true) {o : Nat} (ho : (m.read? o).isSome)
    (b : Nat) (bytes : List Byte) : ((Memory.writeBytes none m b bytes).read? o).isSome := by
  rw [Memory.read?_writeBytes hm]
  split
  · next hin => rw [List.getElem?_eq_getElem (by omega)]; rfl
  · exact ho

/-- A buffer write keeps packet memory canonical and its written bytes written (42_usb_endpoint_buffer_manager.md R180). -/
theorem bufferWrite_keeps {m : Memory} (hwf : Memory.wf none s.pma = true) (hempty : d = [] → m = s.pma)
    (hstored : d ≠ [] → ∃ b, m = Memory.writeBytes none s.pma b d) :
    Memory.wf none m = true ∧ ∀ o, (s.pma.read? o).isSome → (m.read? o).isSome := by
  by_cases hd : d = []
  · rw [hempty hd]
    exact ⟨hwf, fun _ => id⟩
  · obtain ⟨b, rfl⟩ := hstored hd
    exact ⟨Memory.wf_writeBytes hwf b d, fun o ho => Memory.isSome_read?_writeBytes hwf ho b d⟩

/-- A buffer that does not fit below 512 is the fault PmaRange in the state itself (42_usb_endpoint_buffer_manager.md R180 with
D18; log 38). -/
theorem bufferWrite_beyond {within : Nat} {b : Half} (hd : d ≠ []) (hb : bdtRead s n within = .ok b)
    (hbeyond : Config.pmaSize < b.toNat + d.length) : bufferWrite s n within d = raise s .pmaRange := by
  rw [bufferWrite, if_neg hd, hb]
  exact (if_neg hd).trans (if_neg (Nat.not_le.2 hbeyond))

/-- The state after a packet of `len` bytes whose bytes are stored in `m` (43_usb_packet_dispatcher.md R214, R215). -/
def packetReceived (s : State) (n : Ep) (setup : Bool) (m : Memory) (count : Half) (len : Nat) : State :=
  { s with
    usb := s.usb.setEp n { s.usb.ep n with setup := setup, statRx := .nak, ctrRx := true }
    pma := Memory.writeBytes none m (tableWordAt s n offCountRx) (halfBytes (countReceived count len))
    result := .accepted }

/-- The packet received once its bytes are stored in `m`: COUNT_RX is read there and written with the length
(43_usb_packet_dispatcher.md R214, R215). -/
theorem receivePacket_eq {m : Memory} {c0 c1 : Byte} {setup : Bool} (htable : TableInPma s)
    (hwrite : bufferWrite s n offAddrRx d = .ok (s.withPma m)) (h0 : m.read? (tableWordAt s n offCountRx) = some c0)
    (h1 : m.read? (tableWordAt s n offCountRx + 1) = some c1) :
    receivePacket s n d setup = .ok (packetReceived s n setup m (le16 c0 c1) d.length) := by
  have hw : offCountRx + 2 ≤ 8 := by decide
  have hcount : bdtRead (s.withPma m) n offCountRx = .ok (le16 c0 c1) := bdtRead_ok (s := s.withPma m) n hw htable h0 h1
  have hstore := bdtWrite_ok (s := s.withPma m) n hw htable (countReceived (le16 c0 c1) d.length)
  rw [receivePacket, hwrite]
  show (bdtRead (s.withPma m) n offCountRx >>= _) = _
  rw [hcount]
  show (bdtWrite (s.withPma m) n offCountRx _ >>= _) = _
  rw [hstore]
  rfl

/-- Settles O38: the endpoint register takes the packet (`Accepts.offerPacket_eq`), its bytes are stored or the buffer is beyond
packet memory (`bufferWrite_ok`, `bufferWrite_beyond`), and COUNT_RX follows (`receivePacket_eq`). -/
theorem offeredPacketIsReceived : Obligations.OfferedPacketIsReceived := by
  intro s i setup a e d n count hi ha he henabled hfound hcontrol hvalid hfree htable hwf hcount hcap
  have haccepts : Accepts s a e setup n := ⟨henabled, hfound, hcontrol, hvalid, hfree⟩
  have hexec : exec i s = finish (receivePacket s n d setup) := by
    have hfits : d.length ≤ rxCapacity count := hcap
    rw [exec_offered hi ha he, haccepts.offerPacket_eq, hcount]
    exact congrArg finish (if_pos hfits)
  refine ⟨fun hbuffer => ?received, fun b hd hb hbeyond => ?beyond⟩
  case received =>
    obtain ⟨m, hwrite, hempty, hbytes⟩ := bufferWrite_ok n d hbuffer
    obtain ⟨hmwf, hkeeps⟩ := bufferWrite_keeps hwf hempty fun hd => by
      obtain ⟨b, hb, _⟩ := hbuffer hd
      exact ⟨b.toNat, hbytes b hd hb⟩
    obtain ⟨_, b0, b1, hb0, hb1, _⟩ := (bdtRead_eq_ok_iff n (by decide) count).1 hcount
    obtain ⟨c0, hc0⟩ := Option.isSome_iff_exists.1 (hkeeps _ (Option.isSome_of_eq_some hb0))
    obtain ⟨c1, hc1⟩ := Option.isSome_iff_exists.1 (hkeeps _ (Option.isSome_of_eq_some hb1))
    refine ⟨packetReceived s n setup m (le16 c0 c1) d.length, m.read?, c0, c1, ?_, rfl, rfl, fun hd => by rw [hempty hd],
      fun hd b hb => ?_, hc0, hc1, Memory.read?_writeBytes hmwf _ _⟩
    · rw [hexec, receivePacket_eq htable hwrite hc0 hc1]
      rfl
    · rw [hbytes b hd hb]
      exact funext (Memory.read?_writeBytes hwf _ _)
  case beyond =>
    rw [hexec, receivePacket, bufferWrite_beyond hd hb hbeyond]
    rfl

/-- Settles O39: no endpoint register takes the packet (`offerPacket_not_accepts`), or the one that does has too small a buffer. -/
theorem offeredPacketIsNotAccepted : Obligations.OfferedPacketIsNotAccepted := by
  refine ⟨fun s i setup a e d hi ha he hexcluded => ?excluded, fun s a e d => ⟨fun h => ?_, fun h => ?_, fun h => ?_⟩⟩
  case excluded =>
    suffices hoffer : ∃ l, offerPacket s a e d setup = notAccepted s l by
      obtain ⟨l, hl⟩ := hoffer
      exact ⟨l, by rw [exec_offered hi ha he, hl]; rfl⟩
    by_cases hsome : ∃ n, Accepts s a e setup n
    · obtain ⟨n, hn⟩ := hsome
      have hshort : ∃ count, bdtRead s n offCountRx = .ok count ∧ ¬d.length ≤ rxCapacity count := by
        by_contra hfits
        refine hexcluded ⟨hn.enabled, n, hn.found, hn.control, hn.valid, hn.free, fun count hcount => ?_⟩
        exact Decidable.not_not.1 fun h => hfits ⟨count, hcount, h⟩
      obtain ⟨count, hcount, hlong⟩ := hshort
      refine ⟨.noresp, ?_⟩
      rw [hn.offerPacket_eq, hcount]
      exact if_neg hlong
    · exact offerPacket_not_accepts (not_exists.1 hsome) d
  · exact exec_hostSetup_refused (by rwa [badAddressing_iff, or_assoc])
  · exact exec_hostOut_refused (by rwa [badAddressing_iff, or_assoc])
  · exact exec_hostIn_refused (badAddressing_iff.2 h)

/-! ### A packet requested -/

/-- A buffer that begins beyond offset 511 is the fault PmaRange in the state itself (42_usb_endpoint_buffer_manager.md R180 with
D18; log 38). -/
theorem bufferRead_beyond {within k : Nat} {b : Half} (hk : k ≠ 0) (hb : bdtRead s n within = .ok b)
    (hbeyond : Config.pmaSize ≤ b.toNat) : bufferRead s n within k = raise s .pmaRange := by
  obtain ⟨j, rfl⟩ := Nat.exists_eq_succ_of_ne_zero hk
  have hfirst : pmaRead s b.toNat = raise s .pmaRange := if_neg (Nat.not_lt.2 hbeyond)
  rw [bufferRead, if_neg hk, hb]
  show (pmaRead s b.toNat >>= _) = _
  rw [hfirst]
  rfl

/-- Settles O40: the endpoint register answers (`Hands.requestPacket_eq`) with the buffer's bytes (`bufferRead_ok`) or the buffer
lies beyond packet memory (`bufferRead_beyond`); otherwise `requestPacket_not_hands`. -/
theorem requestedPacket : Obligations.RequestedPacket := by
  intro s a e ha he
  refine ⟨fun n count henabled hfound hvalid hfree hcount => ?answered, fun hexcluded => ?excluded⟩
  case answered =>
    have hhands : Hands s a e n := ⟨henabled, hfound, hvalid, hfree⟩
    have hexec : exec (.hostIn a e) s = finish (bufferRead s n offAddrTx (byteCount count) >>= fun d =>
        .ok ((s.setEp n { s.usb.ep n with statTx := .nak, ctrTx := true }).withResult (.packet d))) := by
      rw [exec_hostIn ha he, hhands.requestPacket_eq, transmitPacket, hcount]
      rfl
    refine ⟨fun d hlen hbuffer => ?_, fun b hcounted hb hbeyond => ?_⟩
    · have hlen : byteCount count = d.length := hlen.symm
      rw [hexec, hlen, bufferRead_ok n hbuffer]
      rfl
    · have hcounted : byteCount count ≠ 0 := hcounted
      rw [hexec, bufferRead_beyond hcounted hb hbeyond]
      rfl
  case excluded =>
    obtain ⟨l, hl⟩ := requestPacket_not_hands (s := s) (a := a) (e := e) fun n hn =>
      hexcluded ⟨hn.enabled, n, hn.found, hn.valid, hn.free⟩
    exact ⟨l, by rw [exec_hostIn ha he, hl]; rfl⟩

end Sys2Proof.Machine
end

section
/-! PROOFS. The USB interrupt (43_usb_packet_dispatcher.md R220 to R223): the entry, the status read with its exit, and the passes
that serve suspend and wakeup. -/

namespace Sys2Proof.Machine

variable {s : State}

/-! ### Entry -/

/-- When the interrupt is taken (43_usb_packet_dispatcher.md R220, 60_exceptions.md R331). -/
theorem interruptTaken_iff : interruptTaken s = true ↔ (DispatcherIdle s ∧ SequencerIdle s) ∧ s.usb.irqLine = true := by
  simp [interruptTaken]

/-- Settles O41: `interruptTaken_iff` decides; with the dispatcher in READ the six MAIN operations are held
(`heldOperations`). -/
theorem interruptEntry : Obligations.InterruptEntry := by
  intro s hseq
  refine ⟨fun hdisp hline => ⟨?enter, fun i hi => ?held⟩, fun hout => ?notTaken⟩
  case enter => exact if_pos (interruptTaken_iff.2 ⟨⟨hdisp, hseq⟩, hline⟩)
  case held =>
    have hbusy : (s.withDisp { s.disp with state := .read }).disp.state ≠ .idle := nofun
    obtain ⟨hmain, _⟩ := heldOperations
    obtain ⟨hinitialize, hshutdown, hevaluate, hupdatemode, hlaunch, hsysreset⟩ := hmain _ hbusy
    rcases hi with rfl | rfl | rfl | rfl | rfl | rfl <;> assumption
  case notTaken =>
    refine if_neg fun h => ?_
    obtain ⟨⟨hdisp, _⟩, hline⟩ := interruptTaken_iff.1 h
    exact hout.elim (· hdisp) (ne_true_of_eq_false · hline)

/-! ### The status read -/

/-- A dispatcher step in its turn (43_usb_packet_dispatcher.md R221, R222). -/
theorem dispStep_inTurn {x : DispState} (r : Res State) (hseq : SequencerIdle s) (hturn : s.disp.state = x) :
    dispStep s x r = finish r := if_pos ⟨hturn, hseq⟩

/-- The status read with a flagged source begins the pass (43_usb_packet_dispatcher.md R221). -/
theorem readStatus_flagged (h : s.usb.snapshot &&& 0x9C00 ≠ 0) :
    readStatus s = s.withDisp { state := .doCtr, snap := s.usb.snapshot } := if_pos h

/-- The status read without one is the return: every latched flag cleared, the dispatcher idle
(43_usb_packet_dispatcher.md R221, R223, 60_exceptions.md R327). -/
theorem readStatus_none (h : s.usb.snapshot &&& 0x9C00 = 0) :
    readStatus s = (s.withUsb { s.usb with istr := Usb.reset.istr }).withDisp { state := .idle, snap := s.usb.snapshot } := by
  rw [readStatus, if_neg (not_not_intro h), returnInterrupt, writeIstr_zero]
  rfl

/-- Settles O42: the word is `Usb.snapshot`; the read by `readStatus_flagged` and `readStatus_none`, EVT.NONE is the same step
guarded by the status. -/
theorem statusRead : Obligations.StatusRead := by
  intro s v hseq
  refine ⟨fun hread w hw => ?inRead, dispStep_outOfTurn _⟩
  obtain rfl : w = s.usb.snapshot := hw
  have hdispRead : exec .dispRead s = .next (readStatus s) := dispStep_inTurn _ hseq hread
  have hevtNone : exec (.evtNone v) s = .next (if s.usb.snapshot &&& 0x9C00 = 0 then readStatus s else s) :=
    dispStep_inTurn _ hseq hread
  refine ⟨fun hflagged => ⟨?_, ?_⟩, fun hnone => ⟨readStatus s, hdispRead, ?_, readStatus_none hnone⟩⟩
  · rw [hdispRead, readStatus_flagged hflagged]
  · rw [hevtNone, if_neg hflagged]
  · rw [hevtNone, if_pos hnone]

/-! ### Suspend and wakeup served -/

/-- EVT.SUSP: suspend, then wakeup where the word has it (43_usb_packet_dispatcher.md R222, 30_encoding.md R118). -/
theorem exec_evtSusp (hseq : SequencerIdle s) (w : Half) :
    exec (.evtSusp w) s = .next (if bit w 12 then wkupServed (suspServed s) else suspServed s) := by
  refine (unitStep_idle _ hseq).trans ?_
  rw [laterThanSusp, serveWkup_eq, serveSusp_eq]
  rfl

theorem exec_evtWkup (hseq : SequencerIdle s) (w : Half) : exec (.evtWkup w) s = .next (wkupServed s) := by
  refine (unitStep_idle _ hseq).trans ?_
  rw [serveWkup_eq]
  rfl

/-- A pass moves on, whether or not its source was flagged: the source's handler leaves the dispatcher alone
(43_usb_packet_dispatcher.md R222). -/
theorem setDispState_served {served : State} (hdisp : served.disp = s.disp) (b : Bool) (x : DispState) :
    setDispState (if b then served else s) x = (if b then served else s).withDisp { s.disp with state := x } := by
  cases b
  · rfl
  · exact congrArg (fun d => served.withDisp { d with state := x }) hdisp

/-- Settles O43: the handlers are `suspServed` and `wkupServed` (`serveSusp_eq`, `serveWkup_eq`), and a pass moves on by
`setDispState_served`. -/
theorem suspendAndWakeupServed : Obligations.SuspendAndWakeupServed := by
  rintro s w _ _ hseq rfl rfl
  refine ⟨fun hwkup => ?_, fun hwkup => ?_, exec_evtWkup hseq w, fun hturn => ?susp, fun hturn => ?wkup⟩
  · rw [exec_evtSusp hseq, if_neg (ne_true_of_eq_false hwkup)]
    rfl
  · rw [exec_evtSusp hseq, if_pos hwkup]
    rfl
  case susp =>
    refine (dispStep_inTurn _ hseq hturn).trans ?_
    rw [setDispState_served (s := s) (served := serveSusp s) rfl, serveSusp_eq]
    rfl
  case wkup =>
    refine (dispStep_inTurn _ hseq hturn).trans ?_
    rw [setDispState_served (s := s) (served := serveWkup s) rfl, serveWkup_eq]
    rfl

end Sys2Proof.Machine
end

section
/-! PROOFS. The control requests of endpoint 0 (44_usb_control_requests.md R240 to R248): every row of 30_encoding.md R106 sends
bytes on endpoint 0 and is answered with them, and a SETUP packet served does what its row does. -/

namespace Sys2Proof.Machine

variable {s u : State} {i : Instr} {d : List Byte} {len : Nat}

/-! ### The answer on endpoint 0 -/

/-- The operation sends `len` bytes of `d` on endpoint 0 from `u`, which is `s` but for the Device Session State
(44_usb_control_requests.md R240, R241). -/
structure SendsAnswer (i : Instr) (s u : State) (d : List Byte) (len : Nat) : Prop where
  sends : exec i s = finish (sendData u 0 d (BitVec.ofNat 16 len))
  enough : len ≤ d.length
  counted : len < 2 ^ 16
  usb : u.usb = s.usb
  pma : u.pma = s.pma
  ets : u.drv.ets0 = s.drv.ets0

/-- A zero-length packet (44_usb_control_requests.md R240). -/
theorem sendsAnswer_empty (hexec : exec i s = finish (answerEmpty u)) (husb : u.usb = s.usb) (hpma : u.pma = s.pma)
    (hets : u.drv.ets0 = s.drv.ets0) : SendsAnswer i s u [] 0 :=
  ⟨hexec, Nat.le_refl 0, by decide, husb, hpma, hets⟩

/-- A descriptor cut to the requested length (44_usb_control_requests.md R241). -/
theorem sendsAnswer_descriptor {wLength : Half} (hexec : exec i s = finish (answerDescriptor s d wLength)) :
    SendsAnswer i s s d (min d.length wLength.toNat) :=
  ⟨hexec, Nat.min_le_left _ _, Nat.lt_of_le_of_lt (Nat.min_le_right _ _) wLength.isLt, rfl, rfl, rfl⟩

/-- What is sent is the answer, where the transmit buffer of endpoint 0 takes its first packet: `sendData_ok`. -/
theorem SendsAnswer.answered (h : SendsAnswer i s u d len) (hwf : Memory.wf none s.pma = true)
    (hready : TxReady s .ep0 (min len s.drv.ets0.maxPacket.toNat)) : ∃ t, exec i s = .next t ∧ Answered u t d len := by
  have hlength : (BitVec.ofNat 16 len).toNat = len := Nat.mod_eq_of_lt h.counted
  have hready : TxReady u .ep0 (min (BitVec.ofNat 16 len).toNat (u.drv.ets .ep0).maxPacket.toNat) := by
    rw [hlength, show u.drv.ets .ep0 = s.drv.ets0 from h.ets]
    exact hready.congr (by rw [h.usb]) h.pma
  obtain ⟨t, ht, harmed⟩ :=
    sendData_ok (k := 0) rfl (.inl rfl) (hlength.le.trans h.enough) (h.pma.symm ▸ hwf) hready
  rw [hlength] at harmed
  exact ⟨t, by rw [h.sends, ht]; rfl, harmed⟩

/-! ### The rows -/

/-- A string that the device has (44_usb_control_requests.md R245). -/
theorem stringDescriptor_of_some {ix : Byte} (h : some d = s.par.stringDescs[ix.toNat]?) :
    stringDescriptor s.par ix = d := by
  rw [stringDescriptor, List.getD_eq_getElem?_getD, ← h, Option.getD_some]

/-- A string index without a string (44_usb_control_requests.md R245). -/
theorem stringDescriptor_of_length_le {ix : Byte} (h : s.par.stringDescs.length ≤ ix.toNat) :
    stringDescriptor s.par ix = [] := List.getD_eq_default _ _ h

/-- GET_DESCRIPTOR of a string sends `STRING_DESC[i]`, or nothing (44_usb_control_requests.md R245). -/
theorem exec_getDescriptorString (hseq : SequencerIdle s) (rt ix : Byte) (wIndex wLength : Half) :
    exec (.setupGetDescriptorString rt ix wIndex wLength) s =
      finish (answerDescriptor s (stringDescriptor s.par ix) wLength) := unitStep_idle _ hseq

/-- Settles O47: each row sends its answer (`sendsAnswer_descriptor`, `sendsAnswer_empty`), and what is sent is armed
(`SendsAnswer.answered`). -/
theorem requestsAreAnswered : Obligations.RequestsAreAnswered := by
  intro s rt ix wValue wIndex wLength p i u d len hseq hwf hrow hready
  refine SendsAnswer.answered ?_ hwf hready
  obtain ⟨rfl, rfl, rfl, rfl⟩ | ⟨rfl, rfl, rfl, rfl⟩ | ⟨rfl, rfl, rfl, rfl⟩ | ⟨rfl, rfl, hd, rfl⟩ |
    ⟨rfl, rfl, hnone, rfl, rfl⟩ | ⟨rfl, rfl, rfl, rfl⟩ | ⟨rfl, rfl, rfl, rfl⟩ | ⟨rfl, rfl, rfl, rfl⟩ := hrow
  · exact sendsAnswer_descriptor (unitStep_idle _ hseq)
  · exact sendsAnswer_descriptor (unitStep_idle _ hseq)
  · exact sendsAnswer_descriptor (unitStep_idle _ hseq)
  · exact sendsAnswer_descriptor (stringDescriptor_of_some hd ▸ exec_getDescriptorString hseq rt ix wIndex wLength)
  · have hempty := sendsAnswer_descriptor
      (stringDescriptor_of_length_le hnone ▸ exec_getDescriptorString hseq rt ix wIndex wLength)
    rwa [List.length_nil, Nat.zero_min] at hempty
  · have hfield : field wValue 0 7 = wValue.setWidth 7 := field_eq_of_bits fun i hi => by simp [hi]
    exact sendsAnswer_empty (hfield ▸ unitStep_idle _ hseq) rfl rfl rfl
  · exact sendsAnswer_empty (unitStep_idle _ hseq) rfl rfl rfl
  · exact sendsAnswer_empty (unitStep_idle _ hseq) rfl rfl rfl

end Sys2Proof.Machine
end

section
/-! PROOFS. A SETUP packet served does what its row does (42_usb_endpoint_buffer_manager.md R190, 44_usb_control_requests.md R241,
30_encoding.md R106). -/

namespace Sys2Proof.Machine

variable {s v : State} {p : Packet8} {bytes : List Byte}

/-! ### The selected row -/

/-- A descriptor type that the device does not have is answered with nothing (44_usb_control_requests.md R241, R248). -/
theorem answerDescriptor_nil (s : State) (wLength : Half) : answerDescriptor s [] wLength = answerEmpty s := by
  rw [answerDescriptor, List.length_nil, Nat.zero_min]
  rfl

/-- A packet that is no standard request is answered with nothing (44_usb_control_requests.md R248). -/
theorem handleSetup_of_not_standard (s : State) (hstd : p.b0 &&& 0x60 ≠ 0x00) : handleSetup s p = answerEmpty s :=
  (if_neg fun h => hstd h.1).trans ((if_neg fun h => hstd h.1).trans (if_neg fun h => hstd h.1))

theorem selectSetup_of_not_standard (hstd : p.b0 &&& 0x60 ≠ 0x00) : selectSetup p = .setupOther p :=
  if_neg fun h => hstd (beq_iff_eq.1 h)

/-- The selected row is `HandleSetup` (44_usb_control_requests.md R241, 30_encoding.md R106): by request type, bRequest and
descriptor type, in the order of the table. -/
theorem exec_selectSetup (hseq : SequencerIdle s) (p : Packet8) : exec (selectSetup p) s = finish (handleSetup s p) := by
  by_cases hstd : p.b0 &&& 0x60 = 0x00
  · simp only [selectSetup, handleSetup, isStandard, hstd, beq_iff_eq, true_and, if_true]
    split_ifs
    · exact unitStep_idle _ hseq
    · exact unitStep_idle _ hseq
    · exact unitStep_idle _ hseq
    · exact unitStep_idle _ hseq
    · exact (unitStep_idle _ hseq).trans (congrArg finish (answerDescriptor_nil s _).symm)
    · exact unitStep_idle _ hseq
    · exact unitStep_idle _ hseq
    · exact unitStep_idle _ hseq
  · rw [selectSetup_of_not_standard hstd, handleSetup_of_not_standard s hstd]
    exact unitStep_idle _ hseq

/-! ### The service of a SETUP packet -/

/-- A rule whose outcome is a refusal was refused. -/
theorem eq_refused_of_finish {r : Res State} {x : Refusal} (h : finish r = .refused x) : r = .error (.refused x) := by
  match r with
  | .ok u => cases h
  | .error (.raised f u) => cases h
  | .error (.refused y) => exact congrArg (fun z => Except.error (Stop.refused z)) (Host.Outcome.refused.inj h)

/-- A SETUP packet's hook is `HandleSetup` (42_usb_endpoint_buffer_manager.md R190). -/
theorem receiveHook_setup (c : Caller) (hsetup : s.usb.ep0.setup = true) :
    receiveHook .ep0 c s = handleSetup s s.drv.ets0.rxBuf := if_pos ⟨rfl, hsetup⟩

/-- A packet taken and not yet re-armed (42_usb_endpoint_buffer_manager.md R190). -/
theorem packetTaken_notRearmed {e : Ep} (hshort : bytes.length ≤ 8) : PacketTaken s (packetTaken s e bytes) e bytes false := by
  have hbuf := toList_overlay (s.drv.ets e).rxBuf hshort
  cases e <;> exact ⟨rfl, rfl, rfl, hbuf⟩

/-- The service of a waiting SETUP packet: `HandleSetup` on the packet taken, and the end of the receive half. -/
theorem epService_setup (hwait : PacketWaiting s .ep0 bytes) (hsetup : s.usb.ep0.setup = true) (c : Caller) :
    epService s .ep0 c = handleSetup (packetTaken s .ep0 bytes) (packetTaken s .ep0 bytes).drv.ets0.rxBuf >>= afterHook .ep0 := by
  rw [epService_of_received hwait.idle hwait.received, hwait.taken]
  exact congrArg (· >>= afterHook .ep0) (receiveHook_setup c hsetup)

/-- `HandleSetup` leaves the completion flags of endpoint 0 as the packet taken has them: both clear with nothing sent waiting. -/
theorem handleSetup_ctrTx (htx : s.usb.ep0.ctrTx = false)
    (hok : handleSetup (packetTaken s .ep0 bytes) p = .ok v) : v.usb.ep0.ctrTx = false := by
  have htaken : withFlags (packetTaken s .ep0 bytes) .ep0 false false = packetTaken s .ep0 bytes := withFlags_of_eq rfl htx
  have hsame := handleSetup_flagsAside (e := .ep0) (rx := false) (tx := false) (packetTaken s .ep0 bytes) p v hok
  rw [htaken, hok] at hsame
  rw [Except.ok.inj hsame]
  rfl

/-- Settles O48: the row selected is `HandleSetup` (`exec_selectSetup`), which is the hook of the service (`epService_setup`); with
nothing sent waiting the end of the receive half is the re-arm (`afterHook_of_not_ctrTx`). -/
theorem selectedRowIsTheRequest : Obligations.SelectedRowIsTheRequest := by
  refine ⟨fun s p hseq => exec_selectSetup hseq p, fun s bytes hwait hsetup htx => ?served⟩
  case served =>
    have hidle : SequencerIdle (packetTaken s .ep0 bytes) := hwait.idle
    refine ⟨packetTaken s .ep0 bytes, packetTaken_notRearmed hwait.short, rfl, rfl, rfl, fun r hrow => ?refused,
      fun v hrow hfaults => ?answered⟩
    case refused =>
      rw [exec_selectSetup hidle] at hrow
      rw [exec_epService hwait.idle (e := .ep0) rfl, epService_setup hwait hsetup, eq_refused_of_finish hrow]
      rfl
    case answered =>
      rw [exec_selectSetup hidle] at hrow
      have hside := handleSetup_post (packetTaken s .ep0 bytes) (packetTaken s .ep0 bytes).drv.ets0.rxBuf
      have hok := eq_ok_of_finish (Res.post_mono hside (fun _ _ => trivial) fun _ h => h.handlerFrame) hrow hfaults
      rw [hok] at hside
      have hvidle : SequencerIdle v := UsbSide.idle hside hidle
      have hserve : epService s .ep0 .service = .ok (setStatRx v .ep0 .valid) := by
        rw [epService_setup hwait hsetup, hok]
        exact afterHook_of_not_ctrTx hvidle (handleSetup_ctrTx htx hok)
      exact ⟨_, by rw [exec_epService hwait.idle (e := .ep0) rfl, hserve]; rfl, rfl, fun hcb =>
        transferCompleteServed_of_service hwait.idle rfl hcb hserve hvidle⟩

end Sys2Proof.Machine
end

section
/-! PROOFS. The device becomes configured by a SET_CONFIGURATION request alone (44_usb_control_requests.md R247, R251): every other
routine keeps the `configured` flag or clears it, and only the endpoint service of a SETUP packet on endpoint 0 reaches the
request from a packet, which stays in `rx_buf` (`SessionKept`). -/

namespace Sys2Proof.Machine

/-! ### Who keeps the session -/

/-- The device is not made configured but where `asked`, and `rx_buf` of endpoint 0 is kept. -/
structure SessionKept (asked : Prop) (s t : State) : Prop where
  configured : t.drv.configured = true → s.drv.configured = true ∨ asked
  rxBuf : t.drv.ets0.rxBuf = s.drv.ets0.rxBuf

/-- A SET_CONFIGURATION request: row 6 of 30_encoding.md R106. -/
abbrev IsSetConfiguration (p : Packet8) : Prop := p.b0 &&& 0x60 = 0x00 ∧ p.b1 = 0x09

/-- Both ends of a routine. -/
abbrev KeepsSession (asked : Prop) (s : State) (r : Res State) : Prop := r.post (SessionKept asked s) (SessionKept asked s)

section Session
variable {asked : Prop} {s t u : State} {r : Res State}

theorem SessionKept.ofDrv (h : t.drv = s.drv) : SessionKept asked s t := ⟨fun k => .inl (h ▸ k), by rw [h]⟩

theorem SessionKept.refl (s : State) : SessionKept asked s s := .ofDrv rfl

theorem SessionKept.trans (h : SessionKept asked s t) (k : SessionKept asked t u) : SessionKept asked s u :=
  ⟨fun hu => (k.configured hu).elim h.configured .inr, k.rxBuf.trans h.rxBuf⟩

/-- A routine that ends normally. -/
theorem keepsSession_ok (h : SessionKept asked s t) : KeepsSession asked s (.ok t) := h

/-- A routine after a change. -/
theorem keepsSession_after (h : SessionKept asked s t) (hr : KeepsSession asked t r) : KeepsSession asked s r :=
  Res.post_mono hr (fun _ k => h.trans k) fun _ k => h.trans k

/-- A change in a state with the same driver's registers. -/
theorem SessionKept.of_sameDrv (h : SessionKept asked t u) (hdrv : t.drv = s.drv) : SessionKept asked s u :=
  (SessionKept.ofDrv hdrv).trans h

/-- A routine in a state with the same driver's registers. -/
theorem keepsSession_of_sameDrv (h : KeepsSession asked t r) (hdrv : t.drv = s.drv) : KeepsSession asked s r :=
  keepsSession_after (.ofDrv hdrv) h

/-- A routine in two parts. -/
theorem keepsSession_bind {f : State → Res State} (hr : KeepsSession asked s r) (hf : ∀ u, KeepsSession asked u (f u)) :
    KeepsSession asked s (r >>= f) :=
  Res.post_bind hr fun u hu => keepsSession_after hu (hf u)

/-- A routine that begins with a read: a read raises in the state itself. -/
theorem keepsSession_read {α : Type} {P : α → Prop} {x : Res α} {f : α → Res State} (hx : x.post P (· = s))
    (hf : ∀ a, KeepsSession asked s (f a)) : KeepsSession asked s (x >>= f) :=
  Res.post_bind (Res.post_mono hx (fun _ h => h) fun _ h => .ofDrv (by rw [h])) fun a _ => hf a

/-- A routine of the flash controller's registers. -/
theorem keepsSession_of_fctlSide (h : r.post (FctlSide s) (FctlSide s)) : KeepsSession asked s r :=
  Res.post_mono h (fun _ k => .ofDrv (by rw [k.frame])) fun _ k => .ofDrv (by rw [k.frame])

/-! ### The transmit side -/

/-- What changes packet memory only, or raises in the state itself. -/
theorem keepsSession_of_pma {Q : Memory → Prop} (h : r.post (fun t => ∃ m, t = s.withPma m ∧ Q m) (· = s)) :
    KeepsSession asked s r :=
  Res.post_mono h (fun _ ⟨_, ht, _⟩ => .ofDrv (by rw [ht]; rfl)) fun _ ht => .ofDrv (by rw [ht])

/-- Another queue of an Endpoint Transfer State. -/
theorem SessionKept.ofQueue (e : Ep) (queue : List Byte) (remaining : Half) :
    SessionKept asked s (s.setEts e { s.drv.ets e with txQueue := queue, txRemaining := remaining }) := by
  cases e <;> exact ⟨.inl, rfl⟩

theorem txChunk_session (s : State) (e : Ep) : KeepsSession asked s (txChunk s e) := by
  unfold txChunk
  refine Res.post_bind (Res.post_mono (bufferWrite_post s e _ _) (fun _ h => h) fun _ h => .ofDrv (by rw [h])) ?_
  rintro _ ⟨m, rfl, _⟩
  refine Res.post_bind (Res.post_mono (bdtWrite_post _ e _ _) (fun _ h => h) fun _ h => .ofDrv (by rw [h]; rfl)) ?_
  rintro _ ⟨m', rfl, _⟩
  exact (SessionKept.ofQueue e _ _).trans (.ofDrv rfl)

theorem sendData_session (s : State) (k : Nat) (data : List Byte) (length : Half) :
    KeepsSession asked s (sendData s k data length) := by
  unfold sendData
  split
  · exact .refl s
  · split
    · exact .refl s
    · exact keepsSession_after (SessionKept.ofQueue _ _ _) (txChunk_session _ _)

/-- SET_ADDRESS only records the address (44_usb_control_requests.md R246). -/
theorem requestAddress_session (s : State) (wValue : Half) : KeepsSession asked s (requestAddress s wValue) := by
  have hrecorded : SessionKept asked s (s.withDrv { s.drv with pendingAddr := field wValue 0 7 }) := ⟨.inl, rfl⟩
  unfold requestAddress
  exact keepsSession_after hrecorded (sendData_session _ 0 [] 0)

/-- SET_CONFIGURATION configures where asked for (44_usb_control_requests.md R247). -/
theorem requestConfiguration_session (hasked : asked) : KeepsSession asked s (requestConfiguration s) := by
  have hconfigured : SessionKept asked s (s.withDrv { s.drv with configured := true }) := ⟨fun _ => .inr hasked, rfl⟩
  unfold requestConfiguration
  exact keepsSession_after hconfigured (sendData_session _ 0 [] 0)

/-- The control requests: SET_CONFIGURATION alone configures (44_usb_control_requests.md R241 to R248). -/
theorem handleSetup_session {p : Packet8} (hasked : IsSetConfiguration p → asked) :
    KeepsSession asked s (handleSetup s p) := by
  unfold handleSetup
  dsimp only
  split_ifs
  · exact sendData_session s _ _ _
  · exact sendData_session s _ _ _
  · exact sendData_session s _ _ _
  · exact sendData_session s _ _ _
  · exact sendData_session s _ _ _
  · exact requestAddress_session s _
  · next hrequest => exact requestConfiguration_session (hasked hrequest)
  · exact sendData_session s _ _ _

theorem applyPendingAddress_session (s : State) : SessionKept asked s (applyPendingAddress s) := by
  unfold applyPendingAddress
  split
  · exact .refl s
  · exact ⟨.inl, rfl⟩

theorem handedBack_session (s : State) (e : Ep) : SessionKept asked s (handedBack s e) := by
  have hclear : SessionKept asked s (clearCtrTx s e) := .ofDrv rfl
  unfold handedBack
  split
  · exact hclear.trans (applyPendingAddress_session _)
  · exact hclear

theorem transmitHalf_session (s : State) (e : Ep) : KeepsSession asked s (transmitHalf s e) := by
  cases htx : (s.usb.ep e).ctrTx with
  | false => rw [transmitHalf_of_not_ctrTx htx]; exact .refl s
  | true =>
    rw [transmitHalf_of_ctrTx htx]
    refine keepsSession_after (handedBack_session s e) ?_
    split
    · exact txChunk_session _ e
    · exact .refl _

theorem afterReceive_session (s : State) (e : Ep) : KeepsSession asked s (afterReceive s e) :=
  keepsSession_of_sameDrv (transmitHalf_session (setStatRx s e .valid) e) rfl

/-! ### Unit H -/

theorem appendPacket_session (s : State) (rx : Packet8) : KeepsSession asked s (appendPacket s rx) :=
  Res.post_mono (appendPacket_post s rx) (fun _ h => .ofDrv (by rw [h.1]; rfl)) fun _ h => .ofDrv (by rw [h])

theorem runCommand_session (s : State) (opcode : Byte) : SessionKept asked s (runCommand s opcode) := by
  unfold runCommand
  split_ifs <;> exact .ofDrv rfl

theorem startWritePage_session (s : State) (a : Word) (data : PageSource) (size : Half) (c : Caller) :
    KeepsSession asked s (startWritePage s a data size c) := by
  unfold startWritePage
  split
  · trivial
  · exact SessionKept.ofDrv rfl

theorem commitPage_session (s : State) (c : Caller) : KeepsSession asked s (commitPage s c) := by
  unfold commitPage
  split
  · exact SessionKept.refl s
  · exact startWritePage_session s _ _ _ c

theorem hidData_session (s : State) (rx : Packet8) (c : Caller) : KeepsSession asked s (hidData s rx c) := by
  refine keepsSession_bind (appendPacket_session s rx) fun u => ?_
  split_ifs
  · exact runCommand_session u _
  · exact commitPage_session u c
  · exact .refl u

/-- The driver's registers after EP.CONFIGURE (42_usb_endpoint_buffer_manager.md R181). -/
theorem epConfigure_drv (s : State) :
    (epConfigure s).drv = { s.drv with ets0 := configuredEts s.drv.ets0, ets1 := configuredEts s.drv.ets1 } := by
  simp only [epConfigure, State.withDrv_drv, State.withPma_drv, State.withUsb_drv]

theorem epConfigure_session (s : State) : SessionKept asked s (epConfigure s) := by
  constructor <;> rw [epConfigure_drv]
  · exact .inl
  · rfl

/-- The driver's registers after a bus reset (45_hid_reassembly_commands.md R270). -/
theorem hidBusReset_drv (s : State) : (hidBusReset s).drv =
    { (epConfigure s).drv with pendingAddr := 0, configured := false, devStatus := 0 } := by
  simp only [hidBusReset, State.withDrv_drv, State.withHid_drv, State.withUsb_drv]

/-- A bus reset clears the flag (45_hid_reassembly_commands.md R270). -/
theorem hidBusReset_session (s : State) : SessionKept asked s (hidBusReset s) := by
  constructor <;> rw [hidBusReset_drv]
  · nofun
  · exact (epConfigure_session (asked := asked) s).rxBuf

/-! ### The sources after transfer-complete, and the sequencer -/

theorem serveReset_session (s : State) : SessionKept asked s (serveReset s) := by
  unfold serveReset
  dsimp only
  split
  · exact (hidBusReset_session (s.withUsb (writeIstr s.usb 0xFBFF))).of_sameDrv rfl
  · exact .ofDrv rfl

theorem laterThanSusp_session (w : Half) (s : State) : SessionKept asked s (laterThanSusp w s) := by
  unfold laterThanSusp
  split <;> exact .ofDrv rfl

theorem laterThanReset_session (w : Half) (s : State) : SessionKept asked s (laterThanReset w s) := by
  unfold laterThanReset
  split
  · exact (laterThanSusp_session w (serveSusp s)).of_sameDrv rfl
  · exact laterThanSusp_session w s

theorem laterThanCtr_session (w : Half) (s : State) : SessionKept asked s (laterThanCtr w s) := by
  unfold laterThanCtr
  split
  · exact (serveReset_session s).trans (laterThanReset_session w _)
  · exact laterThanReset_session w s

/-- The rest of a commit (46_flash_page_programmer.md R292). -/
theorem finishCommit_session (s : State) : KeepsSession asked s (finishCommit s) :=
  keepsSession_of_sameDrv (t := s.withHid { s.hid with pageIndex := s.hid.pageIndex + 1, pageOffset := 0 })
    (keepsSession_bind (sendData_session _ _ _ _) fun u => afterReceive_session u .ep0) rfl

/-- What F_LOCK goes on with (46_flash_page_programmer.md R292). -/
theorem continueCaller_session (s : State) : KeepsSession asked s (continueCaller s) := by
  unfold continueCaller
  split
  · exact SessionKept.refl s
  · exact finishCommit_session s
  · exact keepsSession_bind (finishCommit_session s) fun u => laterThanCtr_session _ u
  · exact keepsSession_bind (finishCommit_session s) fun u => SessionKept.ofDrv rfl

/-- One step of the sequencer (46_flash_page_programmer.md R291). -/
theorem fseqStep_session (s : State) : KeepsSession asked s (fseqStep s) := by
  have hcr : ∀ u v, KeepsSession asked u (writeCr u v) := fun u v => keepsSession_of_fctlSide (writeCr_post u v)
  have hmove : ∀ u x, KeepsSession asked u (.ok (setFseqState u x)) := fun u x => SessionKept.ofDrv rfl
  cases hstate : s.fseq.state
  all_goals
    unfold fseqStep
    rw [hstate]
    dsimp only
  case idle => exact SessionKept.refl s
  case unlock => exact SessionKept.ofDrv rfl
  case waitIdle =>
    split
    · exact SessionKept.refl s
    · exact hmove s _
  case erase => exact keepsSession_bind (keepsSession_of_fctlSide (startErase_post s _)) fun u => hmove u _
  case waitErase =>
    split
    · exact SessionKept.refl s
    · exact keepsSession_bind (hcr s _) fun u => hmove u _
  case prog =>
    refine keepsSession_bind (hcr s _) fun u => ?_
    refine keepsSession_read (sourceByte_post u _) fun b0 => keepsSession_read (sourceByte_post u _) fun b1 => ?_
    exact keepsSession_bind (keepsSession_of_fctlSide (writeFlash_post u _ _ _)) fun v => hmove v _
  case waitProg =>
    split
    · exact SessionKept.refl s
    · split
      · exact SessionKept.ofDrv rfl
      · exact keepsSession_of_sameDrv (keepsSession_bind (hcr (s.withFseq _) _) fun u => hmove u _) rfl
  case lock =>
    exact keepsSession_bind (hcr s _) fun u =>
      keepsSession_of_sameDrv (continueCaller_session (setFseqState u .idle)) rfl

/-! ### Register and table accesses, and the bus -/

theorem regRead_session (s : State) (win : Window) (width : Width) (offset : Half) :
    KeepsSession asked s (regRead s win width offset) := by
  unfold regRead
  split
  · cases win <;> exact SessionKept.ofDrv rfl
  · trivial

theorem regWrite_session (s : State) (win : Window) (width : Width) (offset : Half) (v : Word) :
    KeepsSession asked s (regWrite s win width offset v) := by
  unfold regWrite
  split
  · cases win with
    | usbReg => exact SessionKept.ofDrv rfl
    | flashReg => exact keepsSession_of_fctlSide (flashRegWrite_fctlSide s _ v)
  · trivial

theorem accessUsb_session (s : State) (offset : Half) (acc : Access 16) : KeepsSession asked s (accessUsb s offset acc) := by
  cases acc with
  | read => exact regRead_session s _ _ _
  | write v => exact regWrite_session s _ _ _ _

theorem accessFlashReg_session (s : State) (offset : Half) (acc : Access 32) :
    KeepsSession asked s (accessFlashReg s offset acc) := by
  cases acc with
  | read => exact regRead_session s _ _ _
  | write v => exact regWrite_session s _ _ _ _

theorem accessBdt_session (s : State) (n : Ep) (within : Nat) (acc : Access 16) :
    KeepsSession asked s (accessBdt s n within acc) := by
  cases acc with
  | read => exact keepsSession_read (bdtRead_post s n within) fun v => SessionKept.ofDrv rfl
  | write v => exact keepsSession_of_pma (bdtWrite_post s n within v)

theorem notAccepted_session (s : State) (l : Label) : KeepsSession asked s (notAccepted s l) := SessionKept.ofDrv rfl

theorem receivePacket_session (s : State) (n : Ep) (d : List Byte) (setup : Bool) :
    KeepsSession asked s (receivePacket s n d setup) := by
  refine keepsSession_bind (keepsSession_of_pma (bufferWrite_post s n _ d)) fun u => ?_
  refine keepsSession_read (bdtRead_post u n _) fun count => ?_
  exact keepsSession_bind (keepsSession_of_pma (bdtWrite_post u n _ _)) fun v => SessionKept.ofDrv rfl

/-- An offered packet (43_usb_packet_dispatcher.md R214, R215, R217). -/
theorem offerPacket_session (s : State) (a e : Byte) (d : List Byte) (setup : Bool) :
    KeepsSession asked s (offerPacket s a e d setup) := by
  by_cases haccepts : ∃ n, Accepts s a e setup n
  · obtain ⟨n, hn⟩ := haccepts
    rw [hn.offerPacket_eq]
    refine keepsSession_read (bdtRead_post s n _) fun count => ?_
    split
    · exact receivePacket_session s n d setup
    · exact notAccepted_session s _
  · obtain ⟨l, hl⟩ := offerPacket_not_accepts (not_exists.1 haccepts) d
    rw [hl]
    exact notAccepted_session s l

/-- A request for a packet (43_usb_packet_dispatcher.md R216, R217). -/
theorem requestPacket_session (s : State) (a e : Byte) : KeepsSession asked s (requestPacket s a e) := by
  by_cases hhands : ∃ n, Hands s a e n
  · obtain ⟨n, hn⟩ := hhands
    rw [hn.requestPacket_eq]
    refine keepsSession_read (bdtRead_post s n _) fun count => ?_
    exact keepsSession_read (bufferRead_post s n _ _) fun bytes => SessionKept.ofDrv rfl
  · obtain ⟨l, hl⟩ := requestPacket_not_hands (not_exists.1 hhands)
    rw [hl]
    exact notAccepted_session s l

end Session

end Sys2Proof.Machine
end

section
/-! PROOFS. Which operation makes the device configured (44_usb_control_requests.md R247, R251): the request given directly, or the
service of a SETUP packet waiting on endpoint 0 that is the request (`RequestServed`); every other operation keeps the session. -/

namespace Sys2Proof.Machine

open Host (Outcome)

/-! ### The service -/

section Service
variable {s t u : State} {e : Ep} {n : Nat}

/-- Serving endpoint number `n` configures the device only for the packet that waits on endpoint 0, is a SETUP and, in `rx_buf`
afterwards, a SET_CONFIGURATION request (30_encoding.md R106, row 6). -/
def RequestServed (n : Nat) (s t : State) : Prop :=
  t.drv.configured = true → s.drv.configured = true ∨
    (n = 0 ∧ s.usb.ep0.ctrRx = true ∧ s.usb.ep0.setup = true ∧ IsSetConfiguration t.drv.ets0.rxBuf)

/-- Both ends of a routine. -/
abbrev ServesRequest (n : Nat) (s : State) (r : Res State) : Prop := r.post (RequestServed n s) (RequestServed n s)

theorem SessionKept.requestServed (h : SessionKept False s t) : RequestServed n s t := fun k =>
  (h.configured k).imp_right False.elim

theorem servesRequest_of_session {r : Res State} (h : KeepsSession False s r) : ServesRequest n s r :=
  Res.post_mono h (fun _ k => k.requestServed) fun _ k => k.requestServed

/-- What keeps the session after the service keeps the packet it has served. -/
theorem RequestServed.then (h : RequestServed n s t) (k : SessionKept False t u) : RequestServed n s u := fun hu => by
  rw [k.rxBuf]
  exact h ((k.configured hu).resolve_right id)

/-- A packet taken is in `rx_buf`; where none can be, the fault is raised in the state itself
(42_usb_endpoint_buffer_manager.md R190). -/
theorem takePacket_taken (s : State) (e : Ep) :
    (takePacket s e).post (fun t => ∃ bytes, t = packetTaken s e bytes) (· = s) := by
  refine Res.post_bind (bdtRead_post s e offCountRx) fun count _ => ?_
  refine Res.post_bind (bufferRead_post s e offAddrRx (byteCount count)) fun bytes hlength => ?_
  split
  · rfl
  · exact ⟨bytes, by rw [← hlength]; rfl⟩

/-- The packet in `rx_buf` is a SETUP packet of endpoint 0 that asks for the configuration. -/
abbrev AskedByPacket (e : Ep) (s : State) : Prop :=
  e = .ep0 ∧ (s.usb.ep e).setup = true ∧ IsSetConfiguration (s.drv.ets e).rxBuf

/-- The hook of a packet configures where the packet asks for it. -/
theorem receiveHook_session (e : Ep) (c : Caller) (s : State) :
    KeepsSession (AskedByPacket e s) s (receiveHook e c s) := by
  unfold receiveHook
  split_ifs with hsetup
  · obtain ⟨he, hsetup⟩ := hsetup
    exact handleSetup_session fun hrequest => ⟨he, hsetup, hrequest⟩
  · exact hidData_session s _ c
  · exact SessionKept.refl s

theorem afterHook_session {asked : Prop} (e : Ep) (s : State) : KeepsSession asked s (afterHook e s) := by
  unfold afterHook
  split
  · exact afterReceive_session s e
  · exact SessionKept.refl s

/-- The hook and the end of the receive half, run on a packet taken: what configures is the packet. -/
theorem requestServed_of_taken {bytes : List Byte} (hrx : (s.usb.ep e).ctrRx = true)
    (h : SessionKept (AskedByPacket e (packetTaken s e bytes)) (packetTaken s e bytes) t) :
    RequestServed (epNumber e) s t := by
  intro hconfigured
  refine (h.configured hconfigured).imp (fun hwas => ?_) fun ⟨he, hsetup, hrequest⟩ => ?_
  · cases e <;> exact hwas
  · subst he
    exact ⟨rfl, hrx, hsetup, by rw [h.rxBuf]; exact hrequest⟩

/-- The endpoint service (42_usb_endpoint_buffer_manager.md R190). -/
theorem epService_request (hseq : SequencerIdle s) (e : Ep) (c : Caller) :
    ServesRequest (epNumber e) s (epService s e c) := by
  cases hrx : (s.usb.ep e).ctrRx with
  | false =>
    rw [epService_of_not_received hrx]
    exact servesRequest_of_session (transmitHalf_session s e)
  | true =>
    rw [epService_of_received hseq hrx]
    refine Res.post_bind (Res.post_mono (takePacket_taken s e) (fun _ h => h) fun _ h =>
      h ▸ (SessionKept.refl _).requestServed) ?_
    rintro _ ⟨bytes, rfl⟩
    exact Res.post_mono (keepsSession_bind (receiveHook_session e c _) fun v => afterHook_session e v)
      (fun _ h => requestServed_of_taken hrx h) fun _ h => requestServed_of_taken hrx h

/-- A number that names an endpoint is its number. -/
theorem epNumber_of_epOfNat (h : epOfNat n = some e) : epNumber e = n := by
  unfold epOfNat at h
  split at h <;> cases h <;> rfl

theorem serveEndpoint_request (hseq : SequencerIdle s) (k : BitVec 4) (c : Caller) :
    ServesRequest k.toNat s (serveEndpoint s k c) := by
  unfold serveEndpoint
  split
  · next e he => exact epNumber_of_epOfNat he ▸ epService_request hseq e c
  · exact (SessionKept.refl s).requestServed

/-- Transfer-complete (43_usb_packet_dispatcher.md R222). -/
theorem serveCtr_request (hseq : SequencerIdle s) (k : BitVec 4) (c : Caller) :
    ServesRequest k.toNat s (serveCtr s k c) := by
  unfold serveCtr
  split
  · exact serveEndpoint_request hseq k c
  · split
    · exact (SessionKept.ofDrv (clearFlags_eq s _ ▸ rfl)).requestServed
    · exact (SessionKept.refl s).requestServed

/-- EVT.CTR (43_usb_packet_dispatcher.md R222, 30_encoding.md R118). -/
theorem serveEvent_request (hseq : SequencerIdle s) (w : Half) :
    ServesRequest (field w 0 4).toNat s (serveEvent s w) := by
  refine Res.post_bind (serveCtr_request hseq _ _) fun u hu => ?_
  split
  · exact hu.then (laterThanCtr_session w u)
  · exact hu

/-- DO_CTR (43_usb_packet_dispatcher.md R222). -/
theorem handleCtr_request (hseq : SequencerIdle s) :
    ServesRequest (field s.disp.snap 0 4).toNat s (handleCtr s) := by
  refine Res.post_bind (P' := RequestServed (field s.disp.snap 0 4).toNat s) ?_ fun u hu => ?_
  · split
    · exact serveCtr_request hseq _ _
    · exact (SessionKept.refl s).requestServed
  · split
    · exact hu.then (.ofDrv rfl)
    · exact hu

end Service

/-! ### Every operation -/

section EveryOperation
variable {i : Instr} {s t : State} {r : Res State}

/-- What is said of an operation: it makes the device configured as the request given directly, or as the service of the request
waiting on endpoint 0. -/
def ConfiguresByRequest (i : Instr) (s t : State) : Prop :=
  t.drv.configured = true → s.drv.configured = true ∨
    (∃ rt wv wi wl, i = .setupSetConfiguration rt wv wi wl) ∨
    ((i = .epService 0 ∨ i = .dispCtr ∨ ∃ w, i = .evtCtr w) ∧ s.usb.ep0.ctrRx = true ∧ s.usb.ep0.setup = true ∧
      IsSetConfiguration t.drv.ets0.rxBuf)

/-- Both ends of a routine. -/
abbrev Configures (i : Instr) (s : State) (r : Res State) : Prop :=
  r.post (ConfiguresByRequest i s) (ConfiguresByRequest i s)

theorem SessionKept.byRequest (h : SessionKept False s t) : ConfiguresByRequest i s t := fun k =>
  (h.configured k).imp_right False.elim

/-- A routine that keeps the session. -/
theorem configures_of_session (h : KeepsSession False s r) : Configures i s r :=
  Res.post_mono h (fun _ k => k.byRequest) fun _ k => k.byRequest

/-- A routine that ends normally. -/
theorem configures_ok (h : ConfiguresByRequest i s t) : Configures i s (.ok t) := h

/-- A routine that serves endpoint number `n`, by an operation that serves endpoint 0 if `n` is 0. -/
theorem configures_of_service {n : Nat} (hop : n = 0 → i = .epService 0 ∨ i = .dispCtr ∨ ∃ w, i = .evtCtr w)
    (h : ServesRequest n s r) : Configures i s r := by
  have hend : ∀ t, RequestServed n s t → ConfiguresByRequest i s t := fun t ht k =>
    (ht k).imp_right fun ⟨hn, hrequest⟩ => .inr ⟨hop hn, hrequest⟩
  exact Res.post_mono h hend hend

/-- The outcome of a routine. -/
theorem byRequest_finish (h : Configures i s r) (hnext : finish r = .next t) : ConfiguresByRequest i s t :=
  finish_post h (fun _ _ k => k) hnext

/-- A routine of the interrupt context, held or run (46_flash_page_programmer.md R292). -/
theorem byRequest_unitStep (h : SequencerIdle s → Configures i s r) (hnext : unitStep s r = .next t) :
    ConfiguresByRequest i s t := by
  obtain ⟨_, rfl⟩ | ⟨hidle, hnext⟩ := unitStep_cases hnext
  · exact (SessionKept.refl _).byRequest
  · exact byRequest_finish (h hidle) hnext

/-- A routine of the interrupt context that keeps the session, held or run. -/
theorem byRequest_unitSession (h : KeepsSession False s r) (hnext : unitStep s r = .next t) : ConfiguresByRequest i s t :=
  byRequest_unitStep (fun _ => configures_of_session h) hnext

/-- A step of MAIN that does not configure, held or run (00_scope.md R9). -/
theorem byRequest_mainStep (h : Configures i s r) (hnext : mainStep s r = .next t) : ConfiguresByRequest i s t := by
  obtain ⟨_, rfl⟩ | ⟨_, hnext⟩ := mainStep_cases hnext
  · exact (SessionKept.refl _).byRequest
  · exact byRequest_finish h hnext

/-- A dispatcher step, held or run (43_usb_packet_dispatcher.md R220 to R222). -/
theorem byRequest_dispStep {x : DispState} (h : SequencerIdle s → Configures i s r) (hnext : dispStep s x r = .next t) :
    ConfiguresByRequest i s t := by
  obtain rfl | ⟨⟨_, hidle⟩, hnext⟩ := dispStep_cases hnext
  · exact (SessionKept.refl _).byRequest
  · exact byRequest_finish (h hidle) hnext

/-- A dispatcher step that serves a source, if its flag is up, and moves on. -/
theorem byRequest_turn {serve : State → State} {flag : Bool} {x y : DispState} (hserve : SessionKept False s (serve s))
    (hnext : dispStep s x (.ok (setDispState (if flag then serve s else s) y)) = .next t) : ConfiguresByRequest i s t := by
  have hturn : SessionKept False s (setDispState (if flag then serve s else s) y) := by
    cases flag with
    | false => exact .ofDrv rfl
    | true => exact hserve.trans (.ofDrv rfl)
  exact byRequest_dispStep (fun _ => configures_of_session (keepsSession_ok hturn)) hnext

theorem readStatus_session (s : State) : SessionKept False s (readStatus s) := by
  unfold readStatus
  dsimp only
  split <;> exact .ofDrv rfl

/-- A routine that runs in some states only. -/
theorem configures_ite {c : Prop} [Decidable c] (h : KeepsSession False s r) :
    Configures i s (if c then r else .ok s) := by
  split
  · exact configures_of_session h
  · exact (SessionKept.refl s).byRequest

/-- A move of the host behind the test of its operands (43_usb_packet_dispatcher.md R210). -/
theorem configures_unlessRefused {c : Prop} [Decidable c] {x : Refusal} (h : KeepsSession False s r) :
    Configures i s (if c then refuse x else r) := by
  split
  · trivial
  · exact configures_of_session h

/-- An event on the bus, seen while attached (43_usb_packet_dispatcher.md R211 to R213). -/
theorem byRequest_busEvent {u : Usb}
    (h : Outcome.next (if s.usb.attached then s.withUsb u else s) = (.next t : Outcome State Fault Refusal)) :
    ConfiguresByRequest i s t := by
  cases h
  split
  · exact (SessionKept.ofDrv (s.withUsb_drv u)).byRequest
  · exact (SessionKept.refl s).byRequest

/-! ### MAIN -/

/-- The driver does not configure, brought up or shut down (41_usb_register_interface.md R160, R161). -/
theorem bringUp_byRequest (s : State) : ConfiguresByRequest i s (bringUp s) := .inl

theorem shutDown_byRequest (s : State) : ConfiguresByRequest i s (shutDown s) := nofun

theorem hardwareReset_byRequest (s : State) (magic : Half) : ConfiguresByRequest i s (hardwareReset s magic) := nofun

theorem evaluate_session (s : State) : KeepsSession False s (evaluate s) :=
  keepsSession_of_sameDrv (keepsSession_read (flashRead32_post (s.withBoot { s.boot with magic := 0 }) _)
    fun _ => SessionKept.ofDrv rfl) rfl

theorem launch_session (s : State) : KeepsSession False s (launch s) :=
  keepsSession_read (flashRead32_post s _) fun _ => keepsSession_read (flashRead32_post s _) fun _ => SessionKept.ofDrv rfl

/-- A MAIN step of UpdateMode (40_boot_controller_interface.md R135). -/
theorem updateModeStep_byRequest (s : State) : ConfiguresByRequest i s (updateModeStep s) := by
  unfold updateModeStep
  split
  · exact shutDown_byRequest s
  · exact bringUp_byRequest s
  · exact (SessionKept.ofDrv rfl).byRequest
  · unfold blinkIdle
    dsimp only
    split <;> exact (SessionKept.ofDrv rfl).byRequest
  · exact shutDown_byRequest s
  · exact hardwareReset_byRequest s _

theorem completeFlash_session (s : State) : SessionKept False s (completeFlash s) := .ofDrv (by rw [completeFlash_frame])

/-- BOOT.UPDATEMODE, enabled or not. -/
theorem updateMode_configures (s : State) :
    Configures i s (.ok (if s.boot.state = .updateMode then updateModeStep s else s)) := by
  split
  · exact updateModeStep_byRequest s
  · exact (SessionKept.refl s).byRequest

/-- DISP.ENTER (43_usb_packet_dispatcher.md R220). -/
theorem execDispEnter_byRequest (h : execDispEnter s = .next t) : ConfiguresByRequest i s t := by
  obtain rfl | ⟨_, rfl⟩ := execDispEnter_cases h <;> exact (SessionKept.ofDrv rfl).byRequest

/-- EVT.NONE, enabled or not (log 19). -/
theorem emptyRead_session (s : State) :
    KeepsSession False s (.ok (if s.usb.snapshot &&& 0x9C00 = 0 then readStatus s else s)) := by
  split
  · exact readStatus_session s
  · exact SessionKept.refl s

/-- DISP.CTR: the handler in DO_CTR, or the sequencer's step (43_usb_packet_dispatcher.md R222,
46_flash_page_programmer.md R291). -/
theorem execDispCtr_byRequest (h : execDispCtr s = .next t) : ConfiguresByRequest .dispCtr s t := by
  unfold execDispCtr at h
  split at h
  · exact byRequest_dispStep (fun hidle => configures_of_service (fun _ => .inr (.inl rfl)) (handleCtr_request hidle)) h
  · exact byRequest_finish (configures_of_session (fseqStep_session s)) h

/-- Every operation: those that reach the requests serve them, the others keep the session. -/
theorem exec_byRequest (i : Instr) (h : exec i s = .next t) : ConfiguresByRequest i s t := by
  cases i
  case setupSetConfiguration rt wv wi wl => exact fun _ => .inr (.inl ⟨rt, wv, wi, wl, rfl⟩)
  case epService k =>
    refine byRequest_unitStep (fun hidle => configures_of_service (fun hk => .inl ?_) (serveEndpoint_request hidle k _)) h
    rw [show k = 0 from BitVec.eq_of_toNat_eq hk]
  case evtCtr w =>
    exact byRequest_unitStep
      (fun hidle => configures_of_service (fun _ => .inr (.inr ⟨w, rfl⟩)) (serveEvent_request hidle w)) h
  case dispCtr => exact execDispCtr_byRequest h
  case cmdResetPages => exact byRequest_unitSession (keepsSession_ok (t := resetPages s) (.ofDrv rfl)) h
  case cmdReboot => exact byRequest_unitSession (keepsSession_ok (t := requestReboot s) (.ofDrv rfl)) h
  case cmdIgnored => exact byRequest_unitSession (keepsSession_ok (.refl s)) h
  case ackPage => exact byRequest_unitSession (sendData_session s _ _ _) h
  case dataAppend | hidAppend => exact byRequest_unitSession (appendPacket_session s _) h
  case setupGetDescriptorDevice | setupGetDescriptorConfiguration | setupGetDescriptorReport | setupGetDescriptorString |
      setupOther =>
    exact byRequest_unitSession (sendData_session s _ _ _) h
  case setupSetAddress => exact byRequest_unitSession (requestAddress_session s _) h
  case evtReset w =>
    exact byRequest_unitSession (keepsSession_ok ((serveReset_session s).trans (laterThanReset_session w _))) h
  case evtSusp w => exact byRequest_unitSession (keepsSession_ok ((laterThanSusp_session w (serveSusp s)).of_sameDrv rfl)) h
  case evtWkup => exact byRequest_unitSession (keepsSession_ok (t := serveWkup s) (.ofDrv rfl)) h
  case evtNone => exact byRequest_dispStep (fun _ => configures_of_session (emptyRead_session s)) h
  case regEp0r | regEp1r | regCntr | regIstr | regDaddr | regBtable =>
    exact byRequest_finish (configures_of_session (accessUsb_session s _ _)) h
  case regFlashKeyr | regFlashSr | regFlashCr | regFlashAr =>
    exact byRequest_finish (configures_of_session (accessFlashReg_session s _ _)) h
  case bdtAddrTx | bdtCountTx | bdtAddrRx | bdtCountRx => exact byRequest_unitSession (accessBdt_session s _ _ _) h
  case fopUnlock => exact byRequest_unitSession (keepsSession_ok (t := unlockFlash s) (.ofDrv rfl)) h
  case fopErasePage => exact byRequest_unitSession (keepsSession_of_fctlSide (startErase_post s _)) h
  case fopProgHalfword => exact byRequest_unitSession (keepsSession_of_fctlSide (writeFlash_post s _ _ _)) h
  case fopLock => exact byRequest_unitSession (keepsSession_of_fctlSide (writeCr_post s _)) h
  case hostReset | hostSuspend | hostWakeup => exact byRequest_busEvent h
  case hostSetup | hostOut => exact byRequest_finish (configures_unlessRefused (offerPacket_session s _ _ _ _)) h
  case hostIn => exact byRequest_finish (configures_unlessRefused (requestPacket_session s _ _)) h
  case hwReset | hwPowerloss => cases h; exact hardwareReset_byRequest s _
  case drvInitialize => exact byRequest_mainStep (configures_ok (bringUp_byRequest s)) h
  case drvShutdown => exact byRequest_mainStep (configures_ok (shutDown_byRequest s)) h
  case drvSenddata =>
    refine byRequest_unitStep (fun _ => ?_) h
    split
    · exact configures_of_session (sendData_session s _ _ _)
    · trivial
  case flashWritepage => exact byRequest_unitSession (startWritePage_session s _ _ _ _) h
  case flashcComplete => cases h; exact (completeFlash_session s).byRequest
  case regRead => exact byRequest_finish (configures_of_session (regRead_session s _ _ _)) h
  case regWrite => exact byRequest_finish (configures_of_session (regWrite_session s _ _ _ _)) h
  case dispEnter => exact execDispEnter_byRequest h
  case dispRead => exact byRequest_dispStep (fun _ => configures_of_session (keepsSession_ok (readStatus_session s))) h
  case dispReset => exact byRequest_turn (serveReset_session s) h
  case dispSusp => exact byRequest_turn (serve := serveSusp) (.ofDrv rfl) h
  case dispWkup => exact byRequest_turn (serve := serveWkup) (.ofDrv rfl) h
  case epTxchunk e => exact byRequest_unitSession (txChunk_session s e) h
  case epConfigure => exact byRequest_unitSession (keepsSession_ok (epConfigure_session s)) h
  case hidBusreset => exact byRequest_unitSession (keepsSession_ok (hidBusReset_session s)) h
  case bootEvaluate => exact byRequest_mainStep (configures_ite (evaluate_session s)) h
  case bootUpdatemode => exact byRequest_mainStep (updateMode_configures s) h
  case bootLaunch => exact byRequest_mainStep (configures_ite (launch_session s)) h
  case bootSysreset => exact byRequest_mainStep (configures_ok (hardwareReset_byRequest s _)) h

/-- Settles O15: every operation configures by the request alone (`exec_byRequest`). -/
theorem configuredOnlyByRequest : Obligations.ConfiguredOnlyByRequest := by
  intro i s t h hwas hconfigured
  exact (exec_byRequest i h hconfigured).resolve_left (ne_true_of_eq_false hwas)

end EveryOperation

end Sys2Proof.Machine
end

section
/-! PROOFS. Unit H (45_hid_reassembly_commands.md R261 to R266): the three commands, the append, and what `HidData` makes of a packet
that completes a command frame or the page. -/

namespace Sys2Proof.Machine

variable {s t u : State} {e : Ep} {k : BitVec 4} {bytes : List Byte}

/-! ### The commands and the append -/

/-- Settles O50: each row is its effect, run by `unitStep_idle`. -/
theorem commandsTakeEffect : Obligations.CommandsTakeEffect := fun _ _ hseq =>
  ⟨unitStep_idle _ hseq, unitStep_idle _ hseq, unitStep_idle _ hseq⟩

/-- Settles O51: both rows are `appendPacket`, which ends by `appendPacket_ok`. -/
theorem packetIsAppended : Obligations.PacketIsAppended := by
  intro s rx hseq hbuf hfits
  have hrun : unitStep s (appendPacket s rx) = .next (s.withHid (appendedHid s.hid rx)) := by
    rw [unitStep_idle _ hseq, appendPacket_ok hfits]
    rfl
  exact ⟨_, hrun, hrun, rfl, appended_of_hid_eq hbuf rfl⟩

/-- A data packet taken and appended, with nothing made of it yet (45_hid_reassembly_commands.md R261). -/
def packetAppended (s : State) (bytes : List Byte) : State :=
  (packetTaken s .ep0 bytes).withHid (appendedHid s.hid (overlay s.drv.ets0.rxBuf bytes))

theorem packetAppended_appended (hbuf : PageBufOk s.hid.pageBuf) (bytes : List Byte) :
    Appended s (packetAppended s bytes) (overlay s.drv.ets0.rxBuf bytes) := appended_of_hid_eq hbuf rfl

/-- A data packet's hook is `HidData` of what is in `rx_buf` (42_usb_endpoint_buffer_manager.md R190). -/
theorem DataPacketWaiting.hook (h : DataPacketWaiting s bytes) (c : Caller) :
    receiveHook .ep0 c (packetTaken s .ep0 bytes) =
      hidData (packetTaken s .ep0 bytes) (overlay s.drv.ets0.rxBuf bytes) c :=
  receiveHook_data (s := packetTaken s .ep0 bytes) c h.plain (rxLen_ne_zero h.short h.nonempty)

/-! ### Recognition of a command frame -/

/-- A written byte of the page buffer (10_state.md R37). -/
theorem pageByte_of_read? {o : Nat} {v : Byte} (h : s.hid.pageBuf.read? o = some v) : pageByte s o = v := by
  rw [pageByte, h, Option.getD_some]

/-- A command frame: the signature in bytes 0 to 6, zeros in bytes 8 to 63 (45_hid_reassembly_commands.md R263). -/
theorem isCommand_iff : isCommand s = true ↔
    (∀ o, o < 7 → Config.sig[o]? = some (pageByte s o)) ∧ ∀ o, 8 ≤ o → o < 64 → pageByte s o = 0 := by
  rw [isCommand, Bool.and_eq_true, beq_iff_eq, List.all_eq_true]
  refine and_congr ⟨fun hsig o ho => ?_, fun hsig => ?_⟩ ⟨fun hzero o hlow hhigh => ?_, fun hzero o ho => ?_⟩
  · rw [← hsig, List.getElem?_map, List.getElem?_range ho, Option.map_some]
  · refine List.ext_getElem? fun o => ?_
    by_cases ho : o < 7
    · rw [hsig o ho, List.getElem?_map, List.getElem?_range ho, Option.map_some]
    · rw [List.getElem?_eq_none (by simpa using ho), List.getElem?_eq_none (by simpa [Config.sig] using ho)]
  · have hbyte := hzero (o - 8) (List.mem_range.2 (by omega))
    rwa [Nat.add_sub_cancel' hlow, beq_iff_eq] at hbyte
  · have ho := List.mem_range.1 ho
    exact beq_iff_eq.2 (hzero (8 + o) (by omega) (by omega))

/-- A page buffer that begins with a command frame is recognised, with its opcode. -/
theorem HoldsFrame.recognised {opcode : Byte} (h : HoldsFrame s.hid.pageBuf opcode) :
    isCommand s = true ∧ pageByte s 7 = opcode := by
  obtain ⟨hsig, hopcode, hzero⟩ := h
  refine ⟨isCommand_iff.2 ⟨fun o ho => ?_, fun o hlow hhigh => pageByte_of_read? (hzero o hlow hhigh)⟩,
    pageByte_of_read? hopcode⟩
  have hin : Config.sig[o]? = some Config.sig[o] := List.getElem?_eq_getElem _
  rw [hin, pageByte_of_read? ((hsig o ho).trans hin)]

/-- A page buffer with a differing written byte is no command frame (45_hid_reassembly_commands.md R263, R268). -/
theorem HoldsData.not_recognised (h : HoldsData s.hid.pageBuf) : ¬isCommand s = true := by
  obtain ⟨o, v, hlow, hne, hread, hsig, hzero⟩ := h
  rw [isCommand_iff]
  rintro ⟨hallSig, hallZero⟩
  rw [← pageByte_of_read? hread] at hsig hzero
  rcases Nat.lt_or_ge o 7 with ho | ho
  · exact hsig ho (hallSig o ho)
  · exact hzero (by omega) (hallZero o (by omega) hlow)

/-- The first 64 bytes dispatched: a recognised frame's command, else nothing (45_hid_reassembly_commands.md R261). -/
def frameServed (s : State) : State := if isCommand s = true then runCommand s (pageByte s 7) else s

/-- A command changes unit H only (45_hid_reassembly_commands.md R264, R265). -/
theorem runCommand_frame (s : State) (opcode : Byte) : runCommand s opcode = s.withHid (runCommand s opcode).hid := by
  unfold runCommand
  split_ifs <;> rfl

/-- No command touches the page buffer. -/
theorem runCommand_pageBuf (s : State) (opcode : Byte) : (runCommand s opcode).hid.pageBuf = s.hid.pageBuf := by
  unfold runCommand
  split_ifs <;> rfl

/-- An opcode that names no command does nothing (45_hid_reassembly_commands.md R265). -/
theorem runCommand_other {opcode : Byte} (hreset : opcode ≠ 0x00) (hreboot : opcode ≠ 0x01) : runCommand s opcode = s :=
  (if_neg hreset).trans (if_neg hreboot)

theorem frameServed_frame (s : State) : frameServed s = s.withHid (frameServed s).hid := by
  unfold frameServed
  split
  · exact runCommand_frame s _
  · rfl

theorem frameServed_pageBuf (s : State) : (frameServed s).hid.pageBuf = s.hid.pageBuf := by
  unfold frameServed
  split
  · exact runCommand_pageBuf s _
  · rfl

theorem frameServed_of_frame {opcode : Byte} (h : HoldsFrame s.hid.pageBuf opcode) :
    frameServed s = runCommand s opcode := by
  obtain ⟨hcommand, hopcode⟩ := h.recognised
  rw [frameServed, if_pos hcommand, hopcode]

theorem frameServed_of_data (h : HoldsData s.hid.pageBuf) : frameServed s = s := if_neg h.not_recognised

/-- `HidData` of the packet that completes the first 64 bytes (45_hid_reassembly_commands.md R261). -/
theorem hidData_completesFrame (hoffset : s.hid.pageOffset.toNat = 56) (rx : Packet8) (c : Caller) :
    hidData s rx c = .ok (frameServed (s.withHid (appendedHid s.hid rx))) := by
  have h64 : s.hid.pageOffset + 8 = 64 := by bv_omega
  have hnotFull : s.hid.pageOffset + 8 ≠ 1024 := by rw [h64]; decide
  rw [hidData, appendPacket_ok (by omega)]
  by_cases hcommand : isCommand (s.withHid (appendedHid s.hid rx)) = true
  · exact (if_pos ⟨h64, hcommand⟩).trans (congrArg Except.ok (if_pos hcommand).symm)
  · exact (if_neg fun h => hcommand h.2).trans ((if_neg hnotFull).trans (congrArg Except.ok (if_neg hcommand).symm))

/-- Settles O53: the hook is the append and the dispatch of the first 64 bytes (`hidData_completesFrame`), the service around it is
`packetWaiting_served`; a frame runs its command (`frameServed_of_frame`), a differing byte leaves data
(`frameServed_of_data`). -/
theorem commandFrameRecognised : Obligations.CommandFrameRecognised := by
  intro s bytes hwait htx hbufOk hoffset
  have hhook : receiveHook .ep0 .service (packetTaken s .ep0 bytes) =
      .ok ((packetTaken s .ep0 bytes).withHid (frameServed (packetAppended s bytes)).hid) := by
    rw [hwait.hook, hidData_completesFrame (s := packetTaken s .ep0 bytes) hoffset]
    exact congrArg Except.ok (frameServed_frame (packetAppended s bytes))
  obtain ⟨t, hexec, hcomplete, htaken, hfseq, hfaults, hhid, hrx⟩ :=
    packetWaiting_served hwait.toPacketWaiting (k := 0) rfl htx hhook
  have h64 : s.hid.pageOffset + 8 = 64 := by bv_omega
  have hbuf : t.hid.pageBuf = (packetAppended s bytes).hid.pageBuf := by rw [hhid, frameServed_pageBuf]
  have happended : Appended s t t.drv.ets0.rxBuf := fun o => by
    rw [hbuf, show t.drv.ets0.rxBuf = overlay s.drv.ets0.rxBuf bytes from hrx]
    exact packetAppended_appended hbufOk bytes o
  refine ⟨t, hexec, hcomplete, htaken, hfseq, hfaults, happended, ?_⟩
  rw [hbuf, hhid]
  refine ⟨fun hframe => ?resetPages, fun hframe => ?reboot, fun opcode hreset hreboot hframe => ?other, fun hdata => ?data⟩
  case resetPages =>
    rw [frameServed_of_frame hframe]
    rfl
  case reboot =>
    rw [frameServed_of_frame hframe, ← h64]
    rfl
  case other =>
    rw [frameServed_of_frame hframe, runCommand_other hreset hreboot, ← h64]
    rfl
  case data =>
    rw [frameServed_of_data hdata, ← h64]
    rfl

/-! ### The packet that completes the page -/

/-- A service that has begun a page commit, under the name of its caller (46_flash_page_programmer.md R292; log 27). -/
theorem epService_committing (hseq : SequencerIdle s) (hserve : epService s e .service = .ok t) (hbusy : ¬SequencerIdle t)
    (c : Caller) : epService s e c = .ok (t.withFseq { t.fseq with caller := c }) := by
  rw [epService_caller hseq, hserve, resUnderCaller, underCaller, if_neg hbusy]

/-- A service that has raised a fault does so for every caller. -/
theorem epService_raised (hseq : SequencerIdle s) {f : Fault} (hserve : epService s e .service = raise u f) (c : Caller) :
    epService s e c = raise u f := by
  rw [epService_caller hseq, hserve]
  rfl

/-- With a callback registered transfer-complete is the endpoint service (43_usb_packet_dispatcher.md R222 (a)). -/
theorem serveCtr_of_callback (hk : k.toNat = epNumber e) (hcb : s.drv.cbEp = true) (c : Caller) :
    serveCtr s k c = epService s e c := (if_pos hcb).trans (serveEndpoint_eq hk c)

/-- A begun commit holds EVT.CTR and the pass where they are (46_flash_page_programmer.md R292). -/
theorem transferCompleteWaits_of_service (hseq : SequencerIdle s) (hk : k.toNat = epNumber e) (hcb : s.drv.cbEp = true)
    (hserve : epService s e .service = .ok t) (hbusy : ¬SequencerIdle t) : TransferCompleteWaits s t k := by
  have hctr (c : Caller) : serveCtr s k c = .ok (t.withFseq { t.fseq with caller := c }) :=
    (serveCtr_of_callback hk hcb c).trans (epService_committing hseq hserve hbusy c)
  refine ⟨fun w hw => ?event, fun hturn hflag hw => ?pass⟩
  case event =>
    have hevent : serveEvent s w = .ok (t.withFseq { t.fseq with caller := .event w }) := by
      rw [serveEvent, hw, hctr]
      exact if_neg hbusy
    rw [exec_evtCtr hseq, hevent]
    rfl
  case pass =>
    have hpass : handleCtr s = .ok (t.withFseq { t.fseq with caller := .dispatcher }) := by
      rw [handleCtr, if_pos hflag, hw, hctr]
      exact if_neg hbusy
    rw [exec_dispCtr_inTurn hseq hturn, hpass]
    rfl

/-- A fault of the service ends EVT.CTR and the pass (00_scope.md R11; log 6). -/
theorem transferCompleteStops_of_service (hseq : SequencerIdle s) (hk : k.toNat = epNumber e) (hcb : s.drv.cbEp = true)
    {f : Fault} (hserve : epService s e .service = raise u f) : TransferCompleteStops s (recordFault u f) k := by
  have hctr (c : Caller) : serveCtr s k c = raise u f :=
    (serveCtr_of_callback hk hcb c).trans (epService_raised hseq hserve c)
  refine ⟨fun w hw => ?event, fun hturn hflag hw => ?pass⟩
  case event =>
    rw [exec_evtCtr hseq, serveEvent, hw, hctr]
    rfl
  case pass =>
    rw [exec_dispCtr_inTurn hseq hturn, handleCtr, if_pos hflag, hw, hctr]
    rfl

/-- A commit with the index inside the flash array: the sequencer starts at the cursor's page
(45_hid_reassembly_commands.md R266, 46_flash_page_programmer.md R291). -/
theorem commitPage_inside (hindex : s.hid.pageIndex.toNat < s.par.flashPages.toNat) (c : Caller) :
    commitPage s c = .ok (s.withFseq ⟨.unlock, pageAddress s.par s.hid.pageIndex, 0, .pageBuf, c⟩) :=
  if_neg (Nat.not_le.2 hindex)

/-- A commit beyond the flash array (45_hid_reassembly_commands.md R266; log 6). -/
theorem commitPage_beyond (hindex : s.par.flashPages.toNat ≤ s.hid.pageIndex.toNat) (c : Caller) :
    commitPage s c = raise s (.flashRange s.hid.pageIndex.toNat) := if_pos hindex

/-- `HidData` of the packet that completes the page (45_hid_reassembly_commands.md R261). -/
theorem hidData_completesPage (hoffset : s.hid.pageOffset.toNat = 1016) (rx : Packet8) (c : Caller) :
    hidData s rx c = commitPage (s.withHid (appendedHid s.hid rx)) c := by
  have hfull : s.hid.pageOffset + 8 = 1024 := by bv_omega
  have hnotFrame : s.hid.pageOffset + 8 ≠ 64 := by rw [hfull]; decide
  rw [hidData, appendPacket_ok (by omega)]
  exact (if_neg fun h => hnotFrame h.1).trans (if_pos hfull)

/-- The service of the packet that completes the page: the commit, then the end of the receive half where none has begun
(42_usb_endpoint_buffer_manager.md R190). -/
theorem epService_completesPage (hwait : DataPacketWaiting s bytes) (hoffset : s.hid.pageOffset.toNat = 1016) (c : Caller) :
    epService s .ep0 c = commitPage (packetAppended s bytes) c >>= afterHook .ep0 := by
  rw [epService_of_received hwait.idle hwait.received, hwait.taken]
  show (receiveHook .ep0 c (packetTaken s .ep0 bytes) >>= afterHook .ep0) = _
  rw [hwait.hook, hidData_completesPage (s := packetTaken s .ep0 bytes) hoffset]
  rfl

/-- A packet taken says nothing of unit H, the sequencer and the fault record. -/
theorem PacketTaken.congr {rearmed : Bool} (h : PacketTaken s t e bytes rearmed)
    (hframe : u = { t with hid := u.hid, fseq := u.fseq, faults := u.faults }) : PacketTaken s u e bytes rearmed := by
  obtain ⟨hstate, husb, hdrv, hrx⟩ := h
  rw [hframe]
  exact ⟨by rw [hstate], husb, hdrv, hrx⟩

/-- Settles O54: the service is the commit (`epService_completesPage`), begun inside the flash array (`commitPage_inside`) or a fault
beyond it (`commitPage_beyond`); transfer-complete is `transferCompleteWaits_of_service` or
`transferCompleteStops_of_service`. -/
theorem fullPageIsCommitted : Obligations.FullPageIsCommitted := by
  intro s bytes hwait hbufOk hoffset
  have hfull : s.hid.pageOffset + 8 = 1024 := by bv_omega
  have hhid : (packetAppended s bytes).hid =
      { s.hid with pageBuf := (packetAppended s bytes).hid.pageBuf, pageOffset := 1024 } := by
    rw [← hfull]
    rfl
  have htaken := packetTaken_notRearmed (s := s) (e := .ep0) hwait.short
  have happended := packetAppended_appended hbufOk bytes
  have hserve := epService_completesPage hwait hoffset .service
  have hexec {r : Res State} (h : epService s .ep0 .service = r) : exec (.epService 0) s = finish r := by
    rw [exec_epService hwait.idle (e := .ep0) rfl, h]
  rcases Nat.lt_or_ge s.hid.pageIndex.toNat s.par.flashPages.toNat with hindex | hindex
  · have hcommit := hserve.trans (congrArg (· >>= afterHook .ep0) (commitPage_inside (s := packetAppended s bytes) hindex _))
    refine ⟨_, hexec hcommit, htaken.congr rfl, happended, hhid,
      fun _ => ⟨rfl, ?started, fun hcb => ?waits⟩, fun hbeyond => absurd hindex (Nat.not_lt.2 hbeyond)⟩
    case started =>
      rw [BitVec.mul_comm 1024]
      rfl
    case waits => exact transferCompleteWaits_of_service hwait.idle (e := .ep0) rfl hcb hcommit nofun
  · have hfault := hserve.trans (congrArg (· >>= afterHook .ep0) (commitPage_beyond (s := packetAppended s bytes) hindex _))
    exact ⟨_, hexec hfault, htaken.congr rfl, happended, hhid, fun hinside => absurd hinside (Nat.not_lt.2 hindex),
      fun _ => ⟨rfl, rfl, fun hcb => transferCompleteStops_of_service hwait.idle (e := .ep0) rfl hcb hfault⟩⟩

end Sys2Proof.Machine
end

section
/-! PROOFS. The bus-reset handler (45_hid_reassembly_commands.md R270), by itself, by its event and by its pass of the dispatcher. -/

namespace Sys2Proof.Machine

variable {s t : State}

/-- The handler leaves column BUS of the reset table (10_state.md R50): what EP.CONFIGURE leaves (`endpointsConfigured`), then the
session, the cursor and DADDR. -/
theorem hidBusReset_handled (hseq : SequencerIdle s) (hwf : Memory.wf none s.pma = true) :
    BusResetHandled s (hidBusReset s) := by
  obtain ⟨u, hexec, hframe, husb, hep0, hep1, htable, hdrv⟩ := endpointsConfigured s hseq hwf
  have hconfigured : epConfigure s = u := Host.Outcome.next.inj ((unitStep_idle _ hseq).symm.trans hexec)
  have hpar : u.par = s.par := by rw [hframe]
  have hhid : u.hid = s.hid := by rw [hframe]
  rw [hidBusReset, hconfigured]
  refine ⟨?frame, ?usb, hep0, hep1, ?daddr, htable, ?drv, ?hid⟩
  case frame =>
    rw [hframe]
    rfl
  case usb =>
    show { u.usb with daddr := daddrOf 0x0080 } = _
    rw [husb]
    rfl
  case daddr =>
    show (daddrOf 0x0080).toHalf = 0x0080
    decide
  case drv =>
    show { u.drv with pendingAddr := 0, configured := false, devStatus := 0 } = _
    rw [hdrv]
  case hid =>
    show { u.hid with pageIndex := u.par.firstPage, pageOffset := 0 } = _
    rw [hpar, hhid]

/-- The handler does not look at the dispatcher. -/
theorem BusResetHandled.withDisp (h : BusResetHandled s t) (x : Dispatcher) :
    BusResetHandled (s.withDisp x) (t.withDisp x) := by
  obtain ⟨hframe, hparts⟩ := h
  refine ⟨?_, hparts⟩
  rw [hframe]
  rfl

/-- The flag of bus reset cleared (41_usb_register_interface.md R154). -/
theorem writeIstr_notReset (u : Usb) : writeIstr u 0xFBFF = { u with istr := { u.istr with reset := false } } := by
  simp [writeIstr, Istr.write, bit]

/-- Bus reset served with a registered handler (43_usb_packet_dispatcher.md R222 (b)). -/
theorem serveReset_of_handler (hcb : s.drv.cbReset = true) :
    serveReset s = hidBusReset (s.withUsb { s.usb with istr := { s.usb.istr with reset := false } }) := by
  rw [← writeIstr_notReset]
  exact if_pos hcb

/-- Bus reset served without one: the flag is cleared (43_usb_packet_dispatcher.md R222 (b)). -/
theorem serveReset_of_no_handler (hcb : s.drv.cbReset = false) :
    serveReset s = s.withUsb { s.usb with istr := { s.usb.istr with reset := false } } := by
  rw [← writeIstr_notReset]
  exact if_neg (ne_true_of_eq_false hcb)

/-- The pass of bus reset in its turn (43_usb_packet_dispatcher.md R222). -/
theorem exec_dispReset_inTurn (hseq : SequencerIdle s) (hturn : s.disp.state = .doReset) :
    exec .dispReset s =
      .next ((if bit s.disp.snap 10 then serveReset s else s).withDisp { s.disp with state := .doSusp }) := by
  refine (dispStep_inTurn _ hseq hturn).trans ?_
  rw [setDispState_served (s := s) (served := serveReset s) (by rw [serveReset_frame])]
  rfl

/-- Settles O44: the handler is `hidBusReset_handled`; the event serves it before the later sources (`exec_evtReset`), the pass
before it moves on (`exec_dispReset_inTurn`). -/
theorem busResetServed : Obligations.BusResetServed := by
  rintro s c _ w hseq hwf hcleared rfl
  have hhandled : BusResetHandled c (hidBusReset c) :=
    hidBusReset_handled (by rw [hcleared]; exact hseq) (by rw [hcleared]; exact hwf)
  have hserve (hcb : s.drv.cbReset = true) : serveReset s = hidBusReset c := hcleared ▸ serveReset_of_handler hcb
  have hclear (hcb : s.drv.cbReset = false) : serveReset s = c := hcleared ▸ serveReset_of_no_handler hcb
  have hevent : exec (.evtReset w) s = .next (lastServed w (serveReset s)) := by
    rw [exec_evtReset hseq, laterThanReset_eq]
  refine ⟨⟨hidBusReset s, unitStep_idle _ hseq, hidBusReset_handled hseq hwf⟩,
    fun hcb => ⟨hidBusReset c, hhandled, by rw [hevent, hserve hcb]⟩, fun hcb => by rw [hevent, hclear hcb],
    fun hturn hflag hcb => ⟨_, ?pass, hhandled.withDisp { s.disp with state := .doSusp }⟩,
    fun hturn hflag hcb => ?passUnhandled, fun hturn hflag => ?noFlag⟩
  case pass => rw [exec_dispReset_inTurn hseq hturn, if_pos hflag, hserve hcb]
  case passUnhandled => rw [exec_dispReset_inTurn hseq hturn, if_pos hflag, hclear hcb]
  case noFlag => rw [exec_dispReset_inTurn hseq hturn, if_neg (ne_true_of_eq_false hflag)]

end Sys2Proof.Machine
end

section
/-! PROOFS. The flash controller (46_flash_page_programmer.md R293 to R298): what each register write leaves, where an erase and a
halfword program start, what the completion of each leaves in the array, and that nothing else changes the array. -/

namespace Sys2Proof.Machine

open Host (Outcome)

variable {s t : State} {f : FlashCtl} {v a : Word} {h : Half}

/-- A part of a rule that ends goes on. -/
@[simp] theorem Res.ok_bind {α β : Type} (x : α) (k : α → Res β) : ((.ok x : Res α) >>= k) = k x := rfl

/-! ### The unlock sequence -/

/-- KEY1 from K0 (R293). -/
theorem writeKeyr_k0 (hkey : f.keyState = .k0) (v : Word) :
    writeKeyr f v = { f with keyState := if v = Config.key1 then .k1 else .blocked } := by
  simp [writeKeyr, hkey]

/-- KEY2 from K1 unlocks (R293). -/
theorem writeKeyr_key2 (hkey : f.keyState = .k1) : writeKeyr f Config.key2 = { f with lock := false, keyState := .k0 } := by
  simp [writeKeyr, hkey]

/-- Anything else from K1 blocks (R293). -/
theorem writeKeyr_wrong (hkey : f.keyState = .k1) (hv : v ≠ Config.key2) :
    writeKeyr f v = { f with keyState := .blocked } := by
  simp [writeKeyr, hkey, hv]

/-- A blocked sequence stays (R293). -/
theorem writeKeyr_blocked (hkey : f.keyState = .blocked) (v : Word) : writeKeyr f v = f := by
  simp [writeKeyr, hkey]

/-- Both keys from K0 unlock (R293). -/
theorem unlockFlash_k0 (hkey : s.fctl.keyState = .k0) : unlockFlash s = s.withFctl { s.fctl with lock := false } := by
  rw [unlockFlash, writeKeyr_k0 hkey, if_pos rfl, writeKeyr_key2 rfl, ← hkey]

/-- From K1 the first key is the wrong one, and the second comes too late (R293). -/
theorem unlockFlash_k1 (hkey : s.fctl.keyState = .k1) :
    unlockFlash s = s.withFctl { s.fctl with keyState := .blocked } := by
  rw [unlockFlash, writeKeyr_wrong hkey (by decide), writeKeyr_blocked rfl]

/-- Once blocked no sequence unlocks (R293, R297 (d)). -/
theorem unlockFlash_blocked (hkey : s.fctl.keyState = .blocked) : unlockFlash s = s := by
  rw [unlockFlash, writeKeyr_blocked hkey, writeKeyr_blocked hkey, State.withFctl_self]

/-! ### A write of FLASH_CR -/

/-- The mode bits of a FLASH_CR value stored (R294). -/
def modeWritten (f : FlashCtl) (v : Word) : FlashCtl := { f with pg := bit v 0, per := bit v 1 }

/-- LOCK written to a locked controller: only the key sequence can change (log 21). -/
theorem lockFlash_of_locked (hlock : f.lock = true) :
    lockFlash f = { f with keyState := if f.keyState = .blocked then .blocked else .k0 } := by
  rw [lockFlash, ← hlock]

theorem lockFlash_of_blocked (hlock : f.lock = true) (hkey : f.keyState = .blocked) : lockFlash f = f := by
  rw [lockFlash_of_locked hlock, if_pos hkey, ← hkey]

theorem writeCr_busy (hbusy : s.fctl.bsy = true) (v : Word) : writeCr s v = refuse .flashBusyWrite := if_pos hbusy

theorem writeCr_locked (hready : s.fctl.bsy = false) (hlock : s.fctl.lock = true) (v : Word) :
    writeCr s v = .ok (if bit v 7 then s.withFctl (lockFlash s.fctl) else s) := by
  simp [writeCr, hready, hlock]

/-- Locked, a write without LOCK is ignored (R294, R297 (d)). -/
theorem writeCr_ignored (hready : s.fctl.bsy = false) (hlock : s.fctl.lock = true) (hv : bit v 7 = false) :
    writeCr s v = .ok s := by
  rw [writeCr_locked hready hlock, hv]
  rfl

/-- Locked, a write of LOCK starts the key sequence over unless it is blocked (log 21). -/
theorem writeCr_relock (hready : s.fctl.bsy = false) (hlock : s.fctl.lock = true) : writeCr s 0x00000080 =
    .ok (s.withFctl { s.fctl with keyState := if s.fctl.keyState = .blocked then .blocked else .k0 }) := by
  rw [writeCr_locked hready hlock, lockFlash_of_locked hlock]
  rfl

section Unlocked
variable (hready : s.fctl.bsy = false) (hunlocked : s.fctl.lock = false)
include hready hunlocked

theorem writeCr_conflict (hpg : bit v 0 = true) (hper : bit v 1 = true) : writeCr s v = refuse .flashModeConflict := by
  simp [writeCr, hready, hunlocked, hpg, hper]

theorem writeCr_lock (hmode : ¬(bit v 0 = true ∧ bit v 1 = true)) (hlock : bit v 7 = true) :
    writeCr s v = .ok (s.withFctl (lockFlash (modeWritten s.fctl v))) := by
  simp only [writeCr, modeWritten, hready, hunlocked, hlock, Bool.and_eq_true, if_neg hmode, if_true,
    Bool.false_eq_true, if_false]

/-- FLASH_CR <- 0x80 locks, clears the mode and starts the key sequence over unless it is blocked (R294). -/
theorem writeCr_lockAlone : writeCr s 0x00000080 = .ok (s.withFctl { s.fctl with
    pg := false, per := false, lock := true, keyState := if s.fctl.keyState = .blocked then .blocked else .k0 }) :=
  writeCr_lock hready hunlocked (by decide) (by decide)

theorem writeCr_mode (hmode : ¬(bit v 0 = true ∧ bit v 1 = true)) (hlock : bit v 7 = false)
    (hstart : ¬(bit v 6 = true ∧ bit v 1 = true)) : writeCr s v = .ok (s.withFctl (modeWritten s.fctl v)) := by
  simp only [writeCr, modeWritten, hready, hunlocked, hlock, Bool.and_eq_true, if_neg hmode, if_neg hstart,
    Bool.false_eq_true, if_false]

/-- FLASH_CR <- 0 clears the mode (R291, R294). -/
theorem writeCr_clear : writeCr s 0x00000000 = .ok (s.withFctl { s.fctl with pg := false, per := false }) :=
  writeCr_mode hready hunlocked (by decide) (by decide) (by decide)

/-- FLASH_CR <- 1 sets the programming mode (R291, R294). -/
theorem writeCr_programming : writeCr s 0x00000001 = .ok (s.withFctl { s.fctl with pg := true, per := false }) :=
  writeCr_mode hready hunlocked (by decide) (by decide) (by decide)

theorem writeCr_start (hmode : ¬(bit v 0 = true ∧ bit v 1 = true)) (hlock : bit v 7 = false)
    (hstart : bit v 6 = true ∧ bit v 1 = true) (hin : inFlash s.par s.fctl.ar.toNat = true) :
    writeCr s v = .ok (s.withFctl
      { modeWritten s.fctl v with strt := true, bsy := true, pendingOp := .erase s.fctl.ar }) := by
  simp only [writeCr, modeWritten, hready, hunlocked, hlock, hin, Bool.and_eq_true, if_neg hmode, if_pos hstart, if_true,
    Bool.false_eq_true, if_false]

theorem writeCr_outside (hmode : ¬(bit v 0 = true ∧ bit v 1 = true)) (hlock : bit v 7 = false)
    (hstart : bit v 6 = true ∧ bit v 1 = true) (hout : inFlash s.par s.fctl.ar.toNat = false) :
    writeCr s v = raise (s.withFctl (modeWritten s.fctl v)) (.flashRange s.fctl.ar.toNat) := by
  simp only [writeCr, modeWritten, hready, hunlocked, hlock, hout, Bool.and_eq_true, if_neg hmode, if_pos hstart,
    Bool.false_eq_true, if_false]

end Unlocked

/-! ### A write of FLASH_AR and of the array -/

theorem writeAr_busy (hbusy : s.fctl.bsy = true) (v : Word) : writeAr s v = refuse .flashBusyWrite := if_pos hbusy

theorem writeAr_locked (hready : s.fctl.bsy = false) (hlock : s.fctl.lock = true) (v : Word) : writeAr s v = .ok s := by
  simp [writeAr, hready, hlock]

theorem writeAr_unlocked (hready : s.fctl.bsy = false) (hunlocked : s.fctl.lock = false) (v : Word) :
    writeAr s v = .ok (s.withFctl { s.fctl with ar := v }) := by
  simp [writeAr, hready, hunlocked]

/-- An address is even exactly when its bit 0 is clear. -/
theorem bit_zero_eq_false_iff (a : Word) : bit a 0 = false ↔ a.toNat % 2 = 0 := by
  simp [bit, BitVec.getLsbD, Nat.testBit_zero]

theorem bit_zero_eq_true_iff (a : Word) : bit a 0 = true ↔ a.toNat % 2 = 1 := by
  simp [bit, BitVec.getLsbD, Nat.testBit_zero]

theorem writeFlash_width {width : Width} (hwidth : width ≠ .w16) (a : Word) (h : Half) :
    writeFlash s width a h = refuse .flashWriteWidth := if_pos hwidth

theorem writeFlash_odd (hodd : a.toNat % 2 = 1) (h : Half) : writeFlash s .w16 a h = refuse .flashOddAddress := by
  simp [writeFlash, (bit_zero_eq_true_iff a).2 hodd]

section Even
variable (heven : a.toNat % 2 = 0)
include heven

theorem writeFlash_busy (hbusy : s.fctl.bsy = true) (h : Half) : writeFlash s .w16 a h = refuse .flashBusyWrite := by
  simp [writeFlash, (bit_zero_eq_false_iff a).2 heven, hbusy]

theorem writeFlash_ignored (hready : s.fctl.bsy = false) (hoff : s.fctl.lock = true ∨ s.fctl.pg = false) (h : Half) :
    writeFlash s .w16 a h = .ok s := by
  simp [writeFlash, (bit_zero_eq_false_iff a).2 heven, hready, hoff]

variable (hready : s.fctl.bsy = false) (hunlocked : s.fctl.lock = false) (hpg : s.fctl.pg = true)
include hready hunlocked hpg

theorem writeFlash_outside (hout : inFlash s.par a.toNat = false) (h : Half) :
    writeFlash s .w16 a h = raise s (.flashRange a.toNat) := by
  simp [writeFlash, (bit_zero_eq_false_iff a).2 heven, hready, hunlocked, hpg, hout]

variable (hin : inFlash s.par a.toNat = true)
include hin

theorem writeFlash_notErased (hbytes : flashByte s a.toNat ≠ 0xFF ∨ flashByte s (a.toNat + 1) ≠ 0xFF) (h : Half) :
    writeFlash s .w16 a h = raise s (.programNotErased a.toNat) := by
  simp only [writeFlash, (bit_zero_eq_false_iff a).2 heven, hready, hunlocked, hpg, hin, if_pos hbytes, ne_eq,
    not_true_eq_false, Bool.false_eq_true, Bool.not_true, Bool.or_self, if_false]

theorem writeFlash_start (hlow : flashByte s a.toNat = 0xFF) (hhigh : flashByte s (a.toNat + 1) = 0xFF) (h : Half) :
    writeFlash s .w16 a h = .ok (s.withFctl { s.fctl with bsy := true, pendingOp := .prog a h }) := by
  simp [writeFlash, (bit_zero_eq_false_iff a).2 heven, hready, hunlocked, hpg, hin, hlow, hhigh]

end Even

/-! ### The erase start: three register writes -/

theorem startErase_busy (hbusy : s.fctl.bsy = true) (a : Word) : startErase s a = refuse .flashBusyWrite := by
  rw [startErase, writeCr_busy hbusy]
  rfl

theorem startErase_locked (hready : s.fctl.bsy = false) (hlock : s.fctl.lock = true) (a : Word) : startErase s a = .ok s := by
  rw [startErase, writeCr_ignored hready hlock (by decide), Res.ok_bind, writeAr_locked hready hlock, Res.ok_bind,
    writeCr_ignored hready hlock (by decide)]

/-- The erase mode and the address are set before the start is tried (R294, R295). -/
theorem startErase_unlocked (hready : s.fctl.bsy = false) (hunlocked : s.fctl.lock = false) (a : Word) :
    startErase s a = writeCr (s.withFctl { s.fctl with pg := false, per := true, ar := a }) 0x00000042 := by
  rw [startErase, writeCr_mode hready hunlocked (by decide) (by decide) (by decide), Res.ok_bind,
    writeAr_unlocked (by exact hready) (by exact hunlocked), Res.ok_bind]
  rfl

/-- The state with the erase of the page of `a` started (R294). -/
def eraseStarted (s : State) (a : Word) : State := s.withFctl
  { s.fctl with pg := false, per := true, ar := a, strt := true, bsy := true, pendingOp := .erase a }

theorem startErase_start (hready : s.fctl.bsy = false) (hunlocked : s.fctl.lock = false)
    (hin : inFlash s.par a.toNat = true) : startErase s a = .ok (eraseStarted s a) := by
  rw [startErase_unlocked hready hunlocked,
    writeCr_start (by exact hready) (by exact hunlocked) (by decide) (by decide) (by decide) (by exact hin)]
  rfl

theorem startErase_outside (hready : s.fctl.bsy = false) (hunlocked : s.fctl.lock = false)
    (hout : inFlash s.par a.toNat = false) : startErase s a =
      raise (s.withFctl { s.fctl with pg := false, per := true, ar := a }) (.flashRange a.toNat) := by
  rw [startErase_unlocked hready hunlocked,
    writeCr_outside (by exact hready) (by exact hunlocked) (by decide) (by decide) (by decide) (by exact hout)]
  rfl

/-! ### FLASHC.COMPLETE -/

theorem completeFlash_none (hop : s.fctl.pendingOp = .none) : completeFlash s = s := by
  simp [completeFlash, hop]

theorem completeFlash_erase (hop : s.fctl.pendingOp = .erase a) : completeFlash s =
    (s.withFlash (s.flash.unlist (pageStart s.par a) Config.pageSize)).withFctl
      { s.fctl with strt := false, pendingOp := .none, bsy := false } := by
  simp [completeFlash, hop]

theorem completeFlash_prog (hop : s.fctl.pendingOp = .prog a h) : completeFlash s =
    (s.withFlash (Memory.writeBytes (some Config.flashUnlisted) s.flash a.toNat (halfBytes h))).withFctl
      { s.fctl with pendingOp := .none, bsy := false } := by
  simp [completeFlash, hop]

/-- The bytes after an erase: the page FF, every other byte as before (R298). -/
theorem flashByte_completeFlash_erase (hop : s.fctl.pendingOp = .erase a) (x : Nat) : flashByte (completeFlash s) x =
    if pageStart s.par a ≤ x ∧ x < pageStart s.par a + Config.pageSize then 0xFF else flashByte s x := by
  rw [completeFlash_erase hop, flashByte, State.withFctl_flash, State.withFlash_flash, Memory.read?_unlist]
  split
  · rfl
  · rfl

/-- The bytes after a program: the halfword, low byte first, every other byte as before (R298, 20_memory.md R74). -/
theorem flashByte_completeFlash_prog (hflash : FlashOk s.par s.flash) (hop : s.fctl.pendingOp = .prog a h) (x : Nat) :
    flashByte (completeFlash s) x =
      if x = a.toNat then loByte h else if x = a.toNat + 1 then hiByte h else flashByte s x := by
  rw [completeFlash_prog hop, flashByte, State.withFctl_flash, State.withFlash_flash, Memory.getD_writeBytes hflash.1]
  by_cases hlow : x = a.toNat
  · simp [hlow, halfBytes]
  by_cases hhigh : x = a.toNat + 1
  · simp [hhigh, halfBytes]
  rw [if_neg (by simp only [halfBytes, List.length_cons, List.length_nil]; omega), if_neg hlow, if_neg hhigh]
  rfl

/-! ### The operations -/

section Registers
variable (s : State) (v : Word)

theorem exec_regFlashKeyr_write : exec (.regFlashKeyr (.write v)) s = .next (s.withFctl (writeKeyr s.fctl v)) :=
  exec_regWrite_flashReg v rfl

theorem exec_regFlashSr_write : exec (.regFlashSr (.write v)) s = .next s := exec_regWrite_flashReg v rfl

theorem exec_regFlashCr_write : exec (.regFlashCr (.write v)) s = finish (writeCr s v) := exec_regWrite_flashReg v rfl

theorem exec_regFlashAr_write : exec (.regFlashAr (.write v)) s = finish (writeAr s v) := exec_regWrite_flashReg v rfl

end Registers

section Idle
variable (hseq : SequencerIdle s)
include hseq

theorem exec_fopUnlock : exec .fopUnlock s = .next (unlockFlash s) := unitStep_idle _ hseq

theorem exec_fopLock : exec .fopLock s = finish (writeCr s 0x00000080) := unitStep_idle _ hseq

theorem exec_fopErasePage (a : Word) : exec (.fopErasePage a) s = finish (startErase s a) := unitStep_idle _ hseq

theorem exec_fopProgHalfword (width : Width) (a : Word) (h : Half) :
    exec (.fopProgHalfword width a h) s = finish (writeFlash s width a h) := unitStep_idle _ hseq

end Idle

/-- Settles O26: the key sequence, one transition per key state. -/
theorem keyRegisterWrite : Obligations.KeyRegisterWrite := by
  intro s v
  refine ⟨writeKeyr s.fctl v, exec_regFlashKeyr_write s v, ?frame, fun hkey => ?k0, fun hkey hv => ?key2,
    fun hkey hv => ?wrong, fun hkey => writeKeyr_blocked hkey v⟩
  case frame =>
    unfold writeKeyr
    split
    · rfl
    · split <;> rfl
    · rfl
  case k0 => rw [writeKeyr_k0 hkey]; exact ⟨rfl, rfl⟩
  case key2 => subst hv; rw [show (0xCDEF89AB : Word) = Config.key2 from rfl, writeKeyr_key2 hkey]; exact ⟨rfl, rfl⟩
  case wrong => rw [writeKeyr_wrong hkey hv]; exact ⟨rfl, rfl⟩

/-- Settles O28: FLASH_AR by the three cases of R295; FLASH_SR has no write. -/
theorem flashAddressWrite : Obligations.FlashAddressWrite := by
  intro s v
  rw [exec_regFlashAr_write]
  refine ⟨fun hbusy => ?_, fun hready hlock => ?_, fun hready hunlocked => ?_, exec_regFlashSr_write s v⟩
  · rw [writeAr_busy hbusy]; rfl
  · rw [writeAr_locked hready hlock]; rfl
  · rw [writeAr_unlocked hready hunlocked]; rfl

/-- FLASH_CR reads as a masked value where its four fields are the value's under the mask (10_state.md R41). -/
theorem FlashCtl.crWord_eq_and {m : Word} (hm : m &&& 0xC3 = m) (hpg : f.pg = (bit v 0 && bit m 0))
    (hper : f.per = (bit v 1 && bit m 1)) (hstrt : f.strt = (bit v 6 && bit m 6)) (hlock : f.lock = (bit v 7 && bit m 7)) :
    f.crWord = v &&& m := by
  apply BitVec.eq_of_getLsbD_eq
  intro i hi
  rw [FlashCtl.getLsbD_crWord, hpg, hper, hstrt, hlock, ← hm, BitVec.getLsbD_and, BitVec.getLsbD_and]
  interval_cases i <;> simp [bit]

/-- FLASH_CR after a write of the mode bits to an unlocked controller (R294). -/
theorem crWord_modeWritten (hunlocked : f.lock = false) (hstrt : f.strt = false) (v : Word) :
    (modeWritten f v).crWord = v &&& 0x03 :=
  FlashCtl.crWord_eq_and (by decide) (Bool.and_true _).symm (Bool.and_true _).symm (hstrt.trans (Bool.and_false _).symm)
    (hunlocked.trans (Bool.and_false _).symm)

/-- FLASH_CR after a write with LOCK (R294). -/
theorem crWord_lockFlash (hstrt : f.strt = false) (hlock : bit v 7 = true) :
    (lockFlash (modeWritten f v)).crWord = v &&& 0x83 :=
  FlashCtl.crWord_eq_and (by decide) (Bool.and_true _).symm (Bool.and_true _).symm (hstrt.trans (Bool.and_false _).symm)
    (by rw [hlock]; rfl)

/-- FLASH_CR while the erase that was started runs (R294). -/
theorem crWord_erasing (hunlocked : f.lock = false) (hstart : bit v 6 = true) (op : PendingOp) :
    ({ modeWritten f v with strt := true, bsy := true, pendingOp := op } : FlashCtl).crWord = v &&& 0x43 :=
  FlashCtl.crWord_eq_and (by decide) (Bool.and_true _).symm (Bool.and_true _).symm (by rw [hstart]; rfl)
    (hunlocked.trans (Bool.and_false _).symm)

/-- Settles O27: FLASH_CR by the cases of R294; the word read afterwards by its four fields (`FlashCtl.crWord_eq`). -/
theorem flashControlWrite : Obligations.FlashControlWrite := by
  intro s v hctl
  rw [exec_regFlashCr_write]
  refine ⟨fun hbusy => ?busy, fun hready hlock => ?locked, fun hready hunlocked hpg hper => ?conflict,
    fun hready hunlocked hmode => ⟨fun hnolock hstrt hper hout => ?outside, fun hcase => ?written⟩⟩
  case busy => rw [writeCr_busy hbusy]; rfl
  case locked =>
    rw [writeCr_locked hready hlock, finish]
    by_cases hkey : s.fctl.keyState = .blocked
    · simp [lockFlash_of_blocked hlock hkey, hkey]
    · simp [lockFlash_of_locked hlock, hkey]
  case conflict => rw [writeCr_conflict hready hunlocked hpg hper]; rfl
  case outside =>
    rw [writeCr_outside hready hunlocked hmode hnolock ⟨hstrt, hper⟩ hout]
    exact ⟨_, rfl, rfl⟩
  case written =>
    obtain ⟨hnone, hnostrt⟩ := hctl.idle hready
    cases hlock : bit v 7
    case true =>
      rw [writeCr_lock hready hunlocked hmode hlock]
      refine ⟨_, rfl, rfl, crWord_lockFlash hnostrt hlock, ?_, hnone, ?_⟩
      · exact (FlashCtl.srWord_eq _).trans (if_neg (by simp [lockFlash, modeWritten, hready]))
      · by_cases hkey : s.fctl.keyState = .blocked <;> simp [lockFlash, modeWritten, hkey]
    case false =>
      by_cases hstart : bit v 6 = true ∧ bit v 1 = true
      · have hin : inFlash s.par s.fctl.ar.toNat = true := by simpa [hlock, hstart] using hcase
        rw [writeCr_start hready hunlocked hmode hlock hstart hin]
        simp only [Bool.false_eq_true, hstart, and_self, false_and, if_true, if_false]
        exact ⟨_, rfl, rfl, crWord_erasing hunlocked hstart.1 _, (FlashCtl.srWord_eq _).trans (if_pos rfl), rfl, rfl⟩
      · rw [writeCr_mode hready hunlocked hmode hlock hstart]
        simp only [Bool.false_eq_true, hstart, and_false, false_and, if_false]
        refine ⟨_, rfl, rfl, crWord_modeWritten hunlocked hnostrt v, ?_, hnone, rfl⟩
        exact (FlashCtl.srWord_eq _).trans (if_neg (by simp [modeWritten, hready]))

/-- Settles O29: both keys at once, and FLASH_CR written with LOCK alone. -/
theorem unlockAndLock : Obligations.UnlockAndLock := by
  rintro s key hseq rfl
  rw [exec_fopUnlock hseq, exec_fopLock hseq]
  refine ⟨fun hkey => by rw [unlockFlash_k0 hkey], fun hkey => by rw [unlockFlash_k1 hkey],
    fun hkey => by rw [unlockFlash_blocked hkey], fun hbusy => ?_, fun hready hunlocked => ?_, fun hready hlock => ?_⟩
  · rw [writeCr_busy hbusy]; rfl
  · rw [writeCr_lockAlone hready hunlocked]; rfl
  · rw [writeCr_relock hready hlock]; rfl

/-- Settles O30: the erase by `startErase`'s cases, the halfword write by `writeFlash`'s. -/
theorem flashOperationsStart : Obligations.FlashOperationsStart := by
  refine ⟨fun s a h hseq hready hunlocked hin => ?start, fun s a h hseq => ?stop⟩
  case start =>
    rw [exec_fopErasePage hseq, exec_fopProgHalfword hseq, startErase_start hready hunlocked hin]
    refine ⟨rfl, fun hpg heven hlow hhigh => ?_⟩
    rw [writeFlash_start heven hready hunlocked hpg hin hlow hhigh]; rfl
  case stop =>
    rw [exec_fopErasePage hseq]
    simp only [exec_fopProgHalfword hseq]
    refine ⟨fun hbusy => ?_, fun hready hlock => ?_, fun hready hunlocked hout => ?_, fun width hwidth => ?_, fun hodd => ?_,
      fun heven hbusy => ?_, fun heven hready => ⟨fun hoff => ?_, fun hunlocked hpg => ⟨fun hout => ?_, fun hin hbytes => ?_⟩⟩⟩
    · rw [startErase_busy hbusy]; rfl
    · rw [startErase_locked hready hlock]; rfl
    · rw [startErase_outside hready hunlocked hout]; rfl
    · rw [writeFlash_width hwidth]; rfl
    · rw [writeFlash_odd hodd]; rfl
    · rw [writeFlash_busy heven hbusy]; rfl
    · rw [writeFlash_ignored heven hready hoff]; rfl
    · rw [writeFlash_outside heven hready hunlocked hpg hout]; rfl
    · rw [writeFlash_notErased heven hready hunlocked hpg hin hbytes]; rfl

/-- Settles O31: what a completion leaves of the controller is `completeFlash`'s, of the array `flashByte_completeFlash_erase`
and `flashByte_completeFlash_prog`. -/
theorem flashOperationCompletes : Obligations.FlashOperationCompletes := by
  refine fun s hflash => ⟨fun hop => ?_, fun a hop => ⟨completeFlash s, rfl, ?_, fun x _ => ?_⟩,
    fun a h hop => ⟨completeFlash s, rfl, ?_, flashByte_completeFlash_prog hflash hop⟩⟩
  · exact congrArg Outcome.next (completeFlash_none hop)
  · rw [completeFlash_erase hop]; rfl
  · exact flashByte_completeFlash_erase hop x
  · rw [completeFlash_prog hop]; rfl

/-! ### What changes the array -/

/-- With no operation in progress a hardware reset keeps the array (10_state.md R50). -/
theorem hardwareReset_flash (s : State) (magic : Half) :
    (hardwareReset s magic).flash = s.flash ∨ s.fctl.pendingOp ≠ .none := by
  by_cases hop : s.fctl.pendingOp = .none
  · exact .inl (by simp [hardwareReset, flashAfterReset, hop])
  · exact .inr hop

/-- An effect keeps the array, or completes an operation, or interrupts one (R298, R299). -/
theorem Effect.flash {i : Instr} (heffect : Effect i s t) :
    t.flash = s.flash ∨ i = .flashcComplete ∨
      (s.fctl.pendingOp ≠ .none ∧ (i = .hwReset ∨ i = .hwPowerloss ∨ i = .bootSysreset ∨ i = .bootUpdatemode)) := by
  cases heffect with
  | inside hframe => exact .inl (by rw [hframe])
  | evaluated _ hframe => exact .inl (by rw [hframe])
  | completed hi => exact .inr (.inl hi)
  | reset hi => exact (hardwareReset_flash s _).imp_right fun hop => .inr ⟨hop, by tauto⟩
  | powerLost hi => exact (hardwareReset_flash s _).imp_right fun hop => .inr ⟨hop, .inr (.inl hi)⟩

/-- Settles O11: an operation leaves one of its effects (`exec_leaves`), and recording a fault does not touch the array. -/
theorem flashChangesOnlyAtCompletion : Obligations.FlashChangesOnlyAtCompletion := by
  intro i s t hnext
  obtain ⟨u, heffect, rfl | ⟨f, rfl⟩⟩ := exec_leaves i hnext <;> exact heffect.flash

end Sys2Proof.Machine
end

section
/-! PROOFS. The flash sequencer (46_flash_page_programmer.md R291): the entry of `writePage`, and what each of its steps leaves on an
unlocked and on a locked controller. -/

namespace Sys2Proof.Machine

variable {s t : State} {a : Word} {b0 b1 : Byte}

/-! ### The entry -/

theorem exec_flashWritepage (hseq : SequencerIdle s) (a : Word) (data : PageSource) (size : Half) :
    exec (.flashWritepage a data size) s = finish (startWritePage s a data size .alone) := unitStep_idle _ hseq

/-- The data operand is long enough unless it is literal and short (R291). -/
theorem pageSize_le_sourceLength {data : PageSource} (h : ∀ d, data = .literal d → 1024 ≤ d.length) :
    Config.pageSize ≤ sourceLength data := by
  cases data with
  | pageBuf => exact le_refl _
  | literal d => exact h d rfl

/-- The entry of a direct call (R291). -/
theorem exec_flashWritepage_begins (hseq : SequencerIdle s) (a : Word) {data : PageSource}
    (hdata : Config.pageSize ≤ sourceLength data) : exec (.flashWritepage a data 1024) s =
      .next (s.withFseq { state := .unlock, addr := a, i := 0, source := data, caller := .alone }) := by
  rw [exec_flashWritepage hseq, startWritePage, if_neg (by simpa using hdata)]
  rfl

/-- Settles O32: the sequencer begins unless the size or the data operand is refused. -/
theorem writePageBegins : Obligations.WritePageBegins := by
  refine fun s a data size hseq => ⟨?begins, fun hbad => ?refused⟩
  case begins =>
    rintro rfl hdata
    exact exec_flashWritepage_begins hseq a (pageSize_le_sourceLength hdata)
  case refused =>
    have hbad : size ≠ 1024 ∨ sourceLength data < Config.pageSize :=
      hbad.imp_right fun ⟨d, hd, hshort⟩ => by rw [hd]; exact hshort
    rw [exec_flashWritepage hseq, startWritePage, if_pos hbad]
    rfl

/-! ### One step -/

/-- While the sequencer runs, DISP.CTR is its step (R292). -/
theorem exec_dispCtr_of_fseqStep (hrun : s.fseq.state ≠ .idle) (hstep : fseqStep s = .ok t) : exec .dispCtr s = .next t :=
  (if_neg hrun).trans (congrArg finish hstep)

/-- F_UNLOCK. -/
theorem exec_dispCtr_unlock (hstate : s.fseq.state = .unlock) :
    exec .dispCtr s = .next (setFseqState (unlockFlash s) .waitIdle) :=
  exec_dispCtr_of_fseqStep (by simp [hstate]) (by simp [fseqStep, hstate])

/-- A wait while BSY is set. -/
theorem exec_dispCtr_waits (hstate : s.fseq.state = .waitIdle ∨ s.fseq.state = .waitErase ∨ s.fseq.state = .waitProg)
    (hbusy : s.fctl.bsy = true) : exec .dispCtr s = .next s := by
  rcases hstate with hstate | hstate | hstate <;>
    exact exec_dispCtr_of_fseqStep (by simp [hstate]) (by simp [fseqStep, hstate, hbusy])

section Ready
variable (hready : s.fctl.bsy = false)

/-- F_ERASE. -/
theorem exec_dispCtr_erase (hstate : s.fseq.state = .erase) (hstart : startErase s s.fseq.addr = .ok t) :
    exec .dispCtr s = .next (setFseqState t .waitErase) :=
  exec_dispCtr_of_fseqStep (by simp [hstate]) (by simp only [fseqStep, hstate, hstart, Res.ok_bind])

include hready

/-- F_WAIT_IDLE. -/
theorem exec_dispCtr_waitIdle (hstate : s.fseq.state = .waitIdle) : exec .dispCtr s = .next (setFseqState s .erase) :=
  exec_dispCtr_of_fseqStep (by simp [hstate]) (by simp [fseqStep, hstate, hready])

/-- F_WAIT_ERASE with the erase done. -/
theorem exec_dispCtr_waitErase (hstate : s.fseq.state = .waitErase) (hclear : writeCr s 0x00000000 = .ok t) :
    exec .dispCtr s = .next (setFseqState t .prog) :=
  exec_dispCtr_of_fseqStep (by simp [hstate])
    (by simp only [fseqStep, hstate, hready, hclear, Bool.false_eq_true, if_false, Res.ok_bind])

/-- F_WAIT_PROG with a halfword done that is not the last. -/
theorem exec_dispCtr_waitProg_next (hstate : s.fseq.state = .waitProg) (hi : s.fseq.i.toNat < 511) :
    exec .dispCtr s = .next (s.withFseq { s.fseq with i := s.fseq.i + 1, state := .prog }) := by
  have hnext : (s.fseq.i + 1).toNat < 512 := by bv_omega
  exact exec_dispCtr_of_fseqStep (by simp [hstate])
    (by simp only [fseqStep, hstate, hready, State.withFseq_fseq, if_pos hnext, Bool.false_eq_true, if_false]; rfl)

/-- F_WAIT_PROG with the last halfword done. -/
theorem exec_dispCtr_waitProg_last (hstate : s.fseq.state = .waitProg) (hi : s.fseq.i.toNat = 511)
    (hclear : writeCr (s.withFseq { s.fseq with i := 512 }) 0x00000000 = .ok t) :
    exec .dispCtr s = .next (setFseqState t .lock) := by
  have hnext : s.fseq.i + 1 = 512 := by bv_omega
  simp only [hstate] at hclear
  exact exec_dispCtr_of_fseqStep (by simp [hstate])
    (by simp only [fseqStep, hstate, hready, hnext, hclear, Bool.false_eq_true, if_false]; rfl)

omit hready in
/-- F_LOCK of a direct call, whose continuation is empty (R292). -/
theorem exec_dispCtr_lock (hstate : s.fseq.state = .lock) (hcaller : t.fseq.caller = .alone)
    (hlock : writeCr s 0x00000080 = .ok t) : exec .dispCtr s = .next (setFseqState t .idle) :=
  exec_dispCtr_of_fseqStep (by simp [hstate])
    (by simp only [fseqStep, hstate, hlock, Res.ok_bind, continueCaller, setFseqState, State.withFseq_fseq, hcaller])

end Ready

/-! ### The programming step -/

/-- A written byte of the page buffer (R291 (c)). -/
theorem sourceByte_pageBuf (hsource : s.fseq.source = .pageBuf) {k : Nat} (hk : k < 1024)
    (hread : s.hid.pageBuf.read? k = some b0) : sourceByte s k = .ok b0 := by
  simp only [sourceByte, hsource, Config.pageSize, if_pos hk, pageByte, hread, Option.getD_some]

/-- A byte of literal data (R291). -/
theorem sourceByte_literal {d : List Byte} (hsource : s.fseq.source = .literal d) {k : Nat} (hread : d[k]? = some b0) :
    sourceByte s k = .ok b0 := by
  simp only [sourceByte, hsource, hread]

/-- The controller's registers are no part of the data operand. -/
theorem sourceByte_withFctl {k : Nat} (hread : sourceByte s k = .ok b0) (f : FlashCtl) :
    sourceByte (s.withFctl f) k = .ok b0 := by
  unfold sourceByte at hread ⊢
  rw [State.withFctl_fseq]
  split at hread
  · split at hread
    · next hk => exact (if_pos hk).trans hread
    · cases hread
  · split at hread
    · exact hread
    · cases hread

/-- F_PROG: the mode, the two bytes, the write; the controller's registers are no part of what the bytes come from. -/
theorem exec_dispCtr_prog {f : FlashCtl} (hstate : s.fseq.state = .prog)
    (hlow : sourceByte s (2 * s.fseq.i.toNat) = .ok b0) (hhigh : sourceByte s (2 * s.fseq.i.toNat + 1) = .ok b1)
    (hmode : writeCr s 0x00000001 = .ok (s.withFctl f))
    (hwrite : writeFlash (s.withFctl f) .w16 (s.fseq.addr + 2 * zext32 s.fseq.i) (le16 b0 b1) = .ok t) :
    exec .dispCtr s = .next (setFseqState t .waitProg) := by
  refine exec_dispCtr_of_fseqStep (by simp [hstate]) ?_
  simp only [fseqStep, hstate, hmode, Res.ok_bind, State.withFctl_fseq, sourceByte_withFctl hlow, sourceByte_withFctl hhigh,
    hwrite]

/-- The state with the mode set and the program of a halfword started (R291, R296). -/
def halfwordStarted (s : State) (a : Word) (h : Half) : State :=
  s.withFctl { s.fctl with pg := true, per := false, bsy := true, pendingOp := .prog a h }

/-- The write of an erased halfword in the mode that F_PROG has set (R291, R296). -/
theorem writeFlash_inMode {f : FlashCtl} (hmode : f = { s.fctl with pg := true, per := false }) (hready : s.fctl.bsy = false)
    (hunlocked : s.fctl.lock = false) (heven : a.toNat % 2 = 0) (hin : inFlash s.par a.toNat = true)
    (hlow : flashByte s a.toNat = 0xFF) (hhigh : flashByte s (a.toNat + 1) = 0xFF) (h : Half) :
    writeFlash (s.withFctl f) .w16 a h = .ok (halfwordStarted s a h) := by
  subst hmode
  exact writeFlash_start (s := s.withFctl { s.fctl with pg := true, per := false }) heven hready hunlocked rfl hin hlow hhigh h

/-- Settles O34: the mode and the write of the halfword by the controller's state. -/
theorem sequencerProgramsHalfword : Obligations.SequencerProgramsHalfword := by
  rintro s b0 b1 a hindex hstate hready rfl heven hdata
  have hi : s.fseq.i.toNat < 512 := by rwa [SequencerIndexOk, hstate] at hindex
  obtain ⟨hlow, hhigh⟩ : sourceByte s (2 * s.fseq.i.toNat) = .ok b0 ∧ sourceByte s (2 * s.fseq.i.toNat + 1) = .ok b1 := by
    rcases hdata with ⟨hsource, h0, h1⟩ | ⟨d, hsource, h0, h1⟩
    · exact ⟨sourceByte_pageBuf hsource (by omega) h0, sourceByte_pageBuf hsource (by omega) h1⟩
    · exact ⟨sourceByte_literal hsource h0, sourceByte_literal hsource h1⟩
  refine ⟨fun hunlocked hin hlowErased hhighErased => ?_, fun hlock => ?_⟩
  · exact exec_dispCtr_prog hstate hlow hhigh (writeCr_programming hready hunlocked)
      (writeFlash_inMode rfl hready hunlocked heven hin hlowErased hhighErased _)
  · exact exec_dispCtr_prog hstate hlow hhigh (f := s.fctl) (writeCr_ignored hready hlock (by decide))
      (writeFlash_ignored heven hready (.inl hlock) _)

/-- Settles O33: each step by its line of R291; what its write of the controller does is `unlockFlash`'s, `startErase`'s or
`writeCr`'s case. -/
theorem sequencerStepsInOrder : Obligations.SequencerStepsInOrder := by
  rintro s key rfl
  refine ⟨fun hstate hkey => ?k0, fun hstate hkey => ?k1, fun hstate hkey => ?blocked, exec_dispCtr_waits,
    fun hready => ⟨exec_dispCtr_waitIdle hready, exec_dispCtr_waitProg_next hready⟩,
    fun hready hunlocked => ?unlocked, fun hready hlock => ?locked⟩
  case k0 => rw [exec_dispCtr_unlock hstate, unlockFlash_k0 hkey]; rfl
  case k1 => rw [exec_dispCtr_unlock hstate, unlockFlash_k1 hkey]; rfl
  case blocked => rw [exec_dispCtr_unlock hstate, unlockFlash_blocked hkey]; rfl
  case unlocked =>
    exact ⟨fun hstate hin => exec_dispCtr_erase hstate (startErase_start hready hunlocked hin),
      fun hstate => exec_dispCtr_waitErase hready hstate (writeCr_clear hready hunlocked),
      fun hstate hi => exec_dispCtr_waitProg_last hready hstate hi (writeCr_clear hready hunlocked),
      fun hstate hcaller => exec_dispCtr_lock hstate hcaller (writeCr_lockAlone hready hunlocked)⟩
  case locked =>
    exact ⟨fun hstate => exec_dispCtr_erase hstate (startErase_locked hready hlock _),
      fun hstate => exec_dispCtr_waitErase hready hstate (writeCr_ignored hready hlock (by decide)),
      fun hstate hi => exec_dispCtr_waitProg_last hready hstate hi (writeCr_ignored hready hlock (by decide)),
      fun hstate hcaller => exec_dispCtr_lock hstate hcaller (writeCr_relock hready hlock)⟩

end Sys2Proof.Machine
end

section
/-! PROOFS. A whole `writePage` by a direct call with literal data (46_flash_page_programmer.md R291, R297 (d), R300), each step followed
at once by the controller's completion: the erase, the 512 halfwords, the lock; and the same steps on a blocked controller. -/

namespace Sys2Proof.Machine

variable {s t u v w : State} {a : Word} {d : List Byte} {n m : Nat} {x y : FseqState}

/-! ### Rounds -/

/-- A round before the others. -/
theorem sequencerRounds_step (hround : sequencerRound s = some t) (hthen : sequencerRounds n t = some u) :
    sequencerRounds (n + 1) s = some u := by
  rw [sequencerRounds, hround]
  exact hthen

/-- Rounds after rounds. -/
theorem sequencerRounds_trans (hfirst : sequencerRounds m s = some t) (hthen : sequencerRounds n t = some u) :
    sequencerRounds (m + n) s = some u := by
  induction m generalizing s with
  | zero =>
    cases hfirst
    rw [Nat.zero_add, hthen]
  | succ m ih =>
    obtain ⟨r, hround, hrest⟩ := Option.bind_eq_some_iff.1 hfirst
    rw [Nat.succ_add]
    exact sequencerRounds_step hround (ih hrest)

/-- The state with a direct `writePage` of literal data under way: where the sequencer stands and its halfword index. -/
def writingPage (s : State) (a : Word) (d : List Byte) (x : FseqState) (n : Nat) : State :=
  s.withFseq ⟨x, a, BitVec.ofNat 16 n, .literal d, .alone⟩

/-- The completion does not look at the sequencer. -/
theorem completeFlash_writingPage : completeFlash (writingPage s a d x n) = writingPage (completeFlash s) a d x n := by
  unfold completeFlash
  simp only [writingPage, State.withFseq_fctl]
  split <;> rfl

/-- A step of the sequencer and the completion of what it started. -/
theorem sequencerRound_of_step (hstep : exec .dispCtr (writingPage s a d x n) = .next (writingPage t a d y m)) :
    sequencerRound (writingPage s a d x n) = some (writingPage (completeFlash t) a d y m) := by
  rw [← completeFlash_writingPage, sequencerRound, hstep]
  rfl

/-- A step of the sequencer that leaves nothing to complete. -/
theorem sequencerRound_of_quietStep (hstep : exec .dispCtr (writingPage s a d x n) = .next (writingPage t a d y m))
    (hop : t.fctl.pendingOp = .none) : sequencerRound (writingPage s a d x n) = some (writingPage t a d y m) := by
  rw [sequencerRound_of_step hstep, completeFlash_none hop]

/-- What a write of FLASH_CR leaves has nothing to do with the sequencer. -/
theorem writeCr_writingPage {value : Word} (hwrite : writeCr s value = .ok t) :
    writeCr (writingPage s a d x n) value = .ok (writingPage t a d x n) := by
  unfold writeCr at hwrite
  dsimp only at hwrite
  split_ifs at hwrite <;> cases hwrite
  all_goals simp only [writeCr, writingPage, State.withFseq_fctl, State.withFseq_par, if_true, *]
  all_goals rfl

/-- Nor has what the start of an erase leaves. -/
theorem startErase_writingPage (hstart : startErase s a = .ok t) :
    startErase (writingPage s a d x n) a = .ok (writingPage t a d x n) := by
  obtain ⟨u, hmode, hrest⟩ := Res.bind_eq_ok hstart
  obtain ⟨v, haddr, herase⟩ := Res.bind_eq_ok hrest
  have haddr' : writeAr (writingPage u a d x n) a = .ok (writingPage v a d x n) := by
    unfold writeAr at haddr
    split_ifs at haddr <;> cases haddr
    all_goals simp only [writeAr, writingPage, State.withFseq_fctl, if_true, *]
    all_goals rfl
  rw [startErase, writeCr_writingPage hmode, Res.ok_bind, haddr', Res.ok_bind, writeCr_writingPage herase]

/-! ### One round of each kind -/

/-- The controller is idle: nothing to wait for and nothing to complete. -/
structure FlashIdle (s : State) : Prop where
  ready : s.fctl.bsy = false
  pending : s.fctl.pendingOp = .none

theorem Inv.flashIdle (hinv : Inv s) (hready : s.fctl.bsy = false) : FlashIdle s :=
  ⟨hready, (hinv.control.idle hready).1⟩

theorem round_unlock (hunlock : unlockFlash s = t) (hidle : FlashIdle t) :
    sequencerRound (writingPage s a d .unlock n) = some (writingPage t a d .waitIdle n) := by
  subst hunlock
  exact sequencerRound_of_quietStep (exec_dispCtr_unlock rfl) hidle.pending

theorem round_waitIdle (hidle : FlashIdle s) :
    sequencerRound (writingPage s a d .waitIdle n) = some (writingPage s a d .erase n) :=
  sequencerRound_of_quietStep (exec_dispCtr_waitIdle hidle.ready rfl) hidle.pending

theorem round_erase (hstart : startErase s a = .ok t) :
    sequencerRound (writingPage s a d .erase n) = some (writingPage (completeFlash t) a d .waitErase n) :=
  sequencerRound_of_step (exec_dispCtr_erase rfl (startErase_writingPage hstart))

theorem round_waitErase (hready : s.fctl.bsy = false) (hclear : writeCr s 0x00000000 = .ok t) (hidle : FlashIdle t) :
    sequencerRound (writingPage s a d .waitErase n) = some (writingPage t a d .prog n) :=
  sequencerRound_of_quietStep
    (exec_dispCtr_waitErase (s := writingPage s a d .waitErase n) hready rfl (writeCr_writingPage hclear)) hidle.pending

theorem halfwordIndex_toNat (hn : n < 512) : (BitVec.ofNat 16 n).toNat = n := by
  rw [BitVec.toNat_ofNat]
  omega

theorem round_waitProg_next (hidle : FlashIdle s) (hn : n < 511) :
    sequencerRound (writingPage s a d .waitProg n) = some (writingPage s a d .prog (n + 1)) := by
  have hi : (writingPage s a d .waitProg n).fseq.i.toNat < 511 := (halfwordIndex_toNat (by omega)).trans_lt hn
  have hstep := exec_dispCtr_waitProg_next (s := writingPage s a d .waitProg n) hidle.ready rfl hi
  refine sequencerRound_of_quietStep (hstep.trans ?_) hidle.pending
  rw [writingPage, writingPage, BitVec.ofNat_add]
  rfl

theorem round_waitProg_last (hready : s.fctl.bsy = false) (hclear : writeCr s 0x00000000 = .ok t) (hidle : FlashIdle t) :
    sequencerRound (writingPage s a d .waitProg 511) = some (writingPage t a d .lock 512) :=
  sequencerRound_of_quietStep (exec_dispCtr_waitProg_last (s := writingPage s a d .waitProg 511) hready rfl rfl
    (writeCr_writingPage (s := s) (x := .waitProg) (n := 512) hclear)) hidle.pending

theorem round_lock (hlock : writeCr s 0x00000080 = .ok t) (hidle : FlashIdle t) :
    sequencerRound (writingPage s a d .lock n) = some (writingPage t a d .idle n) :=
  sequencerRound_of_quietStep
    (exec_dispCtr_lock (s := writingPage s a d .lock n) rfl rfl (writeCr_writingPage hlock)) hidle.pending

/-! ### All the rounds -/

section Rounds
variable {P : Nat → State → Prop} (hidle : ∀ n v, P n v → FlashIdle v)
  (hprogram : ∀ n v, n < 512 → P n v →
    ∃ w, sequencerRound (writingPage v a d .prog n) = some (writingPage w a d .waitProg n) ∧ P (n + 1) w)
include hidle hprogram

/-- The programming loop: what holds of the state before the first halfword and is kept by each holds after the last. -/
theorem rounds_program (hstart : P 0 v) (hn : n < 512) :
    ∃ w, sequencerRounds (2 * n + 1) (writingPage v a d .prog 0) = some (writingPage w a d .waitProg n) ∧ P (n + 1) w := by
  induction n with
  | zero =>
    obtain ⟨w, hround, hw⟩ := hprogram 0 v hn hstart
    exact ⟨w, sequencerRounds_step hround rfl, hw⟩
  | succ n ih =>
    obtain ⟨w, hrounds, hw⟩ := ih (by omega)
    obtain ⟨r, hround, hr⟩ := hprogram (n + 1) w hn hw
    have hnext := round_waitProg_next (a := a) (d := d) (hidle _ _ hw) (by omega : n < 511)
    refine ⟨r, ?_, hr⟩
    show sequencerRounds (2 * n + 1 + 2) _ = _
    exact sequencerRounds_trans hrounds (sequencerRounds_step hnext (sequencerRounds_step hround rfl))

/-- The whole of `writePage`: four rounds to the erased page, 1023 for the halfwords, two to the end (R291). -/
theorem rounds_writePage {Q : State → Prop} (hunlock : unlockFlash s = t) (htidle : FlashIdle t)
    (herase : startErase t a = .ok u) (hready : (completeFlash u).fctl.bsy = false)
    (hclear : writeCr (completeFlash u) 0x00000000 = .ok v) (hstart : P 0 v)
    (hend : ∀ w, P 512 w → ∃ x y, writeCr w 0x00000000 = .ok x ∧ FlashIdle x ∧ writeCr x 0x00000080 = .ok y ∧
      FlashIdle y ∧ Q y) :
    ∃ y, sequencerRounds 1029 (writingPage s a d .unlock 0) = some (writingPage y a d .idle 512) ∧ Q y := by
  obtain ⟨w, hhalfwords, hw⟩ := rounds_program hidle hprogram hstart (by decide : 511 < 512)
  obtain ⟨x, y, hlast, hxidle, hlock, hyidle, hy⟩ := hend w hw
  have herased : sequencerRounds 4 (writingPage s a d .unlock 0) = some (writingPage v a d .prog 0) :=
    sequencerRounds_step (round_unlock hunlock htidle) <| sequencerRounds_step (round_waitIdle htidle) <|
      sequencerRounds_step (round_erase herase) <|
      sequencerRounds_step (round_waitErase hready hclear (hidle 0 v hstart)) rfl
  have hended : sequencerRounds 2 (writingPage w a d .waitProg 511) = some (writingPage y a d .idle 512) :=
    sequencerRounds_step (round_waitProg_last (hidle _ w hw).ready hlast hxidle) <|
      sequencerRounds_step (round_lock hlock hyidle) rfl
  exact ⟨y, sequencerRounds_trans (sequencerRounds_trans herased hhalfwords) hended, hy⟩

end Rounds

/-! ### The addresses and the data -/

/-- The address of a page of the array (20_memory.md R71). -/
theorem page_toNat {p : Params} (hp : p.flashOk) {page : Nat} (hpage : page < p.flashPages.toNat) :
    (BitVec.ofNat 32 (p.flashBase.toNat + 1024 * page)).toNat = p.flashBase.toNat + 1024 * page := by
  obtain ⟨_, _, htop⟩ := hp
  simp only [Config.pageSize] at htop
  rw [BitVec.toNat_ofNat]
  omega

/-- A page of the array, by the address it begins at. -/
structure PageAt (p : Params) (a : Word) : Prop where
  page : ∃ page, page < p.flashPages.toNat ∧ a.toNat = p.flashBase.toNat + 1024 * page
  params : p.flashOk

section Page
variable {p : Params} (hpage : PageAt p a)
include hpage

/-- The halfwords of a page lie in it, without wrapping. -/
theorem PageAt.halfword_toNat (hn : n < 512) : (a + 2 * zext32 (BitVec.ofNat 16 n)).toNat = a.toNat + 2 * n := by
  obtain ⟨⟨page, hlt, ha⟩, _, _, htop⟩ := hpage
  simp only [Config.pageSize] at htop
  have hunit : (2 : Word).toNat = 2 := rfl
  rw [BitVec.toNat_add, BitVec.toNat_mul, zext32_toNat, halfwordIndex_toNat hn, hunit]
  omega

theorem PageAt.even (k : Nat) : (a.toNat + 2 * k) % 2 = 0 := by
  obtain ⟨⟨page, hlt, ha⟩, hbase, _⟩ := hpage
  simp only [Config.pageSize] at hbase
  omega

theorem PageAt.inFlash {k : Nat} (hk : k < 1024) : inFlash p (a.toNat + k) = true := by
  obtain ⟨⟨page, hlt, ha⟩, _⟩ := hpage
  rw [inFlash_iff]
  omega

theorem PageAt.pageStart : pageStart p a = a.toNat := by
  obtain ⟨⟨page, hlt, ha⟩, _⟩ := hpage
  simp only [Machine.pageStart, Config.pageSize]
  omega

end Page

/-- The programming step on literal data: on an unlocked controller the halfword is started and completed, on a locked one
nothing but the sequencer moves (R296, R297 (d)). -/
theorem round_prog (hpage : PageAt s.par a) (hn : n < 512) (hlength : 1024 ≤ d.length) (hidle : FlashIdle s) :
    (s.fctl.lock = false → flashByte s (a.toNat + 2 * n) = 0xFF → flashByte s (a.toNat + 2 * n + 1) = 0xFF →
      sequencerRound (writingPage s a d .prog n) = some (writingPage (completeFlash
        (halfwordStarted s (a + 2 * zext32 (BitVec.ofNat 16 n)) (le16 d[2 * n] d[2 * n + 1]))) a d .waitProg n)) ∧
    (s.fctl.lock = true → sequencerRound (writingPage s a d .prog n) = some (writingPage s a d .waitProg n)) := by
  have hi := halfwordIndex_toNat hn
  have hword := hpage.halfword_toNat hn
  obtain ⟨hunlocked, hlocked⟩ := sequencerProgramsHalfword (writingPage s a d .prog n) d[2 * n] d[2 * n + 1] _
    (hi.trans_lt hn) rfl hidle.ready rfl (by exact hword ▸ hpage.even n)
    (.inr ⟨d, rfl, by simp [writingPage, hi], by simp [writingPage, hi]⟩)
  refine ⟨fun hfree hlow hhigh => sequencerRound_of_step (hunlocked hfree ?_ ?_ ?_),
    fun hlock => sequencerRound_of_quietStep (hlocked hlock) hidle.pending⟩
  · exact hword ▸ hpage.inFlash (by omega)
  · exact hword ▸ hlow
  · exact hword ▸ hhigh

/-! ### On a blocked controller -/

/-- A blocked controller keeps everything but the sequencer as it is (R297 (d)). -/
theorem rounds_blocked (hpage : PageAt s.par a) (hlength : 1024 ≤ d.length) (hidle : FlashIdle s)
    (hlock : s.fctl.lock = true) (hkey : s.fctl.keyState = .blocked) :
    sequencerRounds 1029 (writingPage s a d .unlock 0) = some (writingPage s a d .idle 512) := by
  have hclear : writeCr s 0x00000000 = .ok s := writeCr_ignored hidle.ready hlock (by decide)
  have hrelock : writeCr s 0x00000080 = .ok s := by
    rw [writeCr_locked hidle.ready hlock, lockFlash_of_blocked hlock hkey]
    rfl
  have hcomplete := completeFlash_none hidle.pending
  obtain ⟨_, hrounds, rfl⟩ := rounds_writePage (d := d) (P := fun _ v => v = s) (Q := (· = s)) (fun _ _ hv => hv ▸ hidle)
    (fun n v hn hv => ⟨v, by subst hv; exact (round_prog hpage hn hlength hidle).2 hlock, hv⟩)
    (unlockFlash_blocked hkey) hidle (startErase_locked hidle.ready hlock a) (hcomplete.symm ▸ hidle.ready)
    (hcomplete.symm ▸ hclear) rfl (by rintro _ rfl; exact ⟨_, _, hclear, hidle, hrelock, hidle, rfl⟩)
  exact hrounds

/-! ### On a controller that unlocks -/

/-- The state, the sequencer aside, when the page of `a` has been erased and the first `n` halfwords of `d` are written to it. -/
structure HalfwordsWritten (s : State) (a : Word) (d : List Byte) (n : Nat) (v : State) : Prop where
  frame : v = { s with flash := v.flash, fctl := v.fctl }
  inv : Inv v
  ready : v.fctl.bsy = false
  unlocked : v.fctl.lock = false
  written : ∀ k, k < 2 * n → some (flashByte v (a.toNat + k)) = d[k]?
  erased : ∀ k, 2 * n ≤ k → k < 1024 → flashByte v (a.toNat + k) = 0xFF
  outside : ∀ x, x < a.toNat ∨ a.toNat + 1024 ≤ x → flashByte v x = flashByte s x

/-- A part of a rule that ends, in a state of the invariant, having written the controller's registers only. -/
theorem Inv.of_fctlSide {r : Res State} (hinv : Inv s) (hpost : r.post (FctlSide s) (FctlSide s)) (hend : r = .ok t) :
    Inv t := by
  rw [hend] at hpost
  exact hpost.inv hinv

/-- The erase leaves the page of `a` for its first halfword (R291, R298). -/
theorem halfwordsWritten_zero (hinv : Inv s) (hpage : PageAt s.par a) (hready : s.fctl.bsy = false)
    (hunlocked : s.fctl.lock = false) (d : List Byte) :
    ∃ v, startErase s a = .ok (eraseStarted s a) ∧ (completeFlash (eraseStarted s a)).fctl.bsy = false ∧
      writeCr (completeFlash (eraseStarted s a)) 0x00000000 = .ok v ∧ HalfwordsWritten s a d 0 v := by
  have herase := startErase_start hready hunlocked (hpage.inFlash (k := 0) (by omega))
  have hcomplete := completeFlash_erase (s := eraseStarted s a) rfl
  have hready' : (completeFlash (eraseStarted s a)).fctl.bsy = false := by rw [hcomplete]; rfl
  have hunlocked' : (completeFlash (eraseStarted s a)).fctl.lock = false := by rw [hcomplete]; exact hunlocked
  have hclear := writeCr_clear hready' hunlocked'
  have hbytes (x : Nat) := flashByte_completeFlash_erase (s := eraseStarted s a) rfl x
  rw [show pageStart (eraseStarted s a).par a = a.toNat from hpage.pageStart, Config.pageSize] at hbytes
  exact ⟨_, herase, hready', hclear, {
    frame := by rw [hcomplete]; rfl
    inv := (completeFlash_inv (hinv.of_fctlSide (startErase_post s a) herase)).of_fctlSide (writeCr_post _ _) hclear
    ready := hready'
    unlocked := hunlocked'
    written := fun k hk => absurd hk (by omega)
    erased := fun k _ hk => (hbytes _).trans (if_pos (by omega))
    outside := fun x hx => (hbytes x).trans (if_neg (by omega)) }⟩

theorem halfwordStarted_inv (hinv : Inv s) (hready : s.fctl.bsy = false) (hunlocked : s.fctl.lock = false)
    (heven : a.toNat % 2 = 0) (hin : inFlash s.par a.toNat = true) (hlow : flashByte s a.toNat = 0xFF)
    (hhigh : flashByte s (a.toNat + 1) = 0xFF) (h : Half) : Inv (halfwordStarted s a h) :=
  (hinv.of_fctlSide (writeCr_post s _) (writeCr_programming hready hunlocked)).of_fctlSide (writeFlash_post _ _ _ _)
    (writeFlash_inMode rfl hready hunlocked heven hin hlow hhigh h)

/-- One more halfword (R296, R298). -/
theorem HalfwordsWritten.succ (hv : HalfwordsWritten s a d n v) (hpage : PageAt s.par a) (hn : n < 512)
    (hlength : 1024 ≤ d.length) :
    ∃ w, sequencerRound (writingPage v a d .prog n) = some (writingPage w a d .waitProg n) ∧
      HalfwordsWritten s a d (n + 1) w := by
  have hpage' : PageAt v.par a := by rw [hv.frame]; exact hpage
  have hword := hpage.halfword_toNat hn
  have hlow := hv.erased (2 * n) (by omega) (by omega)
  have hhigh := hv.erased (2 * n + 1) (by omega) (by omega)
  obtain ⟨hround, _⟩ := round_prog hpage' hn hlength (hv.inv.flashIdle hv.ready)
  set u := halfwordStarted v (a + 2 * zext32 (BitVec.ofNat 16 n)) (le16 d[2 * n] d[2 * n + 1]) with hu
  have hinv : Inv u := halfwordStarted_inv hv.inv hv.ready hv.unlocked (hword ▸ hpage.even n)
    (hword ▸ hpage'.inFlash (by omega)) (hword ▸ hlow) (hword ▸ hhigh) _
  have hcomplete := completeFlash_prog (s := u) rfl
  have hbytes (x : Nat) := flashByte_completeFlash_prog hinv.flash rfl x
  rw [hword, loByte_le16, hiByte_le16] at hbytes
  have hother (x : Nat) (hx : x < a.toNat + 2 * n ∨ a.toNat + 2 * n + 2 ≤ x) : flashByte (completeFlash u) x = flashByte v x :=
    (hbytes x).trans ((if_neg (by omega)).trans (if_neg (by omega)))
  exact ⟨completeFlash u, hround hv.unlocked hlow hhigh, {
    frame := by rw [hcomplete, hu, hv.frame]; rfl
    inv := completeFlash_inv hinv
    ready := by rw [hcomplete]; rfl
    unlocked := by rw [hcomplete]; exact hv.unlocked
    written := fun k hk => by
      rcases (by omega : k = 2 * n ∨ k = 2 * n + 1 ∨ k < 2 * n) with rfl | rfl | hk
      · rw [hbytes, if_pos rfl, List.getElem?_eq_getElem]
      · rw [hbytes, if_neg (by omega), if_pos (by omega), List.getElem?_eq_getElem]
      · rw [hother _ (by omega), hv.written k hk]
    erased := fun k hk hk' => by rw [hother _ (by omega), hv.erased k (by omega) hk']
    outside := fun x hx => by rw [hother x (by omega), hv.outside x hx] }⟩

/-- The page is written, the controller locks (R291). -/
theorem HalfwordsWritten.locks (hv : HalfwordsWritten s a d 512 v) :
    ∃ x y, writeCr v 0x00000000 = .ok x ∧ FlashIdle x ∧ writeCr x 0x00000080 = .ok y ∧ FlashIdle y ∧
      y = { s with flash := v.flash, fctl := y.fctl } ∧ y.fctl.crWord = 0x80 := by
  obtain ⟨hpending, hstrt⟩ := hv.inv.control.idle hv.ready
  refine ⟨_, _, writeCr_clear hv.ready hv.unlocked, ⟨hv.ready, hpending⟩,
    writeCr_lockAlone (by exact hv.ready) (by exact hv.unlocked), ⟨hv.ready, hpending⟩, ?_, ?_⟩
  · rw [hv.frame]; rfl
  · exact crWord_lockFlash (f := v.fctl) (v := 0x80) hstrt rfl

/-- From K0 the page is erased, written and the controller locked again (R291, R300). -/
theorem rounds_unlocking (hinv : Inv s) (hpage : PageAt s.par a) (hlength : 1024 ≤ d.length) (hready : s.fctl.bsy = false)
    (hkey : s.fctl.keyState = .k0) :
    ∃ y, sequencerRounds 1029 (writingPage s a d .unlock 0) = some (writingPage y a d .idle 512) ∧
      ∃ v, HalfwordsWritten (s.withFctl { s.fctl with lock := false }) a d 512 v ∧
        y = { s with flash := v.flash, fctl := y.fctl } ∧ y.fctl.crWord = 0x80 ∧ FlashIdle y := by
  have hunlocked : Inv (s.withFctl { s.fctl with lock := false }) :=
    unlockFlash_k0 hkey ▸ (unlockFlash_side s).inv hinv
  obtain ⟨v, herase, hready', hclear, hv⟩ := halfwordsWritten_zero hunlocked hpage hready rfl d
  refine rounds_writePage (P := HalfwordsWritten (s.withFctl { s.fctl with lock := false }) a d)
    (fun _ _ hw => hw.inv.flashIdle hw.ready) (fun n w hn hw => hw.succ hpage hn hlength) (unlockFlash_k0 hkey)
    (hunlocked.flashIdle hready) herase hready' hclear hv fun w hw => ?_
  obtain ⟨x, y, hlast, hxidle, hlock, hyidle, hframe, hcr⟩ := hw.locks
  exact ⟨x, y, hlast, hxidle, hlock, hyidle, w, hw, hframe, hcr, hyidle⟩

/-- Settles O10: the entry, then the rounds of an unlocking controller (`rounds_unlocking`) or of a blocked one
(`rounds_blocked`). -/
theorem writePageStoresThePage : Obligations.WritePageStoresThePage := by
  intro s p d hinv hseq hready hp hlength
  have htoNat := page_toNat hinv.params hp
  have hpage : PageAt s.par (BitVec.ofNat 32 (s.par.flashBase.toNat + 1024 * p)) := ⟨⟨p, hp, htoNat⟩, hinv.params⟩
  refine ⟨_, exec_flashWritepage_begins hseq _ (data := .literal d) hlength, fun hkey => ?stores, fun hkey hlock => ?blocked⟩
  case stores =>
    obtain ⟨y, hrounds, v, hv, hframe, hcr, hidle⟩ := rounds_unlocking hinv hpage hlength hready hkey
    have hbytes (x : Nat) : flashByte y x = flashByte v x := by rw [hframe]; rfl
    refine ⟨_, hrounds, ?_, fun k hk => ?_, fun x hx => ?_, rfl, hcr, ?_, hidle.pending⟩
    · rw [hframe]; rfl
    · rw [← htoNat]
      exact (congrArg some (hbytes _)).trans (hv.written k (by omega))
    · rw [← htoNat] at hx
      exact (hbytes x).trans (hv.outside x hx)
    · exact (FlashCtl.srWord_eq _).trans (if_neg (by exact ne_true_of_eq_false hidle.ready))
  case blocked =>
    exact ⟨_, rounds_blocked hpage hlength (hinv.flashIdle hready) hlock hkey, rfl, rfl⟩

end Sys2Proof.Machine
end

section
/-! PROOFS. What a step does when no operation runs (60_exceptions.md R322, 10_state.md R47, 40_boot_controller_interface.md R133,
R139). -/

namespace Sys2Proof.Machine

open Host (Outcome)

variable {s : State} {rest : List Stimulus}

/-- A recorded fault stops the run (60_exceptions.md R322; log 6). -/
theorem step_faulted {f : Fault} {fs : List Fault} (hfaults : s.faults = f :: fs) : step s = .fault f := by
  simp only [step, hfaults]

/-- With no stimulus no agent steps (log 1). -/
theorem step_noStimulus (hfaults : s.faults = []) (hinput : s.input = []) : step s = .next s := by
  simp only [step, hfaults, hinput]

/-- With no fault recorded the next stimulus is taken off and acts (log 1). -/
theorem step_stimulus {x : Stimulus} (hfaults : s.faults = []) (hinput : s.input = x :: rest) :
    step s = stepStimulus x (taken s rest) := by
  simp only [step, hfaults, hinput, taken]

/-- Bytes that encode no operation are refused by name. -/
theorem stepStimulus_undecodable {f : Format} {bytes : List Byte} {e : DecodeError} (hdecode : decode f bytes = .error e)
    (s : State) : stepStimulus (.op f bytes) s = .refused (.undecodable e) := by
  simp only [stepStimulus, hdecode]

/-- In LAUNCH the out-of-band trigger is a hardware reset with the Magic Word set (40_boot_controller_interface.md R133, R139). -/
theorem outOfBandTrigger_launch (hstate : s.boot.state = .launch) : outOfBandTrigger s = hardwareReset s Config.magic :=
  if_pos hstate

/-- Outside LAUNCH the application does not run, and the trigger does nothing (40_boot_controller_interface.md R133; log 33). -/
theorem outOfBandTrigger_notLaunch (hstate : s.boot.state ≠ .launch) : outOfBandTrigger s = s := if_neg hstate

/-- Settles O6: each stimulus by what it does once taken off (`step_stimulus`); the trigger's reset is column HW
(`hardwareReset_done`). -/
theorem stepWithoutOperation : Obligations.StepWithoutOperation := by
  intro s
  refine ⟨fun f fs => step_faulted, fun hfaults => ⟨step_noStimulus hfaults, fun rest =>
    ⟨fun f bytes e hinput hdecode => ?undecodable, fun b hinput => step_stimulus hfaults hinput,
      fun hinput hstate => ?notLaunch, fun hinput hstate hflash => ?launch⟩⟩⟩
  case undecodable => rw [step_stimulus hfaults hinput, stepStimulus_undecodable hdecode]
  case notLaunch =>
    rw [step_stimulus hfaults hinput]
    exact congrArg Outcome.next (outOfBandTrigger_notLaunch (s := taken s rest) hstate)
  case launch =>
    refine ⟨hardwareReset (taken s rest) Config.magic, ?_, hardwareReset_done (s := taken s rest) hflash _⟩
    rw [step_stimulus hfaults hinput]
    exact congrArg Outcome.next (outOfBandTrigger_launch (s := taken s rest) hstate)

end Sys2Proof.Machine
end

section
/-! PROOFS. Who moves the dispatcher in and out of IDLE (60_exceptions.md R326, R327, R331, 43_usb_packet_dispatcher.md R220 to
R223). Every routine but the entry, the status read and the hardware resets keeps it idle or keeps it busy (`IdleKept`), a fault
raised on the way included. -/

namespace Sys2Proof.Machine

open Host (Outcome)

/-! ### What keeps the dispatcher idle or busy -/

/-- The dispatcher is idle after just when it was before. -/
abbrev IdleKept (s t : State) : Prop := DispatcherIdle t ↔ DispatcherIdle s

/-- Both ends of a routine. -/
abbrev KeepsIdle (s : State) (r : Res State) : Prop := r.post (IdleKept s) (IdleKept s)

section Idle
variable {s t u : State} {r : Res State}

theorem IdleKept.ofDisp (h : t.disp = s.disp) : IdleKept s t := by rw [IdleKept, DispatcherIdle, h]

theorem IdleKept.refl (s : State) : IdleKept s s := Iff.rfl

theorem IdleKept.trans (h : IdleKept s t) (k : IdleKept t u) : IdleKept s u := Iff.trans k h

/-- A pass moves on from one turn to another (43_usb_packet_dispatcher.md R222). -/
theorem IdleKept.ofBusy (hs : ¬DispatcherIdle s) (ht : ¬DispatcherIdle t) : IdleKept s t := iff_of_false ht hs

/-- MAIN steps with the dispatcher idle, and leaves it so (00_scope.md R9). -/
theorem IdleKept.ofIdle (hs : DispatcherIdle s) (ht : DispatcherIdle t) : IdleKept s t := iff_of_true ht hs

theorem SourcesFrame.idleKept (h : SourcesFrame s t) : IdleKept s t := .ofDisp (by rw [h])

theorem UsbSide.idleKept (h : UsbSide s t) : IdleKept s t := .ofDisp (by rw [h.frame])

theorem FctlSide.idleKept (h : FctlSide s t) : IdleKept s t := .ofDisp (by rw [h.frame])

/-- A routine that ends normally. -/
theorem keepsIdle_ok (h : IdleKept s t) : KeepsIdle s (.ok t) := h

/-- A routine after a change. -/
theorem keepsIdle_after (h : IdleKept s t) (hr : KeepsIdle t r) : KeepsIdle s r :=
  Res.post_mono hr (fun _ k => h.trans k) fun _ k => h.trans k

/-- A routine in two parts. -/
theorem keepsIdle_bind {f : State → Res State} (hr : KeepsIdle s r) (hf : ∀ u, KeepsIdle u (f u)) : KeepsIdle s (r >>= f) :=
  Res.post_bind hr fun u hu => keepsIdle_after hu (hf u)

/-- A routine that begins with a read: a read raises in the state itself. -/
theorem keepsIdle_read {α : Type} {P : α → Prop} {x : Res α} {f : α → Res State} (hx : x.post P (· = s))
    (hf : ∀ a, KeepsIdle s (f a)) : KeepsIdle s (x >>= f) :=
  Res.post_bind (Res.post_mono hx (fun _ h => h) fun _ h => h ▸ IdleKept.refl s) fun a _ => hf a

/-- A routine that runs in some states only. -/
theorem keepsIdle_ite {c : Prop} [Decidable c] (h : KeepsIdle s r) : KeepsIdle s (if c then r else .ok s) := by
  split
  · exact h
  · exact IdleKept.refl s

/-- A routine behind a test of its operands. -/
theorem keepsIdle_unlessRefused {c : Prop} [Decidable c] {x : Refusal} (h : ¬c → KeepsIdle s r) :
    KeepsIdle s (if c then refuse x else r) := by
  split
  · trivial
  · next hc => exact h hc

/-- A routine of the USB side. -/
theorem keepsIdle_of_usbSide (h : r.post (UsbSide s) (UsbSide s)) : KeepsIdle s r :=
  Res.post_mono h (fun _ k => k.idleKept) fun _ k => k.idleKept

/-- A routine of the flash controller's registers. -/
theorem keepsIdle_of_fctlSide (h : r.post (FctlSide s) (FctlSide s)) : KeepsIdle s r :=
  Res.post_mono h (fun _ k => k.idleKept) fun _ k => k.idleKept

/-! ### The endpoint service -/

theorem appendPacket_keepsIdle (s : State) (rx : Packet8) : KeepsIdle s (appendPacket s rx) :=
  Res.post_mono (appendPacket_post s rx) (fun _ h => .ofDisp (by rw [h.1]; rfl)) fun _ h => h ▸ IdleKept.refl s

theorem runCommand_idleKept (s : State) (opcode : Byte) : IdleKept s (runCommand s opcode) := by
  unfold runCommand
  split_ifs <;> exact .refl s

theorem startWritePage_keepsIdle (s : State) (a : Word) (data : PageSource) (size : Half) (c : Caller) :
    KeepsIdle s (startWritePage s a data size c) :=
  keepsIdle_unlessRefused fun _ => keepsIdle_ok (.refl s)

theorem commitPage_keepsIdle (s : State) (c : Caller) : KeepsIdle s (commitPage s c) := by
  unfold commitPage
  split
  · exact IdleKept.refl s
  · exact startWritePage_keepsIdle s _ _ _ c

theorem hidData_keepsIdle (s : State) (rx : Packet8) (c : Caller) : KeepsIdle s (hidData s rx c) := by
  refine keepsIdle_bind (appendPacket_keepsIdle s rx) fun u => ?_
  split_ifs
  · exact runCommand_idleKept u _
  · exact commitPage_keepsIdle u c
  · exact .refl u

theorem receiveHook_keepsIdle (e : Ep) (c : Caller) (s : State) : KeepsIdle s (receiveHook e c s) := by
  unfold receiveHook
  split_ifs
  · exact keepsIdle_of_usbSide (handleSetup_post s _)
  · exact hidData_keepsIdle s _ c
  · exact IdleKept.refl s

theorem afterHook_keepsIdle (e : Ep) (s : State) : KeepsIdle s (afterHook e s) :=
  keepsIdle_ite (keepsIdle_of_usbSide (afterReceive_post s e))

/-- The endpoint service (42_usb_endpoint_buffer_manager.md R190). -/
theorem epService_keepsIdle (hseq : SequencerIdle s) (e : Ep) (c : Caller) : KeepsIdle s (epService s e c) := by
  cases hrx : (s.usb.ep e).ctrRx with
  | false =>
    rw [epService_of_not_received hrx]
    exact keepsIdle_of_usbSide (transmitHalf_post s e)
  | true =>
    rw [epService_of_received hseq hrx]
    exact keepsIdle_bind (keepsIdle_of_usbSide (takePacket_post s e)) fun u =>
      keepsIdle_bind (receiveHook_keepsIdle e c u) fun v => afterHook_keepsIdle e v

theorem serveEndpoint_keepsIdle (hseq : SequencerIdle s) (k : BitVec 4) (c : Caller) :
    KeepsIdle s (serveEndpoint s k c) := by
  unfold serveEndpoint
  split
  · exact epService_keepsIdle hseq _ c
  · exact IdleKept.refl s

/-- Transfer-complete (43_usb_packet_dispatcher.md R222). -/
theorem serveCtr_keepsIdle (hseq : SequencerIdle s) (k : BitVec 4) (c : Caller) : KeepsIdle s (serveCtr s k c) := by
  unfold serveCtr
  split
  · exact serveEndpoint_keepsIdle hseq k c
  · split <;> exact IdleKept.refl s

/-- EVT.CTR (43_usb_packet_dispatcher.md R222, 30_encoding.md R118). -/
theorem serveEvent_keepsIdle (hseq : SequencerIdle s) (w : Half) : KeepsIdle s (serveEvent s w) :=
  keepsIdle_bind (serveCtr_keepsIdle hseq _ _) fun u => keepsIdle_ite (laterThanCtr_frame w u).idleKept

/-- DO_CTR leaves the dispatcher in DO_CTR or takes it to DO_RESET (43_usb_packet_dispatcher.md R222). -/
theorem handleCtr_keepsIdle (hseq : SequencerIdle s) (hbusy : ¬DispatcherIdle s) : KeepsIdle s (handleCtr s) := by
  refine Res.post_bind (P' := IdleKept s) (keepsIdle_ite (serveCtr_keepsIdle hseq _ _)) fun u hu => ?_
  split
  · exact IdleKept.ofBusy hbusy nofun
  · exact hu

/-! ### The flash sequencer -/

/-- The rest of a commit (46_flash_page_programmer.md R292). -/
theorem finishCommit_keepsIdle (s : State) : KeepsIdle s (finishCommit s) :=
  keepsIdle_after (t := s.withHid { s.hid with pageIndex := s.hid.pageIndex + 1, pageOffset := 0 }) (.refl s)
    (keepsIdle_bind (keepsIdle_of_usbSide (acknowledge_post _)) fun u => keepsIdle_of_usbSide (afterReceive_post u .ep0))

/-- What F_LOCK goes on with: the dispatcher's own commit goes on with its pass, which was under way
(46_flash_page_programmer.md R292). -/
theorem continueCaller_keepsIdle (hpass : s.fseq.caller = .dispatcher → ¬DispatcherIdle s) :
    KeepsIdle s (continueCaller s) := by
  unfold continueCaller
  split
  · exact IdleKept.refl s
  · exact finishCommit_keepsIdle s
  · exact keepsIdle_bind (finishCommit_keepsIdle s) fun u => (laterThanCtr_frame _ u).idleKept
  · next hcaller => exact Res.post_bind (finishCommit_keepsIdle s) fun _ _ => IdleKept.ofBusy (hpass hcaller) nofun

/-- One step of the sequencer (46_flash_page_programmer.md R291). -/
theorem fseqStep_keepsIdle (hpass : s.fseq.caller = .dispatcher → ¬DispatcherIdle s) : KeepsIdle s (fseqStep s) := by
  have hcr : ∀ u v, KeepsIdle u (writeCr u v) := fun u v => keepsIdle_of_fctlSide (writeCr_post u v)
  have hmove : ∀ u x, KeepsIdle u (.ok (setFseqState u x)) := fun u _ => keepsIdle_ok (.refl u)
  cases hstate : s.fseq.state
  all_goals
    unfold fseqStep
    rw [hstate]
    dsimp only
  case idle => exact IdleKept.refl s
  case unlock => exact IdleKept.refl s
  case waitIdle => split <;> exact IdleKept.refl s
  case erase => exact keepsIdle_bind (keepsIdle_of_fctlSide (startErase_post s _)) fun u => hmove u _
  case waitErase =>
    split
    · exact IdleKept.refl s
    · exact keepsIdle_bind (hcr s _) fun u => hmove u _
  case prog =>
    refine keepsIdle_bind (hcr s _) fun u => ?_
    refine keepsIdle_read (sourceByte_post u _) fun b0 => keepsIdle_read (sourceByte_post u _) fun b1 => ?_
    exact keepsIdle_bind (keepsIdle_of_fctlSide (writeFlash_post u _ _ _)) fun v => hmove v _
  case waitProg =>
    split
    · exact IdleKept.refl s
    · split
      · exact IdleKept.refl s
      · exact keepsIdle_after (t := s.withFseq _) (.refl s) (keepsIdle_bind (hcr _ _) fun u => hmove u _)
  case lock =>
    refine Res.post_bind (Res.post_mono (writeCr_post s _) (fun _ h => h) fun _ h => h.idleKept) fun u hu => ?_
    refine keepsIdle_after (t := setFseqState u .idle) hu.idleKept (continueCaller_keepsIdle fun hcaller => ?_)
    refine mt hu.idleKept.1 (hpass ?_)
    rw [← hu.fseq]
    exact hcaller

/-! ### Register accesses and MAIN -/

theorem regWrite_keepsIdle (s : State) (win : Window) (width : Width) (offset : Half) (v : Word) :
    KeepsIdle s (regWrite s win width offset v) := by
  unfold regWrite
  split
  · cases win with
    | usbReg => exact IdleKept.refl s
    | flashReg => exact keepsIdle_of_fctlSide (flashRegWrite_fctlSide s _ v)
  · trivial

theorem accessUsb_keepsIdle (s : State) (offset : Half) (acc : Access 16) : KeepsIdle s (accessUsb s offset acc) := by
  cases acc with
  | read => exact keepsIdle_of_usbSide (regRead_usbSide s _ _ _)
  | write v => exact regWrite_keepsIdle s _ _ _ _

theorem accessFlashReg_keepsIdle (s : State) (offset : Half) (acc : Access 32) :
    KeepsIdle s (accessFlashReg s offset acc) := by
  cases acc with
  | read => exact keepsIdle_of_usbSide (regRead_usbSide s _ _ _)
  | write v => exact regWrite_keepsIdle s _ _ _ _

theorem evaluate_keepsIdle (s : State) : KeepsIdle s (evaluate s) :=
  keepsIdle_after (t := s.withBoot { s.boot with magic := 0 }) (.refl s)
    (keepsIdle_read (flashRead32_post _ _) fun _ => keepsIdle_ok (.refl s))

theorem launch_keepsIdle (s : State) : KeepsIdle s (launch s) :=
  keepsIdle_read (flashRead32_post s _) fun _ => keepsIdle_read (flashRead32_post s _) fun _ => keepsIdle_ok (.refl s)

/-- A MAIN step of UpdateMode leaves the dispatcher alone, or it is the hardware reset
(40_boot_controller_interface.md R135, R139). -/
theorem updateModeStep_idle (hidle : DispatcherIdle s) : DispatcherIdle (updateModeStep s) := by
  unfold updateModeStep
  split
  · exact hidle
  · exact hidle
  · exact hidle
  · rw [blinkIdle_eq]
    exact hidle
  · exact hidle
  · rfl

/-- What changes the array and the controller's registers only. -/
theorem completeFlash_idleKept (s : State) : IdleKept s (completeFlash s) := .ofDisp (by rw [completeFlash_frame])

/-! ### The outcome of an operation -/

/-- The outcome of a routine: recording a fault does not move the dispatcher. -/
theorem idleKept_finish (hnext : finish r = .next t) (h : KeepsIdle s r) : IdleKept s t :=
  finish_post h (fun _ _ k => k) hnext

/-- A routine of the interrupt context, held or run (46_flash_page_programmer.md R292). -/
theorem idleKept_unitStep (hnext : unitStep s r = .next t) (h : SequencerIdle s → KeepsIdle s r) : IdleKept s t := by
  obtain ⟨_, rfl⟩ | ⟨hidle, hnext⟩ := unitStep_cases hnext
  · exact .refl _
  · exact idleKept_finish hnext (h hidle)

/-- A step of MAIN, held or run (00_scope.md R9). -/
theorem idleKept_mainStep (hnext : mainStep s r = .next t) (h : DispatcherIdle s → KeepsIdle s r) : IdleKept s t := by
  obtain ⟨_, rfl⟩ | ⟨hidle, hnext⟩ := mainStep_cases hnext
  · exact .refl _
  · exact idleKept_finish hnext (h hidle)

/-- A turn of a pass, held or run: it ends in another turn (43_usb_packet_dispatcher.md R222). -/
theorem idleKept_turn {x y : DispState} (hnext : dispStep s x (.ok (setDispState u y)) = .next t) (hx : x ≠ .idle)
    (hy : y ≠ .idle) : IdleKept s t := by
  obtain rfl | ⟨⟨hturn, _⟩, hnext⟩ := dispStep_cases hnext
  · exact .refl _
  · exact idleKept_finish hnext (keepsIdle_ok (.ofBusy (hturn.trans_ne hx) hy))

/-- An event on the bus, seen while attached (43_usb_packet_dispatcher.md R211 to R213). -/
theorem idleKept_busEvent {x : Usb}
    (h : Outcome.next (if s.usb.attached then s.withUsb x else s) = (.next t : Outcome State Fault Refusal)) :
    IdleKept s t := by
  cases h
  split <;> exact .refl s

/-- DISP.CTR: the handler in DO_CTR, or the sequencer's step, whose commit, if it is the dispatcher's, runs in DO_CTR
(43_usb_packet_dispatcher.md R222, 46_flash_page_programmer.md R291, R292). -/
theorem execDispCtr_idleKept (hinv : Inv s) (h : execDispCtr s = .next t) : IdleKept s t := by
  unfold execDispCtr at h
  split at h
  · obtain rfl | ⟨⟨hturn, hidle⟩, h⟩ := dispStep_cases h
    · exact .refl _
    · exact idleKept_finish h (handleCtr_keepsIdle hidle (hturn.trans_ne nofun))
  · next hrun =>
    obtain ⟨_, _, hdispatcher⟩ := hinv.sequencer.2 hrun
    exact idleKept_finish h (fseqStep_keepsIdle fun hcaller => (hdispatcher hcaller).trans_ne nofun)

end Idle

/-! ### The entry and the return -/

section EveryOperation
variable {i : Instr} {s t : State}

/-- The flags of a snapshot that ask for a pass are the masked status (10_state.md R23, 43_usb_packet_dispatcher.md R221). -/
theorem Usb.snapshot_and_flags (u : Usb) : u.snapshot &&& 0x9C00 = u.istrHalf &&& u.cntr.toHalf &&& 0x9C00 := by
  have hapart : (0x001F : Half) &&& 0x9C00 = 0#16 := by decide
  rw [Usb.snapshot, Usb.maskedStatus, BitVec.and_or_distrib_right, BitVec.and_assoc _ 0x9C00, BitVec.and_self,
    BitVec.and_assoc _ 0x001F, hapart, BitVec.and_zero, BitVec.or_zero]

/-- How an operation moves the dispatcher: it keeps it idle or busy, or it is the entry, the exit of the status read, or a
hardware reset (60_exceptions.md R326, R327). -/
inductive DispatcherMove (i : Instr) (s t : State) : Prop
  | kept (idle : IdleKept s t)
  | entered (op : i = .dispEnter) (line : s.usb.irqLine = true) (read : t.disp.state = .read)
  | returned (op : i = .dispRead ∨ ∃ w, i = .evtNone w) (turn : s.disp.state = .read)
      (unflagged : s.usb.istrHalf &&& s.usb.cntr.toHalf &&& 0x9C00 = 0)
  | reset (op : i = .hwReset ∨ i = .hwPowerloss) (idle : DispatcherIdle t)

/-- DISP.ENTER is held, or it is the entry (43_usb_packet_dispatcher.md R220). -/
theorem execDispEnter_move (h : execDispEnter s = .next t) : DispatcherMove .dispEnter s t := by
  unfold execDispEnter at h
  split at h
  · next htaken =>
    cases h
    exact .entered rfl (interruptTaken_iff.1 htaken).2 rfl
  · cases h
    exact .kept (.refl _)

/-- The status read in READ begins a pass or returns (43_usb_packet_dispatcher.md R221, R223). -/
theorem readStatus_move (hop : i = .dispRead ∨ ∃ w, i = .evtNone w) (hturn : s.disp.state = .read) :
    DispatcherMove i s (readStatus s) := by
  by_cases hflags : s.usb.snapshot &&& 0x9C00 = 0
  · exact .returned hop hturn (s.usb.snapshot_and_flags ▸ hflags)
  · rw [readStatus_flagged hflags]
    exact .kept (.ofBusy (hturn.trans_ne nofun) nofun)

theorem execDispRead_move (h : execDispRead s = .next t) : DispatcherMove .dispRead s t := by
  obtain rfl | ⟨⟨hturn, _⟩, h⟩ := dispStep_cases h
  · exact .kept (.refl _)
  · cases h
    exact readStatus_move (.inl rfl) hturn

/-- EVT.NONE, enabled or not (log 19). -/
theorem execEvtNone_move {w : Half} (h : execEvtNone w s = .next t) : DispatcherMove (.evtNone w) s t := by
  obtain rfl | ⟨⟨hturn, _⟩, h⟩ := dispStep_cases h
  · exact .kept (.refl _)
  · cases h
    split
    · exact readStatus_move (.inr ⟨w, rfl⟩) hturn
    · exact .kept (.refl s)

/-- Every operation: the entry, the status read, the hardware resets, and the others, which keep the dispatcher idle or busy. -/
theorem exec_dispatcherMove (hinv : Inv s) (i : Instr) (h : exec i s = .next t) : DispatcherMove i s t := by
  cases i
  case dispEnter => exact execDispEnter_move h
  case dispRead => exact execDispRead_move h
  case evtNone => exact execEvtNone_move h
  case hwReset => cases h; exact .reset (.inl rfl) rfl
  case hwPowerloss => cases h; exact .reset (.inr rfl) rfl
  all_goals refine .kept ?_
  case dispCtr => exact execDispCtr_idleKept hinv h
  case dispReset | dispSusp | dispWkup => exact idleKept_turn h nofun nofun
  case epService k => exact idleKept_unitStep h fun hidle => serveEndpoint_keepsIdle hidle k _
  case evtCtr w => exact idleKept_unitStep h fun hidle => serveEvent_keepsIdle hidle w
  case evtReset w =>
    exact idleKept_unitStep h fun _ => keepsIdle_ok ((serveReset_frame s).trans (laterThanReset_frame w _)).idleKept
  case evtSusp w => exact idleKept_unitStep h fun _ => keepsIdle_ok (laterThanSusp_frame w (serveSusp s)).idleKept
  case evtWkup => exact idleKept_unitStep h fun _ => keepsIdle_ok (.refl s)
  case cmdResetPages | cmdReboot | cmdIgnored => exact idleKept_unitStep h fun _ => keepsIdle_ok (.refl s)
  case ackPage => exact idleKept_unitStep h fun _ => keepsIdle_of_usbSide (acknowledge_post s)
  case dataAppend | hidAppend => exact idleKept_unitStep h fun _ => appendPacket_keepsIdle s _
  case setupGetDescriptorDevice | setupGetDescriptorConfiguration | setupGetDescriptorReport | setupGetDescriptorString =>
    exact idleKept_unitStep h fun _ => keepsIdle_of_usbSide (answerDescriptor_post s _ _)
  case setupSetAddress => exact idleKept_unitStep h fun _ => keepsIdle_of_usbSide (requestAddress_post s _)
  case setupSetConfiguration => exact idleKept_unitStep h fun _ => keepsIdle_of_usbSide (requestConfiguration_post s)
  case setupOther => exact idleKept_unitStep h fun _ => keepsIdle_of_usbSide (answerEmpty_post s)
  case drvSenddata =>
    refine idleKept_unitStep h fun _ => ?_
    split
    · next hlength => exact keepsIdle_of_usbSide (sendData_post s _ hlength)
    · trivial
  case epTxchunk e => exact idleKept_unitStep h fun _ => keepsIdle_of_usbSide (txChunk_post s e)
  case epConfigure => exact idleKept_unitStep h fun _ => keepsIdle_ok (epConfigure_side s).idleKept
  case hidBusreset =>
    exact idleKept_unitStep h fun _ => keepsIdle_ok (IdleKept.trans (epConfigure_side s).idleKept (.ofDisp rfl))
  case bdtAddrTx | bdtCountTx | bdtAddrRx | bdtCountRx =>
    exact idleKept_unitStep h fun _ => keepsIdle_of_usbSide (accessBdt_post s _ _ _)
  case fopUnlock => exact idleKept_unitStep h fun _ => keepsIdle_ok (.refl s)
  case fopErasePage => exact idleKept_unitStep h fun _ => keepsIdle_of_fctlSide (startErase_post s _)
  case fopProgHalfword => exact idleKept_unitStep h fun _ => keepsIdle_of_fctlSide (writeFlash_post s _ _ _)
  case fopLock => exact idleKept_unitStep h fun _ => keepsIdle_of_fctlSide (writeCr_post s _)
  case flashWritepage => exact idleKept_unitStep h fun _ => startWritePage_keepsIdle s _ _ _ _
  case flashcComplete => cases h; exact completeFlash_idleKept s
  case regEp0r | regEp1r | regCntr | regIstr | regDaddr | regBtable => exact idleKept_finish h (accessUsb_keepsIdle s _ _)
  case regFlashKeyr | regFlashSr | regFlashCr | regFlashAr => exact idleKept_finish h (accessFlashReg_keepsIdle s _ _)
  case regRead => exact idleKept_finish h (keepsIdle_of_usbSide (regRead_usbSide s _ _ _))
  case regWrite => exact idleKept_finish h (regWrite_keepsIdle s _ _ _ _)
  case hostReset | hostSuspend | hostWakeup => exact idleKept_busEvent h
  case hostSetup | hostOut =>
    exact idleKept_finish h (keepsIdle_unlessRefused fun _ => keepsIdle_of_usbSide (offerPacket_post s _ _ _ _))
  case hostIn =>
    exact idleKept_finish h (keepsIdle_unlessRefused fun _ => keepsIdle_of_usbSide (requestPacket_post s _ _))
  case drvInitialize | drvShutdown => exact idleKept_mainStep h fun _ => keepsIdle_ok (.refl s)
  case bootEvaluate => exact idleKept_mainStep h fun _ => keepsIdle_ite (evaluate_keepsIdle s)
  case bootUpdatemode =>
    refine idleKept_mainStep h fun hidle => keepsIdle_ok (.ofIdle hidle ?_)
    split
    · exact updateModeStep_idle hidle
    · exact hidle
  case bootLaunch => exact idleKept_mainStep h fun _ => keepsIdle_ite (launch_keepsIdle s)
  case bootSysreset => exact idleKept_mainStep h fun hidle => keepsIdle_ok (.ofIdle hidle rfl)

/-- Settles O14: of the moves an operation can make (`exec_dispatcherMove`) only the entry leaves IDLE, and only the exit of the
status read and the hardware resets return to it. -/
theorem dispatcherEntryAndReturn : Obligations.DispatcherEntryAndReturn := by
  intro i s t hinv h
  refine ⟨fun hidle hbusy => ?leaves, fun hbusy hidle => ?returns⟩
  case leaves =>
    cases exec_dispatcherMove hinv i h with
    | kept hkept => exact absurd (hkept.2 hidle) hbusy
    | entered hop hline hread => exact ⟨hop, hline, hread⟩
    | returned _ hturn _ => exact absurd (hturn.symm.trans hidle) nofun
    | reset _ hreset => exact absurd hreset hbusy
  case returns =>
    cases exec_dispatcherMove hinv i h with
    | kept hkept => exact absurd (hkept.1 hidle) hbusy
    | entered _ _ hread => exact absurd (hread.symm.trans hidle) nofun
    | returned hop hturn hunflagged => exact .inl ⟨hop, hturn, hunflagged⟩
    | reset hop _ => exact .inr hop

end EveryOperation

end Sys2Proof.Machine
end
